-- ==== Sys2Proof/Word.lean ====
section
/-! DEFINITION. The bit-vector types of the FPU and of its host (spec 00_scope.md R10, 10_state.md R30). -/

namespace Sys2Proof

/-- One byte of memory or of an instruction. -/
abbrev Byte := BitVec 8

/-- A status, control or tag word, a segment selector, a 16-bit field of an image. -/
abbrev Word16 := BitVec 16

/-- A host register or an offset. -/
abbrev Word32 := BitVec 32

/-- An extended-real register value (40_numerics.md R172). -/
abbrev Ext := BitVec 80

/-- Selector (bits 47:32) and offset (bits 31:0): the FIP and FDP registers and the host's pc
(10_state.md R75, 92_eei_decisions.md D2). -/
abbrev FarPtr := BitVec 48

/-- The number of an `ST(i)` operand or of a physical data register. -/
abbrev Idx := BitVec 3

end Sys2Proof
end

