-- ==== Sys2Proof/Config.lean ====
section
/-! DEFINITION. The free values of the model: what the spec calls `draw` (00_scope.md R14), the open
parameters of 92_eei_decisions.md section 5 and the unknown functions of 45_transcendental.md R421. Every one is an
opaque constant, so a statement about it holds for every value. A `draw` is applied to the counter
`State.draws`, which every executed instruction advances (DESIGN CHOICE, safe: log 6). -/

namespace Sys2Proof

/-- The four rounding modes of the RC field (10_state.md R58). -/
inductive RoundMode
  | nearest
  | down
  | up
  | zero
  deriving DecidableEq, Repr

/-- The functions whose results the spec bounds but does not determine (45_transcendental.md R421). -/
inductive TranscFn
  | sin
  | cos
  | tan
  | atan2
  | ylog2x
  | ylog2xp1
  | exp2m1
  deriving DecidableEq, Repr

namespace Config

/-- Condition code C0 after an instruction that leaves it undefined (10_state.md R42, U1). -/
opaque undefC0 : Nat → Bool

/-- Condition code C1 after an instruction that leaves it undefined (10_state.md R42, U1, U8). -/
opaque undefC1 : Nat → Bool

/-- Condition code C2 after an instruction that leaves it undefined (10_state.md R42, U1). -/
opaque undefC2 : Nat → Bool

/-- Condition code C3 after an instruction that leaves it undefined (10_state.md R42, U1). -/
opaque undefC3 : Nat → Bool

/-- FDP after a non-control instruction without a memory operand (10_state.md R77, U3). -/
opaque undefFdp : Nat → FarPtr

/-- What FBLD pushes for an operand with a digit above 9 (40_numerics.md R224, U4). -/
opaque undefBcdLoad : Nat → Ext

/-- Bytes 0 to 7 of a stored packed-decimal indefinite (40_numerics.md R190, U5). -/
opaque undefBcdIndefinite : Nat → BitVec 64

/-- The bits of the reserved fields of an image, as one number (20_memory.md R113, R114). -/
opaque undefReserved : Nat → Nat

/-- The pointer bits that an image does not carry: of FIP (`false`) and of FDP (`true`)
(20_memory.md R118). -/
opaque undefPointer : Nat → Bool → FarPtr

/-- FOP after a load from an image that does not carry it (20_memory.md R118). -/
opaque undefFop : Nat → BitVec 11

/-- Which of two NaNs with equal significands is the result (40_numerics.md R205). -/
opaque undefNanChoice : Nat → Bool

/-- What FIDIV writes where its rounded quotient is 2^16384, which no extended value is and for which it signals no #O
(43_basic_arithmetic.md R327, R344; log 35). -/
opaque undefQuotient : Nat → Ext

/-- The result of F2XM1 or FYL2XP1 outside its domain (45_transcendental.md R436, R437, U15). -/
opaque undefResult : Nat → Ext

/-- Whether FERR# is asserted at once (`true`) or deferred to the freeze (60_exceptions.md R554, U9). -/
opaque ferrImmediate : Nat → Bool

/-- The FERR# pin in native mode while an exception is pending, which the source does not describe
(60_exceptions.md R554). -/
opaque ferrNative : Nat → Bool

/-- `PREM_STEP - 32`: FPREM and FPREM1 retire 32 to 63 quotient bits in a partial step
(43_basic_arithmetic.md R362). -/
opaque premStepOffset : BitVec 5

/-- Whether a transcendental function has stepped up to a magnitude `mant * 2 ^ quantum` by the time its operands
are the given ones; a function of the operands and of RC, not of the counter; once (`true`) for the extended-real
results and once for those that an unmasked underflow biases (R422). With it the model chooses among the
results within the error bound, monotonically (45_transcendental.md R421 b, c and d; log 21). -/
opaque transcStep : Bool → TranscFn → RoundMode → Ext → Ext → Nat → Int → Bool

/-- C1 of a transcendental result that is closer to the true value than the model's enclosure can
tell (45_transcendental.md R422, U14). -/
opaque transcUp : TranscFn → Ext → Ext → RoundMode → Bool

/-- The host's address-size attribute after reset: 16 bits, the family's (PRESUMED, unsafe: log 2). -/
def resetAddrSize32 : Bool := false

/-- The host's operand-size attribute after reset: 16 bits, the family's (PRESUMED, unsafe: log 2). -/
def resetOpSize32 : Bool := false

end Config

end Sys2Proof
end

