-- ==== Sys2Proof/Syntax.lean ====
section
/-! DEFINITION. The instructions: one constructor of `Instr` per row of spec/opcode_table.json. Every constructor
carries the prefixes that stand before its first opcode byte; a memory form carries its addressing mode
(30_encoding.md R136), an `ST(i)` form its stack index (R137). -/

namespace Sys2Proof

/-- The host's 32-bit general registers, in the order of their numbers (30_encoding.md R136). -/
inductive Gpr
  | eax
  | ecx
  | edx
  | ebx
  | esp
  | ebp
  | esi
  | edi
  deriving DecidableEq, Repr

/-- The host's segment registers (30_encoding.md R136, R140). -/
inductive SegReg
  | es
  | cs
  | ss
  | ds
  | fs
  | gs
  deriving DecidableEq, Repr

/-- The prefixes that may stand before an FPU instruction (30_encoding.md R140). -/
inductive Prefix
  /-- 66H: toggles the operand-size attribute. -/
  | opSize
  /-- 67H: toggles the address-size attribute. -/
  | addrSize
  /-- 26H, 2EH, 36H, 3EH, 64H, 65H: replaces the default segment by the one named. Which byte names which segment the
  spec does not say; the model takes the family's order (PRESUMED: log 34, `Prefix.byte`). -/
  | seg (r : SegReg)
  /-- F2H: no defined meaning on an ESC instruction, so no well-formed one has it; WAIT may. -/
  | repne
  /-- F3H: as F2H. -/
  | rep
  deriving DecidableEq, Repr

/-- The prefixes of one instruction, in the order of their addresses. -/
abbrev Prefixes := List Prefix

/-- A displacement: absent, 8 bits sign-extended, or of the full address size `w` (30_encoding.md R136). -/
inductive Disp (w : Nat)
  | none
  | short (d : BitVec 8)
  | full (d : BitVec w)
  deriving DecidableEq, Repr

/-- The base of a 16-bit addressing mode, in the order of the `rm` field (30_encoding.md R136). -/
inductive Base16
  | bxsi
  | bxdi
  | bpsi
  | bpdi
  | si
  | di
  | bp
  | bx
  deriving DecidableEq, Repr

/-- The addressing modes of 30_encoding.md R136. -/
inductive AddrMode
  /-- `mod = 00, rm = 101`: disp32 alone. -/
  | abs32 (d : Word32)
  /-- A base register other than ESP, with a displacement. -/
  | reg32 (base : Gpr) (d : Disp 32)
  /-- A SIB byte with a base register; no index is the code 100B. -/
  | sib32 (base : Gpr) (index : Option Gpr) (scale : BitVec 2) (d : Disp 32)
  /-- A SIB byte with `base = 101B` under `mod = 00B`: disp32 and no base. -/
  | sibAbs32 (index : Option Gpr) (scale : BitVec 2) (d : Word32)
  /-- 16-bit addressing, `mod = 00, rm = 110`: disp16 alone. -/
  | abs16 (d : Word16)
  /-- 16-bit addressing with base and index registers. -/
  | reg16 (base : Base16) (d : Disp 16)
  deriving DecidableEq, Repr

/-- The instructions of spec/opcode_table.json, one constructor per row. -/
inductive Instr
  /-- FADD m32real, `D8 /0`; R330. -/
  | faddM32real (p : Prefixes) (m : AddrMode)
  /-- FMUL m32real, `D8 /1`; R339. -/
  | fmulM32real (p : Prefixes) (m : AddrMode)
  /-- FCOM m32real, `D8 /2`; R384. -/
  | fcomM32real (p : Prefixes) (m : AddrMode)
  /-- FCOMP m32real, `D8 /3`; R385. -/
  | fcompM32real (p : Prefixes) (m : AddrMode)
  /-- FSUB m32real, `D8 /4`; R333. -/
  | fsubM32real (p : Prefixes) (m : AddrMode)
  /-- FSUBR m32real, `D8 /5`; R336. -/
  | fsubrM32real (p : Prefixes) (m : AddrMode)
  /-- FDIV m32real, `D8 /6`; R342. -/
  | fdivM32real (p : Prefixes) (m : AddrMode)
  /-- FDIVR m32real, `D8 /7`; R345. -/
  | fdivrM32real (p : Prefixes) (m : AddrMode)
  /-- FADD m64real, `DC /0`; R330. -/
  | faddM64real (p : Prefixes) (m : AddrMode)
  /-- FMUL m64real, `DC /1`; R339. -/
  | fmulM64real (p : Prefixes) (m : AddrMode)
  /-- FCOM m64real, `DC /2`; R384. -/
  | fcomM64real (p : Prefixes) (m : AddrMode)
  /-- FCOMP m64real, `DC /3`; R385. -/
  | fcompM64real (p : Prefixes) (m : AddrMode)
  /-- FSUB m64real, `DC /4`; R333. -/
  | fsubM64real (p : Prefixes) (m : AddrMode)
  /-- FSUBR m64real, `DC /5`; R336. -/
  | fsubrM64real (p : Prefixes) (m : AddrMode)
  /-- FDIV m64real, `DC /6`; R342. -/
  | fdivM64real (p : Prefixes) (m : AddrMode)
  /-- FDIVR m64real, `DC /7`; R345. -/
  | fdivrM64real (p : Prefixes) (m : AddrMode)
  /-- FIADD m32int, `DA /0`; R332. -/
  | fiaddM32int (p : Prefixes) (m : AddrMode)
  /-- FIMUL m32int, `DA /1`; R341. -/
  | fimulM32int (p : Prefixes) (m : AddrMode)
  /-- FICOM m32int, `DA /2`; R390. -/
  | ficomM32int (p : Prefixes) (m : AddrMode)
  /-- FICOMP m32int, `DA /3`; R391. -/
  | ficompM32int (p : Prefixes) (m : AddrMode)
  /-- FISUB m32int, `DA /4`; R335. -/
  | fisubM32int (p : Prefixes) (m : AddrMode)
  /-- FISUBR m32int, `DA /5`; R338. -/
  | fisubrM32int (p : Prefixes) (m : AddrMode)
  /-- FIDIV m32int, `DA /6`; R344. -/
  | fidivM32int (p : Prefixes) (m : AddrMode)
  /-- FIDIVR m32int, `DA /7`; R347. -/
  | fidivrM32int (p : Prefixes) (m : AddrMode)
  /-- FIADD m16int, `DE /0`; R332. -/
  | fiaddM16int (p : Prefixes) (m : AddrMode)
  /-- FIMUL m16int, `DE /1`; R341. -/
  | fimulM16int (p : Prefixes) (m : AddrMode)
  /-- FICOM m16int, `DE /2`; R390. -/
  | ficomM16int (p : Prefixes) (m : AddrMode)
  /-- FICOMP m16int, `DE /3`; R391. -/
  | ficompM16int (p : Prefixes) (m : AddrMode)
  /-- FISUB m16int, `DE /4`; R335. -/
  | fisubM16int (p : Prefixes) (m : AddrMode)
  /-- FISUBR m16int, `DE /5`; R338. -/
  | fisubrM16int (p : Prefixes) (m : AddrMode)
  /-- FIDIV m16int, `DE /6`; R344. -/
  | fidivM16int (p : Prefixes) (m : AddrMode)
  /-- FIDIVR m16int, `DE /7`; R347. -/
  | fidivrM16int (p : Prefixes) (m : AddrMode)
  /-- FLD m32real, `D9 /0`; R261. -/
  | fldM32real (p : Prefixes) (m : AddrMode)
  /-- FST m32real, `D9 /2`; R264. -/
  | fstM32real (p : Prefixes) (m : AddrMode)
  /-- FSTP m32real, `D9 /3`; R266. -/
  | fstpM32real (p : Prefixes) (m : AddrMode)
  /-- FLDENV m14/28byte, `D9 /4`; R484. -/
  | fldenv (p : Prefixes) (m : AddrMode)
  /-- FLDCW m2byte, `D9 /5`; R464. -/
  | fldcw (p : Prefixes) (m : AddrMode)
  /-- FNSTENV m14/28byte, `D9 /6`; R480. -/
  | fnstenv (p : Prefixes) (m : AddrMode)
  /-- FNSTCW m2byte, `D9 /7`; R465. -/
  | fnstcw (p : Prefixes) (m : AddrMode)
  /-- FILD m32int, `DB /0`; R269. -/
  | fildM32int (p : Prefixes) (m : AddrMode)
  /-- FIST m32int, `DB /2`; R270. -/
  | fistM32int (p : Prefixes) (m : AddrMode)
  /-- FISTP m32int, `DB /3`; R271. -/
  | fistpM32int (p : Prefixes) (m : AddrMode)
  /-- FLD m80real, `DB /5`; R262. -/
  | fldM80real (p : Prefixes) (m : AddrMode)
  /-- FSTP m80real, `DB /7`; R267. -/
  | fstpM80real (p : Prefixes) (m : AddrMode)
  /-- FLD m64real, `DD /0`; R261. -/
  | fldM64real (p : Prefixes) (m : AddrMode)
  /-- FST m64real, `DD /2`; R264. -/
  | fstM64real (p : Prefixes) (m : AddrMode)
  /-- FSTP m64real, `DD /3`; R266. -/
  | fstpM64real (p : Prefixes) (m : AddrMode)
  /-- FRSTOR m94/108byte, `DD /4`; R490. -/
  | frstor (p : Prefixes) (m : AddrMode)
  /-- FNSAVE m94/108byte, `DD /6`; R486. -/
  | fnsave (p : Prefixes) (m : AddrMode)
  /-- FNSTSW m2byte, `DD /7`; R467. -/
  | fnstswM2byte (p : Prefixes) (m : AddrMode)
  /-- FILD m16int, `DF /0`; R269. -/
  | fildM16int (p : Prefixes) (m : AddrMode)
  /-- FIST m16int, `DF /2`; R270. -/
  | fistM16int (p : Prefixes) (m : AddrMode)
  /-- FISTP m16int, `DF /3`; R271. -/
  | fistpM16int (p : Prefixes) (m : AddrMode)
  /-- FBLD m80bcd, `DF /4`; R272. -/
  | fbld (p : Prefixes) (m : AddrMode)
  /-- FILD m64int, `DF /5`; R269. -/
  | fildM64int (p : Prefixes) (m : AddrMode)
  /-- FBSTP m80bcd, `DF /6`; R273. -/
  | fbstp (p : Prefixes) (m : AddrMode)
  /-- FISTP m64int, `DF /7`; R271. -/
  | fistpM64int (p : Prefixes) (m : AddrMode)
  /-- FADD ST(0), ST(i), `D8 C0+i`; R330. -/
  | faddSt0Sti (p : Prefixes) (i : Idx)
  /-- FMUL ST(0), ST(i), `D8 C8+i`; R339. -/
  | fmulSt0Sti (p : Prefixes) (i : Idx)
  /-- FCOM ST(i), `D8 D0+i`; R384. -/
  | fcomSti (p : Prefixes) (i : Idx)
  /-- FCOMP ST(i), `D8 D8+i`; R385. -/
  | fcompSti (p : Prefixes) (i : Idx)
  /-- FSUB ST(0), ST(i), `D8 E0+i`; R333. -/
  | fsubSt0Sti (p : Prefixes) (i : Idx)
  /-- FSUBR ST(0), ST(i), `D8 E8+i`; R336. -/
  | fsubrSt0Sti (p : Prefixes) (i : Idx)
  /-- FDIV ST(0), ST(i), `D8 F0+i`; R342. -/
  | fdivSt0Sti (p : Prefixes) (i : Idx)
  /-- FDIVR ST(0), ST(i), `D8 F8+i`; R345. -/
  | fdivrSt0Sti (p : Prefixes) (i : Idx)
  /-- FLD ST(i), `D9 C0+i`; R263. -/
  | fldSti (p : Prefixes) (i : Idx)
  /-- FXCH ST(i), `D9 C8+i`; R274. -/
  | fxch (p : Prefixes) (i : Idx)
  /-- FNOP, `D9 D0`; R502. -/
  | fnop (p : Prefixes)
  /-- FCHS, `D9 E0`; R351. -/
  | fchs (p : Prefixes)
  /-- FABS, `D9 E1`; R350. -/
  | fabs (p : Prefixes)
  /-- FTST, `D9 E4`; R396. -/
  | ftst (p : Prefixes)
  /-- FXAM, `D9 E5`; R397. -/
  | fxam (p : Prefixes)
  /-- FLD1, `D9 E8`; R304. -/
  | fld1 (p : Prefixes)
  /-- FLDL2T, `D9 E9`; R306. -/
  | fldl2t (p : Prefixes)
  /-- FLDL2E, `D9 EA`; R307. -/
  | fldl2e (p : Prefixes)
  /-- FLDPI, `D9 EB`; R305. -/
  | fldpi (p : Prefixes)
  /-- FLDLG2, `D9 EC`; R308. -/
  | fldlg2 (p : Prefixes)
  /-- FLDLN2, `D9 ED`; R309. -/
  | fldln2 (p : Prefixes)
  /-- FLDZ, `D9 EE`; R303. -/
  | fldz (p : Prefixes)
  /-- F2XM1, `D9 F0`; R437. -/
  | f2xm1 (p : Prefixes)
  /-- FYL2X, `D9 F1`; R435. -/
  | fyl2x (p : Prefixes)
  /-- FPTAN, `D9 F2`; R433. -/
  | fptan (p : Prefixes)
  /-- FPATAN, `D9 F3`; R434. -/
  | fpatan (p : Prefixes)
  /-- FXTRACT, `D9 F4`; R366. -/
  | fxtract (p : Prefixes)
  /-- FPREM1, `D9 F5`; R361. -/
  | fprem1 (p : Prefixes)
  /-- FDECSTP, `D9 F6`; R496. -/
  | fdecstp (p : Prefixes)
  /-- FINCSTP, `D9 F7`; R495. -/
  | fincstp (p : Prefixes)
  /-- FPREM, `D9 F8`; R360. -/
  | fprem (p : Prefixes)
  /-- FYL2XP1, `D9 F9`; R436. -/
  | fyl2xp1 (p : Prefixes)
  /-- FSQRT, `D9 FA`; R352. -/
  | fsqrt (p : Prefixes)
  /-- FSINCOS, `D9 FB`; R432. -/
  | fsincos (p : Prefixes)
  /-- FRNDINT, `D9 FC`; R365. -/
  | frndint (p : Prefixes)
  /-- FSCALE, `D9 FD`; R438. -/
  | fscale (p : Prefixes)
  /-- FSIN, `D9 FE`; R430. -/
  | fsin (p : Prefixes)
  /-- FCOS, `D9 FF`; R431. -/
  | fcos (p : Prefixes)
  /-- FCMOVB ST(0), ST(i), `DA C0+i`; R276. -/
  | fcmovb (p : Prefixes) (i : Idx)
  /-- FCMOVE ST(0), ST(i), `DA C8+i`; R278. -/
  | fcmove (p : Prefixes) (i : Idx)
  /-- FCMOVBE ST(0), ST(i), `DA D0+i`; R280. -/
  | fcmovbe (p : Prefixes) (i : Idx)
  /-- FCMOVU ST(0), ST(i), `DA D8+i`; R282. -/
  | fcmovu (p : Prefixes) (i : Idx)
  /-- FUCOMPP, `DA E9`; R389. -/
  | fucompp (p : Prefixes)
  /-- FCMOVNB ST(0), ST(i), `DB C0+i`; R277. -/
  | fcmovnb (p : Prefixes) (i : Idx)
  /-- FCMOVNE ST(0), ST(i), `DB C8+i`; R279. -/
  | fcmovne (p : Prefixes) (i : Idx)
  /-- FCMOVNBE ST(0), ST(i), `DB D0+i`; R281. -/
  | fcmovnbe (p : Prefixes) (i : Idx)
  /-- FCMOVNU ST(0), ST(i), `DB D8+i`; R283. -/
  | fcmovnu (p : Prefixes) (i : Idx)
  /-- FENI, `DB E0`; R513. -/
  | feni (p : Prefixes)
  /-- FDISI, `DB E1`; R514. -/
  | fdisi (p : Prefixes)
  /-- FNCLEX, `DB E2`; R470. -/
  | fnclex (p : Prefixes)
  /-- FNINIT, `DB E3`; R462. -/
  | fninit (p : Prefixes)
  /-- FSETPM, `DB E4`; R515. -/
  | fsetpm (p : Prefixes)
  /-- FUCOMI ST(0), ST(i), `DB E8+i`; R394. -/
  | fucomi (p : Prefixes) (i : Idx)
  /-- FCOMI ST(0), ST(i), `DB F0+i`; R392. -/
  | fcomi (p : Prefixes) (i : Idx)
  /-- FADD ST(i), ST(0), `DC C0+i`; R330. -/
  | faddStiSt0 (p : Prefixes) (i : Idx)
  /-- FMUL ST(i), ST(0), `DC C8+i`; R339. -/
  | fmulStiSt0 (p : Prefixes) (i : Idx)
  /-- FSUBR ST(i), ST(0), `DC E0+i`; R336. -/
  | fsubrStiSt0 (p : Prefixes) (i : Idx)
  /-- FSUB ST(i), ST(0), `DC E8+i`; R333. -/
  | fsubStiSt0 (p : Prefixes) (i : Idx)
  /-- FDIVR ST(i), ST(0), `DC F0+i`; R345. -/
  | fdivrStiSt0 (p : Prefixes) (i : Idx)
  /-- FDIV ST(i), ST(0), `DC F8+i`; R342. -/
  | fdivStiSt0 (p : Prefixes) (i : Idx)
  /-- FFREE ST(i), `DD C0+i`; R500. -/
  | ffree (p : Prefixes) (i : Idx)
  /-- FST ST(i), `DD D0+i`; R265. -/
  | fstSti (p : Prefixes) (i : Idx)
  /-- FSTP ST(i), `DD D8+i`; R268. -/
  | fstpSti (p : Prefixes) (i : Idx)
  /-- FUCOM ST(i), `DD E0+i`; R387. -/
  | fucom (p : Prefixes) (i : Idx)
  /-- FUCOMP ST(i), `DD E8+i`; R388. -/
  | fucomp (p : Prefixes) (i : Idx)
  /-- FADDP ST(i), ST(0), `DE C0+i`; R331. -/
  | faddp (p : Prefixes) (i : Idx)
  /-- FMULP ST(i), ST(0), `DE C8+i`; R340. -/
  | fmulp (p : Prefixes) (i : Idx)
  /-- FCOMPP, `DE D9`; R386. -/
  | fcompp (p : Prefixes)
  /-- FSUBRP ST(i), ST(0), `DE E0+i`; R337. -/
  | fsubrp (p : Prefixes) (i : Idx)
  /-- FSUBP ST(i), ST(0), `DE E8+i`; R334. -/
  | fsubp (p : Prefixes) (i : Idx)
  /-- FDIVRP ST(i), ST(0), `DE F0+i`; R346. -/
  | fdivrp (p : Prefixes) (i : Idx)
  /-- FDIVP ST(i), ST(0), `DE F8+i`; R343. -/
  | fdivp (p : Prefixes) (i : Idx)
  /-- FNSTSW AX, `DF E0`; R468. -/
  | fnstswAx (p : Prefixes)
  /-- FUCOMIP ST(0), ST(i), `DF E8+i`; R395. -/
  | fucomip (p : Prefixes) (i : Idx)
  /-- FCOMIP ST(0), ST(i), `DF F0+i`; R393. -/
  | fcomip (p : Prefixes) (i : Idx)
  /-- WAIT/FWAIT, `9B`; R505. -/
  | wait (p : Prefixes)
  /-- FINIT, `9B DB E3`; R463. -/
  | finit (p : Prefixes)
  /-- FCLEX, `9B DB E2`; R471. -/
  | fclex (p : Prefixes)
  /-- FSTCW m2byte, `9B D9 /7`; R466. -/
  | fstcw (p : Prefixes) (m : AddrMode)
  /-- FSTSW m2byte, `9B DD /7`; R469. -/
  | fstswM2byte (p : Prefixes) (m : AddrMode)
  /-- FSTSW AX, `9B DF E0`; R469. -/
  | fstswAx (p : Prefixes)
  /-- FSTENV m14/28byte, `9B D9 /6`; R481. -/
  | fstenv (p : Prefixes) (m : AddrMode)
  /-- FSAVE m94/108byte, `9B DD /6`; R487. -/
  | fsave (p : Prefixes) (m : AddrMode)
  deriving DecidableEq, Repr

end Sys2Proof
end

