-- ==== Sys2Proof/WellFormed.lean ====
section
/-! DEFINITION. Well-formed instructions: those that some sequence of bytes encodes under the host's address-size
attribute (30_encoding.md R131, R136, R140, R141). -/

namespace Sys2Proof

/-- The number of bytes of a displacement of `w` bits (30_encoding.md R136). -/
def Disp.bytes {w : Nat} : Disp w → Nat
  | .none => 0
  | .short _ => 1
  | .full _ => w / 8

/-- A 32-bit mode, as against a 16-bit one (30_encoding.md R136). -/
def AddrMode.is32 : AddrMode → Bool
  | .abs32 _ => true
  | .reg32 _ _ => true
  | .sib32 _ _ _ _ => true
  | .sibAbs32 _ _ _ => true
  | .abs16 _ => false
  | .reg16 _ _ => false

/-- The bytes after the second opcode byte: SIB and displacement (30_encoding.md R131, R136). -/
def AddrMode.extraBytes : AddrMode → Nat
  | .abs32 _ => 4
  | .reg32 _ d => d.bytes
  | .sib32 _ _ _ d => 1 + d.bytes
  | .sibAbs32 _ _ _ => 5
  | .abs16 _ => 2
  | .reg16 _ d => d.bytes

/-- The modes that the tables of 30_encoding.md R136 can express: `rm = 100B` is the SIB form, so ESP is no plain
base; base 101B without displacement is disp32 alone; index 100B is no index; BP without displacement is disp16
alone. -/
def AddrMode.wf : AddrMode → Bool
  | .abs32 _ => true
  | .reg32 b d => b != .esp && !(b == .ebp && d == .none)
  | .sib32 b i _ d => i != some .esp && !(b == .ebp && d == .none)
  | .sibAbs32 i _ _ => i != some .esp
  | .abs16 _ => true
  | .reg16 b d => !(b == .bp && d == .none)

/-- The address size of an instruction: the host's attribute, toggled by a prefix 67H (30_encoding.md R140). -/
def Prefixes.addr32 (a32 : Bool) (p : Prefixes) : Bool :=
  a32 != p.contains .addrSize

/-- The parts that decide whether an instruction is well-formed: its prefixes, its memory operand and the number of
its opcode bytes, a leading 9BH included (30_encoding.md R131, R138). -/
structure Parts where
  prefixes : Prefixes
  operand : Option AddrMode
  opcodeBytes : Nat
  deriving DecidableEq, Repr

/-- The parts of each instruction. -/
def Instr.parts : Instr → Parts
  | .faddM32real p m => ⟨p, some m, 2⟩
  | .fmulM32real p m => ⟨p, some m, 2⟩
  | .fcomM32real p m => ⟨p, some m, 2⟩
  | .fcompM32real p m => ⟨p, some m, 2⟩
  | .fsubM32real p m => ⟨p, some m, 2⟩
  | .fsubrM32real p m => ⟨p, some m, 2⟩
  | .fdivM32real p m => ⟨p, some m, 2⟩
  | .fdivrM32real p m => ⟨p, some m, 2⟩
  | .faddM64real p m => ⟨p, some m, 2⟩
  | .fmulM64real p m => ⟨p, some m, 2⟩
  | .fcomM64real p m => ⟨p, some m, 2⟩
  | .fcompM64real p m => ⟨p, some m, 2⟩
  | .fsubM64real p m => ⟨p, some m, 2⟩
  | .fsubrM64real p m => ⟨p, some m, 2⟩
  | .fdivM64real p m => ⟨p, some m, 2⟩
  | .fdivrM64real p m => ⟨p, some m, 2⟩
  | .fiaddM32int p m => ⟨p, some m, 2⟩
  | .fimulM32int p m => ⟨p, some m, 2⟩
  | .ficomM32int p m => ⟨p, some m, 2⟩
  | .ficompM32int p m => ⟨p, some m, 2⟩
  | .fisubM32int p m => ⟨p, some m, 2⟩
  | .fisubrM32int p m => ⟨p, some m, 2⟩
  | .fidivM32int p m => ⟨p, some m, 2⟩
  | .fidivrM32int p m => ⟨p, some m, 2⟩
  | .fiaddM16int p m => ⟨p, some m, 2⟩
  | .fimulM16int p m => ⟨p, some m, 2⟩
  | .ficomM16int p m => ⟨p, some m, 2⟩
  | .ficompM16int p m => ⟨p, some m, 2⟩
  | .fisubM16int p m => ⟨p, some m, 2⟩
  | .fisubrM16int p m => ⟨p, some m, 2⟩
  | .fidivM16int p m => ⟨p, some m, 2⟩
  | .fidivrM16int p m => ⟨p, some m, 2⟩
  | .fldM32real p m => ⟨p, some m, 2⟩
  | .fstM32real p m => ⟨p, some m, 2⟩
  | .fstpM32real p m => ⟨p, some m, 2⟩
  | .fldenv p m => ⟨p, some m, 2⟩
  | .fldcw p m => ⟨p, some m, 2⟩
  | .fnstenv p m => ⟨p, some m, 2⟩
  | .fnstcw p m => ⟨p, some m, 2⟩
  | .fildM32int p m => ⟨p, some m, 2⟩
  | .fistM32int p m => ⟨p, some m, 2⟩
  | .fistpM32int p m => ⟨p, some m, 2⟩
  | .fldM80real p m => ⟨p, some m, 2⟩
  | .fstpM80real p m => ⟨p, some m, 2⟩
  | .fldM64real p m => ⟨p, some m, 2⟩
  | .fstM64real p m => ⟨p, some m, 2⟩
  | .fstpM64real p m => ⟨p, some m, 2⟩
  | .frstor p m => ⟨p, some m, 2⟩
  | .fnsave p m => ⟨p, some m, 2⟩
  | .fnstswM2byte p m => ⟨p, some m, 2⟩
  | .fildM16int p m => ⟨p, some m, 2⟩
  | .fistM16int p m => ⟨p, some m, 2⟩
  | .fistpM16int p m => ⟨p, some m, 2⟩
  | .fbld p m => ⟨p, some m, 2⟩
  | .fildM64int p m => ⟨p, some m, 2⟩
  | .fbstp p m => ⟨p, some m, 2⟩
  | .fistpM64int p m => ⟨p, some m, 2⟩
  | .faddSt0Sti p _ => ⟨p, none, 2⟩
  | .fmulSt0Sti p _ => ⟨p, none, 2⟩
  | .fcomSti p _ => ⟨p, none, 2⟩
  | .fcompSti p _ => ⟨p, none, 2⟩
  | .fsubSt0Sti p _ => ⟨p, none, 2⟩
  | .fsubrSt0Sti p _ => ⟨p, none, 2⟩
  | .fdivSt0Sti p _ => ⟨p, none, 2⟩
  | .fdivrSt0Sti p _ => ⟨p, none, 2⟩
  | .fldSti p _ => ⟨p, none, 2⟩
  | .fxch p _ => ⟨p, none, 2⟩
  | .fnop p => ⟨p, none, 2⟩
  | .fchs p => ⟨p, none, 2⟩
  | .fabs p => ⟨p, none, 2⟩
  | .ftst p => ⟨p, none, 2⟩
  | .fxam p => ⟨p, none, 2⟩
  | .fld1 p => ⟨p, none, 2⟩
  | .fldl2t p => ⟨p, none, 2⟩
  | .fldl2e p => ⟨p, none, 2⟩
  | .fldpi p => ⟨p, none, 2⟩
  | .fldlg2 p => ⟨p, none, 2⟩
  | .fldln2 p => ⟨p, none, 2⟩
  | .fldz p => ⟨p, none, 2⟩
  | .f2xm1 p => ⟨p, none, 2⟩
  | .fyl2x p => ⟨p, none, 2⟩
  | .fptan p => ⟨p, none, 2⟩
  | .fpatan p => ⟨p, none, 2⟩
  | .fxtract p => ⟨p, none, 2⟩
  | .fprem1 p => ⟨p, none, 2⟩
  | .fdecstp p => ⟨p, none, 2⟩
  | .fincstp p => ⟨p, none, 2⟩
  | .fprem p => ⟨p, none, 2⟩
  | .fyl2xp1 p => ⟨p, none, 2⟩
  | .fsqrt p => ⟨p, none, 2⟩
  | .fsincos p => ⟨p, none, 2⟩
  | .frndint p => ⟨p, none, 2⟩
  | .fscale p => ⟨p, none, 2⟩
  | .fsin p => ⟨p, none, 2⟩
  | .fcos p => ⟨p, none, 2⟩
  | .fcmovb p _ => ⟨p, none, 2⟩
  | .fcmove p _ => ⟨p, none, 2⟩
  | .fcmovbe p _ => ⟨p, none, 2⟩
  | .fcmovu p _ => ⟨p, none, 2⟩
  | .fucompp p => ⟨p, none, 2⟩
  | .fcmovnb p _ => ⟨p, none, 2⟩
  | .fcmovne p _ => ⟨p, none, 2⟩
  | .fcmovnbe p _ => ⟨p, none, 2⟩
  | .fcmovnu p _ => ⟨p, none, 2⟩
  | .feni p => ⟨p, none, 2⟩
  | .fdisi p => ⟨p, none, 2⟩
  | .fnclex p => ⟨p, none, 2⟩
  | .fninit p => ⟨p, none, 2⟩
  | .fsetpm p => ⟨p, none, 2⟩
  | .fucomi p _ => ⟨p, none, 2⟩
  | .fcomi p _ => ⟨p, none, 2⟩
  | .faddStiSt0 p _ => ⟨p, none, 2⟩
  | .fmulStiSt0 p _ => ⟨p, none, 2⟩
  | .fsubrStiSt0 p _ => ⟨p, none, 2⟩
  | .fsubStiSt0 p _ => ⟨p, none, 2⟩
  | .fdivrStiSt0 p _ => ⟨p, none, 2⟩
  | .fdivStiSt0 p _ => ⟨p, none, 2⟩
  | .ffree p _ => ⟨p, none, 2⟩
  | .fstSti p _ => ⟨p, none, 2⟩
  | .fstpSti p _ => ⟨p, none, 2⟩
  | .fucom p _ => ⟨p, none, 2⟩
  | .fucomp p _ => ⟨p, none, 2⟩
  | .faddp p _ => ⟨p, none, 2⟩
  | .fmulp p _ => ⟨p, none, 2⟩
  | .fcompp p => ⟨p, none, 2⟩
  | .fsubrp p _ => ⟨p, none, 2⟩
  | .fsubp p _ => ⟨p, none, 2⟩
  | .fdivrp p _ => ⟨p, none, 2⟩
  | .fdivp p _ => ⟨p, none, 2⟩
  | .fnstswAx p => ⟨p, none, 2⟩
  | .fucomip p _ => ⟨p, none, 2⟩
  | .fcomip p _ => ⟨p, none, 2⟩
  | .wait p => ⟨p, none, 1⟩
  | .finit p => ⟨p, none, 3⟩
  | .fclex p => ⟨p, none, 3⟩
  | .fstcw p m => ⟨p, some m, 3⟩
  | .fstswM2byte p m => ⟨p, some m, 3⟩
  | .fstswAx p => ⟨p, none, 3⟩
  | .fstenv p m => ⟨p, some m, 3⟩
  | .fsave p m => ⟨p, some m, 3⟩

/-- F2H or F3H among the prefixes (30_encoding.md R140). -/
def Prefixes.repeats (p : Prefixes) : Bool := p.contains .repne || p.contains .rep

/-- F2H and F3H have no defined meaning on an ESC instruction; before the one byte of WAIT they are skipped
(30_encoding.md R140, R141). -/
def Parts.prefixesWf (q : Parts) : Bool := q.opcodeBytes == 1 || !q.prefixes.repeats

/-- The memory operand can be written, in the address size the prefixes select (30_encoding.md R136, R140). -/
def Parts.operandWf (a32 : Bool) (q : Parts) : Bool :=
  match q.operand with
  | some m => m.wf && m.is32 == q.prefixes.addr32 a32
  | none => true

/-- Well-formed under the address-size attribute `a32`: the prefixes are allowed and the operand can be written. Any
number of prefixes may stand before the opcode (30_encoding.md R131, R141). -/
def Instr.wf (a32 : Bool) (i : Instr) : Bool := i.parts.prefixesWf && i.parts.operandWf a32

end Sys2Proof
end

