-- ==== Sys2Proof/Decode.lean ====
section
/-! DEFINITION. The decoder and, after it, the encoder, both from the tables of 30_encoding.md. -/

namespace Sys2Proof

/-- Why bytes are not decoded. -/
inductive DecodeError
  /-- The bytes end before the instruction does. -/
  | truncated
  /-- A reserved encoding (30_encoding.md R142). -/
  | reserved
  /-- No FPU instruction: the first byte after the prefixes is neither an ESC byte nor 9BH. -/
  | hostInstruction
  /-- LOCK before an FPU instruction, the given one (30_encoding.md R140). -/
  | lockPrefix (i : Instr)
  /-- F2H or F3H before an ESC instruction: no defined meaning (30_encoding.md R140). -/
  | repPrefix
  deriving DecidableEq, Repr

/-- The first opcode byte with opcode part A (30_encoding.md R132). -/
def escByte (opA : BitVec 3) : Byte := 0b11011#5 ++ opA

/-- The second opcode byte (30_encoding.md R133); also the layout of a SIB byte (R136). -/
def modRm (mod : BitVec 2) (reg rm : BitVec 3) : Byte := mod ++ reg ++ rm

/-- Bits 7:6: `mod`, or the scale of a SIB byte. -/
def modOf (b : Byte) : BitVec 2 := b.extractLsb' 6 2

/-- Bits 5:3: `reg`, or the index of a SIB byte. -/
def regOf (b : Byte) : BitVec 3 := b.extractLsb' 3 3

/-- Bits 2:0: `rm`, or the base of a SIB byte. -/
def rmOf (b : Byte) : BitVec 3 := b.extractLsb' 0 3

/-- The code of a general register (30_encoding.md R136). -/
def Gpr.code : Gpr → BitVec 3
  | .eax => 0
  | .ecx => 1
  | .edx => 2
  | .ebx => 3
  | .esp => 4
  | .ebp => 5
  | .esi => 6
  | .edi => 7

/-- The general register with a code (30_encoding.md R136). -/
def Gpr.ofCode (c : BitVec 3) : Gpr :=
  match c.toNat with
  | 0 => .eax
  | 1 => .ecx
  | 2 => .edx
  | 3 => .ebx
  | 4 => .esp
  | 5 => .ebp
  | 6 => .esi
  | _ => .edi

/-- The `rm` code of a 16-bit base (30_encoding.md R136). -/
def Base16.code : Base16 → BitVec 3
  | .bxsi => 0
  | .bxdi => 1
  | .bpsi => 2
  | .bpdi => 3
  | .si => 4
  | .di => 5
  | .bp => 6
  | .bx => 7

/-- The 16-bit base with an `rm` code (30_encoding.md R136). -/
def Base16.ofCode (c : BitVec 3) : Base16 :=
  match c.toNat with
  | 0 => .bxsi
  | 1 => .bxdi
  | 2 => .bpsi
  | 3 => .bpdi
  | 4 => .si
  | 5 => .di
  | 6 => .bp
  | _ => .bx

/-- The byte of a prefix (30_encoding.md R140). Which segment register each of the six override bytes names is the
model's choice, the family's: 26H ES, 2EH CS, 36H SS, 3EH DS, 64H FS, 65H GS (PRESUMED: log 34). -/
def Prefix.byte : Prefix → Byte
  | .opSize => 0x66
  | .addrSize => 0x67
  | .seg .es => 0x26
  | .seg .cs => 0x2E
  | .seg .ss => 0x36
  | .seg .ds => 0x3E
  | .seg .fs => 0x64
  | .seg .gs => 0x65
  | .repne => 0xF2
  | .rep => 0xF3

/-- The prefix with a byte (30_encoding.md R140); the segments of the override bytes are the model's choice
(PRESUMED: log 34). LOCK, F0H, is none of them: no instruction may have it. -/
def Prefix.ofByte (b : Byte) : Option Prefix :=
  if b = 0x66 then some .opSize
  else if b = 0x67 then some .addrSize
  else if b = 0x26 then some (.seg .es)
  else if b = 0x2E then some (.seg .cs)
  else if b = 0x36 then some (.seg .ss)
  else if b = 0x3E then some (.seg .ds)
  else if b = 0x64 then some (.seg .fs)
  else if b = 0x65 then some (.seg .gs)
  else if b = 0xF2 then some .repne
  else if b = 0xF3 then some .rep
  else none

/-- What stands before the first opcode byte: prefixes, and whether LOCK is among them. -/
structure Leading where
  prefixes : Prefixes
  lock : Bool
  rest : List Byte
  deriving DecidableEq, Repr

/-- Skip the prefixes (30_encoding.md R141). -/
def takePrefixes : List Byte → Leading
  | [] => ⟨[], false, []⟩
  | b :: r =>
    match Prefix.ofByte b with
    | some x => let l := takePrefixes r; { l with prefixes := x :: l.prefixes }
    | none =>
      if b = 0xF0 then let l := takePrefixes r; { l with lock := true }
      else ⟨[], false, b :: r⟩

/-- A little-endian 16-bit displacement (20_memory.md R100). -/
def take16 : List Byte → Option (Word16 × List Byte)
  | a :: b :: r => some (b ++ a, r)
  | _ => none

/-- A little-endian 32-bit displacement (20_memory.md R100). -/
def take32 : List Byte → Option (Word32 × List Byte)
  | a :: b :: c :: d :: r => some (d ++ c ++ b ++ a, r)
  | _ => none

/-- The displacement that `mod` announces, of the full size that `full` reads (30_encoding.md R136). -/
def takeDisp {w : Nat} (full : List Byte → Option (BitVec w × List Byte)) (mod : BitVec 2) (bs : List Byte) :
    Option (Disp w × List Byte) :=
  match mod.toNat with
  | 0 => some (.none, bs)
  | 1 => match bs with
    | d :: r => some (.short d, r)
    | [] => none
  | _ => (full bs).map fun x => (.full x.1, x.2)

/-- The index register of a SIB byte: none for the code 100B (30_encoding.md R136). -/
def indexOf (c : BitVec 3) : Option Gpr :=
  if c = 4 then none else some (Gpr.ofCode c)

/-- The operand of a 32-bit memory form (30_encoding.md R136). -/
def takeAddr32 (b2 : Byte) (bs : List Byte) : Option (AddrMode × List Byte) :=
  if rmOf b2 = 4 then
    match bs with
    | [] => none
    | sib :: r =>
      if rmOf sib = 5 ∧ modOf b2 = 0 then
        (take32 r).map fun x => (.sibAbs32 (indexOf (regOf sib)) (modOf sib) x.1, x.2)
      else
        (takeDisp take32 (modOf b2) r).map fun x =>
          (.sib32 (Gpr.ofCode (rmOf sib)) (indexOf (regOf sib)) (modOf sib) x.1, x.2)
  else if rmOf b2 = 5 ∧ modOf b2 = 0 then
    (take32 bs).map fun x => (.abs32 x.1, x.2)
  else
    (takeDisp take32 (modOf b2) bs).map fun x => (.reg32 (Gpr.ofCode (rmOf b2)) x.1, x.2)

/-- The operand of a 16-bit memory form (30_encoding.md R136). -/
def takeAddr16 (b2 : Byte) (bs : List Byte) : Option (AddrMode × List Byte) :=
  if rmOf b2 = 6 ∧ modOf b2 = 0 then
    (take16 bs).map fun x => (.abs16 x.1, x.2)
  else
    (takeDisp take16 (modOf b2) bs).map fun x => (.reg16 (Base16.ofCode (rmOf b2)) x.1, x.2)

/-- The operand of a memory form. -/
def takeAddr (addr32 : Bool) (b2 : Byte) (bs : List Byte) : Option (AddrMode × List Byte) :=
  if addr32 then takeAddr32 b2 bs else takeAddr16 b2 bs

/-- The memory forms, by `opA` and `reg` (30_encoding.md R134). -/
def memForm (opA reg : BitVec 3) (p : Prefixes) (m : AddrMode) : Option Instr :=
  match opA.toNat, reg.toNat with
  | 0, 0 => some (.faddM32real p m)
  | 0, 1 => some (.fmulM32real p m)
  | 0, 2 => some (.fcomM32real p m)
  | 0, 3 => some (.fcompM32real p m)
  | 0, 4 => some (.fsubM32real p m)
  | 0, 5 => some (.fsubrM32real p m)
  | 0, 6 => some (.fdivM32real p m)
  | 0, 7 => some (.fdivrM32real p m)
  | 4, 0 => some (.faddM64real p m)
  | 4, 1 => some (.fmulM64real p m)
  | 4, 2 => some (.fcomM64real p m)
  | 4, 3 => some (.fcompM64real p m)
  | 4, 4 => some (.fsubM64real p m)
  | 4, 5 => some (.fsubrM64real p m)
  | 4, 6 => some (.fdivM64real p m)
  | 4, 7 => some (.fdivrM64real p m)
  | 2, 0 => some (.fiaddM32int p m)
  | 2, 1 => some (.fimulM32int p m)
  | 2, 2 => some (.ficomM32int p m)
  | 2, 3 => some (.ficompM32int p m)
  | 2, 4 => some (.fisubM32int p m)
  | 2, 5 => some (.fisubrM32int p m)
  | 2, 6 => some (.fidivM32int p m)
  | 2, 7 => some (.fidivrM32int p m)
  | 6, 0 => some (.fiaddM16int p m)
  | 6, 1 => some (.fimulM16int p m)
  | 6, 2 => some (.ficomM16int p m)
  | 6, 3 => some (.ficompM16int p m)
  | 6, 4 => some (.fisubM16int p m)
  | 6, 5 => some (.fisubrM16int p m)
  | 6, 6 => some (.fidivM16int p m)
  | 6, 7 => some (.fidivrM16int p m)
  | 1, 0 => some (.fldM32real p m)
  | 1, 2 => some (.fstM32real p m)
  | 1, 3 => some (.fstpM32real p m)
  | 1, 4 => some (.fldenv p m)
  | 1, 5 => some (.fldcw p m)
  | 1, 6 => some (.fnstenv p m)
  | 1, 7 => some (.fnstcw p m)
  | 3, 0 => some (.fildM32int p m)
  | 3, 2 => some (.fistM32int p m)
  | 3, 3 => some (.fistpM32int p m)
  | 3, 5 => some (.fldM80real p m)
  | 3, 7 => some (.fstpM80real p m)
  | 5, 0 => some (.fldM64real p m)
  | 5, 2 => some (.fstM64real p m)
  | 5, 3 => some (.fstpM64real p m)
  | 5, 4 => some (.frstor p m)
  | 5, 6 => some (.fnsave p m)
  | 5, 7 => some (.fnstswM2byte p m)
  | 7, 0 => some (.fildM16int p m)
  | 7, 2 => some (.fistM16int p m)
  | 7, 3 => some (.fistpM16int p m)
  | 7, 4 => some (.fbld p m)
  | 7, 5 => some (.fildM64int p m)
  | 7, 6 => some (.fbstp p m)
  | 7, 7 => some (.fistpM64int p m)
  | _, _ => none

/-- The register forms with a stack index, by `opA` and `reg` (30_encoding.md R135). -/
def stackForm (opA reg : BitVec 3) (p : Prefixes) (i : Idx) : Option Instr :=
  match opA.toNat, reg.toNat with
  | 0, 0 => some (.faddSt0Sti p i)
  | 0, 1 => some (.fmulSt0Sti p i)
  | 0, 2 => some (.fcomSti p i)
  | 0, 3 => some (.fcompSti p i)
  | 0, 4 => some (.fsubSt0Sti p i)
  | 0, 5 => some (.fsubrSt0Sti p i)
  | 0, 6 => some (.fdivSt0Sti p i)
  | 0, 7 => some (.fdivrSt0Sti p i)
  | 1, 0 => some (.fldSti p i)
  | 1, 1 => some (.fxch p i)
  | 2, 0 => some (.fcmovb p i)
  | 2, 1 => some (.fcmove p i)
  | 2, 2 => some (.fcmovbe p i)
  | 2, 3 => some (.fcmovu p i)
  | 3, 0 => some (.fcmovnb p i)
  | 3, 1 => some (.fcmovne p i)
  | 3, 2 => some (.fcmovnbe p i)
  | 3, 3 => some (.fcmovnu p i)
  | 3, 5 => some (.fucomi p i)
  | 3, 6 => some (.fcomi p i)
  | 4, 0 => some (.faddStiSt0 p i)
  | 4, 1 => some (.fmulStiSt0 p i)
  | 4, 4 => some (.fsubrStiSt0 p i)
  | 4, 5 => some (.fsubStiSt0 p i)
  | 4, 6 => some (.fdivrStiSt0 p i)
  | 4, 7 => some (.fdivStiSt0 p i)
  | 5, 0 => some (.ffree p i)
  | 5, 2 => some (.fstSti p i)
  | 5, 3 => some (.fstpSti p i)
  | 5, 4 => some (.fucom p i)
  | 5, 5 => some (.fucomp p i)
  | 6, 0 => some (.faddp p i)
  | 6, 1 => some (.fmulp p i)
  | 6, 4 => some (.fsubrp p i)
  | 6, 5 => some (.fsubp p i)
  | 6, 6 => some (.fdivrp p i)
  | 6, 7 => some (.fdivp p i)
  | 7, 5 => some (.fucomip p i)
  | 7, 6 => some (.fcomip p i)
  | _, _ => none

/-- The register forms without a stack index, by `opA`, `reg` and `rm` (30_encoding.md R135). -/
def plainForm (opA reg rm : BitVec 3) (p : Prefixes) : Option Instr :=
  match opA.toNat, reg.toNat, rm.toNat with
  | 1, 2, 0 => some (.fnop p)
  | 1, 4, 0 => some (.fchs p)
  | 1, 4, 1 => some (.fabs p)
  | 1, 4, 4 => some (.ftst p)
  | 1, 4, 5 => some (.fxam p)
  | 1, 5, 0 => some (.fld1 p)
  | 1, 5, 1 => some (.fldl2t p)
  | 1, 5, 2 => some (.fldl2e p)
  | 1, 5, 3 => some (.fldpi p)
  | 1, 5, 4 => some (.fldlg2 p)
  | 1, 5, 5 => some (.fldln2 p)
  | 1, 5, 6 => some (.fldz p)
  | 1, 6, 0 => some (.f2xm1 p)
  | 1, 6, 1 => some (.fyl2x p)
  | 1, 6, 2 => some (.fptan p)
  | 1, 6, 3 => some (.fpatan p)
  | 1, 6, 4 => some (.fxtract p)
  | 1, 6, 5 => some (.fprem1 p)
  | 1, 6, 6 => some (.fdecstp p)
  | 1, 6, 7 => some (.fincstp p)
  | 1, 7, 0 => some (.fprem p)
  | 1, 7, 1 => some (.fyl2xp1 p)
  | 1, 7, 2 => some (.fsqrt p)
  | 1, 7, 3 => some (.fsincos p)
  | 1, 7, 4 => some (.frndint p)
  | 1, 7, 5 => some (.fscale p)
  | 1, 7, 6 => some (.fsin p)
  | 1, 7, 7 => some (.fcos p)
  | 2, 5, 1 => some (.fucompp p)
  | 3, 4, 0 => some (.feni p)
  | 3, 4, 1 => some (.fdisi p)
  | 3, 4, 2 => some (.fnclex p)
  | 3, 4, 3 => some (.fninit p)
  | 3, 4, 4 => some (.fsetpm p)
  | 6, 3, 1 => some (.fcompp p)
  | 7, 4, 0 => some (.fnstswAx p)
  | _, _, _ => none

/-- The register forms (30_encoding.md R135). -/
def regForm (opA reg rm : BitVec 3) (p : Prefixes) : Option Instr :=
  match stackForm opA reg p rm with
  | some i => some i
  | none => plainForm opA reg rm p

/-- The waiting version of a non-waiting instruction, which 9BH before it makes (30_encoding.md R138). -/
def waitMemForm (opA reg : BitVec 3) (p : Prefixes) (m : AddrMode) : Option Instr :=
  match opA.toNat, reg.toNat with
  | 1, 7 => some (.fstcw p m)
  | 5, 7 => some (.fstswM2byte p m)
  | 1, 6 => some (.fstenv p m)
  | 5, 6 => some (.fsave p m)
  | _, _ => none

/-- The waiting versions without a memory operand (30_encoding.md R138). -/
def waitRegForm (opA reg rm : BitVec 3) (p : Prefixes) : Option Instr :=
  match opA.toNat, reg.toNat, rm.toNat with
  | 3, 4, 3 => some (.finit p)
  | 3, 4, 2 => some (.fclex p)
  | 7, 4, 0 => some (.fstswAx p)
  | _, _, _ => none

/-- Is the byte the first opcode byte of an ESC instruction (30_encoding.md R130)? -/
def isEsc (b : Byte) : Bool := b.extractLsb' 3 5 = 0b11011#5

/-- An ESC instruction from its first opcode byte on; `mem` and `reg` are the opcode tables. -/
def decodeEsc (mem : BitVec 3 → BitVec 3 → Prefixes → AddrMode → Option Instr)
    (reg : BitVec 3 → BitVec 3 → BitVec 3 → Prefixes → Option Instr)
    (a32 : Bool) (p : Prefixes) (b1 : Byte) (bs : List Byte) : Except DecodeError (Instr × List Byte) :=
  match bs with
  | [] => .error .truncated
  | b2 :: r =>
    if modOf b2 = 3 then
      match reg (rmOf b1) (regOf b2) (rmOf b2) p with
      | some i => .ok (i, r)
      | none => .error .reserved
    else
      match takeAddr (p.addr32 a32) b2 r with
      | none => .error .truncated
      | some (m, r') =>
        match mem (rmOf b1) (regOf b2) p m with
        | some i => .ok (i, r')
        | none => .error .reserved

/-- The waiting instruction that the bytes after 9BH complete, if they do (30_encoding.md R138; log 11). -/
def decodeWaiting (a32 : Bool) (bs : List Byte) : Option (Instr × List Byte) :=
  let l := takePrefixes bs
  match l.rest with
  | [] => none
  | b1 :: r =>
    if isEsc b1 && !l.lock && !l.prefixes.repeats then (decodeEsc waitMemForm waitRegForm a32 l.prefixes b1 r).toOption
    else none

/-- An instruction whose prefixes are not allowed on it: LOCK on any, F2H and F3H on an ESC instruction
(30_encoding.md R140); LOCK is looked at first (DESIGN CHOICE: log 10). -/
def allowPrefixes (l : Leading) (r : Instr × List Byte) : Except DecodeError (Instr × List Byte) :=
  if l.lock then .error (.lockPrefix r.1)
  else if !r.1.parts.prefixesWf then .error .repPrefix
  else .ok r

/-- One instruction and the bytes after it, under the address-size attribute `a32`: skip the prefixes, look the opcode up
(a reserved one has no meaning, whatever stands before it), then see whether the prefixes are allowed
(30_encoding.md R140 to R142). -/
def decode (a32 : Bool) (bs : List Byte) : Except DecodeError (Instr × List Byte) :=
  let l := takePrefixes bs
  match l.rest with
  | [] => .error .truncated
  | b1 :: r =>
    if isEsc b1 then (decodeEsc memForm regForm a32 l.prefixes b1 r).bind (allowPrefixes l)
    else if b1 = 0x9B then
      allowPrefixes l (if l.prefixes = [] then (decodeWaiting a32 r).getD (.wait [], r) else (.wait l.prefixes, r))
    else .error .hostInstruction

/-! ### The encoder -/

/-- An instruction as the opcode tables see it. -/
inductive Shape
  /-- An ESC memory form: `opA`, `reg`. -/
  | mem (opA reg : BitVec 3) (p : Prefixes) (m : AddrMode)
  /-- An ESC register form: `opA`, `reg`, `rm`. -/
  | reg (opA reg rm : BitVec 3) (p : Prefixes)
  /-- The byte 9BH. -/
  | wait (p : Prefixes)
  /-- 9BH before an ESC memory form. -/
  | waitMem (opA reg : BitVec 3) (p : Prefixes) (m : AddrMode)
  /-- 9BH before an ESC register form. -/
  | waitReg (opA reg rm : BitVec 3) (p : Prefixes)
  deriving DecidableEq, Repr

/-- The opcode tables read from the instruction to the bytes (30_encoding.md R134, R135, R138). -/
def Instr.shape : Instr → Shape
  | .faddM32real p m => .mem 0 0 p m
  | .fmulM32real p m => .mem 0 1 p m
  | .fcomM32real p m => .mem 0 2 p m
  | .fcompM32real p m => .mem 0 3 p m
  | .fsubM32real p m => .mem 0 4 p m
  | .fsubrM32real p m => .mem 0 5 p m
  | .fdivM32real p m => .mem 0 6 p m
  | .fdivrM32real p m => .mem 0 7 p m
  | .faddM64real p m => .mem 4 0 p m
  | .fmulM64real p m => .mem 4 1 p m
  | .fcomM64real p m => .mem 4 2 p m
  | .fcompM64real p m => .mem 4 3 p m
  | .fsubM64real p m => .mem 4 4 p m
  | .fsubrM64real p m => .mem 4 5 p m
  | .fdivM64real p m => .mem 4 6 p m
  | .fdivrM64real p m => .mem 4 7 p m
  | .fiaddM32int p m => .mem 2 0 p m
  | .fimulM32int p m => .mem 2 1 p m
  | .ficomM32int p m => .mem 2 2 p m
  | .ficompM32int p m => .mem 2 3 p m
  | .fisubM32int p m => .mem 2 4 p m
  | .fisubrM32int p m => .mem 2 5 p m
  | .fidivM32int p m => .mem 2 6 p m
  | .fidivrM32int p m => .mem 2 7 p m
  | .fiaddM16int p m => .mem 6 0 p m
  | .fimulM16int p m => .mem 6 1 p m
  | .ficomM16int p m => .mem 6 2 p m
  | .ficompM16int p m => .mem 6 3 p m
  | .fisubM16int p m => .mem 6 4 p m
  | .fisubrM16int p m => .mem 6 5 p m
  | .fidivM16int p m => .mem 6 6 p m
  | .fidivrM16int p m => .mem 6 7 p m
  | .fldM32real p m => .mem 1 0 p m
  | .fstM32real p m => .mem 1 2 p m
  | .fstpM32real p m => .mem 1 3 p m
  | .fldenv p m => .mem 1 4 p m
  | .fldcw p m => .mem 1 5 p m
  | .fnstenv p m => .mem 1 6 p m
  | .fnstcw p m => .mem 1 7 p m
  | .fildM32int p m => .mem 3 0 p m
  | .fistM32int p m => .mem 3 2 p m
  | .fistpM32int p m => .mem 3 3 p m
  | .fldM80real p m => .mem 3 5 p m
  | .fstpM80real p m => .mem 3 7 p m
  | .fldM64real p m => .mem 5 0 p m
  | .fstM64real p m => .mem 5 2 p m
  | .fstpM64real p m => .mem 5 3 p m
  | .frstor p m => .mem 5 4 p m
  | .fnsave p m => .mem 5 6 p m
  | .fnstswM2byte p m => .mem 5 7 p m
  | .fildM16int p m => .mem 7 0 p m
  | .fistM16int p m => .mem 7 2 p m
  | .fistpM16int p m => .mem 7 3 p m
  | .fbld p m => .mem 7 4 p m
  | .fildM64int p m => .mem 7 5 p m
  | .fbstp p m => .mem 7 6 p m
  | .fistpM64int p m => .mem 7 7 p m
  | .faddSt0Sti p i => .reg 0 0 i p
  | .fmulSt0Sti p i => .reg 0 1 i p
  | .fcomSti p i => .reg 0 2 i p
  | .fcompSti p i => .reg 0 3 i p
  | .fsubSt0Sti p i => .reg 0 4 i p
  | .fsubrSt0Sti p i => .reg 0 5 i p
  | .fdivSt0Sti p i => .reg 0 6 i p
  | .fdivrSt0Sti p i => .reg 0 7 i p
  | .fldSti p i => .reg 1 0 i p
  | .fxch p i => .reg 1 1 i p
  | .fnop p => .reg 1 2 0 p
  | .fchs p => .reg 1 4 0 p
  | .fabs p => .reg 1 4 1 p
  | .ftst p => .reg 1 4 4 p
  | .fxam p => .reg 1 4 5 p
  | .fld1 p => .reg 1 5 0 p
  | .fldl2t p => .reg 1 5 1 p
  | .fldl2e p => .reg 1 5 2 p
  | .fldpi p => .reg 1 5 3 p
  | .fldlg2 p => .reg 1 5 4 p
  | .fldln2 p => .reg 1 5 5 p
  | .fldz p => .reg 1 5 6 p
  | .f2xm1 p => .reg 1 6 0 p
  | .fyl2x p => .reg 1 6 1 p
  | .fptan p => .reg 1 6 2 p
  | .fpatan p => .reg 1 6 3 p
  | .fxtract p => .reg 1 6 4 p
  | .fprem1 p => .reg 1 6 5 p
  | .fdecstp p => .reg 1 6 6 p
  | .fincstp p => .reg 1 6 7 p
  | .fprem p => .reg 1 7 0 p
  | .fyl2xp1 p => .reg 1 7 1 p
  | .fsqrt p => .reg 1 7 2 p
  | .fsincos p => .reg 1 7 3 p
  | .frndint p => .reg 1 7 4 p
  | .fscale p => .reg 1 7 5 p
  | .fsin p => .reg 1 7 6 p
  | .fcos p => .reg 1 7 7 p
  | .fcmovb p i => .reg 2 0 i p
  | .fcmove p i => .reg 2 1 i p
  | .fcmovbe p i => .reg 2 2 i p
  | .fcmovu p i => .reg 2 3 i p
  | .fucompp p => .reg 2 5 1 p
  | .fcmovnb p i => .reg 3 0 i p
  | .fcmovne p i => .reg 3 1 i p
  | .fcmovnbe p i => .reg 3 2 i p
  | .fcmovnu p i => .reg 3 3 i p
  | .feni p => .reg 3 4 0 p
  | .fdisi p => .reg 3 4 1 p
  | .fnclex p => .reg 3 4 2 p
  | .fninit p => .reg 3 4 3 p
  | .fsetpm p => .reg 3 4 4 p
  | .fucomi p i => .reg 3 5 i p
  | .fcomi p i => .reg 3 6 i p
  | .faddStiSt0 p i => .reg 4 0 i p
  | .fmulStiSt0 p i => .reg 4 1 i p
  | .fsubrStiSt0 p i => .reg 4 4 i p
  | .fsubStiSt0 p i => .reg 4 5 i p
  | .fdivrStiSt0 p i => .reg 4 6 i p
  | .fdivStiSt0 p i => .reg 4 7 i p
  | .ffree p i => .reg 5 0 i p
  | .fstSti p i => .reg 5 2 i p
  | .fstpSti p i => .reg 5 3 i p
  | .fucom p i => .reg 5 4 i p
  | .fucomp p i => .reg 5 5 i p
  | .faddp p i => .reg 6 0 i p
  | .fmulp p i => .reg 6 1 i p
  | .fcompp p => .reg 6 3 1 p
  | .fsubrp p i => .reg 6 4 i p
  | .fsubp p i => .reg 6 5 i p
  | .fdivrp p i => .reg 6 6 i p
  | .fdivp p i => .reg 6 7 i p
  | .fnstswAx p => .reg 7 4 0 p
  | .fucomip p i => .reg 7 5 i p
  | .fcomip p i => .reg 7 6 i p
  | .wait p => .wait p
  | .finit p => .waitReg 3 4 3 p
  | .fclex p => .waitReg 3 4 2 p
  | .fstcw p m => .waitMem 1 7 p m
  | .fstswM2byte p m => .waitMem 5 7 p m
  | .fstswAx p => .waitReg 7 4 0 p
  | .fstenv p m => .waitMem 1 6 p m
  | .fsave p m => .waitMem 5 6 p m

/-- The two bytes of a 16-bit displacement (20_memory.md R100). -/
def bytes16 (d : Word16) : List Byte := [d.extractLsb' 0 8, d.extractLsb' 8 8]

/-- The four bytes of a 32-bit displacement (20_memory.md R100). -/
def bytes32 (d : Word32) : List Byte :=
  [d.extractLsb' 0 8, d.extractLsb' 8 8, d.extractLsb' 16 8, d.extractLsb' 24 8]

/-- The `mod` field that announces a displacement (30_encoding.md R136). -/
def Disp.mod {w : Nat} : Disp w → BitVec 2
  | .none => 0
  | .short _ => 1
  | .full _ => 2

/-- The bytes of a displacement. -/
def Disp.encode {w : Nat} (full : BitVec w → List Byte) : Disp w → List Byte
  | .none => []
  | .short d => [d]
  | .full d => full d

/-- The index field of a SIB byte (30_encoding.md R136). -/
def indexCode : Option Gpr → BitVec 3
  | none => 4
  | some g => g.code

/-- The `mod` field of a memory form (30_encoding.md R136). -/
def AddrMode.mod : AddrMode → BitVec 2
  | .abs32 _ => 0
  | .reg32 _ d => d.mod
  | .sib32 _ _ _ d => d.mod
  | .sibAbs32 _ _ _ => 0
  | .abs16 _ => 0
  | .reg16 _ d => d.mod

/-- The `rm` field of a memory form (30_encoding.md R136). -/
def AddrMode.rm : AddrMode → BitVec 3
  | .abs32 _ => 5
  | .reg32 b _ => b.code
  | .sib32 _ _ _ _ => 4
  | .sibAbs32 _ _ _ => 4
  | .abs16 _ => 6
  | .reg16 b _ => b.code

/-- The SIB and displacement bytes of a memory form (30_encoding.md R136). -/
def AddrMode.tail : AddrMode → List Byte
  | .abs32 d => bytes32 d
  | .reg32 _ d => d.encode bytes32
  | .sib32 b i s d => modRm s (indexCode i) b.code :: d.encode bytes32
  | .sibAbs32 i s d => modRm s (indexCode i) 5 :: bytes32 d
  | .abs16 d => bytes16 d
  | .reg16 _ d => d.encode bytes16

/-- The bytes of the prefixes. -/
def Prefixes.encode (p : Prefixes) : List Byte := p.map Prefix.byte

/-- The bytes of a shape, in ascending address order (30_encoding.md R131). -/
def Shape.encode : Shape → List Byte
  | .mem a r p m => p.encode ++ escByte a :: modRm m.mod r m.rm :: m.tail
  | .reg a r n p => p.encode ++ [escByte a, modRm 3 r n]
  | .wait p => p.encode ++ [0x9B]
  | .waitMem a r p m => 0x9B :: (p.encode ++ escByte a :: modRm m.mod r m.rm :: m.tail)
  | .waitReg a r n p => 0x9B :: (p.encode ++ [escByte a, modRm 3 r n])

/-- The bytes of an instruction (30_encoding.md R131 to R138). -/
def encode (i : Instr) : List Byte := i.shape.encode

/-- The instruction length (30_encoding.md R131). -/
def Instr.length (i : Instr) : Nat := (encode i).length

/-- What the opcode register records: `opA` and the second opcode byte (10_state.md R80). -/
def Shape.fop : Shape → BitVec 11
  | .mem a r _ m => a ++ modRm m.mod r m.rm
  | .reg a r n _ => a ++ modRm 3 r n
  | .wait _ => 0
  | .waitMem a r _ m => a ++ modRm m.mod r m.rm
  | .waitReg a r n _ => a ++ modRm 3 r n

/-- The opcode register value of an instruction (10_state.md R80). -/
def Instr.fop (i : Instr) : BitVec 11 := i.shape.fop

/-! ### Words of the opcode table -/

/-- Byte `k` of a number, byte 0 the least significant. -/
def natByte (w k : Nat) : Byte := BitVec.ofNat 8 (w / 256 ^ k)

/-- The `n` low bytes of `w`, most significant first: the table writes an instruction as `b1 * 256 + b2`
(30_encoding.md R147). -/
def bytesDown (w : Nat) : Nat → List Byte
  | 0 => []
  | n + 1 => natByte w n :: bytesDown w n

/-- The two opcode bytes of a 16-bit table word, the first one in bits 15:8 (30_encoding.md R147); the other way round
where only bits 7:0 can be a first opcode byte. -/
def opcodePair (w : Nat) : List Byte :=
  if !isEsc (natByte w 1) && isEsc (natByte w 0) then [natByte w 0, natByte w 1] else [natByte w 1, natByte w 0]

/-- The bytes, in address order, of a table word of `nbits` bits (30_encoding.md R147; log 29): two opcode bytes,
or 9BH (at either end) and two opcode bytes, or the bytes from the most significant one down. -/
def tableBytes (nbits w : Nat) : List Byte :=
  match (nbits + 7) / 8 with
  | 2 => opcodePair w
  | 3 =>
    if natByte w 2 = 0x9B then 0x9B :: opcodePair w
    else if natByte w 0 = 0x9B then 0x9B :: opcodePair (w / 256)
    else bytesDown w 3
  | n => bytesDown w n

/-- More bytes than any row of the opcode table has with its operand bytes (30_encoding.md R131: 9BH, two opcode bytes,
SIB and disp32). -/
def tableLength : Nat := 15

/-- The bytes that stand for a word of the table: its own, followed by zeros. -/
def tableWindow (nbits w : Nat) : List Byte :=
  (tableBytes nbits w ++ List.replicate tableLength 0).take tableLength

/-- The instruction that the decoder reads from a word of the opcode table, under the address-size attribute after
reset (log 29). -/
def decodeTableWord (nbits w : Nat) : Option Instr :=
  match decode Config.resetAddrSize32 (tableWindow nbits w) with
  | .ok (i, _) => some i
  | .error _ => none

end Sys2Proof
end

