-- ==== Sys2Proof/Machine/Layout.lean ====
section
/-! DEFINITION. Where the fields of the FPU environment and of the FPU state stand in an image in memory: the parameter
`ENV_LAYOUT` (20_memory.md R112, 00_scope.md R7) and its default (R113 to R117). -/

namespace Sys2Proof.Machine

/-- The four image formats (20_memory.md R112). -/
inductive ImageFormat
  | p32
  | r32
  | p16
  | r16
  deriving DecidableEq, Repr

/-- A 32-bit format. -/
def ImageFormat.is32 : ImageFormat → Bool
  | .p32 => true
  | .r32 => true
  | .p16 => false
  | .r16 => false

/-- A real-address format, whose pointers are linear addresses (20_memory.md R114, R116). -/
def ImageFormat.isReal : ImageFormat → Bool
  | .p32 => false
  | .r32 => true
  | .p16 => false
  | .r16 => true

/-- The size of the environment image: 28 or 14 bytes (20_memory.md R112). -/
def ImageFormat.envBytes (f : ImageFormat) : Nat := if f.is32 then 28 else 14

/-- The size of the state image: 108 or 94 bytes (20_memory.md R112). -/
def ImageFormat.stateBytes (f : ImageFormat) : Nat := f.envBytes + 80

/-- The two images: that of FSTENV and FLDENV, and that of FSAVE and FRSTOR (20_memory.md R112). -/
inductive ImageKind
  | environment
  | state
  deriving DecidableEq, Repr

/-- The size of an image (20_memory.md R112). -/
def ImageFormat.bytes (f : ImageFormat) : ImageKind → Nat
  | .environment => f.envBytes
  | .state => f.stateBytes

/-- What stands in an image. -/
inductive EnvField
  /-- The control word. -/
  | control
  /-- The status word, B equal to ES (10_state.md R47). -/
  | status
  /-- The tag word. -/
  | tags
  /-- FIP, selector and offset. -/
  | fip
  /-- FDP, selector and offset. -/
  | fdp
  /-- `IPlin`, the linear address of FIP (20_memory.md R114). -/
  | ipLinear
  /-- `OPlin`, the linear address of FDP (20_memory.md R114). -/
  | opLinear
  /-- FOP. -/
  | opcode
  /-- ST(i), by the TOP of the status word in the image (20_memory.md R117). -/
  | register (i : Idx)
  /-- A reserved field: a draw in a store, ignored by a load (20_memory.md R113). -/
  | reserved
  /-- Bits that a store writes as 0. -/
  | zero
  deriving DecidableEq, Repr

/-- A run of `width` bits of a field from its bit `low` up. -/
structure EnvPiece where
  field : EnvField
  low : Nat
  width : Nat
  deriving DecidableEq, Repr

/-- The pieces of a format's two images, from bit 0 of the first byte up. -/
structure FormatLayout where
  environment : List EnvPiece
  state : List EnvPiece
  deriving DecidableEq, Repr

/-- `ENV_LAYOUT` (20_memory.md R112). -/
structure EnvLayout where
  p32 : FormatLayout
  r32 : FormatLayout
  p16 : FormatLayout
  r16 : FormatLayout
  deriving DecidableEq, Repr

/-- The layout of a format. -/
def EnvLayout.format (l : EnvLayout) : ImageFormat → FormatLayout
  | .p32 => l.p32
  | .r32 => l.r32
  | .p16 => l.p16
  | .r16 => l.r16

/-- The pieces of an image. -/
def EnvLayout.pieces (l : EnvLayout) (f : ImageFormat) : ImageKind → List EnvPiece
  | .environment => (l.format f).environment
  | .state => (l.format f).state

/-- ST(0) to ST(7), whole. -/
def registerPieces : List EnvPiece :=
  [⟨.register 0, 0, 80⟩, ⟨.register 1, 0, 80⟩, ⟨.register 2, 0, 80⟩, ⟨.register 3, 0, 80⟩, ⟨.register 4, 0, 80⟩,
    ⟨.register 5, 0, 80⟩, ⟨.register 6, 0, 80⟩, ⟨.register 7, 0, 80⟩]

/-- The environment image, and the state image that is the same and the eight registers after it
(20_memory.md R117). -/
def FormatLayout.ofEnvironment (l : List EnvPiece) : FormatLayout := ⟨l, l ++ registerPieces⟩

/-- The default layout, the tables of 20_memory.md R113 to R117 (the spec's general knowledge: log 12). -/
def EnvLayout.standard : EnvLayout where
  p32 := .ofEnvironment
    [⟨.control, 0, 16⟩, ⟨.reserved, 0, 16⟩, ⟨.status, 0, 16⟩, ⟨.reserved, 16, 16⟩, ⟨.tags, 0, 16⟩, ⟨.reserved, 32, 16⟩,
      ⟨.fip, 0, 32⟩, ⟨.fip, 32, 16⟩, ⟨.opcode, 0, 11⟩, ⟨.zero, 0, 5⟩, ⟨.fdp, 0, 32⟩, ⟨.fdp, 32, 16⟩,
      ⟨.reserved, 48, 16⟩]
  r32 := .ofEnvironment
    [⟨.control, 0, 16⟩, ⟨.reserved, 0, 16⟩, ⟨.status, 0, 16⟩, ⟨.reserved, 16, 16⟩, ⟨.tags, 0, 16⟩, ⟨.reserved, 32, 16⟩,
      ⟨.ipLinear, 0, 16⟩, ⟨.reserved, 48, 16⟩, ⟨.opcode, 0, 11⟩, ⟨.zero, 0, 1⟩, ⟨.ipLinear, 16, 16⟩, ⟨.zero, 1, 4⟩,
      ⟨.opLinear, 0, 16⟩, ⟨.reserved, 64, 16⟩, ⟨.zero, 5, 12⟩, ⟨.opLinear, 16, 16⟩, ⟨.zero, 17, 4⟩]
  p16 := .ofEnvironment
    [⟨.control, 0, 16⟩, ⟨.status, 0, 16⟩, ⟨.tags, 0, 16⟩, ⟨.fip, 0, 16⟩, ⟨.fip, 32, 16⟩, ⟨.fdp, 0, 16⟩,
      ⟨.fdp, 32, 16⟩]
  r16 := .ofEnvironment
    [⟨.control, 0, 16⟩, ⟨.status, 0, 16⟩, ⟨.tags, 0, 16⟩, ⟨.ipLinear, 0, 16⟩, ⟨.opcode, 0, 11⟩, ⟨.zero, 0, 1⟩,
      ⟨.ipLinear, 16, 4⟩, ⟨.opLinear, 0, 16⟩, ⟨.zero, 1, 12⟩, ⟨.opLinear, 16, 4⟩]

/-- The fields of the environment that a format carries (20_memory.md R113 to R116, R118). -/
def ImageFormat.environment (f : ImageFormat) : List EnvPiece :=
  [⟨.control, 0, 16⟩, ⟨.status, 0, 16⟩, ⟨.tags, 0, 16⟩] ++
    match f with
    | .p32 => [⟨.fip, 0, 48⟩, ⟨.fdp, 0, 48⟩, ⟨.opcode, 0, 11⟩]
    | .r32 => [⟨.ipLinear, 0, 32⟩, ⟨.opLinear, 0, 32⟩, ⟨.opcode, 0, 11⟩]
    | .p16 => [⟨.fip, 0, 16⟩, ⟨.fip, 32, 16⟩, ⟨.fdp, 0, 16⟩, ⟨.fdp, 32, 16⟩]
    | .r16 => [⟨.ipLinear, 0, 20⟩, ⟨.opLinear, 0, 20⟩, ⟨.opcode, 0, 11⟩]

/-- The fields that an image carries: those of the environment, and in the state image the registers
(20_memory.md R112, R117). -/
def ImageFormat.carries (f : ImageFormat) : ImageKind → List EnvPiece
  | .environment => f.environment
  | .state => f.environment ++ registerPieces

/-- The fields that are register contents. -/
def EnvField.contents : List EnvField :=
  [.control, .status, .tags, .fip, .fdp, .ipLinear, .opLinear, .opcode] ++ registerPieces.map EnvPiece.field

/-- Which bits of a field stand among some pieces, as a mask. -/
def fieldMask : List EnvPiece → EnvField → Nat
  | [], _ => 0
  | p :: r, f => if p.field = f then ((2 ^ p.width - 1) <<< p.low) ||| fieldMask r f else fieldMask r f

/-- The number of bits of some pieces. -/
def totalWidth : List EnvPiece → Nat
  | [] => 0
  | p :: r => p.width + totalWidth r

/-- An injective layout of the fields of an image (92_eei_decisions.md section 5): the image has its size and holds every
bit that it carries, and no other bit of a register. -/
def EnvLayout.injectiveIn (l : EnvLayout) (f : ImageFormat) (k : ImageKind) : Bool :=
  totalWidth (l.pieces f k) == 8 * f.bytes k &&
    EnvField.contents.all fun x => fieldMask (l.pieces f k) x == fieldMask (f.carries k) x

/-- An injective layout of the fields of every image: what the parameter `ENV_LAYOUT` ranges over. -/
def EnvLayout.injective (l : EnvLayout) : Bool :=
  [ImageFormat.p32, .r32, .p16, .r16].all fun f => l.injectiveIn f .environment && l.injectiveIn f .state

end Sys2Proof.Machine
end

