-- ==== Sys2Proof/Machine/State.lean ====
section
/-! DEFINITION. The machine's state, the reasons a step can stop, and the state after reset. -/

namespace Sys2Proof.Machine

/-- The host's operating mode; it selects the image format only (20_memory.md R112). -/
inductive OpMode
  | protectedMode
  | realAddress
  | virtual8086
  | smm
  deriving DecidableEq, Repr

/-- The host events that FPU instructions raise (70_reset_and_hazards.md R615), each with the address it reports. -/
inductive HostEvent
  /-- `#MF`, vector 16: the return pointer addresses the waiting instruction (60_exceptions.md R552). -/
  | mf (ret : FarPtr)
  /-- A change of FERR# in the MS-DOS compatibility mode (60_exceptions.md R554). -/
  | ferr (asserted : Bool)
  /-- The processor freezes before the instruction (60_exceptions.md R555). -/
  | freeze (ret : FarPtr)
  /-- The external interrupt ends the freeze; its return pointer is the frozen instruction (60_exceptions.md R555). -/
  | interrupt (ret : FarPtr)
  /-- A host fault on a memory operand, taken instead of the instruction (20_memory.md R111). -/
  | operandFault (ret : FarPtr)
  /-- The host's invalid-opcode exception for LOCK before an FPU instruction (30_encoding.md R140). -/
  | invalidOpcode (ret : FarPtr)
  deriving DecidableEq, Repr

/-- The implementation parameters with a default (00_scope.md R7; log 13). -/
structure Params where
  /-- `HAS_FCMOV` (30_encoding.md R144). -/
  hasFcmov : Bool
  /-- `HAS_FCOMI` (30_encoding.md R144). -/
  hasFcomi : Bool
  /-- `PC_ON_INT_FORMS` (40_numerics.md R202). -/
  pcOnIntForms : Bool
  /-- `FST_SIGNALS_D` (40_numerics.md R225). -/
  fstSignalsD : Bool
  /-- `ENV_LAYOUT` (20_memory.md R112). -/
  envLayout : EnvLayout
  deriving DecidableEq, Repr

/-- Memory: the bytes that differ from what an unlisted address reads as, by rising address (log 4). -/
abbrev Memory := List Host.Cell

/-- The state of the FPU (10_state.md R30), of its host as far as FPU rules touch it (R85 to R88), and the model's
own counter `draws`. -/
structure State where
  /-- The physical data registers R[0] to R[7] (10_state.md R31). -/
  regs : Vector Ext 8
  /-- The status word as held; B is stored beside ES (10_state.md R40, R47). -/
  sw : Word16
  /-- The control word (10_state.md R55). -/
  cw : Word16
  /-- The tag word (10_state.md R65). -/
  tw : Word16
  /-- The FPU instruction pointer (10_state.md R75). -/
  fip : FarPtr
  /-- The FPU operand pointer (10_state.md R75). -/
  fdp : FarPtr
  /-- The FPU opcode register (10_state.md R80). -/
  fop : BitVec 11
  /-- The host's general registers, by `Gpr.index` (30_encoding.md R136, 10_state.md R85; log 5). -/
  gprs : Vector Word32 8
  /-- The host's segment selectors, by `SegReg.index` (30_encoding.md R136, R140). -/
  segs : Vector Word16 6
  /-- The offset of the host's pc; the selector is CS (10_state.md R86, 92_eei_decisions.md D2). -/
  eip : Word32
  /-- host.ZF (10_state.md R85). -/
  zf : Bool
  /-- host.PF (10_state.md R85). -/
  pf : Bool
  /-- host.CF (10_state.md R85). -/
  cf : Bool
  /-- CR0.NE (10_state.md R87). -/
  ne : Bool
  /-- The IGNNE# input is asserted (60_exceptions.md R556). -/
  ignne : Bool
  /-- The host's operating mode (20_memory.md R112). -/
  mode : OpMode
  /-- The operand-size attribute without a prefix: 32 bits (20_memory.md R112, 30_encoding.md R140). -/
  opSize32 : Bool
  /-- The address-size attribute without a prefix: 32 bits (30_encoding.md R136, R140). -/
  addrSize32 : Bool
  /-- An external interrupt is being delivered through INTR (60_exceptions.md R555). -/
  intr : Bool
  /-- Byte ranges (first address, length) at which the host faults an FPU operand (20_memory.md R111; log 24). -/
  denied : List (Nat × Nat)
  /-- The processor is frozen before the instruction at the pc (60_exceptions.md R555). -/
  frozen : Bool
  /-- FERR# has been asserted for the pending exception, in the MS-DOS compatibility mode (10_state.md R88 b). -/
  ferr : Bool
  /-- The host events raised so far, oldest first (70_reset_and_hazards.md R615). -/
  events : List HostEvent
  /-- The host's memory (20_memory.md R101). -/
  mem : Memory
  /-- The implementation parameters (00_scope.md R7). -/
  params : Params
  /-- The model's own: the number of instructions executed, the argument of every `draw` (00_scope.md R14; log 6). -/
  draws : Nat
  deriving DecidableEq, Repr

/-- Why the machine is stuck. -/
inductive Fault
  /-- Raised by `step` in a frozen state to which no external interrupt is delivered: the spec gives it no successor
  (60_exceptions.md R555). Safe: nothing can be proved of a next state. -/
  | frozen
  deriving DecidableEq, Repr

/-- Why the machine gives an instruction no meaning. -/
inductive Refusal
  /-- Raised by an arm of `exec` that has no meaning yet. Safe: nothing is claimed of the instruction. -/
  | notModelled (mnemonic : String)
  /-- Raised by `step` for a reserved encoding, which the spec tells a model to refuse (30_encoding.md R142). Safe. -/
  | reservedEncoding
  /-- Raised by `step` where the bytes at the pc are no FPU instruction: the host's own instructions are outside the
  scope (00_scope.md R6 a). Safe. -/
  | hostInstruction
  /-- Raised by `step` for F2H or F3H before an ESC instruction, which have no defined meaning there
  (30_encoding.md R140). Safe. -/
  | repPrefix
  /-- Raised by `step` where every address of the memory holds a prefix byte, so that no opcode ever comes
  (30_encoding.md R141 gives such bytes no length). Safe. -/
  | endlessPrefixes
  /-- Raised by an instruction whose result depends on the reserved precision control 01B
  (10_state.md R57, 40_numerics.md R202). Safe. -/
  | reservedPrecisionControl
  /-- Raised by FCMOVcc or the FCOMI family on a processor without them, where the encoding is reserved
  (30_encoding.md R144). Safe. -/
  | optionalAbsent
  deriving DecidableEq, Repr

/-- The answer of a step. -/
abbrev Result := Host.Outcome State Fault Refusal

/-- After a hardware reset. The spec leaves the FPU's state open (10_state.md R91); the values are those that
70_reset_and_hazards.md R591 gives for information, the family's (PRESUMED, unsafe: log 1); the host's values are
the family's or zero (PRESUMED and DESIGN CHOICE, unsafe: log 2); the parameters have the defaults of
00_scope.md R7. -/
def State.reset : State where
  regs := Vector.replicate 8 0
  sw := 0
  cw := 0x0040
  tw := 0x5555
  fip := 0
  fdp := 0
  fop := 0
  gprs := Vector.replicate 8 0
  segs := #v[0, 0xF000, 0, 0, 0, 0]
  eip := 0xFFF0
  zf := false
  pf := false
  cf := false
  ne := false
  ignne := false
  mode := .realAddress
  opSize32 := Config.resetOpSize32
  addrSize32 := Config.resetAddrSize32
  intr := false
  denied := []
  frozen := false
  ferr := false
  events := []
  mem := []
  params :=
    { hasFcmov := true, hasFcomi := true, pcOnIntForms := true, fstSignalsD := true, envLayout := EnvLayout.standard }
  draws := 0

end Sys2Proof.Machine
end

