-- ==== Sys2Proof/Machine/Flags.lean ====
section
/-! DEFINITION. The fields of the status, control and tag words (10_state.md R40 to R70), and the primitive
`signal #X` that every exception goes through (60_exceptions.md R522). -/

namespace Sys2Proof.Machine

/-- Replace the `len` bits of a word from bit `pos` up. -/
def putField (w : Word16) (pos len : Nat) (v : BitVec len) : Word16 :=
  (w &&& ~~~((BitVec.allOnes len).setWidth 16 <<< pos)) ||| (v.setWidth 16 <<< pos)

/-- Replace one bit of a word. -/
def putBit (w : Word16) (pos : Nat) (b : Bool) : Word16 := putField w pos 1 (BitVec.ofBool b)

/-- The six exception flags; a flag of the status word and its mask in the control word have the same number
(10_state.md R40, R55, R56). -/
inductive Exc
  /-- Invalid operation, #I. -/
  | i
  /-- Denormal operand, #D. -/
  | d
  /-- Divide by zero, #Z. -/
  | z
  /-- Numeric overflow, #O. -/
  | o
  /-- Numeric underflow, #U. -/
  | u
  /-- Inexact result (precision), #P. -/
  | p
  deriving DecidableEq, Repr

/-- The bit of a flag and of its mask (60_exceptions.md R520). -/
def Exc.bit : Exc → Nat
  | .i => 0
  | .d => 1
  | .z => 2
  | .o => 3
  | .u => 4
  | .p => 5

/-- The six classes in the order of their bits. -/
def Exc.all : List Exc := [.i, .d, .z, .o, .u, .p]

/-! ### The control word -/

/-- Is the exception masked (10_state.md R56)? -/
def maskedIn (cw : Word16) (x : Exc) : Bool := cw.getLsbD x.bit

/-- The rounding mode of RC, bits 11:10 (10_state.md R58). -/
def roundMode (cw : Word16) : RoundMode :=
  match cw.getLsbD 11, cw.getLsbD 10 with
  | false, false => .nearest
  | false, true => .down
  | true, false => .up
  | true, true => .zero

/-- `PCbits` of PC, bits 9:8; none for the reserved 01B (10_state.md R57, 40_numerics.md R202). -/
def pcBits (cw : Word16) : Option Nat :=
  match cw.getLsbD 9, cw.getLsbD 8 with
  | false, false => some 24
  | false, true => none
  | true, false => some 53
  | true, true => some 64

/-! ### The status word -/

/-- Status word bit 6, SF (10_state.md R48). -/
def sfBit : Nat := 6
/-- Status word bit 7, ES (10_state.md R46). -/
def esBit : Nat := 7
/-- Status word bit 8, C0 (10_state.md R40). -/
def c0Bit : Nat := 8
/-- Status word bit 9, C1 (10_state.md R43). -/
def c1Bit : Nat := 9
/-- Status word bit 10, C2 (10_state.md R44). -/
def c2Bit : Nat := 10
/-- Status word bits 13:11, TOP (10_state.md R41). -/
def topBit : Nat := 11
/-- Status word bit 14, C3 (10_state.md R40). -/
def c3Bit : Nat := 14
/-- Status word bit 15, B (10_state.md R47). -/
def busyBit : Nat := 15

/-- The equation of ES: some flag is set whose mask is clear (10_state.md R46). -/
def summary (sw cw : Word16) : Bool := Exc.all.any fun x => sw.getLsbD x.bit && !maskedIn cw x

/-- The status word with ES as the equation says and B following it (10_state.md R46, R47). -/
def withSummary (sw cw : Word16) : Word16 :=
  putBit (putBit sw esBit (summary sw cw)) busyBit (summary sw cw)

/-- The status word as it is stored: B reflects ES (10_state.md R47). -/
def storedSw (sw : Word16) : Word16 := putBit sw busyBit (sw.getLsbD esBit)

/-! ### The tag word -/

/-- TAG(k), bits 2k+1:2k (10_state.md R65). -/
def tagAt (tw : Word16) (k : Idx) : BitVec 2 := tw.extractLsb' (2 * k.toNat) 2

/-- Replace TAG(k). -/
def putTag (tw : Word16) (k : Idx) (t : BitVec 2) : Word16 := putField tw (2 * k.toNat) 2 t

/-- The tag of an empty register, 11B (10_state.md R66). -/
def emptyTag : BitVec 2 := 3

/-! ### Fields of the state -/

/-- Replace the status word. -/
def State.setSw (s : State) (w : Word16) : State := { s with sw := w }

/-- Replace the control word. -/
def State.setCw (s : State) (w : Word16) : State := { s with cw := w }

/-- Replace the tag word. -/
def State.setTw (s : State) (w : Word16) : State := { s with tw := w }

/-- Write one bit of the status word. -/
def State.putSw (s : State) (n : Nat) (b : Bool) : State := s.setSw (putBit s.sw n b)

/-- Exception summary, ES (10_state.md R46). -/
def State.es (s : State) : Bool := s.sw.getLsbD esBit

/-- TOP (10_state.md R41). -/
def State.top (s : State) : Idx := s.sw.extractLsb' topBit 3

/-- Write TOP. -/
def State.setTop (s : State) (t : Idx) : State := s.setSw (putField s.sw topBit 3 t)

/-- The physical register of ST(i) (10_state.md R32). -/
def State.phys (s : State) (i : Idx) : Idx := s.top + i

/-- TAG(k). -/
def State.tag (s : State) (k : Idx) : BitVec 2 := tagAt s.tw k

/-- Write TAG(k). -/
def State.setTag (s : State) (k : Idx) (t : BitVec 2) : State := s.setTw (putTag s.tw k t)

/-- `Empty(i)`: ST(i) is tagged empty (00_scope.md R11). -/
def State.isEmpty (s : State) (i : Idx) : Bool := s.tag (s.phys i) = emptyTag

/-- Is the exception masked? -/
def State.masked (s : State) (x : Exc) : Bool := maskedIn s.cw x

/-- Write C1. -/
def State.setC1 (s : State) (b : Bool) : State := s.putSw c1Bit b

/-- Write C3, C2 and C0. -/
def State.setCodes (s : State) (c3 c2 c0 : Bool) : State :=
  ((s.putSw c3Bit c3).putSw c2Bit c2).putSw c0Bit c0

/-- C0 and C3 become undefined (10_state.md R42). -/
def State.drawC03 (s : State) : State :=
  (s.putSw c0Bit (Config.undefC0 s.draws)).putSw c3Bit (Config.undefC3 s.draws)

/-- C0, C2 and C3 become undefined (10_state.md R42). -/
def State.drawCodes (s : State) : State := s.drawC03.putSw c2Bit (Config.undefC2 s.draws)

/-- C1 becomes undefined (10_state.md R42). -/
def State.drawC1 (s : State) : State := s.putSw c1Bit (Config.undefC1 s.draws)

/-- All four condition codes become undefined (10_state.md R42). -/
def State.drawAllCodes (s : State) : State := s.drawCodes.drawC1

/-- `signal #X` as far as the status word goes: the flag, and, when it is unmasked, ES and B (60_exceptions.md R522). -/
def State.signal (s : State) (x : Exc) : State :=
  if s.masked x then s.putSw x.bit true
  else ((s.putSw x.bit true).putSw esBit true).putSw busyBit true

/-- Signal several exceptions in turn. -/
def State.signalAll (s : State) (xs : List Exc) : State := xs.foldl State.signal s

/-- `signal #IS`: also SF, and C1 = 1 for overflow, 0 for underflow (60_exceptions.md R522, R526). -/
def State.stackFault (s : State) (overflow : Bool) : State :=
  ((s.signal .i).putSw sfBit true).setC1 overflow

/-- Recompute ES and B from the flags and the masks (10_state.md R46, R47). -/
def State.resummarize (s : State) : State := s.setSw (withSummary s.sw s.cw)

end Sys2Proof.Machine
end

