-- ==== Sys2Proof/Machine/Numeric.lean ====
section
/-! DEFINITION. The extended-real format, exact magnitudes and rounding (40_numerics.md R172 to R205). -/

namespace Sys2Proof.Machine

/-! ### The extended-real format -/

/-- The classes of an extended-real encoding (40_numerics.md R185). -/
inductive FpClass
  | zero
  | denormal
  | pseudoDenormal
  | normal
  | infinity
  | snan
  | qnan
  | unsupported
  deriving DecidableEq, Repr

/-- The sign, bit 79 (40_numerics.md R172). -/
def signOf (x : Ext) : Bool := x.getLsbD 79

/-- The biased exponent, bits 78:64 (40_numerics.md R172). -/
def expOf (x : Ext) : Nat := (x.extractLsb' 64 15).toNat

/-- The significand, bits 63:0, integer bit included (40_numerics.md R172). -/
def sigOf (x : Ext) : Nat := (x.extractLsb' 0 64).toNat

/-- The fraction, bits 62:0 (40_numerics.md R172). -/
def fracOf (x : Ext) : Nat := (x.extractLsb' 0 63).toNat

/-- `Class(x)` (40_numerics.md R185). -/
def classOf (x : Ext) : FpClass :=
  if expOf x = 0 then
    if x.getLsbD 63 then .pseudoDenormal else if fracOf x = 0 then .zero else .denormal
  else if expOf x = 0x7FFF then
    if !x.getLsbD 63 then .unsupported
    else if fracOf x = 0 then .infinity
    else if x.getLsbD 62 then .qnan else .snan
  else if x.getLsbD 63 then .normal else .unsupported

/-- A denormal operand: denormal or pseudo-denormal (40_numerics.md R187, R247). -/
def isDenormal (x : Ext) : Bool :=
  match classOf x with
  | .denormal => true
  | .pseudoDenormal => true
  | _ => false

/-- A QNaN or an SNaN (40_numerics.md R185). -/
def isNaN (x : Ext) : Bool :=
  match classOf x with
  | .qnan => true
  | .snan => true
  | _ => false

/-- `TagOf(x)` (10_state.md R70). -/
def tagOf (x : Ext) : BitVec 2 :=
  match classOf x with
  | .zero => 1
  | .normal => 0
  | _ => 2

/-- `Pack(s, e, sig)` (40_numerics.md R189). -/
def pack (s : Bool) (e sig : Nat) : Ext := BitVec.ofBool s ++ BitVec.ofNat 15 e ++ BitVec.ofNat 64 sig

/-- `Zero80(s)` (40_numerics.md R189). -/
def zero80 (s : Bool) : Ext := pack s 0 0

/-- `Inf80(s)` (40_numerics.md R189). -/
def inf80 (s : Bool) : Ext := pack s 0x7FFF 0x8000000000000000

/-- `MaxFinite80(s, p)` (40_numerics.md R189). -/
def maxFinite80 (s : Bool) (p : Nat) : Ext := pack s 0x7FFE ((2 ^ p - 1) * 2 ^ (64 - p))

/-- `INDEF80`, the real indefinite (40_numerics.md R190). -/
def indef80 : Ext := 0xFFFFC000000000000000

/-- +1.0. -/
def one80 : Ext := 0x3FFF8000000000000000

/-- The encoding with the other sign. -/
def negate (x : Ext) : Ext := x ^^^ 0x80000000000000000000

/-- `Quiet(x)`: bit 62 set (40_numerics.md R205). -/
def quiet (x : Ext) : Ext := x ||| 0x4000000000000000

/-! ### Exact magnitudes -/

/-- The exact non-negative rational `num / den * 2 ^ exp`. -/
structure Mag where
  num : Nat
  den : Nat
  exp : Int
  deriving DecidableEq, Repr

/-- An exact real: a magnitude and a sign. -/
structure Exact where
  neg : Bool
  mag : Mag
  deriving DecidableEq, Repr

/-- `|Val(x)|` of a finite encoding (40_numerics.md R186). -/
def magOf (x : Ext) : Mag := ⟨sigOf x, 1, (max (expOf x) 1 : Nat) - 16446⟩

/-- `Val(x)` of a finite encoding (40_numerics.md R186). -/
def valOf (x : Ext) : Exact := ⟨signOf x, magOf x⟩

/-- `n * 2 ^ k`, without its fraction. -/
def shiftNat (n : Nat) (k : Int) : Nat := (n <<< k.toNat) >>> (-k).toNat

/-- `floor(log2 m)` of a non-zero magnitude (40_numerics.md R200). -/
def Mag.log2 (m : Mag) : Int :=
  let k : Int := (m.num.log2 : Int) - (m.den.log2 : Int)
  (if m.den <<< k.toNat ≤ m.num <<< (-k).toNat then k else k - 1) + m.exp

/-- Two magnitudes compared: `a ≤ b`. -/
def Mag.le (a b : Mag) : Bool :=
  decide ((a.num * b.den) <<< (a.exp - b.exp).toNat ≤ (b.num * a.den) <<< (b.exp - a.exp).toNat)

/-- A magnitude times a power of two. -/
def Mag.scale (m : Mag) (k : Int) : Mag := { m with exp := m.exp + k }

/-! ### Rounding -/

/-- A rounded magnitude `mant * 2 ^ quantum`, and how it relates to the exact one (40_numerics.md R200). -/
structure Rounded where
  mant : Nat
  quantum : Int
  inexact : Bool
  up : Bool
  deriving DecidableEq, Repr

/-- Does the rounding mode choose the larger magnitude, for a fraction `rem / den` above the even or odd `lo`
(the choice table of 40_numerics.md R200)? -/
def choosesUp (rm : RoundMode) (neg : Bool) (lo rem den : Nat) : Bool :=
  match rm with
  | .nearest => decide (den < 2 * rem) || (2 * rem == den && lo % 2 == 1)
  | .down => neg
  | .up => !neg
  | .zero => false

/-- A magnitude rounded to a multiple of `2 ^ q` (40_numerics.md R200, R201, R213). -/
def roundAt (rm : RoundMode) (v : Exact) (q : Int) : Rounded :=
  let n := v.mag.num <<< (v.mag.exp - q).toNat
  let d := v.mag.den <<< (q - v.mag.exp).toNat
  if n % d = 0 then ⟨n / d, q, false, false⟩
  else
    let up := choosesUp rm v.neg (n / d) (n % d) d
    ⟨if up then n / d + 1 else n / d, q, true, up⟩

/-- `Round(v, p, rc)` with unbounded exponent (40_numerics.md R200). -/
def roundTo (rm : RoundMode) (v : Exact) (p : Nat) : Rounded := roundAt rm v (v.mag.log2 - p + 1)

/-- `RoundInt(v, rc)` (40_numerics.md R201). -/
def roundInt (rm : RoundMode) (v : Exact) : Rounded := roundAt rm v 0

/-- `floor(log2 r)` of a non-zero rounded magnitude. -/
def Rounded.log2 (r : Rounded) : Int := (r.mant.log2 : Int) + r.quantum

/-- `Enc80` of the representable `±mant * 2 ^ q`; a zero keeps the sign (40_numerics.md R189, R213). -/
def enc80 (neg : Bool) (mant : Nat) (q : Int) : Ext :=
  if mant = 0 then zero80 neg
  else
    let k : Int := (mant.log2 : Int) + q
    if -16382 ≤ k then pack neg (k + 16383).toNat (shiftNat mant (63 - (mant.log2 : Int)))
    else pack neg 0 (shiftNat mant (q + 16445))

/-- `OverflowResult(s, rc, p)` (40_numerics.md R203). -/
def overflowsToInf (rm : RoundMode) (neg : Bool) : Bool :=
  match rm with
  | .nearest => true
  | .down => neg
  | .up => !neg
  | .zero => false

/-! ### Answers of an operation -/

/-- A value for a data register and the C1 it leaves. -/
structure Written where
  value : Ext
  c1 : Bool
  deriving DecidableEq, Repr

/-- What an operation answers: the exceptions it signals, in order, and the value to write; no value when an
unmasked exception ended it before the operation (40_numerics.md R246, 60_exceptions.md R541). -/
structure Reply (α : Type) where
  flags : List Exc
  value : Option α
  deriving DecidableEq, Repr

/-- A value without any exception. -/
def Reply.ok {α : Type} (v : α) : Reply α := ⟨[], some v⟩

/-- A pre-operation exception with its masked response (40_numerics.md R246 steps 3 to 6). -/
def Reply.pre {α : Type} (cw : Word16) (x : Exc) (masked : α) : Reply α :=
  ⟨[x], if maskedIn cw x then some masked else none⟩

/-- The denormal test before a computation (40_numerics.md R246 step 7). -/
def Reply.afterDenormal {α : Type} (cw : Word16) (denormal : Bool) (k : Reply α) : Reply α :=
  if denormal then
    if maskedIn cw .d then ⟨.d :: k.flags, k.value⟩ else ⟨[.d], none⟩
  else k

/-- Map the value of an answer. -/
def Reply.map {α β : Type} (f : α → β) (r : Reply α) : Reply β := ⟨r.flags, r.value.map f⟩

/-- A value written with C1 = 0 (40_numerics.md R210). -/
def plain (x : Ext) : Written := ⟨x, false⟩

/-! ### NaN operands -/

/-- `QNaNOf(a, b)` (40_numerics.md R205); `pick` chooses between equal significands (log 27). -/
def qnanOf (pick : Bool) (a b : Ext) : Ext :=
  if !isNaN b then quiet a
  else if !isNaN a then quiet b
  else if classOf a = .snan ∧ classOf b = .qnan then b
  else if classOf a = .qnan ∧ classOf b = .snan then a
  else if sigOf b < sigOf a then quiet a
  else if sigOf a < sigOf b then quiet b
  else if pick then quiet a else quiet b

/-- Steps 3 to 5 of the operand checks for two operands: whether #IA is signalled, and the result
(40_numerics.md R246). -/
def nanCheck2 (pick : Bool) (a b : Ext) : Option (Bool × Ext) :=
  if classOf a = .unsupported ∨ classOf b = .unsupported then some (true, indef80)
  else if classOf a = .snan ∨ classOf b = .snan then some (true, qnanOf pick a b)
  else if classOf a = .qnan ∨ classOf b = .qnan then some (false, qnanOf pick a b)
  else none

/-- Steps 3 to 5 for one operand (40_numerics.md R205, R246). -/
def nanCheck1 (a : Ext) : Option (Bool × Ext) :=
  match classOf a with
  | .unsupported => some (true, indef80)
  | .snan => some (true, Machine.quiet a)
  | .qnan => some (false, a)
  | _ => none

/-- The answer that steps 3 to 5 give. -/
def nanReply (cw : Word16) (r : Bool × Ext) : Reply Ext :=
  if r.1 then .pre cw .i r.2 else .ok r.2

end Sys2Proof.Machine
end

