-- ==== Sys2Proof/Machine/Deliver.lean ====
section
/-! DEFINITION. Delivering a computed result to a register (40_numerics.md R210 to R214). -/

namespace Sys2Proof.Machine

/-- The value and flags of a delivered result (40_numerics.md R210). -/
structure Delivered where
  value : Ext
  c1 : Bool
  flags : List Exc
  deriving DecidableEq, Repr

/-- `#P` when the result is inexact. -/
def inexactFlag (inexact : Bool) : List Exc := if inexact then [.p] else []

/-- Overflow, R212. The test after biasing can only succeed for FSCALE ("massive overflow"). -/
def deliverOverflow (cw : Word16) (p : Nat) (neg : Bool) (r : Rounded) : Delivered :=
  if maskedIn cw .o then
    if overflowsToInf (roundMode cw) neg then ⟨inf80 neg, true, [.o, .p]⟩
    else ⟨maxFinite80 neg p, false, [.o, .p]⟩
  else
    ⟨if 16384 ≤ r.log2 - 24576 then inf80 neg else enc80 neg r.mant (r.quantum - 24576), r.up,
      .o :: inexactFlag r.inexact⟩

/-- A tiny result, R213: `v` rounded once to the coarser of its own quantum and the denormal one (D27). The test after
biasing can only succeed for FSCALE ("massive underflow"). -/
def deliverTiny (cw : Word16) (v : Exact) (r : Rounded) : Delivered :=
  if maskedIn cw .u then
    let r2 := roundAt (roundMode cw) v (max r.quantum (-16445))
    if r2.inexact then ⟨enc80 v.neg r2.mant r2.quantum, r2.up, [.u, .p]⟩
    else ⟨enc80 v.neg r2.mant r2.quantum, false, []⟩
  else
    ⟨if r.log2 + 24576 < -16382 then zero80 v.neg else enc80 v.neg r.mant (r.quantum + 24576), r.up,
      .u :: inexactFlag r.inexact⟩

/-- `Deliver(v, p)` of an exact non-zero `v` (40_numerics.md R210 to R214). -/
def deliver (cw : Word16) (p : Nat) (v : Exact) : Delivered :=
  let r := roundTo (roundMode cw) v p
  if 16384 ≤ r.log2 then deliverOverflow cw p v.neg r
  else if r.log2 < -16382 then deliverTiny cw v r
  else ⟨enc80 v.neg r.mant r.quantum, r.up, inexactFlag r.inexact⟩

/-- A delivered result as an answer. -/
def Delivered.reply (d : Delivered) : Reply Written := ⟨d.flags, some ⟨d.value, d.c1⟩⟩

end Sys2Proof.Machine
end

