-- ==== Sys2Proof/Machine/Formats.lean ====
section
/-! DEFINITION. Conversions between the memory formats and extended-real (40_numerics.md R220 to R232). A memory
operand is the little-endian number its bytes hold. -/

namespace Sys2Proof.Machine

/-! ### Real formats -/

/-- A single- or double-real format (40_numerics.md R171, R225). -/
structure RealFormat where
  /-- Significand bits, the implied one included. -/
  precision : Nat
  /-- Exponent field bits. -/
  expBits : Nat
  deriving DecidableEq, Repr

/-- Single real. -/
def single : RealFormat := ⟨24, 8⟩

/-- Double real. -/
def double : RealFormat := ⟨53, 11⟩

/-- Fraction bits `w`. -/
def RealFormat.fracBits (f : RealFormat) : Nat := f.precision - 1

/-- The all-ones exponent field. -/
def RealFormat.expMax (f : RealFormat) : Nat := 2 ^ f.expBits - 1

/-- The bias, which is also the largest exponent `emax`. -/
def RealFormat.bias (f : RealFormat) : Nat := 2 ^ (f.expBits - 1) - 1

/-- The smallest exponent of a normal, `emin`. -/
def RealFormat.emin (f : RealFormat) : Int := 1 - (f.bias : Int)

/-- The exponent of the denormal quantum, `emin - w`. -/
def RealFormat.tiniest (f : RealFormat) : Int := f.emin - f.fracBits

/-- The size in bytes. -/
def RealFormat.bytes (f : RealFormat) : Nat := (f.precision + f.expBits) / 8

/-- Sign, exponent field and fraction put together. -/
def RealFormat.pack (f : RealFormat) (neg : Bool) (e frac : Nat) : Nat :=
  (neg.toNat * 2 ^ f.expBits + e) * 2 ^ f.fracBits + frac

/-- The real indefinite of the format (40_numerics.md R190). -/
def RealFormat.indefinite (f : RealFormat) : Nat := f.pack true f.expMax (2 ^ (f.fracBits - 1))

/-- An operand as an operation sees it: an extended-real value, and whether it was a denormal in its memory format
(40_numerics.md R246 step 7). -/
structure Operand where
  value : Ext
  wasDenormal : Bool
  deriving DecidableEq, Repr

/-- A register, integer or decimal operand. -/
def Operand.of (x : Ext) : Operand := ⟨x, false⟩

/-- Does the operand signal #D (40_numerics.md R246 step 7, R247)? -/
def Operand.denormal (o : Operand) : Bool := o.wasDenormal || isDenormal o.value

/-- `FromSingle`, `FromDouble` (40_numerics.md R220, R221). -/
def fromReal (f : RealFormat) (m : Nat) : Operand :=
  let neg := m.testBit (f.fracBits + f.expBits)
  let e := m / 2 ^ f.fracBits % 2 ^ f.expBits
  let frac := m % 2 ^ f.fracBits
  let sig := 2 ^ 63 + frac * 2 ^ (63 - f.fracBits)
  if e = 0 then
    if frac = 0 then .of (zero80 neg) else ⟨enc80 neg frac f.tiniest, true⟩
  else if e = f.expMax then .of (pack neg 0x7FFF sig)
  else .of (pack neg (e + 16383 - f.bias) sig)

/-- The NaN stored for a NaN: the fraction's top bits, made quiet (40_numerics.md R227). -/
def RealFormat.narrowNaN (f : RealFormat) (x : Ext) : Nat :=
  f.pack (signOf x) f.expMax ((fracOf x / 2 ^ (63 - f.fracBits)) ||| 2 ^ (f.fracBits - 1))

/-- The finite value `±mant * 2 ^ q`, representable in the format (40_numerics.md R225 steps 6 and 7). -/
def RealFormat.encode (f : RealFormat) (neg : Bool) (mant : Nat) (q : Int) : Nat :=
  if mant = 0 then f.pack neg 0 0
  else
    let k : Int := (mant.log2 : Int) + q
    if f.emin ≤ k then
      f.pack neg (k + f.bias).toNat (shiftNat mant (f.fracBits - (mant.log2 : Int)) % 2 ^ f.fracBits)
    else f.pack neg 0 (shiftNat mant (q - f.tiniest))

/-- The masked overflow value of the format (40_numerics.md R203). -/
def RealFormat.overflowValue (f : RealFormat) (toInf neg : Bool) : Nat :=
  if toInf then f.pack neg f.expMax 0 else f.pack neg (f.expMax - 1) (2 ^ f.fracBits - 1)

/-! ### Stores -/

/-- What a conversion to memory does (40_numerics.md R225, R228, R230). -/
inductive StoreAction
  /-- Store the value; C1 as given. -/
  | store (value : Nat) (c1 : Bool)
  /-- An unmasked #IA or #D: nothing is done. -/
  | abandonBefore
  /-- An unmasked #O or #U with a memory destination: nothing is stored or popped. -/
  | abandonAfter
  deriving DecidableEq, Repr

/-- The answer of a conversion to memory. -/
structure StoreReply where
  flags : List Exc
  action : StoreAction
  deriving DecidableEq, Repr

/-- #IA with the value its masked response stores. -/
def StoreReply.invalid (cw : Word16) (masked : Nat) : StoreReply :=
  ⟨[.i], if maskedIn cw .i then .store masked false else .abandonBefore⟩

/-- Steps 4 to 7 of `StoreReal`: round and store a finite non-zero value (40_numerics.md R225, R226). -/
def storeFinite (cw : Word16) (f : RealFormat) (v : Exact) : StoreReply :=
  let r := roundTo (roundMode cw) v f.precision
  if (f.bias : Int) + 1 ≤ r.log2 then
    if maskedIn cw .o then
      let toInf := overflowsToInf (roundMode cw) v.neg
      ⟨[.o, .p], .store (f.overflowValue toInf v.neg) toInf⟩
    else ⟨[.o], .abandonAfter⟩
  else if r.log2 < f.emin then
    if maskedIn cw .u then
      let r2 := roundAt (roundMode cw) v f.tiniest
      if r2.inexact then ⟨[.u, .p], .store (f.encode v.neg r2.mant r2.quantum) r2.up⟩
      else ⟨[], .store (f.encode v.neg r2.mant r2.quantum) false⟩
    else ⟨[.u], .abandonAfter⟩
  else ⟨inexactFlag r.inexact, .store (f.encode v.neg r.mant r.quantum) r.up⟩

/-- `StoreReal(x, fmt)` (40_numerics.md R225); `signalsD` is the parameter `FST_SIGNALS_D`. -/
def storeReal (cw : Word16) (signalsD : Bool) (f : RealFormat) (x : Ext) : StoreReply :=
  match classOf x with
  | .unsupported => .invalid cw f.indefinite
  | .snan => .invalid cw (f.narrowNaN x)
  | .qnan => ⟨[], .store (f.narrowNaN x) false⟩
  | .zero => ⟨[], .store (f.pack (signOf x) 0 0) false⟩
  | .infinity => ⟨[], .store (f.pack (signOf x) f.expMax 0) false⟩
  | .normal => storeFinite cw f (valOf x)
  | .denormal | .pseudoDenormal =>
    if signalsD then
      if maskedIn cw .d then
        let r := storeFinite cw f (valOf x)
        ⟨.d :: r.flags, r.action⟩
      else ⟨[.d], .abandonBefore⟩
    else storeFinite cw f (valOf x)

/-! ### Integers -/

/-- The value of an `n`-bit two's-complement number (40_numerics.md R174). -/
def sint (n m : Nat) : Int := if m < 2 ^ (n - 1) then m else (m : Int) - 2 ^ n

/-- `FromInt` of a value (40_numerics.md R223). -/
def fromInt (v : Int) : Ext := enc80 (decide (v < 0)) v.natAbs 0

/-- The integer indefinite, 100..00B (40_numerics.md R190). -/
def intIndefinite (n : Nat) : Nat := 2 ^ (n - 1)

/-- Steps 2 to 4 of `StoreInt` (40_numerics.md R228): the range test is on the rounded value. -/
def storeIntFinite (cw : Word16) (n : Nat) (v : Exact) : StoreReply :=
  let r := roundInt (roundMode cw) v
  let limit := if v.neg then 2 ^ (n - 1) else 2 ^ (n - 1) - 1
  if limit < r.mant then .invalid cw (intIndefinite n)
  else ⟨inexactFlag r.inexact, .store (if v.neg then (2 ^ n - r.mant) % 2 ^ n else r.mant) r.up⟩

/-- `StoreInt(x, n)` (40_numerics.md R228). -/
def storeInt (cw : Word16) (n : Nat) (x : Ext) : StoreReply :=
  match classOf x with
  | .unsupported | .snan | .qnan | .infinity => .invalid cw (intIndefinite n)
  | .zero | .normal | .denormal | .pseudoDenormal => storeIntFinite cw n (valOf x)

/-! ### Packed decimal -/

/-- Decimal digit `k` of a packed-decimal operand (40_numerics.md R175). -/
def bcdDigit (m k : Nat) : Nat := m / 16 ^ k % 16

/-- The value of the `n` low digits, none when one is above 9 (40_numerics.md R224). -/
def bcdValue (m : Nat) : Nat → Option Nat
  | 0 => some 0
  | n + 1 =>
    match bcdValue m n with
    | none => none
    | some v => if bcdDigit m n ≤ 9 then some (v + bcdDigit m n * 10 ^ n) else none

/-- `FromBCD`; none where the result is undefined (40_numerics.md R224). -/
def fromBcd (m : Nat) : Option Ext := (bcdValue m 18).map fun v => enc80 (m.testBit 79) v 0

/-- The `n` low decimal digits of a number as packed decimal (40_numerics.md R230). -/
def toBcd (v : Nat) : Nat → Nat
  | 0 => 0
  | n + 1 => toBcd v n + v / 10 ^ n % 10 * 16 ^ n

/-- The packed-decimal indefinite: bytes 9 and 8 are FFH, the others undefined (40_numerics.md R190). -/
def bcdIndefinite (low : BitVec 64) : Nat := 0xFFFF * 2 ^ 64 + low.toNat

/-- Steps 2 to 4 of `StoreBCD` (40_numerics.md R230). -/
def storeBcdFinite (cw : Word16) (low : BitVec 64) (v : Exact) : StoreReply :=
  let r := roundInt (roundMode cw) v
  if 10 ^ 18 - 1 < r.mant then .invalid cw (bcdIndefinite low)
  else ⟨inexactFlag r.inexact, .store (v.neg.toNat * 2 ^ 79 + toBcd r.mant 18) r.up⟩

/-- `StoreBCD(x)` (40_numerics.md R230); `low` is what bytes 0 to 7 of the indefinite hold. -/
def storeBcd (cw : Word16) (low : BitVec 64) (x : Ext) : StoreReply :=
  match classOf x with
  | .unsupported | .snan | .qnan | .infinity => .invalid cw (bcdIndefinite low)
  | .zero | .normal | .denormal | .pseudoDenormal => storeBcdFinite cw low (valOf x)

end Sys2Proof.Machine
end

