-- ==== Sys2Proof/Machine/Arithmetic.lean ====
section
/-! DEFINITION. The basic operations on values: add, subtract, multiply, divide, square root, remainder, round, extract,
scale and compare (43_basic_arithmetic.md, 44_comparison.md R381, 45_transcendental.md R438). -/

namespace Sys2Proof.Machine

/-! ### Add, subtract, multiply, divide -/

/-- The four operations (43_basic_arithmetic.md R321). -/
inductive ArithOp
  | add
  | sub
  | mul
  | div
  deriving DecidableEq, Repr

/-- What an operation does with two operands that are no NaN and no unsupported encoding. -/
inductive Special
  /-- The operation's own #IA, masked response the real indefinite (40_numerics.md R246 step 6). -/
  | invalid
  /-- #Z with its masked response (40_numerics.md R246 step 6). -/
  | zeroDivide (x : Ext)
  /-- An exact zero or infinity (40_numerics.md R246 step 8). -/
  | exact (x : Ext)
  /-- A non-zero exact real to deliver. -/
  | compute (v : Exact)
  deriving DecidableEq, Repr

/-- A signed multiple of `2 ^ e` of a finite value, for `e` at most its own exponent. -/
def alignedInt (v : Exact) (e : Int) : Int :=
  let n : Int := (v.mag.num <<< (v.mag.exp - e).toNat : Nat)
  if v.neg then -n else n

/-- The sum of two finite values of integer significand, as a multiple of a power of two. -/
def addExact (a b : Exact) : Int × Int :=
  let e := min a.mag.exp b.mag.exp
  (alignedInt a e + alignedInt b e, e)

/-- Addition of operands that are no NaN (43_basic_arithmetic.md R323). -/
def addSpecial (rm : RoundMode) (a b : Ext) : Special :=
  if classOf a = .infinity then
    if classOf b = .infinity ∧ signOf a ≠ signOf b then .invalid else .exact a
  else if classOf b = .infinity then .exact b
  else
    let r := addExact (valOf a) (valOf b)
    if r.1 = 0 then
      if signOf a = signOf b then .exact (zero80 (signOf a)) else .exact (zero80 (rm == .down))
    else .compute ⟨decide (r.1 < 0), ⟨r.1.natAbs, 1, r.2⟩⟩

/-- Subtraction of operands that are no NaN (43_basic_arithmetic.md R324). -/
def subSpecial (rm : RoundMode) (a b : Ext) : Special := addSpecial rm a (negate b)

/-- Multiplication of operands that are no NaN (43_basic_arithmetic.md R325). -/
def mulSpecial (a b : Ext) : Special :=
  let s := signOf a != signOf b
  if classOf a = .infinity then if classOf b = .zero then .invalid else .exact (inf80 s)
  else if classOf b = .infinity then if classOf a = .zero then .invalid else .exact (inf80 s)
  else if classOf a = .zero ∨ classOf b = .zero then .exact (zero80 s)
  else .compute ⟨s, ⟨(magOf a).num * (magOf b).num, 1, (magOf a).exp + (magOf b).exp⟩⟩

/-- Division of operands that are no NaN (43_basic_arithmetic.md R326). -/
def divSpecial (a b : Ext) : Special :=
  let s := signOf a != signOf b
  if classOf a = .infinity then if classOf b = .infinity then .invalid else .exact (inf80 s)
  else if classOf b = .infinity then .exact (zero80 s)
  else if classOf b = .zero then if classOf a = .zero then .invalid else .zeroDivide (inf80 s)
  else if classOf a = .zero then .exact (zero80 s)
  else .compute ⟨s, ⟨(magOf a).num, (magOf b).num, (magOf a).exp - (magOf b).exp⟩⟩

/-- The special-case table of an operation. -/
def arithSpecial (op : ArithOp) (rm : RoundMode) (a b : Ext) : Special :=
  match op with
  | .add => addSpecial rm a b
  | .sub => subSpecial rm a b
  | .mul => mulSpecial a b
  | .div => divSpecial a b

/-- Steps 3 to 8 of `Arith2` (43_basic_arithmetic.md R322, 40_numerics.md R246). The precision is none for the reserved
control 01B: only a result that is delivered depends on it (log 15). -/
def arith (op : ArithOp) (cw : Word16) (precision : Option Nat) (pick : Bool) (a b : Operand) :
    Except Refusal (Reply Written) :=
  match nanCheck2 pick a.value b.value with
  | some r => .ok ((nanReply cw r).map plain)
  | none =>
    let denormal := a.denormal || b.denormal
    match arithSpecial op (roundMode cw) a.value b.value with
    | .invalid => .ok (.pre cw .i (plain indef80))
    | .zeroDivide x => .ok (.pre cw .z (plain x))
    | .exact x => .ok (.afterDenormal cw denormal (.ok (plain x)))
    | .compute v =>
      if denormal && !maskedIn cw .d then .ok ⟨[.d], none⟩
      else
        match precision with
        | none => .error .reservedPrecisionControl
        | some p => .ok (.afterDenormal cw denormal (deliver cw p v).reply)

/-! ### Square root -/

/-- `floor(sqrt n)`, bit by bit: `r` is the root found so far, the next bit tried is `2 ^ bit`. -/
def isqrtFrom (n : Nat) : Nat → Nat → Nat
  | 0, r => r
  | bit + 1, r => isqrtFrom n bit (if (r + 2 ^ bit) * (r + 2 ^ bit) ≤ n then r + 2 ^ bit else r)

/-- `floor(sqrt n)` for `n < 2 ^ (2 * bits)`. -/
def isqrt (n bits : Nat) : Nat := isqrtFrom n bits 0

/-- The number that stands for the square root of an integer times a power of two in a rounding to `p` bits
(43_basic_arithmetic.md R352): the root when it is exact, else `p + 1` bits of it and a half. -/
def sqrtExact (m : Mag) (p : Nat) : Exact :=
  let t : Int := ((2 * p : Nat) - m.log2 + 1) / 2
  let e := m.exp + 2 * t
  let u := shiftNat m.num e
  let n := isqrt u (p + 1)
  let root := decide (n * n = u) && decide (u <<< (-e).toNat = m.num <<< e.toNat)
  ⟨false, ⟨2 * n + (!root).toNat, 1, -t - 1⟩⟩

/-- FSQRT on a non-empty register (43_basic_arithmetic.md R352). -/
def sqrt (cw : Word16) (x : Ext) : Except Refusal (Reply Written) :=
  match nanCheck1 x with
  | some r => .ok ((nanReply cw r).map plain)
  | none =>
    if classOf x = .zero then .ok (.ok (plain x))
    else if signOf x then .ok (.pre cw .i (plain indef80))
    else if classOf x = .infinity then .ok (.ok (plain x))
    else if isDenormal x && !maskedIn cw .d then .ok ⟨[.d], none⟩
    else
      match pcBits cw with
      | none => .error .reservedPrecisionControl
      | some p => .ok (.afterDenormal cw (isDenormal x) (deliver cw p (sqrtExact (magOf x) p)).reply)

/-! ### Round to integer, extract, scale -/

/-- FRNDINT on a non-empty register (43_basic_arithmetic.md R365). -/
def rndint (cw : Word16) (x : Ext) : Reply Written :=
  match nanCheck1 x with
  | some r => (nanReply cw r).map plain
  | none =>
    if classOf x = .infinity ∨ classOf x = .zero then .ok (plain x)
    else
      let r := roundInt (roundMode cw) (valOf x)
      .afterDenormal cw (isDenormal x) ⟨inexactFlag r.inexact, some ⟨enc80 (signOf x) r.mant r.quantum, r.up⟩⟩

/-- FXTRACT on a non-empty register with room for the push: the exponent and the significand
(43_basic_arithmetic.md R366 steps 3 to 7). -/
def extract (cw : Word16) (x : Ext) : Reply (Ext × Ext) :=
  match nanCheck1 x with
  | some r => (nanReply cw r).map fun v => (v, v)
  | none =>
    if classOf x = .zero then .pre cw .z (inf80 true, x)
    else if classOf x = .infinity then .ok (inf80 false, x)
    else
      let k := (magOf x).log2
      .afterDenormal cw (isDenormal x)
        (.ok (fromInt k, enc80 (signOf x) (magOf x).num ((magOf x).exp - k)))

/-- `trunc(Val(s))` (45_transcendental.md R438), kept within ±65536, beyond which the outcome is the same. -/
def scaleCount (s : Ext) : Int :=
  let n : Int := (min (roundInt .zero (valOf s)).mant 65536 : Nat)
  if signOf s then -n else n

/-- FSCALE on two non-empty registers, `x` scaled by `s` (45_transcendental.md R438): the invalid operands, then the
denormal test, then the exact results and the computation (40_numerics.md R246; log 16). -/
def scale (cw : Word16) (pick : Bool) (x s : Ext) : Reply Written :=
  match nanCheck2 pick x s with
  | some r => (nanReply cw r).map plain
  | none =>
    let denormal := isDenormal x || isDenormal s
    if classOf s = .infinity then
      if signOf s then
        if classOf x = .infinity then .pre cw .i (plain indef80)
        else .afterDenormal cw denormal (.ok (plain (zero80 (signOf x))))
      else if classOf x = .zero then .pre cw .i (plain indef80)
      else .afterDenormal cw denormal (.ok (plain (inf80 (signOf x))))
    else if classOf x = .zero ∨ classOf x = .infinity then .afterDenormal cw denormal (.ok (plain x))
    else .afterDenormal cw denormal (deliver cw 64 ⟨signOf x, (magOf x).scale (scaleCount s)⟩).reply

/-! ### Remainder -/

/-- The condition codes a remainder leaves (43_basic_arithmetic.md R360; log 18). -/
inductive RemCodes
  /-- Complete: C2 = 0 and the low bits of the quotient in C0, C3, C1. -/
  | complete (quotient : Nat)
  /-- Partial: C2 = 1, the others undefined. -/
  | incomplete
  /-- Modulus 0 or dividend infinite: C2 = 0 and C1 = 0, the others undefined. -/
  | invalid
  /-- A NaN or unsupported operand: C1 = 0, the others undefined. -/
  | nan
  deriving DecidableEq, Repr

/-- What a remainder leaves. -/
structure Remainder where
  value : Ext
  codes : RemCodes
  deriving DecidableEq, Repr

/-- The codes of a reduction. -/
def RemCodes.ofQuotient : Option Nat → RemCodes
  | some q => .complete q
  | none => .incomplete

/-- `Q` of the complete case: toward zero for FPREM, to nearest even for FPREM1
(43_basic_arithmetic.md R360, R361). -/
def remQuotient (ieee : Bool) (n d : Nat) : Nat :=
  if ieee && choosesUp .nearest false (n / d) (n % d) d then n / d + 1 else n / d

/-- The remainder of two finite non-zero values (43_basic_arithmetic.md R360 to R362): the exact `r` as a signed
multiple of `2 ^ e`, C2, and the quotient when the reduction is complete. -/
def remExact (ieee : Bool) (step : Nat) (x y : Ext) : Int × Int × Option Nat :=
  let a := magOf x
  let b := magOf y
  let d := a.log2 - b.log2
  let e := min a.exp b.exp
  let n := a.num <<< (a.exp - e).toNat
  let m := b.num <<< (b.exp - e).toNat
  if d < 64 then
    let q := remQuotient ieee n m
    ((n : Int) - q * m, e, some q)
  else
    let k := (d - step).toNat
    ((n : Int) - ((n / m / 2 ^ k * 2 ^ k * m : Nat) : Int), e, none)

/-- The write of a remainder: an exact value that only the underflow step of `Deliver` can change
(43_basic_arithmetic.md R360). -/
def remWrite (cw : Word16) (x : Ext) (r : Int × Int × Option Nat) : Reply Remainder :=
  if r.1 = 0 then .ok ⟨zero80 (signOf x), .ofQuotient r.2.2⟩
  else
    let d := deliver cw 64 ⟨signOf x != decide (r.1 < 0), ⟨r.1.natAbs, 1, r.2.1⟩⟩
    ⟨d.flags, some ⟨d.value, .ofQuotient r.2.2⟩⟩

/-- FPREM and FPREM1 on two non-empty registers, `x` modulo `y` (43_basic_arithmetic.md R360, R361). The condition
codes of a NaN result and of the masked #IA that the spec leaves open are drawn (log 18). -/
def remainder (cw : Word16) (ieee : Bool) (step : Nat) (pick : Bool) (x y : Ext) : Reply Remainder :=
  match nanCheck2 pick x y with
  | some r => (nanReply cw r).map fun v => ⟨v, .nan⟩
  | none =>
    if classOf x = .infinity ∨ classOf y = .zero then .pre cw .i ⟨indef80, .invalid⟩
    else
      .afterDenormal cw (isDenormal x || isDenormal y)
        (if classOf y = .infinity ∨ classOf x = .zero then .ok ⟨x, .complete 0⟩
        else remWrite cw x (remExact ieee step x y))

/-! ### Comparison -/

/-- The relation of two reals (44_comparison.md R381). -/
inductive Relation
  | greater
  | less
  | equal
  | unordered
  deriving DecidableEq, Repr

/-- Neither a NaN nor an unsupported encoding. -/
def isOrdered (x : Ext) : Bool := !(isNaN x) && classOf x != .unsupported

/-- The relation of two integers. -/
def relationOf (a b : Int) : Relation := if b < a then .greater else if a < b then .less else .equal

/-- A large-enough integer for each infinity, 0 for a finite value. -/
def infRank (x : Ext) : Int := if classOf x = .infinity then if signOf x then -1 else 1 else 0

/-- `Compare(a, b)` (44_comparison.md R381). -/
def compareExt (a b : Ext) : Relation :=
  if !(isOrdered a && isOrdered b) then .unordered
  else if classOf a = .infinity ∨ classOf b = .infinity then relationOf (infRank a) (infRank b)
  else
    let e := min (magOf a).exp (magOf b).exp
    relationOf (alignedInt (valOf a) e) (alignedInt (valOf b) e)

/-- The codes of a relation: C3 or ZF, C2 or PF, C0 or CF (44_comparison.md R381). -/
def Relation.codes : Relation → Bool × Bool × Bool
  | .greater => (false, false, false)
  | .less => (false, false, true)
  | .equal => (true, false, false)
  | .unordered => (true, true, true)

/-- Does the comparison signal #IA (44_comparison.md R383 step 2)? -/
def compareInvalid (quiet : Bool) (a b : Ext) : Bool :=
  let bad x := classOf x == .unsupported || classOf x == .snan || (!quiet && classOf x == .qnan)
  bad a || bad b

/-- Steps 2 to 5 of `Cmp` on non-empty operands (44_comparison.md R383). -/
def compare (cw : Word16) (quiet testD : Bool) (a b : Operand) : Reply Relation :=
  if compareInvalid quiet a.value b.value then .pre cw .i .unordered
  else if compareExt a.value b.value = .unordered then .ok .unordered
  else .afterDenormal cw (testD && (a.denormal || b.denormal)) (.ok (compareExt a.value b.value))

/-- The FXAM codes C3, C2, C0 of a non-empty register (44_comparison.md R397). -/
def examineCodes (x : Ext) : Bool × Bool × Bool :=
  match classOf x with
  | .unsupported => (false, false, false)
  | .snan => (false, false, true)
  | .qnan => (false, false, true)
  | .normal => (false, true, false)
  | .infinity => (false, true, true)
  | .zero => (true, false, false)
  | .denormal => (true, true, false)
  | .pseudoDenormal => (true, true, false)

end Sys2Proof.Machine
end

