-- ==== Sys2Proof/Machine/Transc.lean ====
section
/-! DEFINITION. The accuracy relation of the transcendental functions (45_transcendental.md R421 to R423). The true
value of a function is enclosed between two exact rationals; the result is any representable value within the error
bound of that enclosure, chosen by an opaque function so that it is monotonic in the operands (log 21). The series are
computed in fixed point with `fixBits` fraction bits; `fixSlack` units bound their error. -/

namespace Sys2Proof.Machine

/-- Fraction bits of the series. -/
def fixBits : Nat := 320

/-- The number 1 in fixed point. -/
def fixOne : Nat := 2 ^ fixBits

/-- More than the error of any series below, in units of the last place. -/
def fixSlack : Nat := 2 ^ 30

/-- The sign of the true value, and its magnitude: exactly `lo` where `lo = hi`, else strictly between the two
rationals. -/
structure Enclosure where
  neg : Bool
  lo : Mag
  hi : Mag
  deriving DecidableEq, Repr

/-- An exactly known value. -/
def Enclosure.exactly (v : Exact) : Enclosure := ⟨v.neg, v.mag, v.mag⟩

/-- The enclosure of `±a * f`, for a fixed-point `f` and an exact `a`. -/
def enclose (neg : Bool) (a : Mag) (f : Nat) : Enclosure :=
  ⟨neg, ⟨a.num * (f - fixSlack), a.den, a.exp - fixBits⟩, ⟨a.num * (f + fixSlack), a.den, a.exp - fixBits⟩⟩

/-- The enclosure of `±a * f / g`, for fixed-point `f` and `g`. -/
def encloseRatio (neg : Bool) (a : Mag) (f g : Nat) : Enclosure :=
  ⟨neg, ⟨a.num * (f - fixSlack), a.den * (g + fixSlack), a.exp⟩,
    ⟨a.num * (f + fixSlack), a.den * max (g - fixSlack) 1, a.exp⟩⟩

/-- The enclosure of a value known to be below `m`. -/
def Enclosure.atMost (e : Enclosure) (m : Mag) : Enclosure :=
  if e.hi.le m then e else ⟨e.neg, if e.lo.le m then e.lo else m, m⟩

/-- The enclosure of a value known to be above `m`. -/
def Enclosure.atLeast (e : Enclosure) (m : Mag) : Enclosure :=
  if m.le e.lo then e else ⟨e.neg, m, if m.le e.hi then e.hi else m⟩

/-- `k` with `2 ^ k ≤ |v| < 2 ^ (k + 1)` (45_transcendental.md R421 b): where the upper end is a power of two that the
value only approaches, the exponent below. -/
def Enclosure.log2 (e : Enclosure) : Int :=
  if !e.hi.le e.lo && e.hi.le ⟨1, 1, e.hi.log2⟩ then e.hi.log2 - 1 else e.hi.log2

/-- The enclosure times an exact value. -/
def Enclosure.times (e : Enclosure) (v : Exact) : Enclosure :=
  ⟨e.neg != v.neg, ⟨e.lo.num * v.mag.num, e.lo.den * v.mag.den, e.lo.exp + v.mag.exp⟩,
    ⟨e.hi.num * v.mag.num, e.hi.den * v.mag.den, e.hi.exp + v.mag.exp⟩⟩

/-! ### Series -/

/-- `term + term * (-y) / ((k+1)(k+2)) + …`, `n` terms: the tail of the sine (`k` odd) and cosine (`k` even) series. -/
def trigTail (y : Nat) : Nat → Nat → Int → Int
  | 0, _, _ => 0
  | n + 1, k, term => term + trigTail y n (k + 2) (-(term * y) / (fixOne * ((k + 1) * (k + 2)) : Nat))

/-- `sin t / t`, for `y = t²` in fixed point, `t ≤ π`. -/
def sinSeries (y : Nat) : Int := trigTail y 64 1 fixOne

/-- `cos t`, for `y = t²` in fixed point, `t ≤ π`. -/
def cosSeries (y : Nat) : Int := trigTail y 64 0 fixOne

/-- Euler's series for `(1 + t²) atan t / t`, for `z = t² / (1 + t²)` in fixed point, `z ≤ 1/2`. -/
def atanTail (z : Nat) : Nat → Nat → Nat → Nat
  | 0, _, _ => 0
  | n + 1, k, term => term + atanTail z n (k + 1) (term * z * (2 * k + 2) / (fixOne * (2 * k + 3)))

/-- The first 400 terms of Euler's series. -/
def atanSeries (z : Nat) : Nat := atanTail z 400 0 fixOne

/-- `1 + w/3 + w²/5 + …`, for `w` in fixed point. -/
def logTail (w : Nat) : Nat → Nat → Nat → Nat
  | 0, _, _ => 0
  | n + 1, k, power => power / (2 * k + 1) + logTail w n (k + 1) (power * w / fixOne)

/-- `atanh s / s`, for `w = s²` in fixed point, `w ≤ 1/9`. -/
def logSeries (w : Nat) : Nat := logTail w 120 0 fixOne

/-- `1 + z/2! + z²/3! + …`, for `z` in fixed point. -/
def expTail (z : Int) : Nat → Nat → Int → Int
  | 0, _, _ => 0
  | n + 1, k, term => term + expTail z n (k + 1) (term * z / (fixOne * (k + 2) : Nat))

/-- `(e^z - 1) / z`, for `z` in fixed point, `|z| < 1`. -/
def expSeries (z : Int) : Int := expTail z 80 0 fixOne

/-- `π` in fixed point: `π = 2 Σ` at `z = 1/2`. -/
def fixPi : Nat := 2 * atanSeries (fixOne / 2)

/-- `ln 2` in fixed point: `2 atanh (1/3)`. -/
def fixLn2 : Nat := 2 * logSeries (fixOne / 9) / 3

/-! ### True values -/

/-- `2 ^ 64 * P66`, the internal value of π (45_transcendental.md R423, 42_load_constants.md R301). -/
def p66 : Nat := 0x3243F6A8885A308D3

/-- `|n|`, `n` the integer nearest to `x / (2 * P66)`, and `x - n * 2 * P66` (45_transcendental.md R423, D34). -/
def reduceTurns (x : Exact) : Nat × Exact :=
  let e := min x.mag.exp (-63)
  let a := x.mag.num <<< (x.mag.exp - e).toNat
  let m := p66 <<< (-63 - e).toNat
  let r := a % m
  if 2 * r < m then (a / m, ⟨x.neg, ⟨r, 1, e⟩⟩) else (a / m + 1, ⟨!x.neg, ⟨m - r, 1, e⟩⟩)

/-- `x - n * 2 * P66` (45_transcendental.md R423). -/
def reduceAngle (x : Exact) : Exact := (reduceTurns x).2

/-- The square of a magnitude of denominator 1, in fixed point. -/
def squareFix (m : Mag) : Nat := shiftNat (m.num * m.num) (2 * m.exp + fixBits)

/-- The magnitude 1. -/
def Mag.one : Mag := ⟨1, 1, 0⟩

/-- The sine of a finite non-zero `x` (45_transcendental.md R423); `|sin t| < |t|`. -/
def trueSin (x : Exact) : Enclosure :=
  let t := reduceAngle x
  (enclose t.neg t.mag (sinSeries (squareFix t.mag)).natAbs).atMost t.mag

/-- The cosine of a finite non-zero `x`; `|cos t| < 1`. -/
def trueCos (x : Exact) : Enclosure :=
  let c := cosSeries (squareFix (reduceAngle x).mag)
  (enclose (decide (c < 0)) .one c.natAbs).atMost .one

/-- The tangent of a finite non-zero `x`; `|tan t| > |t|` where the cosine is positive. -/
def trueTan (x : Exact) : Enclosure :=
  let t := reduceAngle x
  let y := squareFix t.mag
  let c := cosSeries y
  let e := encloseRatio (t.neg != decide (c < 0)) t.mag (sinSeries y).natAbs c.natAbs
  if c < 0 then e else e.atLeast t.mag

/-- `n / 4` times π, with a sign. -/
def quarterPi (neg : Bool) (n : Nat) : Enclosure := enclose neg ⟨n, 1, -2⟩ fixPi

/-- `atan (n / d)` for `n ≤ d`; it is below `n / d`. -/
def atanRatio (n d : Nat) : Enclosure :=
  (enclose false ⟨n * d, n * n + d * d, 0⟩ (atanSeries (n * n * fixOne / (n * n + d * d)))).atMost ⟨n, d, 0⟩

/-- `atan (n / d)` in fixed point. -/
def atanFix (n d : Nat) : Nat :=
  n * d * atanSeries (n * n * fixOne / (n * n + d * d)) / (n * n + d * d)

/-- The angle of the point (`x`, `y`), both finite and non-zero (45_transcendental.md R434). -/
def trueAtan2 (y x : Exact) : Enclosure :=
  let e := min y.mag.exp x.mag.exp
  let n := y.mag.num <<< (y.mag.exp - e).toNat
  let d := x.mag.num <<< (x.mag.exp - e).toNat
  if n ≤ d then
    if x.neg then enclose y.neg .one (fixPi - atanFix n d)
    else { atanRatio n d with neg := y.neg }
  else if x.neg then enclose y.neg .one (fixPi / 2 + atanFix d n)
  else enclose y.neg .one (fixPi / 2 - atanFix d n)

/-- `log2 ((d + n) / d)` for a signed `n` with `|n|` at most half of `d`. -/
def log2Near (n : Int) (d : Nat) : Enclosure :=
  let sum := ((2 * d : Nat) + n).toNat
  encloseRatio (decide (n < 0)) ⟨2 * n.natAbs, sum, 0⟩
    (logSeries (n.natAbs * n.natAbs * fixOne / (sum * sum))) fixLn2

/-- `log2 x` of a finite positive `x`: `x = 2 ^ e * m` with `m` between 3/4 and 3/2. -/
def trueLog2 (x : Mag) : Enclosure :=
  let l := x.num.log2
  let l' := if 3 * 2 ^ l ≤ 2 * x.num then l + 1 else l
  let e := x.exp + l'
  let d : Nat := 2 ^ l'
  let n : Int := (x.num : Int) - d
  if n = 0 then .exactly ⟨decide (e < 0), ⟨e.natAbs, 1, 0⟩⟩
  else if e = 0 then log2Near n d
  else
    let sum := x.num + d
    let f : Int := 2 * n * logSeries (n.natAbs * n.natAbs * fixOne / (sum * sum)) * fixOne / (sum * fixLn2 : Nat)
    let v := e * fixOne + f
    enclose (decide (v < 0)) .one v.natAbs

/-- `log2 (x + 1)` of a finite `x` of magnitude at most 1/2. -/
def trueLog2p1 (x : Exact) : Enclosure :=
  let n := x.mag.num <<< x.mag.exp.toNat
  let d : Nat := 2 ^ (-x.mag.exp).toNat
  log2Near (if x.neg then -n else n) d

/-- `2 ^ x - 1` of a finite non-zero `x` of magnitude at most 1. -/
def trueExp2m1 (x : Exact) : Enclosure :=
  if x.mag.le .one && Mag.one.le x.mag then .exactly ⟨x.neg, ⟨1, 1, if x.neg then -1 else 0⟩⟩
  else
    let z := shiftNat (x.mag.num * fixLn2) x.mag.exp
    let f := (expSeries (if x.neg then -z else z)).natAbs
    enclose x.neg x.mag (f * fixLn2 / fixOne)

/-- The table of FPATAN for operands that are no NaN; none for an exact zero (45_transcendental.md R434). -/
def atan2Value (y x : Ext) : Option Enclosure :=
  let s := signOf y
  if classOf y = .zero then if signOf x then some (quarterPi s 4) else none
  else if classOf y = .infinity then
    if classOf x = .infinity then some (quarterPi s (if signOf x then 3 else 1)) else some (quarterPi s 2)
  else if classOf x = .zero then some (quarterPi s 2)
  else if classOf x = .infinity then if signOf x then some (quarterPi s 4) else none
  else some (trueAtan2 (valOf y) (valOf x))

/-- `f(operands)`, the correct value (45_transcendental.md R421 to R423). The functions of one operand have it in `x`. -/
def trueValue (f : TranscFn) (y x : Ext) : Enclosure :=
  match f with
  | .sin => trueSin (valOf x)
  | .cos => trueCos (valOf x)
  | .tan => trueTan (valOf x)
  | .atan2 => (atan2Value y x).getD (.exactly ⟨signOf y, ⟨0, 1, 0⟩⟩)
  | .ylog2x => (trueLog2 (magOf x)).times (valOf y)
  | .ylog2xp1 => (trueLog2p1 (valOf x)).times (valOf y)
  | .exp2m1 => trueExp2m1 (valOf x)

/-! ### Monotonicity -/

/-- `|Val(a)| ≤ |Val(b)|`, of finite values and infinities. -/
def magLe (a b : Ext) : Bool :=
  classOf b == .infinity || (classOf a != .infinity && (magOf a).le (magOf b))

/-- An interval of operands on which the sine, cosine and tangent of the reduced angle each have one sign and one
direction: the sign of the operand, the turns taken off, the sign of what remains and whether that is below `π / 2`
(45_transcendental.md R423). -/
structure Arc where
  neg : Bool
  turns : Nat
  left : Bool
  inner : Bool
  deriving DecidableEq, Repr

/-- `π / 2`. -/
def halfPi : Mag := ⟨fixPi, 1, -(fixBits : Int) - 1⟩

/-- The arc of a finite operand. -/
def arcOf (x : Exact) : Arc :=
  let r := reduceTurns x
  ⟨x.neg, r.1, r.2.neg, r.2.mag.le halfPi⟩

/-- Two angles on one arc, the magnitude of the reduced one not decreasing, or, if not `rising`, not increasing. -/
def angleOrder (rising : Bool) (x0 x : Exact) : Bool :=
  if rising then (reduceAngle x0).mag.le (reduceAngle x).mag else (reduceAngle x).mag.le (reduceAngle x0).mag

/-- Zero or positive. -/
def notNegative (x : Ext) : Bool := !signOf x || classOf x == .zero

/-- Zero or negative. -/
def notPositive (x : Ext) : Bool := signOf x || classOf x == .zero

/-- The point (0, 0), at which the angle is no function of the values (45_transcendental.md R434). -/
def atOrigin (y x : Ext) : Bool := classOf y == .zero && classOf x == .zero

/-- Operands `(y0, x0)` and `(y, x)` that intervals connect on which `f` is monotonic in one operand, along which `|f|`
does not decrease and the sign of `f` stays (45_transcendental.md R421 c). -/
def inOrder (f : TranscFn) (y0 x0 y x : Ext) : Bool :=
  match f with
  | .sin => y0 == y && arcOf (valOf x0) == arcOf (valOf x) && angleOrder (arcOf (valOf x)).inner (valOf x0) (valOf x)
  | .cos => y0 == y && arcOf (valOf x0) == arcOf (valOf x) && angleOrder (!(arcOf (valOf x)).inner) (valOf x0) (valOf x)
  | .tan => y0 == y && arcOf (valOf x0) == arcOf (valOf x) && angleOrder (arcOf (valOf x)).inner (valOf x0) (valOf x)
  | .atan2 =>
    signOf y0 == signOf y && !atOrigin y0 x0 && !atOrigin y x &&
      ((notNegative x0 && notNegative x && magLe y0 y && magLe x x0) ||
        (notPositive x0 && notPositive x && magLe y y0 && magLe x0 x) || (notNegative x0 && notPositive x))
  | .ylog2x =>
    signOf y0 == signOf y && signOf x0 == signOf x && magLe y0 y &&
      ((magLe one80 x0 && magLe x0 x) || (magLe x x0 && magLe x0 one80))
  | .ylog2xp1 => signOf y0 == signOf y && signOf x0 == signOf x && magLe y0 y && magLe x0 x
  | .exp2m1 => y0 == y && signOf x0 == signOf x && magLe x0 x

/-- The operands themselves, or operands before them in the order of `|f|`. -/
def notAbove (f : TranscFn) (y0 x0 y x : Ext) : Bool :=
  (y0 == y && x0 == x) || (isOrdered y0 && isOrdered x0 && inOrder f y0 x0 y x)

/-! ### The relation -/

/-- Has `c` in units of half an ulp at most 64 significant bits, for a `c` near `2 ^ 64`? -/
def halfUlpOk (c : Nat) : Bool := decide (c < 2 ^ 64) || (decide (c < 2 ^ 65) && c % 2 == 0) || c % 4 == 0

/-- Is `c * 2 ^ q` less than `bound * 2 ^ q` away from a value of the enclosure? -/
def withinBound (e : Enclosure) (c bound : Nat) (q : Int) : Bool :=
  (decide (c < bound) || !e.hi.le ⟨c - bound, 1, q⟩) && !Mag.le ⟨c + bound, 1, q⟩ e.lo

/-- `c * 2 ^ q` with a significand of 64 bits. -/
def gridPoint (q : Int) (c : Nat) : Nat × Int :=
  if c < 2 ^ 64 then (c, q) else if c < 2 ^ 65 then (c / 2, q + 1) else (c / 4, q + 2)

/-- The representable magnitudes, exponent unbounded, within the error bound of the true value, the largest first: less
than 1 ulp away to nearest, 1.5 ulps in the other modes, an ulp being `2 ^ (k - 63)` (45_transcendental.md R421 b). -/
def candidates (rm : RoundMode) (e : Enclosure) : List (Nat × Int) :=
  let q := e.log2 - 64
  let base := (roundAt .zero ⟨false, e.lo⟩ q).mant
  let bound := if rm = .nearest then 2 else 3
  (((List.range 8).map fun j => base + 4 - j).filter fun c => halfUlpOk c && withinBound e c bound q).map (gridPoint q)

/-- Is the magnitude that of an extended-real value, the exponent unbounded above: a multiple of the quantum of the
denormals? -/
def isExtended (g : Nat × Int) : Bool := g.1 % 2 ^ (-16445 - g.2).toNat == 0

/-- The magnitude rounded to the quantum of the denormals where its own is finer. -/
def toExtended (rm : RoundMode) (neg : Bool) (g : Nat × Int) : Nat × Int :=
  let r := roundAt rm ⟨neg, ⟨g.1, 1, g.2⟩⟩ (max g.2 (-16445))
  (r.mant, r.quantum)

/-- The extended-real magnitudes within the error bound (45_transcendental.md R421 a and b). Only a tiny true value may have
none; then they are those that a masked underflow rounds the computed ones to (R422, 40_numerics.md R213; log 22). -/
def extendedCandidates (rm : RoundMode) (e : Enclosure) : List (Nat × Int) :=
  let c := candidates rm e
  (if (c.filter isExtended).isEmpty then c else c.filter isExtended).map (toExtended rm e.neg)

/-- The magnitudes to choose from: extended-real ones, or, for the result that an unmasked underflow biases, those of
unbounded exponent (45_transcendental.md R422). -/
def choices (extended : Bool) (rm : RoundMode) (e : Enclosure) : List (Nat × Int) :=
  if extended then extendedCandidates rm e else candidates rm e

/-- Has the function come up to the magnitude `g` at these operands: at them or at operands before them it is the least
choice, or the free value `transcStep` says so (45_transcendental.md R421 c)? -/
def reached (extended : Bool) (rm : RoundMode) (f : TranscFn) (y x : Ext) (g : Nat × Int) : Bool :=
  decide (∃ y0 x0 : Ext, notAbove f y0 x0 y x = true ∧
    ((choices extended rm (trueValue f y0 x0)).getLast? = some g ∨
      Config.transcStep extended f rm y0 x0 g.1 g.2 = true))

/-- `|F_f(operands, rc)|` (45_transcendental.md R421), or the computed value of unbounded exponent that an unmasked
underflow biases (R422): the largest choice that is reached. Operands in order reach no less, so it is monotonic
(Laws/Transc.lean); and every `F_f` that the rule allows is this one for some free value. -/
def computedValue (extended : Bool) (rm : RoundMode) (f : TranscFn) (y x : Ext) : Nat × Int :=
  match (choices extended rm (trueValue f y x)).find? (reached extended rm f y x) with
  | some g => g
  | none =>
    let r := roundTo .nearest ⟨false, (trueValue f y x).lo⟩ 64
    toExtended rm (trueValue f y x).neg (r.mant, r.quantum)

/-- `Val(x) = v` is known: the true value is known exactly and equals the computed one. -/
def Enclosure.isExactly (e : Enclosure) (m : Mag) : Bool := e.hi.le e.lo && m.le e.lo && e.lo.le m

/-- `|Val(x)| > |v|`; free where the enclosure cannot tell (45_transcendental.md R422; log 21). -/
def Enclosure.below (e : Enclosure) (unknown : Bool) (m : Mag) : Bool :=
  if m.le e.lo then false else if e.hi.le m then true else unknown

/-- A computed magnitude `c` of the true value `e` delivered: the overflow, underflow and precision steps
(45_transcendental.md R422); it is tiny where `|v| < 2 ^ -16382`. -/
def transcDeliver (cw : Word16) (unknown : Bool) (e : Enclosure) (c : Nat × Int) : Delivered :=
  let m : Mag := ⟨c.1, 1, c.2⟩
  let r : Rounded := ⟨c.1, c.2, !e.isExactly m, e.below unknown m⟩
  if Mag.le ⟨1, 1, 16384⟩ m then deliverOverflow cw 64 e.neg r
  else if e.log2 < -16382 then
    if maskedIn cw .u then ⟨enc80 e.neg r.mant r.quantum, r.up, if r.inexact then [.u, .p] else []⟩
    else ⟨enc80 e.neg r.mant (r.quantum + 24576), r.up, .u :: inexactFlag r.inexact⟩
  else ⟨enc80 e.neg r.mant r.quantum, r.up, inexactFlag r.inexact⟩

/-- `Transc(f, operands)` (45_transcendental.md R422). -/
def transc (cw : Word16) (f : TranscFn) (y x : Ext) : Delivered :=
  transcDeliver cw (Config.transcUp f y x (roundMode cw)) (trueValue f y x)
    (computedValue (maskedIn cw .u || decide (-16382 ≤ (trueValue f y x).log2)) (roundMode cw) f y x)

/-! ### The instructions' own cases -/

/-- `|Val(x)| ≥ 2^63`, the range of the trigonometric functions (45_transcendental.md R424 step 4). -/
def beyondRange (x : Ext) : Bool := decide (63 ≤ (magOf x).log2)

/-- What the common front of FSIN, FCOS, FSINCOS and FPTAN answers for a non-empty register
(45_transcendental.md R424 steps 2 to 6). -/
inductive TrigFront
  /-- A NaN or an invalid operand: the value goes to every destination. -/
  | value (r : Reply Ext)
  /-- Out of range: C2 = 1 and nothing else. -/
  | outOfRange
  /-- The instruction's own step, after an unmasked #D is ruled out; the flag says whether DE is set. -/
  | go (denormal : Bool)
  /-- An unmasked #D. -/
  | abandoned
  deriving DecidableEq, Repr

/-- Steps 2 to 6 of `TrigFront` (45_transcendental.md R424). -/
def trigFront (cw : Word16) (x : Ext) : TrigFront :=
  match nanCheck1 x with
  | some r => .value (nanReply cw r)
  | none =>
    if classOf x = .infinity then .value (.pre cw .i indef80)
    else if classOf x ≠ .zero ∧ beyondRange x then .outOfRange
    else if isDenormal x then if maskedIn cw .d then .go true else .abandoned
    else .go false

/-- The sine of an in-range operand (45_transcendental.md R430). -/
def sinResult (cw : Word16) (x : Ext) : Delivered :=
  if classOf x = .zero then ⟨x, false, []⟩ else transc cw .sin 0 x

/-- The cosine of an in-range operand (45_transcendental.md R431). -/
def cosResult (cw : Word16) (x : Ext) : Delivered :=
  if classOf x = .zero then ⟨one80, false, []⟩ else transc cw .cos 0 x

/-- The tangent of an in-range operand (45_transcendental.md R433). -/
def tanResult (cw : Word16) (x : Ext) : Delivered :=
  if classOf x = .zero then ⟨x, false, []⟩ else transc cw .tan 0 x

/-- FPATAN on two non-empty registers, `y = ST(1)`, `x = ST(0)` (45_transcendental.md R434). -/
def atan2 (cw : Word16) (pick : Bool) (y x : Ext) : Reply Written :=
  match nanCheck2 pick x y with
  | some r => (nanReply cw r).map plain
  | none =>
    .afterDenormal cw (isDenormal x || isDenormal y)
      (if (atan2Value y x).isNone then .ok (plain (zero80 (signOf y))) else (transc cw .atan2 y x).reply)

/-- `Val(x)` compared with 1, for a finite positive `x`. -/
def relationToOne (x : Ext) : Relation := compareExt x one80

/-- FYL2X on two non-empty registers (45_transcendental.md R435): the invalid operands and the division by zero, then the
denormal test, then the exact results and the computation (40_numerics.md R246; log 16). -/
def yLog2x (cw : Word16) (pick : Bool) (x y : Ext) : Reply Written :=
  match nanCheck2 pick x y with
  | some r => (nanReply cw r).map plain
  | none =>
    let s := signOf y
    let below := decide (relationToOne x = .less)
    let exact (v : Ext) : Reply Written := .afterDenormal cw (isDenormal x || isDenormal y) (.ok (plain v))
    if classOf x = .zero then
      if classOf y = .zero then .pre cw .i (plain indef80)
      else if classOf y = .infinity then exact (inf80 !s)
      else .pre cw .z (plain (inf80 !s))
    else if signOf x then .pre cw .i (plain indef80)
    else if classOf x = .infinity then
      if classOf y = .zero then .pre cw .i (plain indef80) else exact (inf80 s)
    else if relationToOne x = .equal then
      if classOf y = .infinity then .pre cw .i (plain indef80) else exact (zero80 s)
    else if classOf y = .infinity then exact (inf80 (s != below))
    else if classOf y = .zero then exact (zero80 (s != below))
    else .afterDenormal cw (isDenormal x || isDenormal y) (transc cw .ylog2x y x).reply

/-- `|x| ≤ 1 - sqrt(2)/2`, that is `(1 - |x|)² ≥ 1/2` (45_transcendental.md R436). -/
def inLogDomain (x : Ext) : Bool :=
  let m := magOf x
  let n := m.num <<< m.exp.toNat
  let d : Nat := 2 ^ (-m.exp).toNat
  decide (n ≤ d) && decide (d * d ≤ 2 * ((d - n) * (d - n)))

/-- What F2XM1 and FYL2XP1 answer: a defined result, or the undefined one outside the domain. -/
inductive DomainReply
  /-- A result in the domain. -/
  | inside (r : Reply Written)
  /-- Outside the domain; the flag says whether DE is set. -/
  | outside (denormal : Bool)
  /-- An unmasked #D. -/
  | abandoned
  deriving DecidableEq, Repr

/-- A result outside the domain after the denormal test. -/
def outsideDomain (cw : Word16) (denormal : Bool) : DomainReply :=
  if denormal && !maskedIn cw .d then .abandoned else .outside denormal

/-- FYL2XP1 on two non-empty registers (45_transcendental.md R436; log 20). -/
def yLog2xp1 (cw : Word16) (pick : Bool) (x y : Ext) : DomainReply :=
  match nanCheck2 pick x y with
  | some r => .inside ((nanReply cw r).map plain)
  | none =>
    let denormal := isDenormal x || isDenormal y
    if signOf x && (classOf x == .infinity || !(magOf x).le .one) then .inside (.pre cw .i (plain indef80))
    else if classOf x = .infinity ∨ classOf y = .infinity then outsideDomain cw denormal
    else if classOf x = .zero then
      .inside (.afterDenormal cw denormal (.ok (plain (zero80 (signOf x != signOf y)))))
    else if inLogDomain x then
      .inside (.afterDenormal cw denormal
        (if classOf y = .zero then .ok (plain (zero80 (signOf x != signOf y)))
        else (transc cw .ylog2xp1 y x).reply))
    else outsideDomain cw denormal

/-- F2XM1 on a non-empty register (45_transcendental.md R437; log 20). -/
def exp2m1 (cw : Word16) (x : Ext) : DomainReply :=
  match nanCheck1 x with
  | some r => .inside ((nanReply cw r).map plain)
  | none =>
    if classOf x = .zero then .inside (.ok (plain x))
    else if classOf x = .infinity then .outside false
    else if (magOf x).le .one then
      .inside (.afterDenormal cw (isDenormal x) (transc cw .exp2m1 0 x).reply)
    else .outside false

end Sys2Proof.Machine
end

