-- ==== Sys2Proof/Machine/Ops.lean ====
section
/-! DEFINITION. The named operations over memory, registers and pointers; taking an exception; the course of every
instruction from its wait check to its end (40_numerics.md R240 to R245, 60_exceptions.md R550 to R556). -/

namespace Sys2Proof

/-- The instructions a processor may lack (30_encoding.md R144). -/
def Instr.optionalPresent (q : Machine.Params) : Instr → Bool
  | .fcmovb _ _ => q.hasFcmov
  | .fcmovnb _ _ => q.hasFcmov
  | .fcmove _ _ => q.hasFcmov
  | .fcmovne _ _ => q.hasFcmov
  | .fcmovbe _ _ => q.hasFcmov
  | .fcmovnbe _ _ => q.hasFcmov
  | .fcmovu _ _ => q.hasFcmov
  | .fcmovnu _ _ => q.hasFcmov
  | .fcomi _ _ => q.hasFcomi
  | .fcomip _ _ => q.hasFcomi
  | .fucomi _ _ => q.hasFcomi
  | .fucomip _ _ => q.hasFcomi
  | _ => true

end Sys2Proof

namespace Sys2Proof.Machine

/-! ### Memory -/

/-- What an address that memory does not list reads as: 00H (DESIGN CHOICE, unsafe: log 4). -/
def unlistedByte : Byte := 0

/-- Addresses strictly rise from `a` on and no listed byte is the unlisted one. -/
def wfFrom : Nat → Memory → Bool
  | _, [] => true
  | a, (k, b) :: r => decide (a ≤ k) && b != unlistedByte && wfFrom (k + 1) r

/-- The canonical form of memory (log 4). -/
def Memory.wf (m : Memory) : Bool := wfFrom 0 m

/-- The byte at an address (20_memory.md R101). -/
def readByte : Memory → Nat → Byte
  | [], _ => unlistedByte
  | (k, b) :: r, a => if k = a then b else readByte r a

/-- Memory without an entry for an address. -/
def eraseByte : Memory → Nat → Memory
  | [], _ => []
  | (k, b) :: r, a => if k = a then eraseByte r a else (k, b) :: eraseByte r a

/-- Memory with an entry put before the first higher address. -/
def insertByte : Memory → Nat → Byte → Memory
  | [], a, v => [(a, v)]
  | (k, b) :: r, a, v => if a < k then (a, v) :: (k, b) :: r else (k, b) :: insertByte r a v

/-- Store a byte, keeping the canonical form. -/
def writeByte (m : Memory) (a : Nat) (v : Byte) : Memory :=
  if v = unlistedByte then eraseByte m a else insertByte (eraseByte m a) a v

/-- `n` bytes at rising addresses, which wrap at 2^32 (20_memory.md R100; log 3). -/
def readBytes (m : Memory) (a : Word32) : Nat → List Byte
  | 0 => []
  | n + 1 => readByte m a.toNat :: readBytes m (a + 1) n

/-- Store bytes at rising addresses (20_memory.md R100). -/
def writeBytes (m : Memory) (a : Word32) : List Byte → Memory
  | [] => m
  | b :: r => writeBytes (writeByte m a.toNat b) (a + 1) r

/-- The number that bytes hold, least significant first (00_scope.md R12). -/
def fromBytes : List Byte → Nat
  | [] => 0
  | b :: r => b.toNat + 256 * fromBytes r

/-- The `n` low bytes of a number, least significant first (00_scope.md R12). -/
def toBytes (v : Nat) : Nat → List Byte
  | 0 => []
  | n + 1 => BitVec.ofNat 8 v :: toBytes (v / 256) n

/-- Is `a` one of the `n` addresses from `start` on? -/
def inRange (start : Word32) (n : Nat) (a : Nat) : Bool :=
  (List.range n).any fun j => (start + BitVec.ofNat 32 j).toNat == a

/-- Replace memory. -/
def State.setMem (s : State) (m : Memory) : State := { s with mem := m }

/-- `MemRead(addr, n)` (00_scope.md R12). -/
def State.read (s : State) (a : Word32) (n : Nat) : Nat := fromBytes (readBytes s.mem a n)

/-- `MemWrite(addr, n, v)` (00_scope.md R12). -/
def State.write (s : State) (a : Word32) (n v : Nat) : State := s.setMem (writeBytes s.mem a (toBytes v n))

/-! ### Data registers and the stack -/

/-- Replace the data registers. -/
def State.setRegs (s : State) (r : Vector Ext 8) : State := { s with regs := r }

/-- R[k] (00_scope.md R11). -/
def State.reg (s : State) (k : Idx) : Ext := s.regs[k.toNat]

/-- Write R[k], without its tag. -/
def State.putReg (s : State) (k : Idx) (x : Ext) : State := s.setRegs (s.regs.set k.toNat x)

/-- Write R[k] and set its tag (10_state.md R68, R70). -/
def State.load (s : State) (k : Idx) (x : Ext) : State := (s.putReg k x).setTag k (tagOf x)

/-- ST(i) (00_scope.md R11). -/
def State.st (s : State) (i : Idx) : Ext := s.reg (s.phys i)

/-- `SetST(i, x)` (40_numerics.md R216). -/
def State.setST (s : State) (i : Idx) (x : Ext) : State := s.load (s.phys i) x

/-- Would a push overflow the stack (40_numerics.md R240)? -/
def State.pushFull (s : State) : Bool := s.tag (s.top - 1) != emptyTag

/-- The push itself: TOP moves and the new ST(0) is written (40_numerics.md R240). -/
def State.push (s : State) (x : Ext) : State := (s.setTop (s.top - 1)).setST 0 x

/-- `Pop()` (40_numerics.md R241). -/
def State.pop (s : State) : State := (s.setTag s.top emptyTag).setTop (s.top + 1)

/-- `n` pops. -/
def State.popN (s : State) : Nat → State
  | 0 => s
  | n + 1 => s.pop.popN n

/-- Pop if the instruction's name says so. -/
def State.popIf (s : State) (b : Bool) : State := if b then s.pop else s

/-! ### Pointer registers, host registers, events -/

/-- Replace FIP, FDP and FOP. -/
def State.setPointers (s : State) (fip fdp : FarPtr) (fop : BitVec 11) : State :=
  { s with fip := fip, fdp := fdp, fop := fop }

/-- The position of a segment register in `State.segs`. -/
def segIndex : SegReg → Fin 6
  | .es => 0
  | .cs => 1
  | .ss => 2
  | .ds => 3
  | .fs => 4
  | .gs => 5

/-- A segment selector. -/
def State.seg (s : State) (r : SegReg) : Word16 := s.segs[segIndex r]

/-- A general register of the host. -/
def State.gpr (s : State) (r : Gpr) : Word32 := s.gprs[r.code.toNat]

/-- Write AX, the low half of EAX (10_state.md R85; log 5). -/
def State.setAx (s : State) (v : Word16) : State :=
  { s with gprs := s.gprs.set 0 ((s.gprs[0].extractLsb' 16 16) ++ v) }

/-- Write host.ZF, host.PF and host.CF (10_state.md R85). -/
def State.setHostFlags (s : State) (zf pf cf : Bool) : State := { s with zf := zf, pf := pf, cf := cf }

/-- The host's pc (92_eei_decisions.md D2). -/
def State.pc (s : State) : FarPtr := s.seg .cs ++ s.eip

/-- Replace the offset of the pc. -/
def State.setEip (s : State) (a : Word32) : State := { s with eip := a }

/-- Raise a host event (70_reset_and_hazards.md R615). -/
def State.emit (s : State) (e : HostEvent) : State := { s with events := s.events ++ [e] }

/-- Change FERR# and report the change (60_exceptions.md R554, 70_reset_and_hazards.md R615). -/
def State.setFerr (s : State) (b : Bool) : State := if s.ferr = b then s else { s with ferr := b }.emit (.ferr b)

/-- Enter or leave the freeze. -/
def State.setFrozen (s : State) (b : Bool) : State := { s with frozen := b }

/-- Acknowledge the external interrupt. -/
def State.setIntr (s : State) (b : Bool) : State := { s with intr := b }

/-- One more instruction has been executed; the next one draws afresh (log 6). -/
def State.nextDraw (s : State) : State := { s with draws := s.draws + 1 }

/-- The state that FNINIT leaves, apart from the data registers, which keep their bits (10_state.md R90). -/
def State.initialized (s : State) : State :=
  (((s.setCw 0x037F).setSw 0).setTw 0xFFFF).setPointers 0 0 0

/-! ### Taking an exception -/

/-- What the wait check finds (40_numerics.md R245 step 1, 46_control.md R505). -/
inductive WaitCheck
  /-- Nothing is pending, or the MS-DOS mode ignores it (60_exceptions.md R556). -/
  | proceed
  /-- `#MF` (60_exceptions.md R552). -/
  | raise
  /-- The freeze (60_exceptions.md R555). -/
  | freeze
  deriving DecidableEq, Repr

/-- The wait check (40_numerics.md R245 step 1). -/
def State.waitCheck (s : State) : WaitCheck :=
  if !s.es then .proceed
  else if s.ne then .raise
  else if s.ignne then .proceed
  else .freeze

/-- `raise #MF`: the host gets vector 16 with the pc of the waiting instruction; no FPU state changes and the pc stays
(60_exceptions.md R551, R552; log 7). -/
def State.raiseMF (s : State) : State := s.emit (.mf s.pc)

/-- `freeze`: FERR# is asserted if it was not, and nothing further executes (60_exceptions.md R555; log 8). -/
def State.freeze (s : State) : State := ((s.setFerr true).setFrozen true).emit (.freeze s.pc)

/-- The external interrupt ends the freeze; its return pointer is the frozen instruction (60_exceptions.md R555). -/
def State.deliverInterrupt (s : State) : State := ((s.setFrozen false).setIntr false).emit (.interrupt s.pc)

/-- A host fault on the memory operand, taken instead of the instruction (20_memory.md R111; log 24). -/
def State.raiseOperandFault (s : State) : State := s.emit (.operandFault s.pc)

/-- The host's invalid-opcode exception (30_encoding.md R140). -/
def State.raiseInvalidOpcode (s : State) : State := s.emit (.invalidOpcode s.pc)

/-- A stack fault and its masked response (60_exceptions.md R526). -/
def State.onStackFault (s : State) (overflow : Bool) (masked : State → State) : State :=
  if (s.stackFault overflow).masked .i then masked (s.stackFault overflow) else s.stackFault overflow

/-! ### The course of an instruction -/

/-- FERR# follows ES (60_exceptions.md R554; log 9): deasserted when ES is 0; asserted at once for a new pending
exception in the MS-DOS mode with IGNNE# deasserted, if the implementation does not defer it. -/
def State.settleFerr (s : State) (esBefore : Bool) : State :=
  if !s.es then s.setFerr false
  else if !esBefore && !s.ne && !s.ignne && Config.ferrImmediate s.draws then s.setFerr true
  else s

/-- The end of an instruction of `len` bytes: FERR# settles and the pc moves on (10_state.md R86). -/
def State.retire (s : State) (len : Nat) (esBefore : Bool) : State :=
  ((s.settleFerr esBefore).setEip (s.eip + BitVec.ofNat 32 len)).nextDraw

/-- The FERR# pin: never asserted while ES is 0 (70_reset_and_hazards.md R593); in native mode otherwise undescribed; in
the MS-DOS mode not asserted while IGNNE# is asserted either (60_exceptions.md R554). -/
def State.ferrPin (s : State) : Bool :=
  s.es && if s.ne then Config.ferrNative s.draws else !s.ignne && s.ferr

/-- An instruction's own operation. -/
abbrev Body := State → Except Refusal State

/-- The operation followed by its end. -/
def complete (i : Instr) (s : State) (r : Except Refusal State) : Result :=
  match r with
  | .ok t => .next (t.retire i.length s.es)
  | .error e => .refused e

/-- The wait check before the rest of an instruction (40_numerics.md R245 step 1). -/
def afterWait (s : State) (rest : Result) : Result :=
  match s.waitCheck with
  | .proceed => rest
  | .raise => .next s.raiseMF
  | .freeze => .next s.freeze

/-- The pointer update of a non-control instruction (40_numerics.md R245 step 2, 10_state.md R76, R77). -/
def State.record (s : State) (i : Instr) (operand : Option FarPtr) : State :=
  s.setPointers s.pc (operand.getD (Config.undefFdp s.draws)) i.fop

/-- Does the host fault an access of `n` bytes at `a` (20_memory.md R111; log 24)? -/
def State.operandDenied (s : State) (a : Word32) (n : Nat) : Bool :=
  s.denied.any fun d => (List.range n).any fun j =>
    let k := (a + BitVec.ofNat 32 j).toNat
    decide (d.1 ≤ k) && decide (k < d.1 + d.2)

/-- An instruction whose operand may be faulted by the host. -/
def withOperand (s : State) (a : Word32) (n : Nat) (rest : Result) : Result :=
  if s.operandDenied a n then .next s.raiseOperandFault else rest

/-! ### Fetching -/

/-- The bytes at the pc (20_memory.md R109), as many as any instruction there can have: prefixes are bytes that memory
lists, and at most 8 bytes are no prefix (30_encoding.md R131; Laws/Fetch.lean). -/
def State.fetchWindow (s : State) : List Byte := readBytes s.mem s.eip (s.mem.length + 16)

/-- Memory with the bytes of an opcode-table word at the pc (log 29, log 30). -/
def State.placeWord (s : State) (nbits w : Nat) : State :=
  s.setMem (writeBytes s.mem s.eip (tableWindow nbits w))

/-- An optional instruction: reserved where the processor lacks it (30_encoding.md R144). -/
def ifPresent (present : Bool) (r : Result) : Result := if present then r else .refused .optionalAbsent

/-- Bytes that the decoder refuses (30_encoding.md R140, R142, R144). LOCK before an instruction that the processor lacks
stands before a reserved encoding, which is refused. The invalid-opcode exception of LOCK comes before the wait check, a
pending exception or not: the spec gives no order of the two (DESIGN CHOICE: log 10). -/
def State.undecoded (s : State) : DecodeError → Result
  | .truncated => .refused .endlessPrefixes
  | .reserved => .refused .reservedEncoding
  | .hostInstruction => .refused .hostInstruction
  | .lockPrefix i => ifPresent (i.optionalPresent s.params) (.next s.raiseInvalidOpcode)
  | .repPrefix => .refused .repPrefix

/-- A frozen processor: only the external interrupt leads on (60_exceptions.md R555). -/
def State.stayFrozen (s : State) : Result := if s.intr then .next s.deliverInterrupt else .fault .frozen

end Sys2Proof.Machine
end

