-- ==== Sys2Proof/Machine/Operands.lean ====
section
/-! DEFINITION. The operand forms: effective address and segment of a memory operand (30_encoding.md R136, R140), and
the prologue and end of an instruction of each form (40_numerics.md R245). -/

namespace Sys2Proof.Machine

/-! ### Addresses -/

/-- A displacement as a number of the address size, disp8 sign-extended (30_encoding.md R136). -/
def dispValue {w : Nat} : Disp w → BitVec w
  | .none => 0
  | .short d => d.signExtend w
  | .full d => d

/-- The low half of a general register. -/
def State.gpr16 (s : State) (r : Gpr) : Word16 := (s.gpr r).extractLsb' 0 16

/-- The register sum of a 16-bit mode (30_encoding.md R136). -/
def State.base16 (s : State) : Base16 → Word16
  | .bxsi => s.gpr16 .ebx + s.gpr16 .esi
  | .bxdi => s.gpr16 .ebx + s.gpr16 .edi
  | .bpsi => s.gpr16 .ebp + s.gpr16 .esi
  | .bpdi => s.gpr16 .ebp + s.gpr16 .edi
  | .si => s.gpr16 .esi
  | .di => s.gpr16 .edi
  | .bp => s.gpr16 .ebp
  | .bx => s.gpr16 .ebx

/-- The scaled index of a SIB byte (30_encoding.md R136). -/
def State.indexValue (s : State) (i : Option Gpr) (scale : BitVec 2) : Word32 :=
  match i with
  | none => 0
  | some r => s.gpr r <<< scale.toNat

/-- `ea` (30_encoding.md R136): sums modulo 2^32, or modulo 2^16 in the 16-bit modes. -/
def State.ea (s : State) : AddrMode → Word32
  | .abs32 d => d
  | .reg32 b d => s.gpr b + dispValue d
  | .sib32 b i sc d => s.gpr b + s.indexValue i sc + dispValue d
  | .sibAbs32 i sc d => d + s.indexValue i sc
  | .abs16 d => d.setWidth 32
  | .reg16 b d => (s.base16 b + dispValue d).setWidth 32

/-- The default segment (30_encoding.md R136). -/
def defaultSeg : AddrMode → SegReg
  | .abs32 _ => .ds
  | .reg32 b _ => if b = .esp ∨ b = .ebp then .ss else .ds
  | .sib32 b _ _ _ => if b = .esp ∨ b = .ebp then .ss else .ds
  | .sibAbs32 _ _ _ => .ds
  | .abs16 _ => .ds
  | .reg16 b _ => if b = .bp ∨ b = .bpsi ∨ b = .bpdi then .ss else .ds

/-- The last segment override among the prefixes (30_encoding.md R140; log 10). -/
def segOverride : Prefixes → Option SegReg
  | [] => none
  | .seg r :: p => some ((segOverride p).getD r)
  | .opSize :: p => segOverride p
  | .addrSize :: p => segOverride p
  | .repne :: p => segOverride p
  | .rep :: p => segOverride p

/-- The segment of a memory operand. -/
def operandSeg (p : Prefixes) (m : AddrMode) : SegReg := (segOverride p).getD (defaultSeg m)

/-- `seg ++ ea`, what FDP records (10_state.md R76). -/
def State.operandPtr (s : State) (p : Prefixes) (m : AddrMode) : FarPtr := s.seg (operandSeg p m) ++ s.ea m

/-! ### The operand-size attribute and the image format -/

/-- The operand-size attribute in effect: 66H toggles it (30_encoding.md R140). -/
def State.opSize (s : State) (p : Prefixes) : Bool := s.opSize32 != p.contains .opSize

/-- `IMAGE_FORMAT` (20_memory.md R112). -/
def State.imageFormat (s : State) (p : Prefixes) : ImageFormat :=
  match s.mode, s.opSize p with
  | .protectedMode, true => .p32
  | .protectedMode, false => .p16
  | _, true => .r32
  | _, false => .r16

/-! ### The forms -/

/-- A waiting, non-control instruction without a memory operand (40_numerics.md R245). -/
def runReg (i : Instr) (body : Body) (s : State) : Result :=
  afterWait s (complete i s (body (s.record i none)))

/-- A waiting, non-control instruction with a memory operand of `n` bytes (40_numerics.md R245). -/
def runMem (i : Instr) (p : Prefixes) (m : AddrMode) (n : Nat) (body : Word32 → Body) (s : State) : Result :=
  afterWait s (withOperand s (s.ea m) n
    (complete i s (body (s.ea m) (s.record i (some (s.operandPtr p m))))))

/-- A non-waiting control instruction without a memory operand (46_control.md R460). -/
def runPlainControl (i : Instr) (body : State → State) (s : State) : Result := complete i s (.ok (body s))

/-- A non-waiting control instruction with a memory operand of `n` bytes; after `afterWait`, its waiting version, whose
operand fault reports, as its #MF does, the pc of the byte 9BH: the spec does not say which of the pair's two bytes
(46_control.md R461; DESIGN CHOICE: log 11). -/
def runMemControl (i : Instr) (m : AddrMode) (n : Nat) (body : Word32 → State → State) (s : State) : Result :=
  withOperand s (s.ea m) n (complete i s (.ok (body (s.ea m) s)))

/-! ### Register and memory sources -/

/-- A single-real operand (40_numerics.md R220). -/
def State.m32real (s : State) (a : Word32) : Operand := fromReal single (s.read a 4)

/-- A double-real operand (40_numerics.md R221). -/
def State.m64real (s : State) (a : Word32) : Operand := fromReal double (s.read a 8)

/-- An extended-real operand, unchanged (40_numerics.md R232). -/
def State.m80real (s : State) (a : Word32) : Ext := BitVec.ofNat 80 (s.read a 10)

/-- A word-integer operand (40_numerics.md R223). -/
def State.m16int (s : State) (a : Word32) : Operand := .of (fromInt (sint 16 (s.read a 2)))

/-- A short-integer operand (40_numerics.md R223). -/
def State.m32int (s : State) (a : Word32) : Operand := .of (fromInt (sint 32 (s.read a 4)))

/-- A long-integer operand (40_numerics.md R223). -/
def State.m64int (s : State) (a : Word32) : Operand := .of (fromInt (sint 64 (s.read a 8)))

/-- A register operand. -/
def State.stOperand (s : State) (i : Idx) : Operand := .of (s.st i)

end Sys2Proof.Machine
end

