-- ==== Sys2Proof/Machine/Compare.lean ====
section
/-! DEFINITION. Comparison and classification instructions (44_comparison.md). -/

namespace Sys2Proof.Machine

/-! ### Shared operations -/

/-- Where a comparison writes its result (44_comparison.md R383). -/
inductive CompareDest
  /-- The condition codes C3, C2, C0. -/
  | codes
  /-- The host's ZF, PF, CF. -/
  | eflags
  deriving DecidableEq, Repr

/-- Write a relation (44_comparison.md R381, R383 step 5). -/
def writeRelation (dest : CompareDest) (r : Relation) (s : State) : State :=
  match dest with
  | .codes => s.setCodes r.codes.1 r.codes.2.1 r.codes.2.2
  | .eflags => (s.setHostFlags r.codes.1 r.codes.2.1 r.codes.2.2).drawCodes

/-- `Cmp` (44_comparison.md R383); `empty`: a register operand is empty. -/
def compareInto (dest : CompareDest) (quiet testD : Bool) (pops : Nat) (empty : Bool) (a b : Operand) (s : State) :
    State :=
  if empty then s.onStackFault false fun t => (writeRelation dest .unordered t).popN pops
  else
    match (compare s.cw quiet testD a b).value with
    | none => s.signalAll (compare s.cw quiet testD a b).flags
    | some r =>
      ((writeRelation dest r (s.signalAll (compare s.cw quiet testD a b).flags)).setC1 false).popN pops

/-- ST(0) compared with ST(i). -/
def compareStack (dest : CompareDest) (quiet testD : Bool) (pops : Nat) (i : Idx) (s : State) : State :=
  compareInto dest quiet testD pops (s.isEmpty 0 || s.isEmpty i) (s.stOperand 0) (s.stOperand i) s

/-- ST(0) compared with a value that is no register; #D is tested (44_comparison.md R384, R390, R396). -/
def compareTop (pops : Nat) (b : Operand) (s : State) : State :=
  compareInto .codes false true pops (s.isEmpty 0) (s.stOperand 0) b s

/-- FXAM's codes: empty, or by class (44_comparison.md R397). -/
def examineTop (s : State) : State :=
  let c := if s.isEmpty 0 then (true, false, true) else examineCodes (s.st 0)
  (s.setCodes c.1 c.2.1 c.2.2).setC1 (signOf (s.st 0))

/-! ### Instructions -/

/-- FCOM m32real: compare (44_comparison.md R384). -/
def execFcomM32real (p : Prefixes) (m : AddrMode) (s : State) : Result :=
  runMem (.fcomM32real p m) p m 4 (fun a t => .ok (compareTop 0 (t.m32real a) t)) s

/-- FCOM m64real: compare (44_comparison.md R384). -/
def execFcomM64real (p : Prefixes) (m : AddrMode) (s : State) : Result :=
  runMem (.fcomM64real p m) p m 8 (fun a t => .ok (compareTop 0 (t.m64real a) t)) s

/-- FCOM ST(i): compare (44_comparison.md R384). -/
def execFcomSti (p : Prefixes) (i : Idx) (s : State) : Result :=
  runReg (.fcomSti p i) (fun t => .ok (compareStack .codes false true 0 i t)) s

/-- FICOM m16int: compare, integer (44_comparison.md R390). -/
def execFicomM16int (p : Prefixes) (m : AddrMode) (s : State) : Result :=
  runMem (.ficomM16int p m) p m 2 (fun a t => .ok (compareTop 0 (t.m16int a) t)) s

/-- FICOM m32int: compare, integer (44_comparison.md R390). -/
def execFicomM32int (p : Prefixes) (m : AddrMode) (s : State) : Result :=
  runMem (.ficomM32int p m) p m 4 (fun a t => .ok (compareTop 0 (t.m32int a) t)) s

/-- FCOMP m32real: compare and pop (44_comparison.md R385). -/
def execFcompM32real (p : Prefixes) (m : AddrMode) (s : State) : Result :=
  runMem (.fcompM32real p m) p m 4 (fun a t => .ok (compareTop 1 (t.m32real a) t)) s

/-- FCOMP m64real: compare and pop (44_comparison.md R385). -/
def execFcompM64real (p : Prefixes) (m : AddrMode) (s : State) : Result :=
  runMem (.fcompM64real p m) p m 8 (fun a t => .ok (compareTop 1 (t.m64real a) t)) s

/-- FCOMP ST(i): compare and pop (44_comparison.md R385). -/
def execFcompSti (p : Prefixes) (i : Idx) (s : State) : Result :=
  runReg (.fcompSti p i) (fun t => .ok (compareStack .codes false true 1 i t)) s

/-- FICOMP m16int: compare and pop, integer (44_comparison.md R391). -/
def execFicompM16int (p : Prefixes) (m : AddrMode) (s : State) : Result :=
  runMem (.ficompM16int p m) p m 2 (fun a t => .ok (compareTop 1 (t.m16int a) t)) s

/-- FICOMP m32int: compare and pop, integer (44_comparison.md R391). -/
def execFicompM32int (p : Prefixes) (m : AddrMode) (s : State) : Result :=
  runMem (.ficompM32int p m) p m 4 (fun a t => .ok (compareTop 1 (t.m32int a) t)) s

/-- FCOMPP: compare ST(0) with ST(1) and pop twice (44_comparison.md R386). -/
def execFcompp (p : Prefixes) (s : State) : Result :=
  runReg (.fcompp p) (fun t => .ok (compareStack .codes false true 2 1 t)) s

/-- FUCOM ST(i): unordered compare (44_comparison.md R387). -/
def execFucom (p : Prefixes) (i : Idx) (s : State) : Result :=
  runReg (.fucom p i) (fun t => .ok (compareStack .codes true true 0 i t)) s

/-- FUCOMP ST(i): unordered compare and pop (44_comparison.md R388). -/
def execFucomp (p : Prefixes) (i : Idx) (s : State) : Result :=
  runReg (.fucomp p i) (fun t => .ok (compareStack .codes true true 1 i t)) s

/-- FUCOMPP: unordered compare ST(0) with ST(1) and pop twice (44_comparison.md R389). -/
def execFucompp (p : Prefixes) (s : State) : Result :=
  runReg (.fucompp p) (fun t => .ok (compareStack .codes true true 2 1 t)) s

/-- FTST: compare ST(0) with 0.0 (44_comparison.md R396). -/
def execFtst (p : Prefixes) (s : State) : Result :=
  runReg (.ftst p) (fun t => .ok (compareTop 0 (.of (zero80 false)) t)) s

/-- FCOMI ST(0), ST(i): compare and set EFLAGS (44_comparison.md R392). -/
def execFcomi (p : Prefixes) (i : Idx) (s : State) : Result :=
  ifPresent s.params.hasFcomi
    (runReg (.fcomi p i) (fun t => .ok (compareStack .eflags false false 0 i t)) s)

/-- FCOMIP ST(0), ST(i): compare, set EFLAGS and pop (44_comparison.md R393). -/
def execFcomip (p : Prefixes) (i : Idx) (s : State) : Result :=
  ifPresent s.params.hasFcomi
    (runReg (.fcomip p i) (fun t => .ok (compareStack .eflags false false 1 i t)) s)

/-- FUCOMI ST(0), ST(i): unordered compare and set EFLAGS (44_comparison.md R394). -/
def execFucomi (p : Prefixes) (i : Idx) (s : State) : Result :=
  ifPresent s.params.hasFcomi
    (runReg (.fucomi p i) (fun t => .ok (compareStack .eflags true false 0 i t)) s)

/-- FUCOMIP ST(0), ST(i): unordered compare, set EFLAGS and pop (44_comparison.md R395). -/
def execFucomip (p : Prefixes) (i : Idx) (s : State) : Result :=
  ifPresent s.params.hasFcomi
    (runReg (.fucomip p i) (fun t => .ok (compareStack .eflags true false 1 i t)) s)

/-- FXAM: classify ST(0) (44_comparison.md R397). -/
def execFxam (p : Prefixes) (s : State) : Result :=
  runReg (.fxam p) (fun t => .ok (examineTop t)) s

end Sys2Proof.Machine
end

