-- ==== Sys2Proof/Machine/Control.lean ====
section
/-! DEFINITION. FPU control instructions and the images they store and load (46_control.md, 20_memory.md R112 to
R119). -/

namespace Sys2Proof.Machine

/-! ### Images -/

/-- The linear address of a pointer register (20_memory.md R114). -/
def linear (p : FarPtr) : Word32 := ((p.extractLsb' 32 16).setWidth 32 <<< 4) + p.extractLsb' 0 32

/-- The status word as it is stored (10_state.md R47). -/
def State.storedSw (s : State) : Word16 := Machine.storedSw s.sw

/-- A field of an image as it is stored (20_memory.md R113 to R117). -/
def State.envField (s : State) : EnvField → Nat
  | .control => s.cw.toNat
  | .status => s.storedSw.toNat
  | .tags => s.tw.toNat
  | .fip => s.fip.toNat
  | .fdp => s.fdp.toNat
  | .ipLinear => (linear s.fip).toNat
  | .opLinear => (linear s.fdp).toNat
  | .opcode => s.fop.toNat
  | .register i => (s.st i).toNat
  | .reserved => Config.undefReserved s.draws
  | .zero => 0

/-- The number that pieces of an image make, the first at bit 0 (20_memory.md R112). -/
def storedPieces (s : State) : List EnvPiece → Nat
  | [] => 0
  | p :: r => s.envField p.field / 2 ^ p.low % 2 ^ p.width + 2 ^ p.width * storedPieces s r

/-- An image as a number: every field where `ENV_LAYOUT` puts it (20_memory.md R112). -/
def imageNumber (f : ImageFormat) (k : ImageKind) (s : State) : Nat := storedPieces s (s.params.envLayout.pieces f k)

/-- The bytes of an image. -/
def storedImage (f : ImageFormat) (k : ImageKind) (s : State) : List Byte := toBytes (imageNumber f k s) (f.bytes k)

/-- Store bytes. -/
def State.writeImage (s : State) (a : Word32) (bs : List Byte) : State := s.setMem (writeBytes s.mem a bs)

/-- What an environment image holds (20_memory.md R112, R118). -/
structure Environment where
  cw : Word16
  sw : Word16
  tw : Word16
  fip : FarPtr
  fdp : FarPtr
  fop : BitVec 11
  deriving DecidableEq, Repr

/-- A pointer with a selector and offset of the model's own choosing (free) and a given linear address
(20_memory.md R118; log 23). -/
def pointerTo (free : FarPtr) (lin : Word32) : FarPtr :=
  free.extractLsb' 32 16 ++ (lin - ((free.extractLsb' 32 16).setWidth 32 <<< 4))

/-- The bits of a field that the pieces of an image hold, in their places. -/
def loadedPieces (image : Nat) (field : EnvField) : List EnvPiece → Nat
  | [] => 0
  | p :: r =>
    (if p.field = field then (image % 2 ^ p.width) <<< p.low else 0) ||| loadedPieces (image / 2 ^ p.width) field r

/-- A field read from an image: each bit where the layout has it, `free` where the layout does not
(20_memory.md R118). -/
def loadedField {w : Nat} (pieces : List EnvPiece) (image : Nat) (field : EnvField) (free : BitVec w) : BitVec w :=
  BitVec.ofNat w (loadedPieces image field pieces) ||| (free &&& ~~~(BitVec.ofNat w (fieldMask pieces field)))

/-- A pointer read from an image: selector and offset, or a linear address in the real-address formats
(20_memory.md R118). -/
def loadedPointer (f : ImageFormat) (pieces : List EnvPiece) (image : Nat) (far lin : EnvField) (free : FarPtr) : FarPtr :=
  if f.isReal then pointerTo free (loadedField pieces image lin (free.extractLsb' 0 32))
  else loadedField pieces image far free

/-- The environment in the image at `a`, under the layout of the machine (20_memory.md R112 to R118). What the image does
not carry is free. -/
def readEnvironment (f : ImageFormat) (k : ImageKind) (a : Word32) (s : State) : Environment :=
  let pieces := s.params.envLayout.pieces f k
  let image := s.read a (f.bytes k)
  { cw := loadedField pieces image .control s.cw
    sw := loadedField pieces image .status s.sw
    tw := loadedField pieces image .tags s.tw
    fip := loadedPointer f pieces image .fip .ipLinear (Config.undefPointer s.draws false)
    fdp := loadedPointer f pieces image .fdp .opLinear (Config.undefPointer s.draws true)
    fop := loadedField pieces image .opcode (Config.undefFop s.draws) }

/-- ST(i) in the state image at `a` (20_memory.md R117). -/
def readRegister (f : ImageFormat) (a : Word32) (i : Idx) (s : State) : Ext :=
  loadedField (s.params.envLayout.pieces f .state) (s.read a f.stateBytes) (.register i) (s.st i)

/-- The tag of a register after a load of the tag image (10_state.md R69). -/
def loadedTag (image : Word16) (regs : Vector Ext 8) (k : Idx) : BitVec 2 :=
  if tagAt image k = emptyTag then emptyTag else tagOf regs[k.toNat]

/-- The tag word of eight tags. -/
def tagWord (t : Idx → BitVec 2) : Word16 := t 7 ++ t 6 ++ t 5 ++ t 4 ++ t 3 ++ t 2 ++ t 1 ++ t 0

/-- Load the environment registers; tags and ES are recomputed (46_control.md R484). -/
def loadEnvironment (e : Environment) (s : State) : State :=
  ((((s.setCw e.cw).setSw e.sw).setTw (tagWord (loadedTag e.tw s.regs))).setPointers e.fip e.fdp e.fop).resummarize

/-- The data registers in the state image at `a`, in the order of a TOP (20_memory.md R117). -/
def readRegisters (f : ImageFormat) (a : Word32) (top : Idx) (s : State) : Vector Ext 8 :=
  Vector.ofFn fun k => readRegister f a (BitVec.ofNat 3 k - top) s

/-- TOP of a status word. -/
def topOf (sw : Word16) : Idx := sw.extractLsb' topBit 3

/-! ### Shared operations -/

/-- Store the control word (46_control.md R465). -/
def storeControl (a : Word32) (s : State) : State := s.write a 2 s.cw.toNat

/-- Store the status word (46_control.md R467). -/
def storeStatus (a : Word32) (s : State) : State := s.write a 2 s.storedSw.toNat

/-- The status word to AX (46_control.md R468). -/
def statusToAx (s : State) : State := s.setAx s.storedSw

/-- Load the control word (46_control.md R464). -/
def loadControl (a : Word32) (s : State) : State :=
  (s.setCw (BitVec.ofNat 16 (s.read a 2))).resummarize.drawAllCodes

/-- The status word without exception flags, SF, ES and B (46_control.md R470). -/
def clearExceptions (s : State) : State := (s.setSw (s.sw &&& 0x7F00)).drawAllCodes

/-- Store the environment, then mask every exception (46_control.md R480). -/
def saveEnvironment (f : ImageFormat) (a : Word32) (s : State) : State :=
  (((s.writeImage a (storedImage f .environment s)).setCw (s.cw ||| 0x3F)).resummarize).drawAllCodes

/-- Load the environment (46_control.md R484). -/
def restoreEnvironment (f : ImageFormat) (a : Word32) (s : State) : State :=
  loadEnvironment (readEnvironment f .environment a s) s

/-- Store the whole state, then initialize (46_control.md R486). -/
def saveState (f : ImageFormat) (a : Word32) (s : State) : State :=
  (s.writeImage a (storedImage f .state s)).initialized

/-- Load the whole state (46_control.md R490). -/
def restoreState (f : ImageFormat) (a : Word32) (s : State) : State :=
  let e := readEnvironment f .state a s
  loadEnvironment e (s.setRegs (readRegisters f a (topOf e.sw) s))

/-- Move TOP without touching tags or registers (46_control.md R495, R496). -/
def rotate (by1 : Idx) (s : State) : State := ((s.setTop (s.top + by1)).setC1 false).drawCodes

/-- Mark ST(i) empty (46_control.md R500). -/
def freeRegister (i : Idx) (s : State) : State := (s.setTag (s.phys i) emptyTag).drawAllCodes

/-! ### Instructions -/

/-- FNINIT: initialize (46_control.md R462). -/
def execFninit (p : Prefixes) (s : State) : Result :=
  runPlainControl (.fninit p) State.initialized s

/-- FINIT: wait check, then initialize (46_control.md R463). -/
def execFinit (p : Prefixes) (s : State) : Result :=
  afterWait s (runPlainControl (.finit p) State.initialized s)

/-- FLDCW m2byte: load the control word (46_control.md R464). -/
def execFldcw (p : Prefixes) (m : AddrMode) (s : State) : Result :=
  afterWait s (runMemControl (.fldcw p m) m 2 loadControl s)

/-- FNSTCW m2byte: store the control word (46_control.md R465). -/
def execFnstcw (p : Prefixes) (m : AddrMode) (s : State) : Result :=
  runMemControl (.fnstcw p m) m 2 storeControl s

/-- FSTCW m2byte: wait check, then store the control word (46_control.md R466). -/
def execFstcw (p : Prefixes) (m : AddrMode) (s : State) : Result :=
  afterWait s (runMemControl (.fstcw p m) m 2 storeControl s)

/-- FNSTSW m2byte: store the status word (46_control.md R467). -/
def execFnstswM2byte (p : Prefixes) (m : AddrMode) (s : State) : Result :=
  runMemControl (.fnstswM2byte p m) m 2 storeStatus s

/-- FNSTSW AX: the status word to AX (46_control.md R468). -/
def execFnstswAx (p : Prefixes) (s : State) : Result :=
  runPlainControl (.fnstswAx p) statusToAx s

/-- FSTSW m2byte: wait check, then store the status word (46_control.md R469). -/
def execFstswM2byte (p : Prefixes) (m : AddrMode) (s : State) : Result :=
  afterWait s (runMemControl (.fstswM2byte p m) m 2 storeStatus s)

/-- FSTSW AX: wait check, then the status word to AX (46_control.md R469). -/
def execFstswAx (p : Prefixes) (s : State) : Result :=
  afterWait s (runPlainControl (.fstswAx p) statusToAx s)

/-- FNCLEX: clear the exception flags (46_control.md R470). -/
def execFnclex (p : Prefixes) (s : State) : Result :=
  runPlainControl (.fnclex p) clearExceptions s

/-- FCLEX: wait check, then clear the exception flags (46_control.md R471). -/
def execFclex (p : Prefixes) (s : State) : Result :=
  afterWait s (runPlainControl (.fclex p) clearExceptions s)

/-- FNSTENV m14/28byte: store the environment and mask every exception (46_control.md R480). -/
def execFnstenv (p : Prefixes) (m : AddrMode) (s : State) : Result :=
  runMemControl (.fnstenv p m) m (s.imageFormat p).envBytes (saveEnvironment (s.imageFormat p)) s

/-- FSTENV m14/28byte: wait check, then store the environment and mask (46_control.md R481). -/
def execFstenv (p : Prefixes) (m : AddrMode) (s : State) : Result :=
  afterWait s (runMemControl (.fstenv p m) m (s.imageFormat p).envBytes (saveEnvironment (s.imageFormat p)) s)

/-- FLDENV m14/28byte: load the environment (46_control.md R484). -/
def execFldenv (p : Prefixes) (m : AddrMode) (s : State) : Result :=
  afterWait s (runMemControl (.fldenv p m) m (s.imageFormat p).envBytes (restoreEnvironment (s.imageFormat p)) s)

/-- FNSAVE m94/108byte: store the state and initialize (46_control.md R486). -/
def execFnsave (p : Prefixes) (m : AddrMode) (s : State) : Result :=
  runMemControl (.fnsave p m) m (s.imageFormat p).stateBytes (saveState (s.imageFormat p)) s

/-- FSAVE m94/108byte: wait check, then store the state and initialize (46_control.md R487). -/
def execFsave (p : Prefixes) (m : AddrMode) (s : State) : Result :=
  afterWait s (runMemControl (.fsave p m) m (s.imageFormat p).stateBytes (saveState (s.imageFormat p)) s)

/-- FRSTOR m94/108byte: load the state (46_control.md R490). -/
def execFrstor (p : Prefixes) (m : AddrMode) (s : State) : Result :=
  afterWait s (runMemControl (.frstor p m) m (s.imageFormat p).stateBytes (restoreState (s.imageFormat p)) s)

/-- FINCSTP: TOP plus one (46_control.md R495). -/
def execFincstp (p : Prefixes) (s : State) : Result :=
  runReg (.fincstp p) (fun t => .ok (rotate 1 t)) s

/-- FDECSTP: TOP minus one (46_control.md R496). -/
def execFdecstp (p : Prefixes) (s : State) : Result :=
  runReg (.fdecstp p) (fun t => .ok (rotate (-1) t)) s

/-- FFREE ST(i): mark a register empty (46_control.md R500). -/
def execFfree (p : Prefixes) (i : Idx) (s : State) : Result :=
  runReg (.ffree p i) (fun t => .ok (freeRegister i t)) s

/-- FNOP: no operation; the condition codes are undefined (46_control.md R502). -/
def execFnop (p : Prefixes) (s : State) : Result :=
  runReg (.fnop p) (fun t => .ok t.drawAllCodes) s

/-- WAIT/FWAIT: the wait check alone (46_control.md R505). -/
def execWait (p : Prefixes) (s : State) : Result :=
  afterWait s (runPlainControl (.wait p) id s)

/-- FENI: no operation (46_control.md R513). -/
def execFeni (p : Prefixes) (s : State) : Result :=
  runPlainControl (.feni p) id s

/-- FDISI: no operation (46_control.md R514). -/
def execFdisi (p : Prefixes) (s : State) : Result :=
  runPlainControl (.fdisi p) id s

/-- FSETPM: no operation (46_control.md R515). -/
def execFsetpm (p : Prefixes) (s : State) : Result :=
  runPlainControl (.fsetpm p) id s

end Sys2Proof.Machine
end

