-- ==== Sys2Proof/Machine/DataTransfer.lean ====
section
/-! DEFINITION. Data transfer instructions (41_data_transfer.md). -/

namespace Sys2Proof.Machine

/-! ### Shared operations -/

/-- Push what a load answers: stack overflow first, then the operand's own exceptions (41_data_transfer.md R261). -/
def loadReplied (r : Reply Ext) (s : State) : State :=
  if s.pushFull then s.onStackFault true fun t => (t.push indef80).drawCodes
  else
    match r.value with
    | none => s.signalAll r.flags
    | some x => (((s.signalAll r.flags).push x).setC1 false).drawCodes

/-- Push a value that raises no exception of its own (41_data_transfer.md R262, R269). -/
def loadValue (x : Ext) (s : State) : State := loadReplied (.ok x) s

/-- The operand checks of FLD m32real and m64real (41_data_transfer.md R261). -/
def loadReply (cw : Word16) (o : Operand) : Reply Ext :=
  if classOf o.value = .snan then .pre cw .i (quiet o.value)
  else .afterDenormal cw o.wasDenormal (.ok o.value)

/-- Push a converted real operand (41_data_transfer.md R261). -/
def loadReal (o : Operand) (s : State) : State := loadReplied (loadReply s.cw o) s

/-- FLD ST(i) (41_data_transfer.md R263). -/
def loadStack (i : Idx) (s : State) : State :=
  if s.isEmpty i then s.onStackFault false fun t => (t.push indef80).drawCodes else loadValue (s.st i) s

/-- The value FBLD pushes (40_numerics.md R224). -/
def bcdOperand (s : State) (a : Word32) : Ext := (fromBcd (s.read a 10)).getD (Config.undefBcdLoad s.draws)

/-- Carry out what a conversion to memory answers (40_numerics.md R225 to R230). -/
def storeReplied (a : Word32) (n : Nat) (pop : Bool) (r : StoreReply) (s : State) : State :=
  match r.action with
  | .store v c1 => ((((s.signalAll r.flags).write a n v).setC1 c1).drawCodes).popIf pop
  | .abandonBefore => s.signalAll r.flags
  | .abandonAfter => (s.signalAll r.flags).drawCodes

/-- Store ST(0) through a conversion; `empty` is what a masked stack underflow stores (40_numerics.md R231). -/
def storeTop (a : Word32) (n : Nat) (pop : Bool) (empty : Nat) (convert : Ext → StoreReply) (s : State) : State :=
  if s.isEmpty 0 then s.onStackFault false fun t => ((t.write a n empty).drawCodes).popIf pop
  else storeReplied a n pop (convert (s.st 0)) s

/-- FST and FSTP to a single or double real (41_data_transfer.md R264, R266). -/
def storeRealTop (f : RealFormat) (pop : Bool) (a : Word32) (s : State) : State :=
  storeTop a f.bytes pop f.indefinite (storeReal s.cw s.params.fstSignalsD f) s

/-- FIST and FISTP to an integer of `n` bits (41_data_transfer.md R270, R271). -/
def storeIntTop (n : Nat) (pop : Bool) (a : Word32) (s : State) : State :=
  storeTop a (n / 8) pop (intIndefinite n) (storeInt s.cw n) s

/-- What a store of all 80 bits answers (40_numerics.md R232). -/
def storeRaw (x : Ext) : StoreReply := ⟨[], .store x.toNat false⟩

/-- FST ST(i) and FSTP ST(i) (41_data_transfer.md R265, R268). -/
def storeStack (i : Idx) (pop : Bool) (s : State) : State :=
  if s.isEmpty 0 then s.onStackFault false fun t => ((t.setST i indef80).drawCodes).popIf pop
  else (((s.setST i (s.st 0)).setC1 false).drawCodes).popIf pop

/-- The value FXCH finds in ST(i): an empty register is loaded with the indefinite (41_data_transfer.md R274). -/
def exchangeValue (s : State) (i : Idx) : Ext := if s.isEmpty i then indef80 else s.st i

/-- The exchange itself. -/
def exchange (i : Idx) (a b : Ext) (s : State) : State := (s.setST 0 b).setST i a

/-- FXCH (41_data_transfer.md R274). -/
def exchangeTop (i : Idx) (s : State) : State :=
  if s.isEmpty 0 || s.isEmpty i then
    s.onStackFault false fun t => (exchange i (exchangeValue s 0) (exchangeValue s i) t).drawCodes
  else ((exchange i (s.st 0) (s.st i) s).setC1 false).drawCodes

/-- FCMOVcc (41_data_transfer.md R275). -/
def moveIf (cond : Bool) (i : Idx) (s : State) : State :=
  if s.isEmpty 0 || s.isEmpty i then s.onStackFault false fun t => (t.setST 0 indef80).drawCodes
  else ((if cond then s.setST 0 (s.st i) else s).setC1 false).drawCodes

/-! ### Instructions -/

/-- FLD m32real: push a converted single real (41_data_transfer.md R261). -/
def execFldM32real (p : Prefixes) (m : AddrMode) (s : State) : Result :=
  runMem (.fldM32real p m) p m 4 (fun a t => .ok (loadReal (t.m32real a) t)) s

/-- FLD m64real: push a converted double real (41_data_transfer.md R261). -/
def execFldM64real (p : Prefixes) (m : AddrMode) (s : State) : Result :=
  runMem (.fldM64real p m) p m 8 (fun a t => .ok (loadReal (t.m64real a) t)) s

/-- FLD m80real: push an extended real, unchanged (41_data_transfer.md R262). -/
def execFldM80real (p : Prefixes) (m : AddrMode) (s : State) : Result :=
  runMem (.fldM80real p m) p m 10 (fun a t => .ok (loadValue (t.m80real a) t)) s

/-- FLD ST(i): push a copy of a stack register (41_data_transfer.md R263). -/
def execFldSti (p : Prefixes) (i : Idx) (s : State) : Result :=
  runReg (.fldSti p i) (fun t => .ok (loadStack i t)) s

/-- FILD m16int: push a converted integer (41_data_transfer.md R269). -/
def execFildM16int (p : Prefixes) (m : AddrMode) (s : State) : Result :=
  runMem (.fildM16int p m) p m 2 (fun a t => .ok (loadValue (t.m16int a).value t)) s

/-- FILD m32int: push a converted integer (41_data_transfer.md R269). -/
def execFildM32int (p : Prefixes) (m : AddrMode) (s : State) : Result :=
  runMem (.fildM32int p m) p m 4 (fun a t => .ok (loadValue (t.m32int a).value t)) s

/-- FILD m64int: push a converted integer (41_data_transfer.md R269). -/
def execFildM64int (p : Prefixes) (m : AddrMode) (s : State) : Result :=
  runMem (.fildM64int p m) p m 8 (fun a t => .ok (loadValue (t.m64int a).value t)) s

/-- FBLD m80bcd: push a converted packed decimal (41_data_transfer.md R272). -/
def execFbld (p : Prefixes) (m : AddrMode) (s : State) : Result :=
  runMem (.fbld p m) p m 10 (fun a t => .ok (loadValue (bcdOperand t a) t)) s

/-- FST m32real: store ST(0) as a single real (41_data_transfer.md R264). -/
def execFstM32real (p : Prefixes) (m : AddrMode) (s : State) : Result :=
  runMem (.fstM32real p m) p m 4 (fun a t => .ok (storeRealTop single false a t)) s

/-- FST m64real: store ST(0) as a double real (41_data_transfer.md R264). -/
def execFstM64real (p : Prefixes) (m : AddrMode) (s : State) : Result :=
  runMem (.fstM64real p m) p m 8 (fun a t => .ok (storeRealTop double false a t)) s

/-- FSTP m32real: store ST(0) and pop as a single real (41_data_transfer.md R266). -/
def execFstpM32real (p : Prefixes) (m : AddrMode) (s : State) : Result :=
  runMem (.fstpM32real p m) p m 4 (fun a t => .ok (storeRealTop single true a t)) s

/-- FSTP m64real: store ST(0) and pop as a double real (41_data_transfer.md R266). -/
def execFstpM64real (p : Prefixes) (m : AddrMode) (s : State) : Result :=
  runMem (.fstpM64real p m) p m 8 (fun a t => .ok (storeRealTop double true a t)) s

/-- FSTP m80real: store all 80 bits of ST(0) and pop (41_data_transfer.md R267). -/
def execFstpM80real (p : Prefixes) (m : AddrMode) (s : State) : Result :=
  runMem (.fstpM80real p m) p m 10 (fun a t => .ok (storeTop a 10 true indef80.toNat storeRaw t)) s

/-- FST ST(i): copy ST(0) to a stack register (41_data_transfer.md R265). -/
def execFstSti (p : Prefixes) (i : Idx) (s : State) : Result :=
  runReg (.fstSti p i) (fun t => .ok (storeStack i false t)) s

/-- FSTP ST(i): copy ST(0) to a stack register and pop (41_data_transfer.md R268). -/
def execFstpSti (p : Prefixes) (i : Idx) (s : State) : Result :=
  runReg (.fstpSti p i) (fun t => .ok (storeStack i true t)) s

/-- FIST m16int: store ST(0) as an integer (41_data_transfer.md R270). -/
def execFistM16int (p : Prefixes) (m : AddrMode) (s : State) : Result :=
  runMem (.fistM16int p m) p m 2 (fun a t => .ok (storeIntTop 16 false a t)) s

/-- FIST m32int: store ST(0) as an integer (41_data_transfer.md R270). -/
def execFistM32int (p : Prefixes) (m : AddrMode) (s : State) : Result :=
  runMem (.fistM32int p m) p m 4 (fun a t => .ok (storeIntTop 32 false a t)) s

/-- FISTP m16int: store ST(0) as an integer and pop (41_data_transfer.md R271). -/
def execFistpM16int (p : Prefixes) (m : AddrMode) (s : State) : Result :=
  runMem (.fistpM16int p m) p m 2 (fun a t => .ok (storeIntTop 16 true a t)) s

/-- FISTP m32int: store ST(0) as an integer and pop (41_data_transfer.md R271). -/
def execFistpM32int (p : Prefixes) (m : AddrMode) (s : State) : Result :=
  runMem (.fistpM32int p m) p m 4 (fun a t => .ok (storeIntTop 32 true a t)) s

/-- FISTP m64int: store ST(0) as an integer and pop (41_data_transfer.md R271). -/
def execFistpM64int (p : Prefixes) (m : AddrMode) (s : State) : Result :=
  runMem (.fistpM64int p m) p m 8 (fun a t => .ok (storeIntTop 64 true a t)) s

/-- FBSTP m80bcd: store ST(0) as packed decimal and pop (41_data_transfer.md R273). -/
def execFbstp (p : Prefixes) (m : AddrMode) (s : State) : Result :=
  runMem (.fbstp p m) p m 10 (fun a t =>
    let low := Config.undefBcdIndefinite t.draws
    .ok (storeTop a 10 true (bcdIndefinite low) (storeBcd t.cw low) t)) s

/-- FXCH ST(i): exchange ST(0) and a stack register (41_data_transfer.md R274). -/
def execFxch (p : Prefixes) (i : Idx) (s : State) : Result :=
  runReg (.fxch p i) (fun t => .ok (exchangeTop i t)) s

/-- FCMOVB ST(0), ST(i): move if below (41_data_transfer.md R276). -/
def execFcmovb (p : Prefixes) (i : Idx) (s : State) : Result :=
  ifPresent s.params.hasFcmov (runReg (.fcmovb p i) (fun t => .ok (moveIf t.cf i t)) s)

/-- FCMOVNB ST(0), ST(i): move if not below (41_data_transfer.md R277). -/
def execFcmovnb (p : Prefixes) (i : Idx) (s : State) : Result :=
  ifPresent s.params.hasFcmov (runReg (.fcmovnb p i) (fun t => .ok (moveIf (!t.cf) i t)) s)

/-- FCMOVE ST(0), ST(i): move if equal (41_data_transfer.md R278). -/
def execFcmove (p : Prefixes) (i : Idx) (s : State) : Result :=
  ifPresent s.params.hasFcmov (runReg (.fcmove p i) (fun t => .ok (moveIf t.zf i t)) s)

/-- FCMOVNE ST(0), ST(i): move if not equal (41_data_transfer.md R279). -/
def execFcmovne (p : Prefixes) (i : Idx) (s : State) : Result :=
  ifPresent s.params.hasFcmov (runReg (.fcmovne p i) (fun t => .ok (moveIf (!t.zf) i t)) s)

/-- FCMOVBE ST(0), ST(i): move if below or equal (41_data_transfer.md R280). -/
def execFcmovbe (p : Prefixes) (i : Idx) (s : State) : Result :=
  ifPresent s.params.hasFcmov (runReg (.fcmovbe p i) (fun t => .ok (moveIf (t.cf || t.zf) i t)) s)

/-- FCMOVNBE ST(0), ST(i): move if not below nor equal (41_data_transfer.md R281). -/
def execFcmovnbe (p : Prefixes) (i : Idx) (s : State) : Result :=
  ifPresent s.params.hasFcmov (runReg (.fcmovnbe p i) (fun t => .ok (moveIf (!t.cf && !t.zf) i t)) s)

/-- FCMOVU ST(0), ST(i): move if unordered (41_data_transfer.md R282). -/
def execFcmovu (p : Prefixes) (i : Idx) (s : State) : Result :=
  ifPresent s.params.hasFcmov (runReg (.fcmovu p i) (fun t => .ok (moveIf t.pf i t)) s)

/-- FCMOVNU ST(0), ST(i): move if not unordered (41_data_transfer.md R283). -/
def execFcmovnu (p : Prefixes) (i : Idx) (s : State) : Result :=
  ifPresent s.params.hasFcmov (runReg (.fcmovnu p i) (fun t => .ok (moveIf (!t.pf) i t)) s)

end Sys2Proof.Machine
end

