-- ==== Sys2Proof/Machine/LoadConst.lean ====
section
/-! DEFINITION. Load-constant instructions (42_load_constants.md). -/

namespace Sys2Proof.Machine

/-- The constant of a row of four, by rounding mode (42_load_constants.md R302). -/
def byMode (nearest down up zero : Ext) (rm : RoundMode) : Ext :=
  match rm with
  | .nearest => nearest
  | .down => down
  | .up => up
  | .zero => zero

/-- π (42_load_constants.md R305). -/
def constPi : RoundMode → Ext :=
  byMode 0x4000C90FDAA22168C235 0x4000C90FDAA22168C234 0x4000C90FDAA22168C235 0x4000C90FDAA22168C234

/-- log2 10 (42_load_constants.md R306). -/
def constL2t : RoundMode → Ext :=
  byMode 0x4000D49A784BCD1B8AFE 0x4000D49A784BCD1B8AFE 0x4000D49A784BCD1B8AFF 0x4000D49A784BCD1B8AFE

/-- log2 e (42_load_constants.md R307). -/
def constL2e : RoundMode → Ext :=
  byMode 0x3FFFB8AA3B295C17F0BC 0x3FFFB8AA3B295C17F0BB 0x3FFFB8AA3B295C17F0BC 0x3FFFB8AA3B295C17F0BB

/-- log10 2 (42_load_constants.md R308). -/
def constLg2 : RoundMode → Ext :=
  byMode 0x3FFD9A209A84FBCFF799 0x3FFD9A209A84FBCFF798 0x3FFD9A209A84FBCFF799 0x3FFD9A209A84FBCFF798

/-- ln 2 (42_load_constants.md R309). -/
def constLn2 : RoundMode → Ext :=
  byMode 0x3FFEB17217F7D1CF79AC 0x3FFEB17217F7D1CF79AB 0x3FFEB17217F7D1CF79AC 0x3FFEB17217F7D1CF79AB

/-- FLDZ: push +0.0 (42_load_constants.md R303). -/
def execFldz (p : Prefixes) (s : State) : Result :=
  runReg (.fldz p) (fun t => .ok (loadValue (zero80 false) t)) s

/-- FLD1: push +1.0 (42_load_constants.md R304). -/
def execFld1 (p : Prefixes) (s : State) : Result :=
  runReg (.fld1 p) (fun t => .ok (loadValue one80 t)) s

/-- FLDPI: push π (42_load_constants.md R305). -/
def execFldpi (p : Prefixes) (s : State) : Result :=
  runReg (.fldpi p) (fun t => .ok (loadValue (constPi (roundMode t.cw)) t)) s

/-- FLDL2T: push log2 10 (42_load_constants.md R306). -/
def execFldl2t (p : Prefixes) (s : State) : Result :=
  runReg (.fldl2t p) (fun t => .ok (loadValue (constL2t (roundMode t.cw)) t)) s

/-- FLDL2E: push log2 e (42_load_constants.md R307). -/
def execFldl2e (p : Prefixes) (s : State) : Result :=
  runReg (.fldl2e p) (fun t => .ok (loadValue (constL2e (roundMode t.cw)) t)) s

/-- FLDLG2: push log10 2 (42_load_constants.md R308). -/
def execFldlg2 (p : Prefixes) (s : State) : Result :=
  runReg (.fldlg2 p) (fun t => .ok (loadValue (constLg2 (roundMode t.cw)) t)) s

/-- FLDLN2: push ln 2 (42_load_constants.md R309). -/
def execFldln2 (p : Prefixes) (s : State) : Result :=
  runReg (.fldln2 p) (fun t => .ok (loadValue (constLn2 (roundMode t.cw)) t)) s

end Sys2Proof.Machine
end

