-- ==== Sys2Proof/Machine/Arith.lean ====
section
/-! DEFINITION. Basic arithmetic instructions (43_basic_arithmetic.md). -/

namespace Sys2Proof.Machine

/-! ### Shared operations -/

/-- Write what an operation answers to ST(d), then pop if asked (43_basic_arithmetic.md R322). -/
def writeReplied (d : Idx) (pop : Bool) (r : Reply Written) (s : State) : State :=
  match r.value with
  | none => s.signalAll r.flags
  | some w => ((((s.signalAll r.flags).setST d w.value).setC1 w.c1).drawCodes).popIf pop

/-- Stack underflow of an operation with destination ST(d) (43_basic_arithmetic.md R322 step 1). -/
def underflow (d : Idx) (pop : Bool) (s : State) : State :=
  s.onStackFault false fun t => ((t.setST d indef80).drawCodes).popIf pop

/-- The choice between two NaNs of equal significand, a draw (40_numerics.md R205). -/
def State.nanPick (s : State) : Bool := Config.undefNanChoice s.draws

/-- `Arith2` once its operands are known (43_basic_arithmetic.md R322): left operand `a`, right operand `b`, swapped by
the caller for a reverse instruction. -/
def arithInto (op : ArithOp) (precision : Option Nat) (d : Idx) (pop : Bool) (a b : Operand) (s : State) :
    Except Refusal State :=
  (arith op s.cw precision s.nanPick a b).map fun r => writeReplied d pop r s

/-- The operands in the order the operation sees them (43_basic_arithmetic.md R321). -/
def arithOrdered (op : ArithOp) (rev : Bool) (precision : Option Nat) (d : Idx) (pop : Bool) (a b : Operand)
    (s : State) : Except Refusal State :=
  if rev then arithInto op precision d pop b a s else arithInto op precision d pop a b s

/-- A register form: destination ST(d), other operand ST(other) (43_basic_arithmetic.md R321, R322). -/
def arithStack (op : ArithOp) (rev : Bool) (d other : Idx) (pop : Bool) (s : State) : Except Refusal State :=
  if s.isEmpty d || s.isEmpty other then .ok (underflow d pop s)
  else arithOrdered op rev (pcBits s.cw) d pop (s.stOperand d) (s.stOperand other) s

/-- A memory form on ST(0) (43_basic_arithmetic.md R321, R322). -/
def arithMem (op : ArithOp) (rev : Bool) (precision : Option Nat) (b : Operand) (s : State) : Except Refusal State :=
  if s.isEmpty 0 then .ok (underflow 0 false s)
  else arithOrdered op rev precision 0 false (s.stOperand 0) b s

/-- FIDIV signals no #O (43_basic_arithmetic.md R327 and R344, 60_exceptions.md R523 and R543): where the operation of R344
would (an ST(0) near the largest finite number, a divisor of ±1, a precision of 24 or 53 bits that rounds the quotient up
to 2^16384), the value is free, and #P and C1 are those of the rounding (DESIGN CHOICE: log 35). -/
def Reply.withoutOverflow (free : Ext) (r : Reply Written) : Reply Written :=
  if r.flags.contains .o then ⟨r.flags.filter (· != .o), r.value.map fun w => ⟨free, w.c1⟩⟩ else r

/-- FIDIV: ST(0) divided by an integer (43_basic_arithmetic.md R344). -/
def divideByInt (precision : Option Nat) (b : Operand) (s : State) : Except Refusal State :=
  if s.isEmpty 0 then .ok (underflow 0 false s)
  else
    (arith .div s.cw precision s.nanPick (s.stOperand 0) b).map fun r =>
      writeReplied 0 false (r.withoutOverflow (Config.undefQuotient s.draws)) s

/-- The precision of the integer forms (40_numerics.md R202, parameter `PC_ON_INT_FORMS`). -/
def State.intPrecision (s : State) : Option Nat := if s.params.pcOnIntForms then pcBits s.cw else some 64

/-- A one-operand operation on ST(0) (40_numerics.md R246). -/
def onTop (f : Ext → Reply Written) (s : State) : State :=
  if s.isEmpty 0 then underflow 0 false s else writeReplied 0 false (f (s.st 0)) s

/-- FSQRT (43_basic_arithmetic.md R352). -/
def sqrtTop (s : State) : Except Refusal State :=
  if s.isEmpty 0 then .ok (underflow 0 false s)
  else (sqrt s.cw (s.st 0)).map fun r => writeReplied 0 false r s

/-- A sign operation on ST(0), a bit operation without #IA or #D (43_basic_arithmetic.md R350, R351). -/
def editTop (f : Ext → Ext) (s : State) : State := onTop (fun x => .ok (plain (f x))) s

/-- The value without its sign (43_basic_arithmetic.md R350). -/
def clearSign (x : Ext) : Ext := x &&& 0x7FFFFFFFFFFFFFFFFFFF

/-- The condition codes of a remainder (43_basic_arithmetic.md R360, R363). -/
def remCodes (c : RemCodes) (s : State) : State :=
  match c with
  | .complete q => (s.setCodes (q.testBit 1) false (q.testBit 2)).setC1 (q.testBit 0)
  | .incomplete => (s.drawC03.putSw c2Bit true).drawC1
  | .invalid => (s.drawC03.putSw c2Bit false).setC1 false
  | .nan => s.drawCodes.setC1 false

/-- Write what a remainder answers (43_basic_arithmetic.md R360). -/
def remReplied (r : Reply Remainder) (s : State) : State :=
  match r.value with
  | none => s.signalAll r.flags
  | some w => remCodes w.codes ((s.signalAll r.flags).setST 0 w.value)

/-- `PREM_STEP` (43_basic_arithmetic.md R362). -/
def premStep : Nat := 32 + Config.premStepOffset.toNat

/-- FPREM and FPREM1 (43_basic_arithmetic.md R360, R361). -/
def remTop (ieee : Bool) (s : State) : State :=
  if s.isEmpty 0 || s.isEmpty 1 then underflow 0 false s
  else remReplied (remainder s.cw ieee premStep s.nanPick (s.st 0) (s.st 1)) s

/-- Two values, the first to ST(0), the second pushed. -/
def writePair (x y : Ext) (s : State) : State := (s.setST 0 x).push y

/-- The masked stack fault of an instruction that writes ST(0) and pushes: both results are indefinite
(43_basic_arithmetic.md R366). -/
def pairFault (overflow : Bool) (s : State) : State :=
  s.onStackFault overflow fun t => (writePair indef80 indef80 t).drawCodes

/-- FXTRACT (43_basic_arithmetic.md R366). -/
def extractTop (s : State) : State :=
  if s.isEmpty 0 then pairFault false s
  else if s.pushFull then pairFault true s
  else
    match (extract s.cw (s.st 0)).value with
    | none => s.signalAll (extract s.cw (s.st 0)).flags
    | some w =>
      ((writePair w.1 w.2 (s.signalAll (extract s.cw (s.st 0)).flags)).setC1 false).drawCodes

/-! ### Instructions -/

/-- FADD m32real: add, ST(0) and memory (43_basic_arithmetic.md R330). -/
def execFaddM32real (p : Prefixes) (m : AddrMode) (s : State) : Result :=
  runMem (.faddM32real p m) p m 4 (fun a t => arithMem .add false (pcBits t.cw) (t.m32real a) t) s

/-- FADD m64real: add, ST(0) and memory (43_basic_arithmetic.md R330). -/
def execFaddM64real (p : Prefixes) (m : AddrMode) (s : State) : Result :=
  runMem (.faddM64real p m) p m 8 (fun a t => arithMem .add false (pcBits t.cw) (t.m64real a) t) s

/-- FADD ST(0), ST(i): add into ST(0) (43_basic_arithmetic.md R330). -/
def execFaddSt0Sti (p : Prefixes) (i : Idx) (s : State) : Result :=
  runReg (.faddSt0Sti p i) (fun t => arithStack .add false 0 i false t) s

/-- FADD ST(i), ST(0): add into ST(i) (43_basic_arithmetic.md R330). -/
def execFaddStiSt0 (p : Prefixes) (i : Idx) (s : State) : Result :=
  runReg (.faddStiSt0 p i) (fun t => arithStack .add false i 0 false t) s

/-- FADDP ST(i), ST(0): add into ST(i) and pop (43_basic_arithmetic.md R331). -/
def execFaddp (p : Prefixes) (i : Idx) (s : State) : Result :=
  runReg (.faddp p i) (fun t => arithStack .add false i 0 true t) s

/-- FIADD m16int: add, ST(0) and an integer (43_basic_arithmetic.md R332). -/
def execFiaddM16int (p : Prefixes) (m : AddrMode) (s : State) : Result :=
  runMem (.fiaddM16int p m) p m 2 (fun a t => arithMem .add false t.intPrecision (t.m16int a) t) s

/-- FIADD m32int: add, ST(0) and an integer (43_basic_arithmetic.md R332). -/
def execFiaddM32int (p : Prefixes) (m : AddrMode) (s : State) : Result :=
  runMem (.fiaddM32int p m) p m 4 (fun a t => arithMem .add false t.intPrecision (t.m32int a) t) s

/-- FSUB m32real: subtract, ST(0) and memory (43_basic_arithmetic.md R333). -/
def execFsubM32real (p : Prefixes) (m : AddrMode) (s : State) : Result :=
  runMem (.fsubM32real p m) p m 4 (fun a t => arithMem .sub false (pcBits t.cw) (t.m32real a) t) s

/-- FSUB m64real: subtract, ST(0) and memory (43_basic_arithmetic.md R333). -/
def execFsubM64real (p : Prefixes) (m : AddrMode) (s : State) : Result :=
  runMem (.fsubM64real p m) p m 8 (fun a t => arithMem .sub false (pcBits t.cw) (t.m64real a) t) s

/-- FSUB ST(0), ST(i): subtract into ST(0) (43_basic_arithmetic.md R333). -/
def execFsubSt0Sti (p : Prefixes) (i : Idx) (s : State) : Result :=
  runReg (.fsubSt0Sti p i) (fun t => arithStack .sub false 0 i false t) s

/-- FSUB ST(i), ST(0): subtract into ST(i) (43_basic_arithmetic.md R333). -/
def execFsubStiSt0 (p : Prefixes) (i : Idx) (s : State) : Result :=
  runReg (.fsubStiSt0 p i) (fun t => arithStack .sub false i 0 false t) s

/-- FSUBP ST(i), ST(0): subtract into ST(i) and pop (43_basic_arithmetic.md R334). -/
def execFsubp (p : Prefixes) (i : Idx) (s : State) : Result :=
  runReg (.fsubp p i) (fun t => arithStack .sub false i 0 true t) s

/-- FISUB m16int: subtract, ST(0) and an integer (43_basic_arithmetic.md R335). -/
def execFisubM16int (p : Prefixes) (m : AddrMode) (s : State) : Result :=
  runMem (.fisubM16int p m) p m 2 (fun a t => arithMem .sub false t.intPrecision (t.m16int a) t) s

/-- FISUB m32int: subtract, ST(0) and an integer (43_basic_arithmetic.md R335). -/
def execFisubM32int (p : Prefixes) (m : AddrMode) (s : State) : Result :=
  runMem (.fisubM32int p m) p m 4 (fun a t => arithMem .sub false t.intPrecision (t.m32int a) t) s

/-- FSUBR m32real: reverse subtract, ST(0) and memory (43_basic_arithmetic.md R336). -/
def execFsubrM32real (p : Prefixes) (m : AddrMode) (s : State) : Result :=
  runMem (.fsubrM32real p m) p m 4 (fun a t => arithMem .sub true (pcBits t.cw) (t.m32real a) t) s

/-- FSUBR m64real: reverse subtract, ST(0) and memory (43_basic_arithmetic.md R336). -/
def execFsubrM64real (p : Prefixes) (m : AddrMode) (s : State) : Result :=
  runMem (.fsubrM64real p m) p m 8 (fun a t => arithMem .sub true (pcBits t.cw) (t.m64real a) t) s

/-- FSUBR ST(0), ST(i): reverse subtract into ST(0) (43_basic_arithmetic.md R336). -/
def execFsubrSt0Sti (p : Prefixes) (i : Idx) (s : State) : Result :=
  runReg (.fsubrSt0Sti p i) (fun t => arithStack .sub true 0 i false t) s

/-- FSUBR ST(i), ST(0): reverse subtract into ST(i) (43_basic_arithmetic.md R336). -/
def execFsubrStiSt0 (p : Prefixes) (i : Idx) (s : State) : Result :=
  runReg (.fsubrStiSt0 p i) (fun t => arithStack .sub true i 0 false t) s

/-- FSUBRP ST(i), ST(0): reverse subtract into ST(i) and pop (43_basic_arithmetic.md R337). -/
def execFsubrp (p : Prefixes) (i : Idx) (s : State) : Result :=
  runReg (.fsubrp p i) (fun t => arithStack .sub true i 0 true t) s

/-- FISUBR m16int: reverse subtract, ST(0) and an integer (43_basic_arithmetic.md R338). -/
def execFisubrM16int (p : Prefixes) (m : AddrMode) (s : State) : Result :=
  runMem (.fisubrM16int p m) p m 2 (fun a t => arithMem .sub true t.intPrecision (t.m16int a) t) s

/-- FISUBR m32int: reverse subtract, ST(0) and an integer (43_basic_arithmetic.md R338). -/
def execFisubrM32int (p : Prefixes) (m : AddrMode) (s : State) : Result :=
  runMem (.fisubrM32int p m) p m 4 (fun a t => arithMem .sub true t.intPrecision (t.m32int a) t) s

/-- FMUL m32real: multiply, ST(0) and memory (43_basic_arithmetic.md R339). -/
def execFmulM32real (p : Prefixes) (m : AddrMode) (s : State) : Result :=
  runMem (.fmulM32real p m) p m 4 (fun a t => arithMem .mul false (pcBits t.cw) (t.m32real a) t) s

/-- FMUL m64real: multiply, ST(0) and memory (43_basic_arithmetic.md R339). -/
def execFmulM64real (p : Prefixes) (m : AddrMode) (s : State) : Result :=
  runMem (.fmulM64real p m) p m 8 (fun a t => arithMem .mul false (pcBits t.cw) (t.m64real a) t) s

/-- FMUL ST(0), ST(i): multiply into ST(0) (43_basic_arithmetic.md R339). -/
def execFmulSt0Sti (p : Prefixes) (i : Idx) (s : State) : Result :=
  runReg (.fmulSt0Sti p i) (fun t => arithStack .mul false 0 i false t) s

/-- FMUL ST(i), ST(0): multiply into ST(i) (43_basic_arithmetic.md R339). -/
def execFmulStiSt0 (p : Prefixes) (i : Idx) (s : State) : Result :=
  runReg (.fmulStiSt0 p i) (fun t => arithStack .mul false i 0 false t) s

/-- FMULP ST(i), ST(0): multiply into ST(i) and pop (43_basic_arithmetic.md R340). -/
def execFmulp (p : Prefixes) (i : Idx) (s : State) : Result :=
  runReg (.fmulp p i) (fun t => arithStack .mul false i 0 true t) s

/-- FIMUL m16int: multiply, ST(0) and an integer (43_basic_arithmetic.md R341). -/
def execFimulM16int (p : Prefixes) (m : AddrMode) (s : State) : Result :=
  runMem (.fimulM16int p m) p m 2 (fun a t => arithMem .mul false t.intPrecision (t.m16int a) t) s

/-- FIMUL m32int: multiply, ST(0) and an integer (43_basic_arithmetic.md R341). -/
def execFimulM32int (p : Prefixes) (m : AddrMode) (s : State) : Result :=
  runMem (.fimulM32int p m) p m 4 (fun a t => arithMem .mul false t.intPrecision (t.m32int a) t) s

/-- FDIV m32real: divide, ST(0) and memory (43_basic_arithmetic.md R342). -/
def execFdivM32real (p : Prefixes) (m : AddrMode) (s : State) : Result :=
  runMem (.fdivM32real p m) p m 4 (fun a t => arithMem .div false (pcBits t.cw) (t.m32real a) t) s

/-- FDIV m64real: divide, ST(0) and memory (43_basic_arithmetic.md R342). -/
def execFdivM64real (p : Prefixes) (m : AddrMode) (s : State) : Result :=
  runMem (.fdivM64real p m) p m 8 (fun a t => arithMem .div false (pcBits t.cw) (t.m64real a) t) s

/-- FDIV ST(0), ST(i): divide into ST(0) (43_basic_arithmetic.md R342). -/
def execFdivSt0Sti (p : Prefixes) (i : Idx) (s : State) : Result :=
  runReg (.fdivSt0Sti p i) (fun t => arithStack .div false 0 i false t) s

/-- FDIV ST(i), ST(0): divide into ST(i) (43_basic_arithmetic.md R342). -/
def execFdivStiSt0 (p : Prefixes) (i : Idx) (s : State) : Result :=
  runReg (.fdivStiSt0 p i) (fun t => arithStack .div false i 0 false t) s

/-- FDIVP ST(i), ST(0): divide into ST(i) and pop (43_basic_arithmetic.md R343). -/
def execFdivp (p : Prefixes) (i : Idx) (s : State) : Result :=
  runReg (.fdivp p i) (fun t => arithStack .div false i 0 true t) s

/-- FIDIV m16int: divide, ST(0) and an integer (43_basic_arithmetic.md R344). -/
def execFidivM16int (p : Prefixes) (m : AddrMode) (s : State) : Result :=
  runMem (.fidivM16int p m) p m 2 (fun a t => divideByInt t.intPrecision (t.m16int a) t) s

/-- FIDIV m32int: divide, ST(0) and an integer (43_basic_arithmetic.md R344). -/
def execFidivM32int (p : Prefixes) (m : AddrMode) (s : State) : Result :=
  runMem (.fidivM32int p m) p m 4 (fun a t => divideByInt t.intPrecision (t.m32int a) t) s

/-- FDIVR m32real: reverse divide, ST(0) and memory (43_basic_arithmetic.md R345). -/
def execFdivrM32real (p : Prefixes) (m : AddrMode) (s : State) : Result :=
  runMem (.fdivrM32real p m) p m 4 (fun a t => arithMem .div true (pcBits t.cw) (t.m32real a) t) s

/-- FDIVR m64real: reverse divide, ST(0) and memory (43_basic_arithmetic.md R345). -/
def execFdivrM64real (p : Prefixes) (m : AddrMode) (s : State) : Result :=
  runMem (.fdivrM64real p m) p m 8 (fun a t => arithMem .div true (pcBits t.cw) (t.m64real a) t) s

/-- FDIVR ST(0), ST(i): reverse divide into ST(0) (43_basic_arithmetic.md R345). -/
def execFdivrSt0Sti (p : Prefixes) (i : Idx) (s : State) : Result :=
  runReg (.fdivrSt0Sti p i) (fun t => arithStack .div true 0 i false t) s

/-- FDIVR ST(i), ST(0): reverse divide into ST(i) (43_basic_arithmetic.md R345). -/
def execFdivrStiSt0 (p : Prefixes) (i : Idx) (s : State) : Result :=
  runReg (.fdivrStiSt0 p i) (fun t => arithStack .div true i 0 false t) s

/-- FDIVRP ST(i), ST(0): reverse divide into ST(i) and pop (43_basic_arithmetic.md R346). -/
def execFdivrp (p : Prefixes) (i : Idx) (s : State) : Result :=
  runReg (.fdivrp p i) (fun t => arithStack .div true i 0 true t) s

/-- FIDIVR m16int: reverse divide, ST(0) and an integer (43_basic_arithmetic.md R347). -/
def execFidivrM16int (p : Prefixes) (m : AddrMode) (s : State) : Result :=
  runMem (.fidivrM16int p m) p m 2 (fun a t => arithMem .div true t.intPrecision (t.m16int a) t) s

/-- FIDIVR m32int: reverse divide, ST(0) and an integer (43_basic_arithmetic.md R347). -/
def execFidivrM32int (p : Prefixes) (m : AddrMode) (s : State) : Result :=
  runMem (.fidivrM32int p m) p m 4 (fun a t => arithMem .div true t.intPrecision (t.m32int a) t) s

/-- FABS: absolute value (43_basic_arithmetic.md R350). -/
def execFabs (p : Prefixes) (s : State) : Result :=
  runReg (.fabs p) (fun t => .ok (editTop clearSign t)) s

/-- FCHS: change sign (43_basic_arithmetic.md R351). -/
def execFchs (p : Prefixes) (s : State) : Result :=
  runReg (.fchs p) (fun t => .ok (editTop negate t)) s

/-- FSQRT: square root (43_basic_arithmetic.md R352). -/
def execFsqrt (p : Prefixes) (s : State) : Result :=
  runReg (.fsqrt p) sqrtTop s

/-- FPREM: partial remainder (43_basic_arithmetic.md R360). -/
def execFprem (p : Prefixes) (s : State) : Result :=
  runReg (.fprem p) (fun t => .ok (remTop false t)) s

/-- FPREM1: IEEE partial remainder (43_basic_arithmetic.md R361). -/
def execFprem1 (p : Prefixes) (s : State) : Result :=
  runReg (.fprem1 p) (fun t => .ok (remTop true t)) s

/-- FRNDINT: round to integral value (43_basic_arithmetic.md R365). -/
def execFrndint (p : Prefixes) (s : State) : Result :=
  runReg (.frndint p) (fun t => .ok (onTop (rndint t.cw) t)) s

/-- FXTRACT: extract exponent and significand (43_basic_arithmetic.md R366). -/
def execFxtract (p : Prefixes) (s : State) : Result :=
  runReg (.fxtract p) (fun t => .ok (extractTop t)) s

end Sys2Proof.Machine
end

