-- ==== Sys2Proof/Machine/Transcendental.lean ====
section
/-! DEFINITION. Trigonometric, logarithmic, exponential and scale instructions (45_transcendental.md). -/

namespace Sys2Proof.Machine

/-! ### Shared operations -/

/-- The condition codes of a trigonometric instruction that completes: C2 = 0, C1 as given, C0 and C3 undefined
(45_transcendental.md R430). -/
def trigCodes (c1 : Bool) (s : State) : State := (s.drawC03.putSw c2Bit false).setC1 c1

/-- C2 = 1 and nothing else; the other codes are undefined (45_transcendental.md R424 step 4). -/
def trigOutOfRange (s : State) : State := (s.drawC03.putSw c2Bit true).drawC1

/-- `#D` when the operand was denormal. -/
def denormalFlag (denormal : Bool) : List Exc := if denormal then [.d] else []

/-- The masked stack fault of a trigonometric instruction: C2 = 0 as well (log 18). -/
def trigFault (overflow : Bool) (write : State → State) (s : State) : State :=
  s.onStackFault overflow fun t => (write t).drawC03.putSw c2Bit false

/-- FSIN and FCOS (45_transcendental.md R424, R430, R431). -/
def trigOne (f : Word16 → Ext → Delivered) (s : State) : State :=
  if s.isEmpty 0 then trigFault false (fun t => t.setST 0 indef80) s
  else
    match trigFront s.cw (s.st 0) with
    | .value r =>
      match r.value with
      | none => s.signalAll r.flags
      | some x => trigCodes false ((s.signalAll r.flags).setST 0 x)
    | .outOfRange => trigOutOfRange s
    | .abandoned => s.signal .d
    | .go denormal =>
      let d := f s.cw (s.st 0)
      trigCodes d.c1 ((s.signalAll (denormalFlag denormal ++ d.flags)).setST 0 d.value)

/-- FSINCOS and FPTAN: the first result replaces ST(0), the second is pushed; C1 is that of the last rounding
(45_transcendental.md R424, R432, R433). The masked stack fault moves TOP and writes the indefinite to both
destinations: R432 says so of FSINCOS; for FPTAN, whose R433 gives no masked response, it is the model's choice
(DESIGN CHOICE: log 36). That FPTAN's NaN and masked #IA go to both as well is DEDUCED from R424 (log 36). -/
def trigTwo (f g : Word16 → Ext → Delivered) (c1 : Delivered → Delivered → Bool) (s : State) : State :=
  if s.isEmpty 0 then trigFault false (writePair indef80 indef80) s
  else if s.pushFull then trigFault true (writePair indef80 indef80) s
  else
    match trigFront s.cw (s.st 0) with
    | .value r =>
      match r.value with
      | none => s.signalAll r.flags
      | some x => trigCodes false (writePair x x (s.signalAll r.flags))
    | .outOfRange => trigOutOfRange s
    | .abandoned => s.signal .d
    | .go denormal =>
      let d := f s.cw (s.st 0)
      let e := g s.cw (s.st 0)
      trigCodes (c1 d e)
        (writePair d.value e.value (s.signalAll (denormalFlag denormal ++ (d.flags ++ e.flags))))

/-- The +1.0 that FPTAN pushes (45_transcendental.md R433). -/
def oneResult (_ : Word16) (_ : Ext) : Delivered := ⟨one80, false, []⟩

/-- An operation on ST(0) and ST(1) whose result replaces ST(1), with a pop (45_transcendental.md R434, R435). -/
def intoSecond (f : Ext → Ext → Reply Written) (s : State) : State :=
  if s.isEmpty 0 || s.isEmpty 1 then underflow 1 true s
  else writeReplied 1 true (f (s.st 0) (s.st 1)) s

/-- Carry out the answer of F2XM1 or FYL2XP1: outside the domain the result and C1 are undefined, and there is no
exception beyond the denormal operand's (45_transcendental.md R436, R437, 93_implementation_defined.md U15; log 20). -/
def domainReplied (d : Idx) (pop : Bool) (r : DomainReply) (s : State) : State :=
  match r with
  | .inside q => writeReplied d pop q s
  | .abandoned => s.signal .d
  | .outside denormal =>
    (((s.signalAll (denormalFlag denormal)).setST d (Config.undefResult s.draws)).drawAllCodes).popIf pop

/-- F2XM1 (45_transcendental.md R437). -/
def exp2m1Top (s : State) : State :=
  if s.isEmpty 0 then underflow 0 false s else domainReplied 0 false (exp2m1 s.cw (s.st 0)) s

/-- FYL2XP1 (45_transcendental.md R436). -/
def yLog2xp1Top (s : State) : State :=
  if s.isEmpty 0 || s.isEmpty 1 then underflow 1 true s
  else domainReplied 1 true (yLog2xp1 s.cw s.nanPick (s.st 0) (s.st 1)) s

/-- FSCALE (45_transcendental.md R438). -/
def scaleTop (s : State) : State :=
  if s.isEmpty 0 || s.isEmpty 1 then underflow 0 false s
  else writeReplied 0 false (scale s.cw s.nanPick (s.st 0) (s.st 1)) s

/-! ### Instructions -/

/-- FSIN: sine (45_transcendental.md R430). -/
def execFsin (p : Prefixes) (s : State) : Result :=
  runReg (.fsin p) (fun t => .ok (trigOne sinResult t)) s

/-- FCOS: cosine (45_transcendental.md R431). -/
def execFcos (p : Prefixes) (s : State) : Result :=
  runReg (.fcos p) (fun t => .ok (trigOne cosResult t)) s

/-- FSINCOS: sine, and the cosine pushed (45_transcendental.md R432). -/
def execFsincos (p : Prefixes) (s : State) : Result :=
  runReg (.fsincos p) (fun t => .ok (trigTwo sinResult cosResult (fun _ e => e.c1) t)) s

/-- FPTAN: tangent, and +1.0 pushed (45_transcendental.md R433). -/
def execFptan (p : Prefixes) (s : State) : Result :=
  runReg (.fptan p) (fun t => .ok (trigTwo tanResult oneResult (fun d _ => d.c1) t)) s

/-- FPATAN: arctangent of ST(1) / ST(0), and pop (45_transcendental.md R434). -/
def execFpatan (p : Prefixes) (s : State) : Result :=
  runReg (.fpatan p) (fun t => .ok (intoSecond (fun x y => atan2 t.cw t.nanPick y x) t)) s

/-- FYL2X: ST(1) * log2 ST(0), and pop (45_transcendental.md R435). -/
def execFyl2x (p : Prefixes) (s : State) : Result :=
  runReg (.fyl2x p) (fun t => .ok (intoSecond (yLog2x t.cw t.nanPick) t)) s

/-- FYL2XP1: ST(1) * log2 (ST(0) + 1), and pop (45_transcendental.md R436). -/
def execFyl2xp1 (p : Prefixes) (s : State) : Result :=
  runReg (.fyl2xp1 p) (fun t => .ok (yLog2xp1Top t)) s

/-- F2XM1: 2^ST(0) - 1 (45_transcendental.md R437). -/
def execF2xm1 (p : Prefixes) (s : State) : Result :=
  runReg (.f2xm1 p) (fun t => .ok (exp2m1Top t)) s

/-- FSCALE: ST(0) * 2^trunc(ST(1)) (45_transcendental.md R438). -/
def execFscale (p : Prefixes) (s : State) : Result :=
  runReg (.fscale p) (fun t => .ok (scaleTop t)) s

end Sys2Proof.Machine
end

