-- ==== Sys2Proof/Machine/Dispatch.lean ====
section
/-! DEFINITION. The meaning of each instruction: one arm per constructor of `Instr`. -/

namespace Sys2Proof.Machine

/-- The meaning of an instruction. -/
def exec (i : Instr) (s : State) : Host.Outcome State Fault Refusal :=
  match i with
  | .faddM32real p m => Sys2Proof.Machine.execFaddM32real p m s
  | .fmulM32real p m => Sys2Proof.Machine.execFmulM32real p m s
  | .fcomM32real p m => Sys2Proof.Machine.execFcomM32real p m s
  | .fcompM32real p m => Sys2Proof.Machine.execFcompM32real p m s
  | .fsubM32real p m => Sys2Proof.Machine.execFsubM32real p m s
  | .fsubrM32real p m => Sys2Proof.Machine.execFsubrM32real p m s
  | .fdivM32real p m => Sys2Proof.Machine.execFdivM32real p m s
  | .fdivrM32real p m => Sys2Proof.Machine.execFdivrM32real p m s
  | .faddM64real p m => Sys2Proof.Machine.execFaddM64real p m s
  | .fmulM64real p m => Sys2Proof.Machine.execFmulM64real p m s
  | .fcomM64real p m => Sys2Proof.Machine.execFcomM64real p m s
  | .fcompM64real p m => Sys2Proof.Machine.execFcompM64real p m s
  | .fsubM64real p m => Sys2Proof.Machine.execFsubM64real p m s
  | .fsubrM64real p m => Sys2Proof.Machine.execFsubrM64real p m s
  | .fdivM64real p m => Sys2Proof.Machine.execFdivM64real p m s
  | .fdivrM64real p m => Sys2Proof.Machine.execFdivrM64real p m s
  | .fiaddM32int p m => Sys2Proof.Machine.execFiaddM32int p m s
  | .fimulM32int p m => Sys2Proof.Machine.execFimulM32int p m s
  | .ficomM32int p m => Sys2Proof.Machine.execFicomM32int p m s
  | .ficompM32int p m => Sys2Proof.Machine.execFicompM32int p m s
  | .fisubM32int p m => Sys2Proof.Machine.execFisubM32int p m s
  | .fisubrM32int p m => Sys2Proof.Machine.execFisubrM32int p m s
  | .fidivM32int p m => Sys2Proof.Machine.execFidivM32int p m s
  | .fidivrM32int p m => Sys2Proof.Machine.execFidivrM32int p m s
  | .fiaddM16int p m => Sys2Proof.Machine.execFiaddM16int p m s
  | .fimulM16int p m => Sys2Proof.Machine.execFimulM16int p m s
  | .ficomM16int p m => Sys2Proof.Machine.execFicomM16int p m s
  | .ficompM16int p m => Sys2Proof.Machine.execFicompM16int p m s
  | .fisubM16int p m => Sys2Proof.Machine.execFisubM16int p m s
  | .fisubrM16int p m => Sys2Proof.Machine.execFisubrM16int p m s
  | .fidivM16int p m => Sys2Proof.Machine.execFidivM16int p m s
  | .fidivrM16int p m => Sys2Proof.Machine.execFidivrM16int p m s
  | .fldM32real p m => Sys2Proof.Machine.execFldM32real p m s
  | .fstM32real p m => Sys2Proof.Machine.execFstM32real p m s
  | .fstpM32real p m => Sys2Proof.Machine.execFstpM32real p m s
  | .fldenv p m => Sys2Proof.Machine.execFldenv p m s
  | .fldcw p m => Sys2Proof.Machine.execFldcw p m s
  | .fnstenv p m => Sys2Proof.Machine.execFnstenv p m s
  | .fnstcw p m => Sys2Proof.Machine.execFnstcw p m s
  | .fildM32int p m => Sys2Proof.Machine.execFildM32int p m s
  | .fistM32int p m => Sys2Proof.Machine.execFistM32int p m s
  | .fistpM32int p m => Sys2Proof.Machine.execFistpM32int p m s
  | .fldM80real p m => Sys2Proof.Machine.execFldM80real p m s
  | .fstpM80real p m => Sys2Proof.Machine.execFstpM80real p m s
  | .fldM64real p m => Sys2Proof.Machine.execFldM64real p m s
  | .fstM64real p m => Sys2Proof.Machine.execFstM64real p m s
  | .fstpM64real p m => Sys2Proof.Machine.execFstpM64real p m s
  | .frstor p m => Sys2Proof.Machine.execFrstor p m s
  | .fnsave p m => Sys2Proof.Machine.execFnsave p m s
  | .fnstswM2byte p m => Sys2Proof.Machine.execFnstswM2byte p m s
  | .fildM16int p m => Sys2Proof.Machine.execFildM16int p m s
  | .fistM16int p m => Sys2Proof.Machine.execFistM16int p m s
  | .fistpM16int p m => Sys2Proof.Machine.execFistpM16int p m s
  | .fbld p m => Sys2Proof.Machine.execFbld p m s
  | .fildM64int p m => Sys2Proof.Machine.execFildM64int p m s
  | .fbstp p m => Sys2Proof.Machine.execFbstp p m s
  | .fistpM64int p m => Sys2Proof.Machine.execFistpM64int p m s
  | .faddSt0Sti p k => Sys2Proof.Machine.execFaddSt0Sti p k s
  | .fmulSt0Sti p k => Sys2Proof.Machine.execFmulSt0Sti p k s
  | .fcomSti p k => Sys2Proof.Machine.execFcomSti p k s
  | .fcompSti p k => Sys2Proof.Machine.execFcompSti p k s
  | .fsubSt0Sti p k => Sys2Proof.Machine.execFsubSt0Sti p k s
  | .fsubrSt0Sti p k => Sys2Proof.Machine.execFsubrSt0Sti p k s
  | .fdivSt0Sti p k => Sys2Proof.Machine.execFdivSt0Sti p k s
  | .fdivrSt0Sti p k => Sys2Proof.Machine.execFdivrSt0Sti p k s
  | .fldSti p k => Sys2Proof.Machine.execFldSti p k s
  | .fxch p k => Sys2Proof.Machine.execFxch p k s
  | .fnop p => Sys2Proof.Machine.execFnop p s
  | .fchs p => Sys2Proof.Machine.execFchs p s
  | .fabs p => Sys2Proof.Machine.execFabs p s
  | .ftst p => Sys2Proof.Machine.execFtst p s
  | .fxam p => Sys2Proof.Machine.execFxam p s
  | .fld1 p => Sys2Proof.Machine.execFld1 p s
  | .fldl2t p => Sys2Proof.Machine.execFldl2t p s
  | .fldl2e p => Sys2Proof.Machine.execFldl2e p s
  | .fldpi p => Sys2Proof.Machine.execFldpi p s
  | .fldlg2 p => Sys2Proof.Machine.execFldlg2 p s
  | .fldln2 p => Sys2Proof.Machine.execFldln2 p s
  | .fldz p => Sys2Proof.Machine.execFldz p s
  | .f2xm1 p => Sys2Proof.Machine.execF2xm1 p s
  | .fyl2x p => Sys2Proof.Machine.execFyl2x p s
  | .fptan p => Sys2Proof.Machine.execFptan p s
  | .fpatan p => Sys2Proof.Machine.execFpatan p s
  | .fxtract p => Sys2Proof.Machine.execFxtract p s
  | .fprem1 p => Sys2Proof.Machine.execFprem1 p s
  | .fdecstp p => Sys2Proof.Machine.execFdecstp p s
  | .fincstp p => Sys2Proof.Machine.execFincstp p s
  | .fprem p => Sys2Proof.Machine.execFprem p s
  | .fyl2xp1 p => Sys2Proof.Machine.execFyl2xp1 p s
  | .fsqrt p => Sys2Proof.Machine.execFsqrt p s
  | .fsincos p => Sys2Proof.Machine.execFsincos p s
  | .frndint p => Sys2Proof.Machine.execFrndint p s
  | .fscale p => Sys2Proof.Machine.execFscale p s
  | .fsin p => Sys2Proof.Machine.execFsin p s
  | .fcos p => Sys2Proof.Machine.execFcos p s
  | .fcmovb p k => Sys2Proof.Machine.execFcmovb p k s
  | .fcmove p k => Sys2Proof.Machine.execFcmove p k s
  | .fcmovbe p k => Sys2Proof.Machine.execFcmovbe p k s
  | .fcmovu p k => Sys2Proof.Machine.execFcmovu p k s
  | .fucompp p => Sys2Proof.Machine.execFucompp p s
  | .fcmovnb p k => Sys2Proof.Machine.execFcmovnb p k s
  | .fcmovne p k => Sys2Proof.Machine.execFcmovne p k s
  | .fcmovnbe p k => Sys2Proof.Machine.execFcmovnbe p k s
  | .fcmovnu p k => Sys2Proof.Machine.execFcmovnu p k s
  | .feni p => Sys2Proof.Machine.execFeni p s
  | .fdisi p => Sys2Proof.Machine.execFdisi p s
  | .fnclex p => Sys2Proof.Machine.execFnclex p s
  | .fninit p => Sys2Proof.Machine.execFninit p s
  | .fsetpm p => Sys2Proof.Machine.execFsetpm p s
  | .fucomi p k => Sys2Proof.Machine.execFucomi p k s
  | .fcomi p k => Sys2Proof.Machine.execFcomi p k s
  | .faddStiSt0 p k => Sys2Proof.Machine.execFaddStiSt0 p k s
  | .fmulStiSt0 p k => Sys2Proof.Machine.execFmulStiSt0 p k s
  | .fsubrStiSt0 p k => Sys2Proof.Machine.execFsubrStiSt0 p k s
  | .fsubStiSt0 p k => Sys2Proof.Machine.execFsubStiSt0 p k s
  | .fdivrStiSt0 p k => Sys2Proof.Machine.execFdivrStiSt0 p k s
  | .fdivStiSt0 p k => Sys2Proof.Machine.execFdivStiSt0 p k s
  | .ffree p k => Sys2Proof.Machine.execFfree p k s
  | .fstSti p k => Sys2Proof.Machine.execFstSti p k s
  | .fstpSti p k => Sys2Proof.Machine.execFstpSti p k s
  | .fucom p k => Sys2Proof.Machine.execFucom p k s
  | .fucomp p k => Sys2Proof.Machine.execFucomp p k s
  | .faddp p k => Sys2Proof.Machine.execFaddp p k s
  | .fmulp p k => Sys2Proof.Machine.execFmulp p k s
  | .fcompp p => Sys2Proof.Machine.execFcompp p s
  | .fsubrp p k => Sys2Proof.Machine.execFsubrp p k s
  | .fsubp p k => Sys2Proof.Machine.execFsubp p k s
  | .fdivrp p k => Sys2Proof.Machine.execFdivrp p k s
  | .fdivp p k => Sys2Proof.Machine.execFdivp p k s
  | .fnstswAx p => Sys2Proof.Machine.execFnstswAx p s
  | .fucomip p k => Sys2Proof.Machine.execFucomip p k s
  | .fcomip p k => Sys2Proof.Machine.execFcomip p k s
  | .wait p => Sys2Proof.Machine.execWait p s
  | .finit p => Sys2Proof.Machine.execFinit p s
  | .fclex p => Sys2Proof.Machine.execFclex p s
  | .fstcw p m => Sys2Proof.Machine.execFstcw p m s
  | .fstswM2byte p m => Sys2Proof.Machine.execFstswM2byte p m s
  | .fstswAx p => Sys2Proof.Machine.execFstswAx p s
  | .fstenv p m => Sys2Proof.Machine.execFstenv p m s
  | .fsave p m => Sys2Proof.Machine.execFsave p m s

end Sys2Proof.Machine
end

