-- ==== Sys2Proof/Machine/Step.lean ====
section
/-! DEFINITION. One step of the machine, and placing a word where it is fetched. -/

namespace Sys2Proof.Machine

/-- One step: a frozen processor waits for the interrupt; otherwise the instruction at the pc executes
(92_eei_decisions.md D1, 20_memory.md R109). -/
def step (s : State) : Host.Outcome State Fault Refusal :=
  if s.frozen then s.stayFrozen
  else
    match decode s.addrSize32 s.fetchWindow with
    | .ok (i, _) => exec i s
    | .error e => s.undecoded e

/-- The state with an opcode-table word's bytes, and zeros after them, at the pc (log 30). -/
def State.withFetchWord (s : State) (nbits w : Nat) : State := s.placeWord nbits w

end Sys2Proof.Machine
end

