-- ==== Sys2Proof/Safety.lean ====
section
/-! DEFINITION. The invariant of the machine, in the terms that statements use. -/

namespace Sys2Proof.Machine

/-- Every register's tag is empty or says what the register holds (10_state.md R70). -/
def State.TagsTrue (s : State) : Prop := ∀ k : Idx, s.tag k = emptyTag ∨ s.tag k = tagOf (s.reg k)

/-- ES is 1 exactly when some flag is set whose mask is clear (10_state.md R46). -/
def State.SummaryTrue (s : State) : Prop := s.es = summary s.sw s.cw

/-- B reflects ES (10_state.md R47). -/
def State.BusyTrue (s : State) : Prop := s.sw.getLsbD busyBit = s.es

/-- What every reachable state satisfies. -/
structure State.Inv (s : State) : Prop where
  /-- Memory is in its canonical form. -/
  memory : Memory.wf s.mem = true
  /-- The tag invariant of 10_state.md R70. -/
  tags : s.TagsTrue
  /-- The equation of ES, 10_state.md R46. -/
  summary : s.SummaryTrue
  /-- B = ES, 10_state.md R47. -/
  busy : s.BusyTrue
  /-- FERR# is asserted only for a pending exception (60_exceptions.md R554). -/
  ferr : s.ferr = true → s.es = true
  /-- The processor freezes only in the MS-DOS mode, IGNNE# deasserted, an exception pending (60_exceptions.md R555). -/
  frozen : s.frozen = true → s.es = true ∧ s.ne = false ∧ s.ignne = false

/-- No exception keeps a waiting instruction from executing (40_numerics.md R245 step 1). -/
def State.Ready (s : State) : Prop := s.waitCheck = .proceed

/-- ST(i) holds a value. -/
def State.Full (s : State) (i : Idx) : Prop := s.isEmpty i = false

/-- A push finds an empty register (40_numerics.md R240). -/
def State.Room (s : State) : Prop := s.pushFull = false

/-- The host lets the instruction have its memory operand (20_memory.md R111). -/
def State.Allows (s : State) (a : Word32) (n : Nat) : Prop := s.operandDenied a n = false

/-! ### Bits of the status word -/

/-- An exception flag (10_state.md R45). -/
def State.flag (s : State) (x : Exc) : Bool := s.sw.getLsbD x.bit

/-- The stack fault flag (10_state.md R48). -/
def State.sf (s : State) : Bool := s.sw.getLsbD sfBit

/-- The busy bit (10_state.md R47). -/
def State.busy (s : State) : Bool := s.sw.getLsbD busyBit

/-- Condition code C0. -/
def State.c0 (s : State) : Bool := s.sw.getLsbD c0Bit

/-- Condition code C1. -/
def State.c1 (s : State) : Bool := s.sw.getLsbD c1Bit

/-- Condition code C2. -/
def State.c2 (s : State) : Bool := s.sw.getLsbD c2Bit

/-- Condition code C3. -/
def State.c3 (s : State) : Bool := s.sw.getLsbD c3Bit

/-- The condition codes in the order of 44_comparison.md R381. -/
def State.codes (s : State) : Bool × Bool × Bool := (s.c3, s.c2, s.c0)

/-! ### What an instruction leaves unchanged -/

/-- The host's registers, flags, modes and inputs are unchanged. -/
structure State.SameHost (s t : State) : Prop where
  gprs : t.gprs = s.gprs
  segs : t.segs = s.segs
  zf : t.zf = s.zf
  pf : t.pf = s.pf
  cf : t.cf = s.cf
  ne : t.ne = s.ne
  ignne : t.ignne = s.ignne
  mode : t.mode = s.mode
  opSize32 : t.opSize32 = s.opSize32
  addrSize32 : t.addrSize32 = s.addrSize32
  intr : t.intr = s.intr
  denied : t.denied = s.denied
  frozen : t.frozen = s.frozen
  params : t.params = s.params

/-- Every byte of memory reads as before. -/
def State.SameMemory (s t : State) : Prop := ∀ a, readByte t.mem a = readByte s.mem a

/-- Every byte of memory but the `n` from `a` on reads as before. -/
def State.SameMemoryBut (s t : State) (a : Word32) (n : Nat) : Prop :=
  ∀ b, inRange a n b = false → readByte t.mem b = readByte s.mem b

/-- Every data register and every tag is as before. -/
structure State.SameRegisters (s t : State) : Prop where
  value : ∀ k, t.reg k = s.reg k
  tag : ∀ k, t.tag k = s.tag k

/-- FIP, FDP and FOP are as before. -/
structure State.SamePointers (s t : State) : Prop where
  fip : t.fip = s.fip
  fdp : t.fdp = s.fdp
  fop : t.fop = s.fop

/-- FIP and FOP record the instruction, FDP its memory operand if it has one (10_state.md R76, R77). -/
structure State.Recorded (s t : State) (i : Instr) (operand : Option FarPtr) : Prop where
  fip : t.fip = s.pc
  fop : t.fop = i.fop
  fdp : ∀ q, operand = some q → t.fdp = q

/-- The bits of the status word outside a list are as before. -/
def State.SameStatusBut (s t : State) (bits : List Nat) : Prop :=
  ∀ n, n ∉ bits → t.sw.getLsbD n = s.sw.getLsbD n

/-- The bits of C0, C1, C2 and C3. -/
def codeBits : List Nat := [c0Bit, c1Bit, c2Bit, c3Bit]

/-- The pc has moved past the instruction (10_state.md R86). -/
def State.PastInstr (s t : State) (i : Instr) : Prop := t.eip = s.eip + BitVec.ofNat 32 i.length

/-- The frame of a completed non-control instruction that stores nothing: the host, memory and the control word are as
before, the pointer registers record the instruction, the pc is past it. -/
structure State.Ran (s t : State) (i : Instr) (operand : Option FarPtr) : Prop where
  host : s.SameHost t
  memory : s.SameMemory t
  control : t.cw = s.cw
  pointers : s.Recorded t i operand
  pc : s.PastInstr t i

/-- The frame of a completed non-control instruction that stores `n` bytes at `a`. -/
structure State.RanStoring (s t : State) (i : Instr) (operand : FarPtr) (a : Word32) (n : Nat) : Prop where
  host : s.SameHost t
  memory : s.SameMemoryBut t a n
  control : t.cw = s.cw
  pointers : s.Recorded t i (some operand)
  pc : s.PastInstr t i

/-! ### What an instruction does to the stack and the status word -/

/-- `x` is the new ST(0), one register further down; every other register and tag is as before (40_numerics.md R240). -/
structure State.Pushed (s t : State) (x : Ext) : Prop where
  top : t.top = s.top - 1
  value : ∀ k, t.reg k = if k = s.top - 1 then x else s.reg k
  tag : ∀ k, t.tag k = if k = s.top - 1 then tagOf x else s.tag k

/-- ST(d) holds `x`, then the stack is popped if `pop`; every other register and tag is as before
(40_numerics.md R216, R241). -/
structure State.Wrote (s t : State) (d : Idx) (pop : Bool) (x : Ext) : Prop where
  top : t.top = if pop then s.top + 1 else s.top
  value : ∀ k, t.reg k = if k = s.phys d then x else s.reg k
  tag : ∀ k, t.tag k =
    if pop ∧ k = s.top then emptyTag else if k = s.phys d then tagOf x else s.tag k

/-- Nothing is written; the stack is popped `n` times (40_numerics.md R241). -/
structure State.Popped (s t : State) (n : Nat) : Prop where
  top : t.top = s.top + BitVec.ofNat 3 n
  value : ∀ k, t.reg k = s.reg k
  tag : ∀ k, t.tag k = if (k - s.top).toNat < n then emptyTag else s.tag k

/-- The exceptions `raised` are signalled: their flags are set, ES and B are set if one of them is unmasked, no other
flag and not SF changes; C1 is `c1` (60_exceptions.md R522). -/
structure State.Signals (s t : State) (raised : List Exc) (c1 : Bool) : Prop where
  flag : ∀ x, t.flag x = (s.flag x || raised.contains x)
  es : t.es = (s.es || raised.any fun x => !s.masked x)
  busy : t.busy = (s.busy || raised.any fun x => !s.masked x)
  sf : t.sf = s.sf
  c1 : t.c1 = c1

/-- A stack fault is signalled: IE and SF are set, C1 tells overflow from underflow, ES and B are set if #I is unmasked,
no other flag changes (60_exceptions.md R526). -/
structure State.StackFaulted (s t : State) (overflow : Bool) : Prop where
  flag : ∀ x, t.flag x = (s.flag x || x == .i)
  es : t.es = (s.es || !s.masked .i)
  busy : t.busy = (s.busy || !s.masked .i)
  sf : t.sf = true
  c1 : t.c1 = overflow

/-- Both results of an instruction that writes ST(0) and pushes: `x` and, above it, `y` (43_basic_arithmetic.md R366,
45_transcendental.md R432, R433). -/
structure State.WrotePair (s t : State) (x y : Ext) : Prop where
  top : t.top = s.top - 1
  value : ∀ k, t.reg k = if k = s.top - 1 then y else if k = s.top then x else s.reg k
  tag : ∀ k, t.tag k = if k = s.top - 1 then tagOf y else if k = s.top then tagOf x else s.tag k

/-- The outcome of an operation that answers a value for ST(d): written, with its exceptions signalled; or, where an
unmasked exception ended it before the operation, only that exception (40_numerics.md R246, 60_exceptions.md R541). -/
def State.Outcome (s t : State) (d : Idx) (pop : Bool) (r : Reply Written) : Prop :=
  match r.value with
  | some w => s.Wrote t d pop w.value ∧ s.Signals t r.flags w.c1
  | none => s.Popped t 0 ∧ s.Signals t r.flags s.c1

/-- The outcome of an operation whose answer goes both to ST(0) and to a register pushed above it, or that an unmasked
exception ended (43_basic_arithmetic.md R366, 45_transcendental.md R432, R433). -/
def State.OutcomePair (s t : State) (r : Reply Written) : Prop :=
  match r.value with
  | some w => s.WrotePair t w.value w.value ∧ s.Signals t r.flags w.c1
  | none => s.Popped t 0 ∧ s.Signals t r.flags s.c1

/-- Every exception is masked. -/
def State.AllMasked (s : State) : Prop := ∀ x, s.masked x = true

/-! ### Values -/

/-- The rational number of a magnitude. -/
def Mag.toRat (m : Mag) : ℚ := (m.num : ℚ) / m.den * (2 : ℚ) ^ m.exp

/-- The rational number of an exact value. -/
def Exact.toRat (v : Exact) : ℚ := if v.neg then -v.mag.toRat else v.mag.toRat

/-- `Val(x)` of a finite encoding (40_numerics.md R186). -/
def realOf (x : Ext) : ℚ := (valOf x).toRat

/-- A finite encoding: a zero, a denormal or a normal (40_numerics.md R185). -/
def isFinite (x : Ext) : Bool :=
  match classOf x with
  | .zero => true
  | .denormal => true
  | .pseudoDenormal => true
  | .normal => true
  | _ => false

/-- The exact result of an operation. -/
def ArithOp.onRat : ArithOp → ℚ → ℚ → ℚ
  | .add, a, b => a + b
  | .sub, a, b => a - b
  | .mul, a, b => a * b
  | .div, a, b => a / b

/-- Every decimal digit of a packed-decimal operand is one (40_numerics.md R224). -/
abbrev DecimalDigits (m : Nat) : Prop := ∀ k < 18, m / 16 ^ k % 16 ≤ 9

/-- The number that the decimal digits of a packed-decimal operand stand for (40_numerics.md R175, R224). -/
def decimalValue (m : Nat) : Nat := ∑ k ∈ Finset.range 18, m / 16 ^ k % 16 * 10 ^ k

/-- `r` is `v` rounded by the mode to multiples of `u` (40_numerics.md R200). -/
def RoundedTo (rm : RoundMode) (u v r : ℚ) : Prop :=
  match rm with
  | .nearest => |r - v| ≤ u / 2 ∧ (|r - v| = u / 2 → ∃ k : ℤ, r = 2 * k * u)
  | .down => r ≤ v ∧ v < r + u
  | .up => v ≤ r ∧ r < v + u
  | .zero => 0 ≤ r * v ∧ |r| ≤ |v| ∧ |v| < |r| + u

/-- The infinity, not the largest finite number, is the masked response to an overflow of `v` (40_numerics.md R203). -/
abbrev OverflowsToInfinity (rm : RoundMode) (v : ℚ) : Prop :=
  rm = .nearest ∨ (rm = .up ∧ 0 < v) ∨ (rm = .down ∧ v < 0)

/-! ### What the checks of the operands answer -/

/-- The masked response of #IA and #Z, written with C1 = 0; nothing if the exception is unmasked (40_numerics.md R246). -/
def Reply.special (cw : Word16) (x : Exc) (masked : Ext) : Reply Written :=
  ⟨[x], if maskedIn cw x = true then some ⟨masked, false⟩ else none⟩

/-- An exact result, written with C1 = 0, after the denormal test (40_numerics.md R246 steps 7 and 8). -/
def Reply.exactly (cw : Word16) (denormal : Bool) (x : Ext) : Reply Written :=
  if denormal = true then ⟨[.d], if maskedIn cw .d = true then some ⟨x, false⟩ else none⟩ else ⟨[], some ⟨x, false⟩⟩

/-- What an instruction of two operands answers where one is a NaN or an unsupported encoding (40_numerics.md R204, R205,
R246 steps 3 to 5). `pick` chooses between two NaNs of equal significand. -/
inductive NanAnswer (cw : Word16) (pick : Bool) (a b : Ext) : Reply Written → Prop
  | unsupported (h : classOf a = .unsupported ∨ classOf b = .unsupported) : NanAnswer cw pick a b (.special cw .i indef80)
  | snan (ha : classOf a ≠ .unsupported) (hb : classOf b ≠ .unsupported) (h : classOf a = .snan ∨ classOf b = .snan) :
    NanAnswer cw pick a b (.special cw .i (qnanOf pick a b))
  | qnan (ha : classOf a ≠ .unsupported) (hb : classOf b ≠ .unsupported) (ha' : classOf a ≠ .snan)
    (hb' : classOf b ≠ .snan) (h : classOf a = .qnan ∨ classOf b = .qnan) :
    NanAnswer cw pick a b ⟨[], some ⟨qnanOf pick a b, false⟩⟩

/-- What an instruction of one operand answers where that is a NaN or an unsupported encoding (40_numerics.md R204, R205,
R246 steps 3 to 5). -/
inductive NanAnswer1 (cw : Word16) (x : Ext) : Reply Written → Prop
  | unsupported (h : classOf x = .unsupported) : NanAnswer1 cw x (.special cw .i indef80)
  | snan (h : classOf x = .snan) : NanAnswer1 cw x (.special cw .i (quiet x))
  | qnan (h : classOf x = .qnan) : NanAnswer1 cw x ⟨[], some ⟨x, false⟩⟩

/-- The answers of FSQRT that no rounding makes (43_basic_arithmetic.md R352): a negative denormal is #IA, not #D. -/
inductive SqrtAnswer (cw : Word16) (x : Ext) : Reply Written → Prop
  | nan {r : Reply Written} (h : NanAnswer1 cw x r) : SqrtAnswer cw x r
  | unchanged (h : classOf x = .zero ∨ (classOf x = .infinity ∧ signOf x = false)) : SqrtAnswer cw x ⟨[], some ⟨x, false⟩⟩
  | negative (h : isOrdered x = true) (hz : classOf x ≠ .zero) (hs : signOf x = true) :
    SqrtAnswer cw x (.special cw .i indef80)
  | denormal (h : isDenormal x = true) (hs : signOf x = false) (hm : maskedIn cw .d = false) : SqrtAnswer cw x ⟨[.d], none⟩

/-- The answers of FSCALE but for finite operands, the scaled one not zero, of which it computes the product
(45_transcendental.md R438). -/
inductive ScaleAnswer (cw : Word16) (pick : Bool) (x s : Ext) : Reply Written → Prop
  | nan {r : Reply Written} (h : NanAnswer cw pick x s r) : ScaleAnswer cw pick x s r
  | invalid (hs : classOf s = .infinity) (hx : classOf x = if signOf s = true then .infinity else .zero) :
    ScaleAnswer cw pick x s (.special cw .i indef80)
  | up (hs : classOf s = .infinity) (hn : signOf s = false) (hx : isOrdered x = true) (hz : classOf x ≠ .zero) :
    ScaleAnswer cw pick x s (.exactly cw (isDenormal x) (inf80 (signOf x)))
  | down (hs : classOf s = .infinity) (hn : signOf s = true) (hx : isFinite x = true) :
    ScaleAnswer cw pick x s (.exactly cw (isDenormal x) (zero80 (signOf x)))
  | unchanged (hs : isFinite s = true) (hx : classOf x = .zero ∨ classOf x = .infinity) :
    ScaleAnswer cw pick x s (.exactly cw (isDenormal s) x)
  | denormal (hs : isFinite s = true) (hx : isFinite x = true) (hz : classOf x ≠ .zero)
    (h : isDenormal x = true ∨ isDenormal s = true) (hm : maskedIn cw .d = false) : ScaleAnswer cw pick x s ⟨[.d], none⟩

/-- The answers of FPREM and FPREM1 but for two finite non-zero operands, of which they compute the remainder, and the
condition codes where they are defined: C2 = 0 after a masked #IA, a quotient of 0 where the dividend is the remainder
(43_basic_arithmetic.md R360). -/
inductive RemainderAnswer (cw : Word16) (pick : Bool) (x y : Ext) : Reply Written → (State → Prop) → Prop
  | nan {r : Reply Written} (h : NanAnswer cw pick x y r) : RemainderAnswer cw pick x y r fun _ => True
  | invalid (hx : isOrdered x = true) (hy : isOrdered y = true) (h : classOf x = .infinity ∨ classOf y = .zero) :
    RemainderAnswer cw pick x y (.special cw .i indef80) fun t => t.c2 = false
  | dividend (hx : isFinite x = true) (hy : classOf y = .infinity ∨ (classOf x = .zero ∧ isFinite y = true))
    (hz : classOf y ≠ .zero) :
    RemainderAnswer cw pick x y (.exactly cw (isDenormal x || isDenormal y) x) fun t => t.codes = (false, false, false)
  | denormal (hx : isFinite x = true) (hy : isFinite y = true) (hx' : classOf x ≠ .zero) (hy' : classOf y ≠ .zero)
    (h : isDenormal x = true ∨ isDenormal y = true) (hm : maskedIn cw .d = false) :
    RemainderAnswer cw pick x y ⟨[.d], none⟩ fun _ => True

/-- What the common front of FSIN, FCOS, FSINCOS and FPTAN answers for an operand that is no finite one, and for a denormal
whose #D is unmasked (45_transcendental.md R424 steps 2, 3 and 5). -/
inductive TrigAnswer (cw : Word16) (x : Ext) : Reply Written → Prop
  | nan {r : Reply Written} (h : NanAnswer1 cw x r) : TrigAnswer cw x r
  | infinity (h : classOf x = .infinity) : TrigAnswer cw x (.special cw .i indef80)
  | denormal (h : isDenormal x = true) (hm : maskedIn cw .d = false) : TrigAnswer cw x ⟨[.d], none⟩

/-- The answers of F2XM1 but for finite non-zero operands, of which it computes `2^x - 1` (45_transcendental.md R437). -/
inductive Exp2Answer (cw : Word16) (x : Ext) : Reply Written → Prop
  | nan {r : Reply Written} (h : NanAnswer1 cw x r) : Exp2Answer cw x r
  | zero (h : classOf x = .zero) : Exp2Answer cw x ⟨[], some ⟨x, false⟩⟩
  | denormal (h : isDenormal x = true) (hm : maskedIn cw .d = false) : Exp2Answer cw x ⟨[.d], none⟩

/-- The answers of FPATAN that are no computed angle, `y` being ST(1) and `x` ST(0) (45_transcendental.md R434). -/
inductive Atan2Answer (cw : Word16) (pick : Bool) (x y : Ext) : Reply Written → Prop
  | nan {r : Reply Written} (h : NanAnswer cw pick x y r) : Atan2Answer cw pick x y r
  | zero (hx : isOrdered x = true) (hs : signOf x = false)
    (h : classOf y = .zero ∨ (isFinite y = true ∧ classOf x = .infinity)) :
    Atan2Answer cw pick x y (.exactly cw (isDenormal x || isDenormal y) (zero80 (signOf y)))
  | denormal (hx : isOrdered x = true) (hy : isOrdered y = true) (h : isDenormal x = true ∨ isDenormal y = true)
    (hm : maskedIn cw .d = false) : Atan2Answer cw pick x y ⟨[.d], none⟩

/-- The answers of FYL2X that are no computed logarithm, `y` being ST(1) and `x` ST(0) (45_transcendental.md R435). -/
inductive Log2Answer (cw : Word16) (pick : Bool) (x y : Ext) : Reply Written → Prop
  | nan {r : Reply Written} (h : NanAnswer cw pick x y r) : Log2Answer cw pick x y r
  | negative (hx : isOrdered x = true) (hy : isOrdered y = true) (hz : classOf x ≠ .zero) (hs : signOf x = true) :
    Log2Answer cw pick x y (.special cw .i indef80)
  | zeroZero (hx : classOf x = .zero) (hy : classOf y = .zero) : Log2Answer cw pick x y (.special cw .i indef80)
  | zeroInfinity (hx : classOf x = .zero) (hy : classOf y = .infinity) :
    Log2Answer cw pick x y ⟨[], some ⟨inf80 (!signOf y), false⟩⟩
  | zeroDivide (hx : classOf x = .zero) (hy : isFinite y = true) (hz : classOf y ≠ .zero) :
    Log2Answer cw pick x y (.special cw .z (inf80 (!signOf y)))
  | infinityZero (hx : classOf x = .infinity) (hy : classOf y = .zero) : Log2Answer cw pick x y (.special cw .i indef80)
  | infinity (hx : classOf x = .infinity) (hs : signOf x = false) (hy : isOrdered y = true) (hz : classOf y ≠ .zero) :
    Log2Answer cw pick x y (.exactly cw (isDenormal y) (inf80 (signOf y)))
  | oneInfinity (hx : isFinite x = true) (h : realOf x = 1) (hy : classOf y = .infinity) :
    Log2Answer cw pick x y (.special cw .i indef80)
  | one (hx : isFinite x = true) (h : realOf x = 1) (hy : isFinite y = true) :
    Log2Answer cw pick x y (.exactly cw (isDenormal y) (zero80 (signOf y)))
  | infinityFactor (hx : isFinite x = true) (h : 0 < realOf x) (h1 : realOf x ≠ 1) (hy : classOf y = .infinity) :
    Log2Answer cw pick x y (.exactly cw (isDenormal x) (inf80 (signOf y != decide (realOf x < 1))))
  | zeroFactor (hx : isFinite x = true) (h : 0 < realOf x) (h1 : realOf x ≠ 1) (hy : classOf y = .zero) :
    Log2Answer cw pick x y (.exactly cw (isDenormal x) (zero80 (signOf y != decide (realOf x < 1))))
  | denormal (hx : isFinite x = true) (h : 0 < realOf x) (h1 : realOf x ≠ 1) (hy : isFinite y = true)
    (hz : classOf y ≠ .zero) (hd : isDenormal x = true ∨ isDenormal y = true) (hm : maskedIn cw .d = false) :
    Log2Answer cw pick x y ⟨[.d], none⟩

/-- The answers of FYL2XP1 that are no computed logarithm, `y` being ST(1) and `x` ST(0) (45_transcendental.md R436;
log 20). -/
inductive Log2p1Answer (cw : Word16) (pick : Bool) (x y : Ext) : Reply Written → Prop
  | nan {r : Reply Written} (h : NanAnswer cw pick x y r) : Log2p1Answer cw pick x y r
  | invalid (hy : isOrdered y = true)
    (h : (classOf x = .infinity ∧ signOf x = true) ∨ (isFinite x = true ∧ realOf x < -1)) :
    Log2p1Answer cw pick x y (.special cw .i indef80)
  | zero (hx : classOf x = .zero) (hy : isFinite y = true) :
    Log2p1Answer cw pick x y (.exactly cw (isDenormal y) (zero80 (signOf x != signOf y)))
  | zeroFactor (hx : isFinite x = true) (h : |realOf x| ≤ 1) (h' : 1 / 2 ≤ (1 - |realOf x|) ^ 2) (hy : classOf y = .zero) :
    Log2p1Answer cw pick x y (.exactly cw (isDenormal x) (zero80 (signOf x != signOf y)))
  | denormal (hx : isOrdered x = true) (hy : isOrdered y = true)
    (h : (classOf x = .infinity ∧ signOf x = false) ∨ (isFinite x = true ∧ -1 ≤ realOf x))
    (hd : isDenormal x = true ∨ isDenormal y = true) (hm : maskedIn cw .d = false) : Log2p1Answer cw pick x y ⟨[.d], none⟩

/-- The answers of the four operations that no rounding makes: those to NaN and unsupported operands, the invalid
operations, the divide by zero, and the exact zeros and infinities (43_basic_arithmetic.md R323 to R326). -/
inductive SpecialAnswer (cw : Word16) (pick : Bool) : ArithOp → Operand → Operand → Reply Written → Prop
  | nan {op : ArithOp} {a b : Operand} {r : Reply Written} (h : NanAnswer cw pick a.value b.value r) :
    SpecialAnswer cw pick op a b r
  | addInvalid {a b : Operand} (ha : classOf a.value = .infinity) (hb : classOf b.value = .infinity)
    (h : signOf a.value ≠ signOf b.value) : SpecialAnswer cw pick .add a b (.special cw .i indef80)
  | addInfinity {a b : Operand} (ha : classOf a.value = .infinity)
    (hb : isFinite b.value = true ∨ (classOf b.value = .infinity ∧ signOf a.value = signOf b.value)) :
    SpecialAnswer cw pick .add a b (.exactly cw (a.denormal || b.denormal) a.value)
  | infinityAdded {a b : Operand} (ha : isFinite a.value = true) (hb : classOf b.value = .infinity) :
    SpecialAnswer cw pick .add a b (.exactly cw (a.denormal || b.denormal) b.value)
  | addZero {a b : Operand} (ha : isFinite a.value = true) (hb : isFinite b.value = true)
    (h : realOf a.value + realOf b.value = 0) :
    SpecialAnswer cw pick .add a b (.exactly cw (a.denormal || b.denormal)
      (zero80 (if signOf a.value = signOf b.value then signOf a.value else roundMode cw == .down)))
  | subInvalid {a b : Operand} (ha : classOf a.value = .infinity) (hb : classOf b.value = .infinity)
    (h : signOf a.value = signOf b.value) : SpecialAnswer cw pick .sub a b (.special cw .i indef80)
  | subInfinity {a b : Operand} (ha : classOf a.value = .infinity)
    (hb : isFinite b.value = true ∨ (classOf b.value = .infinity ∧ signOf a.value ≠ signOf b.value)) :
    SpecialAnswer cw pick .sub a b (.exactly cw (a.denormal || b.denormal) a.value)
  | infinitySubtracted {a b : Operand} (ha : isFinite a.value = true) (hb : classOf b.value = .infinity) :
    SpecialAnswer cw pick .sub a b (.exactly cw (a.denormal || b.denormal) (inf80 (!signOf b.value)))
  | subZero {a b : Operand} (ha : isFinite a.value = true) (hb : isFinite b.value = true)
    (h : realOf a.value = realOf b.value) :
    SpecialAnswer cw pick .sub a b (.exactly cw (a.denormal || b.denormal)
      (zero80 (if signOf a.value = signOf b.value then roundMode cw == .down else signOf a.value)))
  | mulInvalid {a b : Operand} (h : (classOf a.value = .infinity ∧ classOf b.value = .zero) ∨
      (classOf a.value = .zero ∧ classOf b.value = .infinity)) :
    SpecialAnswer cw pick .mul a b (.special cw .i indef80)
  | mulInfinity {a b : Operand} (ha : isOrdered a.value = true) (hb : isOrdered b.value = true)
    (ha' : classOf a.value ≠ .zero) (hb' : classOf b.value ≠ .zero)
    (h : classOf a.value = .infinity ∨ classOf b.value = .infinity) :
    SpecialAnswer cw pick .mul a b
      (.exactly cw (a.denormal || b.denormal) (inf80 (signOf a.value != signOf b.value)))
  | mulZero {a b : Operand} (ha : isFinite a.value = true) (hb : isFinite b.value = true)
    (h : classOf a.value = .zero ∨ classOf b.value = .zero) :
    SpecialAnswer cw pick .mul a b
      (.exactly cw (a.denormal || b.denormal) (zero80 (signOf a.value != signOf b.value)))
  | divInvalid {a b : Operand} (h : (classOf a.value = .infinity ∧ classOf b.value = .infinity) ∨
      (classOf a.value = .zero ∧ classOf b.value = .zero)) :
    SpecialAnswer cw pick .div a b (.special cw .i indef80)
  | divByZero {a b : Operand} (ha : isFinite a.value = true) (ha' : classOf a.value ≠ .zero)
    (hb : classOf b.value = .zero) :
    SpecialAnswer cw pick .div a b (.special cw .z (inf80 (signOf a.value != signOf b.value)))
  | infinityDivided {a b : Operand} (ha : classOf a.value = .infinity) (hb : isFinite b.value = true) :
    SpecialAnswer cw pick .div a b
      (.exactly cw (a.denormal || b.denormal) (inf80 (signOf a.value != signOf b.value)))
  | divByInfinity {a b : Operand} (ha : isFinite a.value = true) (hb : classOf b.value = .infinity) :
    SpecialAnswer cw pick .div a b
      (.exactly cw (a.denormal || b.denormal) (zero80 (signOf a.value != signOf b.value)))
  | zeroDivided {a b : Operand} (ha : classOf a.value = .zero) (hb : isFinite b.value = true)
    (hb' : classOf b.value ≠ .zero) :
    SpecialAnswer cw pick .div a b
      (.exactly cw (a.denormal || b.denormal) (zero80 (signOf a.value != signOf b.value)))

/-! ### Transcendental results -/

/-- The finite or infinite operands of which a function is computed, `x` being ST(0) and `y` ST(1): those in its domain
that give no exact result (45_transcendental.md R424, R434 to R437). The function of one operand disregards `y`. -/
def InDomain (f : TranscFn) (y x : Ext) : Prop :=
  match f with
  | .atan2 => isOrdered y = true ∧ isOrdered x = true ∧
      ¬ (signOf x = false ∧ (classOf y = .zero ∨ (isFinite y = true ∧ classOf x = .infinity)))
  | .ylog2x => isFinite x = true ∧ 0 < realOf x ∧ realOf x ≠ 1 ∧ isFinite y = true ∧ realOf y ≠ 0
  | .ylog2xp1 => isFinite x = true ∧ realOf x ≠ 0 ∧ |realOf x| ≤ 1 ∧ 1 / 2 ≤ (1 - |realOf x|) ^ 2 ∧ isFinite y = true ∧
      realOf y ≠ 0
  | .exp2m1 => isFinite x = true ∧ realOf x ≠ 0 ∧ |realOf x| ≤ 1
  | .sin | .cos | .tan => isFinite x = true ∧ realOf x ≠ 0 ∧ |realOf x| < (2 : ℚ) ^ (63 : ℕ)

/-- The ends of an enclosure are in order, and `log2` is the exponent of the values between them, the upper end not counted
where they only approach it (45_transcendental.md R421 b). -/
structure Enclosure.Proper (e : Enclosure) : Prop where
  order : e.lo.toRat ≤ e.hi.toRat
  lower : (2 : ℚ) ^ e.log2 ≤ e.hi.toRat
  upper : e.hi.toRat < (2 : ℚ) ^ (e.log2 + 1) ∨ (e.lo.toRat < e.hi.toRat ∧ e.hi.toRat = (2 : ℚ) ^ (e.log2 + 1))

/-- The magnitude `r` is within the error bound of a value of the enclosure: less than 1 ulp away to nearest, 1.5 ulps in
the other modes, an ulp being `2 ^ (k - 63)` (45_transcendental.md R421 b). -/
def Enclosure.Within (e : Enclosure) (rm : RoundMode) (r : ℚ) : Prop :=
  ∃ v : ℚ, e.lo.toRat ≤ v ∧ v ≤ e.hi.toRat ∧ |r - v| < (if rm = .nearest then 1 else 3 / 2) * (2 : ℚ) ^ (e.log2 - 63)

/-- The enclosure is so narrow that half an ulp is wider. -/
def Enclosure.Narrow (e : Enclosure) : Prop := e.hi.toRat < e.lo.toRat + (2 : ℚ) ^ (e.log2 - 64)

/-- `Val(x) = v` is known of the magnitude `r`: the true value is known exactly and `r` is it. -/
abbrev Enclosure.Known (e : Enclosure) (r : ℚ) : Prop := e.lo.toRat = e.hi.toRat ∧ r = e.hi.toRat

/-- C1 tells whether the magnitude `r` is above the true value, where the enclosure tells (45_transcendental.md R422). -/
def Enclosure.Tells (e : Enclosure) (r : ℚ) (c1 : Bool) : Prop :=
  (r ≤ e.lo.toRat → c1 = false) ∧ (e.lo.toRat < r → e.hi.toRat ≤ r → c1 = true)

/-- `Transc` of a function whose true value is enclosed by `e`: a computed magnitude `r` within the error bound, delivered
with the overflow, underflow and precision steps (45_transcendental.md R421, R422; log 22). A masked tiny result is rounded
to a multiple of `2^-16445`, but is itself within the bound where an extended-real value is. -/
def Enclosure.Delivers (e : Enclosure) (cw : Word16) (flags : List Exc) (w : Written) : Prop :=
  e.Proper ∧ ∃ r : ℚ, 0 ≤ r ∧ e.Within (roundMode cw) r ∧
    if (2 : ℚ) ^ (16384 : ℤ) ≤ r then
      if maskedIn cw .o = true then
        flags = [.o, .p] ∧
        if OverflowsToInfinity (roundMode cw) (if e.neg = true then -r else r) then w = ⟨inf80 e.neg, true⟩
        else isFinite w.value = true ∧ signOf w.value = e.neg ∧ w.c1 = false ∧
          |realOf w.value| = (2 : ℚ) ^ (16384 : ℤ) - (2 : ℚ) ^ (16320 : ℤ)
      else flags = .o :: (if e.Known r then [] else [.p]) ∧ e.Tells r w.c1 ∧
        isFinite w.value = true ∧ signOf w.value = e.neg ∧ |realOf w.value| = r * (2 : ℚ) ^ (-24576 : ℤ)
    else isFinite w.value = true ∧ signOf w.value = e.neg ∧
      if -16382 ≤ e.log2 then
        |realOf w.value| = r ∧ flags = (if e.Known r then [] else [.p]) ∧ e.Tells r w.c1
      else if maskedIn cw .u = true then
        RoundedTo (roundMode cw) ((2 : ℚ) ^ (-16445 : ℤ)) (if e.neg = true then -r else r) (realOf w.value) ∧
        flags = (if e.Known |realOf w.value| then [] else [.u, .p]) ∧ e.Tells |realOf w.value| w.c1 ∧
        (e.Narrow → (∃ x, isFinite x = true ∧ e.Within (roundMode cw) |realOf x|) →
          e.Within (roundMode cw) |realOf w.value|)
      else |realOf w.value| = r * (2 : ℚ) ^ (24576 : ℤ) ∧ flags = .u :: (if e.Known r then [] else [.p]) ∧
        e.Tells r w.c1

/-- The result of an in-range operand of FSIN, FCOS, FSINCOS or FPTAN: exact for a zero, else computed
(45_transcendental.md R430 to R433). -/
def TrigGives (f : TranscFn) (cw : Word16) (x : Ext) (flags : List Exc) (w : Written) : Prop :=
  if classOf x = .zero then flags = [] ∧ w = ⟨if f = .cos then one80 else x, false⟩
  else (trueValue f 0 x).Delivers cw flags w

/-- Everything a comparison answers: #IA for an unsupported operand, an SNaN and, unless it is quiet, a QNaN; unordered
without exception for another NaN; #D for a denormal operand where it is tested; and the relation
(44_comparison.md R383 steps 2 to 5). -/
structure CompareAnswers (cw : Word16) (quiet testD : Bool) (a b : Operand) : Prop where
  invalid : (classOf a.value = .unsupported ∨ classOf b.value = .unsupported) ∨
      (classOf a.value = .snan ∨ classOf b.value = .snan) ∨
      (quiet = false ∧ (classOf a.value = .qnan ∨ classOf b.value = .qnan)) →
    compare cw quiet testD a b = ⟨[.i], if maskedIn cw .i = true then some .unordered else none⟩
  unordered : quiet = true → classOf a.value ≠ .unsupported → classOf b.value ≠ .unsupported →
    classOf a.value ≠ .snan → classOf b.value ≠ .snan → classOf a.value = .qnan ∨ classOf b.value = .qnan →
    compare cw quiet testD a b = ⟨[], some .unordered⟩
  denormal : isOrdered a.value = true → isOrdered b.value = true → testD = true →
    a.denormal = true ∨ b.denormal = true →
    compare cw quiet testD a b =
      ⟨[.d], if maskedIn cw .d = true then some (compareExt a.value b.value) else none⟩
  ordered : isOrdered a.value = true → isOrdered b.value = true →
    testD = false ∨ (a.denormal = false ∧ b.denormal = false) →
    compare cw quiet testD a b = ⟨[], some (compareExt a.value b.value)⟩

/-- #IA of a store: masked, the indefinite of the format; unmasked, the store is abandoned (40_numerics.md R225, R228,
R230). -/
def StoreReply.indefinite (cw : Word16) (v : Nat) : StoreReply :=
  ⟨[.i], if maskedIn cw .i = true then .store v false else .abandonBefore⟩

end Sys2Proof.Machine

namespace Sys2Proof

/-! ### The tables of encodings -/

/-- The register forms that 30_encoding.md R135 lists: the first opcode byte, and the first and the number of the second
bytes in each run. -/
def registerFormTable : List (Byte × Byte × Nat) :=
  [(0xD8, 0xC0, 32), (0xD8, 0xE0, 32), (0xD9, 0xC0, 16), (0xD9, 0xD0, 1), (0xD9, 0xE0, 2), (0xD9, 0xE4, 2),
    (0xD9, 0xE8, 7), (0xD9, 0xF0, 16), (0xDA, 0xC0, 32), (0xDA, 0xE9, 1), (0xDB, 0xC0, 32), (0xDB, 0xE0, 5),
    (0xDB, 0xE8, 16), (0xDC, 0xC0, 16), (0xDC, 0xE0, 32), (0xDD, 0xC0, 8), (0xDD, 0xD0, 32), (0xDE, 0xC0, 16),
    (0xDE, 0xD9, 1), (0xDE, 0xE0, 32), (0xDF, 0xE0, 1), (0xDF, 0xE8, 16)]

/-- Is the pair of opcode bytes a listed register form? -/
def listedRegisterForm (b1 b2 : Byte) : Bool :=
  registerFormTable.any fun r =>
    r.1 == b1 && decide (r.2.1.toNat ≤ b2.toNat) && decide (b2.toNat < r.2.1.toNat + r.2.2)

/-- The memory combinations that 30_encoding.md R134 marks as reserved: `opA` and `reg` of D9 /1, DB /1, DB /4, DB /6,
DD /1, DD /5 and DF /1. -/
def reservedMemoryForms : List (BitVec 3 × BitVec 3) := [(1, 1), (3, 1), (3, 4), (3, 6), (5, 1), (5, 5), (7, 1)]

/-- The prefix bytes of 30_encoding.md R140, LOCK, F2H and F3H among them. -/
def prefixBytes : List Byte := [0x66, 0x67, 0x26, 0x2E, 0x36, 0x3E, 0x64, 0x65, 0xF0, 0xF2, 0xF3]

/-! ### Classes of instructions -/

/-- The non-waiting instructions: no wait check (30_encoding.md R139, 46_control.md R460). -/
def Instr.nonWaiting : Instr → Bool
  | .fninit _ => true
  | .fnclex _ => true
  | .fnstcw _ _ => true
  | .fnstswM2byte _ _ => true
  | .fnstswAx _ => true
  | .fnstenv _ _ => true
  | .fnsave _ _ => true
  | .feni _ => true
  | .fdisi _ => true
  | .fsetpm _ => true
  | _ => false

/-- The control instructions, which do not record themselves in the pointer registers (10_state.md R76, 46_control.md
R460). -/
def Instr.isControl : Instr → Bool
  | .fninit _ => true
  | .finit _ => true
  | .fldcw _ _ => true
  | .fnstcw _ _ => true
  | .fstcw _ _ => true
  | .fnstswM2byte _ _ => true
  | .fnstswAx _ => true
  | .fstswM2byte _ _ => true
  | .fstswAx _ => true
  | .fnclex _ => true
  | .fclex _ => true
  | .fnstenv _ _ => true
  | .fstenv _ _ => true
  | .fldenv _ _ => true
  | .fnsave _ _ => true
  | .fsave _ _ => true
  | .frstor _ _ => true
  | .wait _ => true
  | .feni _ => true
  | .fdisi _ => true
  | .fsetpm _ => true
  | _ => false

/-- The control instructions that clear or load the pointer registers (10_state.md R76). -/
def Instr.replacesPointers : Instr → Bool
  | .fninit _ => true
  | .finit _ => true
  | .fldenv _ _ => true
  | .fnsave _ _ => true
  | .fsave _ _ => true
  | .frstor _ _ => true
  | _ => false

/-- The instructions that move TOP or free a register without touching a data register, and FNOP (46_control.md R495 to
R502). -/
def Instr.movesTop : Instr → Bool
  | .fincstp _ => true
  | .fdecstp _ => true
  | .ffree _ _ => true
  | .fnop _ => true
  | _ => false

/-- The non-waiting instructions that 9BH makes waiting ones (30_encoding.md R138). -/
def Instr.hasWaitingForm : Instr → Bool
  | .fninit _ => true
  | .fnclex _ => true
  | .fnstcw _ _ => true
  | .fnstswM2byte _ _ => true
  | .fnstswAx _ => true
  | .fnstenv _ _ => true
  | .fnsave _ _ => true
  | _ => false

/-- The instructions that can write the control word (46_control.md). -/
def Instr.writesControlWord : Instr → Bool
  | .fninit _ => true
  | .finit _ => true
  | .fldcw _ _ => true
  | .fnstenv _ _ => true
  | .fstenv _ _ => true
  | .fldenv _ _ => true
  | .fnsave _ _ => true
  | .fsave _ _ => true
  | .frstor _ _ => true
  | _ => false

/-- The instructions that write the host's ZF, PF and CF (44_comparison.md R398). -/
def Instr.writesHostFlags : Instr → Bool
  | .fcomi _ _ => true
  | .fcomip _ _ => true
  | .fucomi _ _ => true
  | .fucomip _ _ => true
  | _ => false

/-- The instructions that write AX (46_control.md R468, R469). -/
def Instr.writesAx : Instr → Bool
  | .fnstswAx _ => true
  | .fstswAx _ => true
  | _ => false

end Sys2Proof

namespace Sys2Proof.Machine

/-- The bytes an instruction stores: the address it stores to and their number (41_data_transfer.md, 46_control.md). -/
def State.storedRange (s : State) : Instr → Option (Word32 × Nat)
  | .fstM32real _ m => some (s.ea m, 4)
  | .fstM64real _ m => some (s.ea m, 8)
  | .fstpM32real _ m => some (s.ea m, 4)
  | .fstpM64real _ m => some (s.ea m, 8)
  | .fstpM80real _ m => some (s.ea m, 10)
  | .fistM16int _ m => some (s.ea m, 2)
  | .fistM32int _ m => some (s.ea m, 4)
  | .fistpM16int _ m => some (s.ea m, 2)
  | .fistpM32int _ m => some (s.ea m, 4)
  | .fistpM64int _ m => some (s.ea m, 8)
  | .fbstp _ m => some (s.ea m, 10)
  | .fnstcw _ m => some (s.ea m, 2)
  | .fstcw _ m => some (s.ea m, 2)
  | .fnstswM2byte _ m => some (s.ea m, 2)
  | .fstswM2byte _ m => some (s.ea m, 2)
  | .fnstenv p m => some (s.ea m, (s.imageFormat p).envBytes)
  | .fstenv p m => some (s.ea m, (s.imageFormat p).envBytes)
  | .fnsave p m => some (s.ea m, (s.imageFormat p).stateBytes)
  | .fsave p m => some (s.ea m, (s.imageFormat p).stateBytes)
  | _ => none

/-- The bytes of an instruction's memory operand (20_memory.md R102, R112). -/
def State.operandBytes (s : State) : Instr → Nat
  | .fildM16int _ _ => 2
  | .fistM16int _ _ => 2
  | .fistpM16int _ _ => 2
  | .fiaddM16int _ _ => 2
  | .fisubM16int _ _ => 2
  | .fisubrM16int _ _ => 2
  | .fimulM16int _ _ => 2
  | .fidivM16int _ _ => 2
  | .fidivrM16int _ _ => 2
  | .ficomM16int _ _ => 2
  | .ficompM16int _ _ => 2
  | .fldcw _ _ => 2
  | .fnstcw _ _ => 2
  | .fstcw _ _ => 2
  | .fnstswM2byte _ _ => 2
  | .fstswM2byte _ _ => 2
  | .fldM32real _ _ => 4
  | .fstM32real _ _ => 4
  | .fstpM32real _ _ => 4
  | .faddM32real _ _ => 4
  | .fsubM32real _ _ => 4
  | .fsubrM32real _ _ => 4
  | .fmulM32real _ _ => 4
  | .fdivM32real _ _ => 4
  | .fdivrM32real _ _ => 4
  | .fcomM32real _ _ => 4
  | .fcompM32real _ _ => 4
  | .fildM32int _ _ => 4
  | .fistM32int _ _ => 4
  | .fistpM32int _ _ => 4
  | .fiaddM32int _ _ => 4
  | .fisubM32int _ _ => 4
  | .fisubrM32int _ _ => 4
  | .fimulM32int _ _ => 4
  | .fidivM32int _ _ => 4
  | .fidivrM32int _ _ => 4
  | .ficomM32int _ _ => 4
  | .ficompM32int _ _ => 4
  | .fldM64real _ _ => 8
  | .fstM64real _ _ => 8
  | .fstpM64real _ _ => 8
  | .faddM64real _ _ => 8
  | .fsubM64real _ _ => 8
  | .fsubrM64real _ _ => 8
  | .fmulM64real _ _ => 8
  | .fdivM64real _ _ => 8
  | .fdivrM64real _ _ => 8
  | .fcomM64real _ _ => 8
  | .fcompM64real _ _ => 8
  | .fildM64int _ _ => 8
  | .fistpM64int _ _ => 8
  | .fldM80real _ _ => 10
  | .fstpM80real _ _ => 10
  | .fbld _ _ => 10
  | .fbstp _ _ => 10
  | .fnstenv p _ => (s.imageFormat p).envBytes
  | .fstenv p _ => (s.imageFormat p).envBytes
  | .fldenv p _ => (s.imageFormat p).envBytes
  | .fnsave p _ => (s.imageFormat p).stateBytes
  | .fsave p _ => (s.imageFormat p).stateBytes
  | .frstor p _ => (s.imageFormat p).stateBytes
  | _ => 0

/-- The host lets the instruction have its memory operand, if it has one (20_memory.md R111). -/
def State.Grants (s : State) (i : Instr) : Prop :=
  ∀ m, i.parts.operand = some m → s.Allows (s.ea m) (s.operandBytes i)

/-- What FDP records of an instruction: its memory operand, if it has one (10_state.md R76). -/
def State.dataPointer (s : State) (i : Instr) : Option FarPtr := i.parts.operand.map (s.operandPtr i.parts.prefixes)

/-- The offset, size and value of every defined field of an environment image in the default layout; the selector and
offset of a pointer register make a linear address in the real-address formats (20_memory.md R113 to R116, 10_state.md
R47 for the status word). -/
def State.imageFields (s : State) (f : ImageFormat) : List (Nat × Nat × Nat) :=
  let status := (BitVec.ofBool s.es ++ s.sw.extractLsb' 0 15).toNat
  let offset (p : FarPtr) : Nat := p.toNat % 2 ^ 32
  let selector (p : FarPtr) : Nat := p.toNat / 2 ^ 32
  let lin (p : FarPtr) : Nat := (selector p * 16 + offset p) % 2 ^ 32
  match f with
  | .p32 =>
    [(0, 2, s.cw.toNat), (4, 2, status), (8, 2, s.tw.toNat), (12, 4, offset s.fip), (16, 2, selector s.fip),
      (18, 2, s.fop.toNat), (20, 4, offset s.fdp), (24, 2, selector s.fdp)]
  | .r32 =>
    [(0, 2, s.cw.toNat), (4, 2, status), (8, 2, s.tw.toNat), (12, 2, lin s.fip % 2 ^ 16),
      (16, 4, s.fop.toNat + 2 ^ 12 * (lin s.fip / 2 ^ 16)), (20, 2, lin s.fdp % 2 ^ 16),
      (24, 4, 2 ^ 12 * (lin s.fdp / 2 ^ 16))]
  | .p16 =>
    [(0, 2, s.cw.toNat), (2, 2, status), (4, 2, s.tw.toNat), (6, 2, offset s.fip % 2 ^ 16), (8, 2, selector s.fip),
      (10, 2, offset s.fdp % 2 ^ 16), (12, 2, selector s.fdp)]
  | .r16 =>
    [(0, 2, s.cw.toNat), (2, 2, status), (4, 2, s.tw.toNat), (6, 2, lin s.fip % 2 ^ 16),
      (8, 2, s.fop.toNat + 2 ^ 12 * (lin s.fip / 2 ^ 16 % 16)), (10, 2, lin s.fdp % 2 ^ 16),
      (12, 2, 2 ^ 12 * (lin s.fdp / 2 ^ 16 % 16))]

/-- An image at `a` in the memory of `t` holds the environment of `s`: under the default layout every field
stands at its place; under every injective layout the image reads back as the control, status and tag words, and the
pointer registers in the format that carries them whole (20_memory.md R112 to R116, R118). -/
structure State.EnvironmentStored (s t : State) (f : ImageFormat) (k : ImageKind) (a : Word32) : Prop where
  fields : s.params.envLayout = EnvLayout.standard →
    ∀ r ∈ s.imageFields f, t.read (a + BitVec.ofNat 32 r.1) r.2.1 = r.2.2
  control : s.params.envLayout.injective = true → (readEnvironment f k a t).cw = s.cw
  status : s.params.envLayout.injective = true → (∀ n < 15, (readEnvironment f k a t).sw.getLsbD n = s.sw.getLsbD n) ∧
    (readEnvironment f k a t).sw.getLsbD 15 = s.es
  tags : s.params.envLayout.injective = true → (readEnvironment f k a t).tw = s.tw
  pointers : s.params.envLayout.injective = true → f = .p32 →
    (readEnvironment f k a t).fip = s.fip ∧ (readEnvironment f k a t).fdp = s.fdp ∧ (readEnvironment f k a t).fop = s.fop
  linears : s.params.envLayout.injective = true → f = .r32 →
    linear (readEnvironment f k a t).fip = linear s.fip ∧ linear (readEnvironment f k a t).fdp = linear s.fdp ∧
      (readEnvironment f k a t).fop = s.fop

/-- The state image at `a` in the memory of `t` holds the environment and the data registers of `s`, all eight whatever
their tags, in stack order: in the default layout each at its place after the environment, under every injective layout
as it reads back (20_memory.md R117). -/
structure State.StateStored (s t : State) (f : ImageFormat) (a : Word32) : Prop where
  environment : s.EnvironmentStored t f .state a
  places : s.params.envLayout = EnvLayout.standard →
    ∀ j : Idx, t.read (a + BitVec.ofNat 32 (f.envBytes + 10 * j.toNat)) 10 = (s.st j).toNat
  registers : s.params.envLayout.injective = true → ∀ j : Idx, readRegister f a j t = s.st j

/-! ### Forms of the loads, moves and comparisons -/

/-- The load-constant instructions, their second opcode byte and their constant (42_load_constants.md R303 to R309). -/
def constantRows : List ((Prefixes → Instr) × Byte × (RoundMode → Ext)) :=
  [(.fldz, 0xEE, fun _ => 0x00000000000000000000), (.fld1, 0xE8, fun _ => 0x3FFF8000000000000000),
    (.fldpi, 0xEB, fun rm =>
      if rm = .nearest ∨ rm = .up then 0x4000C90FDAA22168C235 else 0x4000C90FDAA22168C234),
    (.fldl2t, 0xE9, fun rm => if rm = .up then 0x4000D49A784BCD1B8AFF else 0x4000D49A784BCD1B8AFE),
    (.fldl2e, 0xEA, fun rm =>
      if rm = .nearest ∨ rm = .up then 0x3FFFB8AA3B295C17F0BC else 0x3FFFB8AA3B295C17F0BB),
    (.fldlg2, 0xEC, fun rm =>
      if rm = .nearest ∨ rm = .up then 0x3FFD9A209A84FBCFF799 else 0x3FFD9A209A84FBCFF798),
    (.fldln2, 0xED, fun rm =>
      if rm = .nearest ∨ rm = .up then 0x3FFEB17217F7D1CF79AC else 0x3FFEB17217F7D1CF79AB)]

/-- The integer loads: the size and the operand (41_data_transfer.md R269). -/
def integerLoadRows : List ((Prefixes → AddrMode → Instr) × Nat) :=
  [(.fildM16int, 2), (.fildM32int, 4), (.fildM64int, 8)]

/-- The conditional moves and their conditions (41_data_transfer.md, table 31-14). -/
def moveRows : List ((Prefixes → Idx → Instr) × (State → Bool)) :=
  [(.fcmovb, fun s => s.cf), (.fcmovnb, fun s => !s.cf), (.fcmove, fun s => s.zf), (.fcmovne, fun s => !s.zf),
    (.fcmovbe, fun s => s.cf || s.zf), (.fcmovnbe, fun s => !(s.cf || s.zf)), (.fcmovu, fun s => s.pf),
    (.fcmovnu, fun s => !s.pf)]

/-- The comparisons of ST(0) with ST(i) into the condition codes: quiet or not, and the pops
(44_comparison.md R384 to R389). -/
def compareRows : List ((Prefixes → Idx → Instr) × Bool × Nat) :=
  [(.fcomSti, false, 0), (.fcompSti, false, 1), (.fucom, true, 0), (.fucomp, true, 1)]

/-- The comparisons of ST(0) with ST(1) that pop twice (44_comparison.md R386, R389). -/
def comparePopRows : List ((Prefixes → Instr) × Bool) := [(.fcompp, false), (.fucompp, true)]

/-- The comparisons of ST(0) with memory: the size and the operand, and the pops (44_comparison.md R384 to R391). -/
def compareMemRows : List ((Prefixes → AddrMode → Instr) × Nat × (State → Word32 → Operand) × Nat) :=
  [(.fcomM32real, 4, State.m32real, 0), (.fcomM64real, 8, State.m64real, 0), (.fcompM32real, 4, State.m32real, 1),
    (.fcompM64real, 8, State.m64real, 1), (.ficomM16int, 2, State.m16int, 0), (.ficomM32int, 4, State.m32int, 0),
    (.ficompM16int, 2, State.m16int, 1), (.ficompM32int, 4, State.m32int, 1)]

/-- The comparisons into EFLAGS: quiet or not, and the pops (44_comparison.md R392 to R395). -/
def compareFlagRows : List ((Prefixes → Idx → Instr) × Bool × Nat) :=
  [(.fcomi, false, 0), (.fcomip, false, 1), (.fucomi, true, 0), (.fucomip, true, 1)]

/-- The conversions of ST(0) to memory: the instruction, its bytes, whether it pops, what a masked stack underflow stores,
and the conversion (41_data_transfer.md R264 to R273). -/
structure StoreRow where
  make : Prefixes → AddrMode → Instr
  bytes : Nat
  pop : Bool
  indefinite : State → Nat
  convert : State → Ext → StoreReply

/-- The stores of ST(0) to memory. -/
def storeRows : List StoreRow :=
  [⟨.fstM32real, 4, false, fun _ => 0xFFC00000, fun s => storeReal s.cw s.params.fstSignalsD single⟩,
    ⟨.fstM64real, 8, false, fun _ => 0xFFF8000000000000, fun s => storeReal s.cw s.params.fstSignalsD double⟩,
    ⟨.fstpM32real, 4, true, fun _ => 0xFFC00000, fun s => storeReal s.cw s.params.fstSignalsD single⟩,
    ⟨.fstpM64real, 8, true, fun _ => 0xFFF8000000000000, fun s => storeReal s.cw s.params.fstSignalsD double⟩,
    ⟨.fstpM80real, 10, true, fun _ => 0xFFFFC000000000000000, fun _ x => ⟨[], .store x.toNat false⟩⟩,
    ⟨.fistM16int, 2, false, fun _ => 0x8000, fun s => storeInt s.cw 16⟩,
    ⟨.fistM32int, 4, false, fun _ => 0x80000000, fun s => storeInt s.cw 32⟩,
    ⟨.fistpM16int, 2, true, fun _ => 0x8000, fun s => storeInt s.cw 16⟩,
    ⟨.fistpM32int, 4, true, fun _ => 0x80000000, fun s => storeInt s.cw 32⟩,
    ⟨.fistpM64int, 8, true, fun _ => 0x8000000000000000, fun s => storeInt s.cw 64⟩,
    ⟨.fbstp, 10, true, fun s => bcdIndefinite (Config.undefBcdIndefinite s.draws),
      fun s => storeBcd s.cw (Config.undefBcdIndefinite s.draws)⟩]

/-! ### Results of the transcendental instructions -/

/-- A result of a transcendental instruction: the function it is of, whether that has two operands, whether the instruction
pushes, and where the result then stands (45_transcendental.md R430 to R437). -/
structure TranscRow where
  make : Prefixes → Instr
  fn : TranscFn
  binary : Bool
  pushes : Bool
  place : Idx

/-- The results of the transcendental instructions. -/
def transcRows : List TranscRow :=
  [⟨.fsin, .sin, false, false, 0⟩, ⟨.fcos, .cos, false, false, 0⟩, ⟨.fsincos, .sin, false, true, 1⟩,
    ⟨.fsincos, .cos, false, true, 0⟩, ⟨.fptan, .tan, false, true, 1⟩, ⟨.fpatan, .atan2, true, false, 0⟩,
    ⟨.fyl2x, .ylog2x, true, false, 0⟩, ⟨.fyl2xp1, .ylog2xp1, true, false, 0⟩, ⟨.f2xm1, .exp2m1, false, false, 0⟩]

/-- The second operand, ST(1), of a function of two. -/
def TranscRow.second (r : TranscRow) (s : State) : Ext := if r.binary then s.st 1 else 0

/-- The operands are there and in the domain, a push finds room, and nothing ends the instruction before it computes. -/
structure TranscRow.Runs (r : TranscRow) (s : State) : Prop where
  ready : s.Ready
  full : s.Full 0
  second : r.binary = true → s.Full 1
  room : r.pushes = true → s.Room
  domain : InDomain r.fn (r.second s) (s.st 0)
  denormal : isDenormal (s.st 0) = false ∧ isDenormal (r.second s) = false ∨ s.masked .d = true

/-! ### Forms of the four operations -/

/-- A register form: the instruction with index `i`, its operation, whether it is reversed, whether its destination is
ST(i), whether it pops (43_basic_arithmetic.md R321). -/
structure ArithRow where
  make : Prefixes → Idx → Instr
  op : ArithOp
  reverse : Bool
  intoSti : Bool
  pop : Bool

/-- The register forms (43_basic_arithmetic.md R330 to R346). -/
def arithRows : List ArithRow :=
  [⟨.faddSt0Sti, .add, false, false, false⟩, ⟨.faddStiSt0, .add, false, true, false⟩, ⟨.faddp, .add, false, true, true⟩,
    ⟨.fsubSt0Sti, .sub, false, false, false⟩, ⟨.fsubStiSt0, .sub, false, true, false⟩, ⟨.fsubp, .sub, false, true, true⟩,
    ⟨.fsubrSt0Sti, .sub, true, false, false⟩, ⟨.fsubrStiSt0, .sub, true, true, false⟩, ⟨.fsubrp, .sub, true, true, true⟩,
    ⟨.fmulSt0Sti, .mul, false, false, false⟩, ⟨.fmulStiSt0, .mul, false, true, false⟩, ⟨.fmulp, .mul, false, true, true⟩,
    ⟨.fdivSt0Sti, .div, false, false, false⟩, ⟨.fdivStiSt0, .div, false, true, false⟩, ⟨.fdivp, .div, false, true, true⟩,
    ⟨.fdivrSt0Sti, .div, true, false, false⟩, ⟨.fdivrStiSt0, .div, true, true, false⟩,
    ⟨.fdivrp, .div, true, true, true⟩]

/-- The stack index of the destination. -/
def ArithRow.dest (r : ArithRow) (i : Idx) : Idx := if r.intoSti then i else 0

/-- The stack index of the other operand. -/
def ArithRow.other (r : ArithRow) (i : Idx) : Idx := if r.intoSti then 0 else i

/-- The left operand: the destination, or the other operand of a reverse instruction. -/
def ArithRow.left (r : ArithRow) (s : State) (i : Idx) : Ext :=
  if r.reverse then s.st (r.other i) else s.st (r.dest i)

/-- The right operand. -/
def ArithRow.right (r : ArithRow) (s : State) (i : Idx) : Ext :=
  if r.reverse then s.st (r.dest i) else s.st (r.other i)

/-- A memory form: the instruction, its operation, whether it is reversed, the size and the value of its memory operand,
and whether that is an integer (43_basic_arithmetic.md R321). -/
structure ArithMemRow where
  make : Prefixes → AddrMode → Instr
  op : ArithOp
  reverse : Bool
  bytes : Nat
  operand : State → Word32 → Operand
  integer : Bool

/-- The memory forms (43_basic_arithmetic.md R330 to R347). -/
def arithMemRows : List ArithMemRow :=
  [⟨.faddM32real, .add, false, 4, State.m32real, false⟩, ⟨.faddM64real, .add, false, 8, State.m64real, false⟩,
    ⟨.fiaddM16int, .add, false, 2, State.m16int, true⟩, ⟨.fiaddM32int, .add, false, 4, State.m32int, true⟩,
    ⟨.fsubM32real, .sub, false, 4, State.m32real, false⟩, ⟨.fsubM64real, .sub, false, 8, State.m64real, false⟩,
    ⟨.fisubM16int, .sub, false, 2, State.m16int, true⟩, ⟨.fisubM32int, .sub, false, 4, State.m32int, true⟩,
    ⟨.fsubrM32real, .sub, true, 4, State.m32real, false⟩, ⟨.fsubrM64real, .sub, true, 8, State.m64real, false⟩,
    ⟨.fisubrM16int, .sub, true, 2, State.m16int, true⟩, ⟨.fisubrM32int, .sub, true, 4, State.m32int, true⟩,
    ⟨.fmulM32real, .mul, false, 4, State.m32real, false⟩, ⟨.fmulM64real, .mul, false, 8, State.m64real, false⟩,
    ⟨.fimulM16int, .mul, false, 2, State.m16int, true⟩, ⟨.fimulM32int, .mul, false, 4, State.m32int, true⟩,
    ⟨.fdivM32real, .div, false, 4, State.m32real, false⟩, ⟨.fdivM64real, .div, false, 8, State.m64real, false⟩,
    ⟨.fidivM16int, .div, false, 2, State.m16int, true⟩, ⟨.fidivM32int, .div, false, 4, State.m32int, true⟩,
    ⟨.fdivrM32real, .div, true, 4, State.m32real, false⟩, ⟨.fdivrM64real, .div, true, 8, State.m64real, false⟩,
    ⟨.fidivrM16int, .div, true, 2, State.m16int, true⟩, ⟨.fidivrM32int, .div, true, 4, State.m32int, true⟩]

/-- The left operand: ST(0), or the memory operand at `a` of a reverse instruction. -/
def ArithMemRow.left (r : ArithMemRow) (s : State) (a : Word32) : Operand :=
  if r.reverse then r.operand s a else .of (s.st 0)

/-- The right operand. -/
def ArithMemRow.right (r : ArithMemRow) (s : State) (a : Word32) : Operand :=
  if r.reverse then .of (s.st 0) else r.operand s a

/-- Is the form FIDIV, which signals no #O (43_basic_arithmetic.md R327)? -/
def ArithMemRow.isFidiv (r : ArithMemRow) : Bool := r.integer && r.op == .div && !r.reverse

/-- What a form makes of the operation's answer: for FIDIV, a quotient that rounds up out of range is a free value, and no
#O is signalled (log 35). -/
def ArithMemRow.answer (r : ArithMemRow) (s : State) (w : Reply Written) : Reply Written :=
  if r.isFidiv then w.withoutOverflow (Config.undefQuotient s.draws) else w

/-- The precision a form rounds to (40_numerics.md R202). -/
def ArithMemRow.precision (r : ArithMemRow) (s : State) : Option Nat :=
  if r.integer && !s.params.pcOnIntForms then some 64 else pcBits s.cw

end Sys2Proof.Machine
end

