-- ==== Sys2Proof/Certificates/Slice0/Obligations.lean ====
section
/-! DEFINITION. The statements for the provers. `Ready` (no exception keeps a waiting instruction from executing),
`Full` (ST(i) is not empty), `Room` (a push finds an empty register), `Allows` (the host lets the instruction have its
operand) and the frames are those of Sys2Proof/Safety.lean. -/

open Sys2Proof Sys2Proof.Machine

/-! ### Encoding -/

/-- Decoding the bytes of a well-formed instruction gives the instruction back, and the bytes after it. WAIT without
prefixes is read back when nothing follows; see `WaitStandsAlone`. The encodings are the spec's general knowledge (log 12),
the fused reading of 9BH is the model's (log 11). -/
def Obligations.DecodeInvertsEncode : Prop :=
  ∀ (a32 : Bool) (i : Instr) (rest : List Byte), i.wf a32 = true → (i = .wait [] → rest = []) →
    decode a32 (encode i ++ rest) = .ok (i, rest)

/-- The byte 9BH before an instruction that has no waiting form is WAIT alone (30_encoding.md R138, R141; log 11). -/
def Obligations.WaitStandsAlone : Prop :=
  ∀ (a32 : Bool) (i : Instr) (rest : List Byte), i.wf a32 = true → i.hasWaitingForm = false →
    decode a32 (0x9B :: (encode i ++ rest)) = .ok (.wait [], encode i ++ rest)

/-- Every reserved memory combination of 30_encoding.md R134 and every register-form pair of opcode bytes that R135 does
not list is refused by name (R142), whatever prefixes stand before it, LOCK, F2H and F3H included. -/
def Obligations.ReservedEncodingsAreRefused : Prop :=
  (∀ (a32 : Bool) (pre : List Byte) (m : AddrMode) (rest : List Byte), (∀ x ∈ pre, x ∈ prefixBytes) → m.wf = true →
    m.is32 = (a32 != pre.contains 0x67) → ∀ c ∈ reservedMemoryForms,
      decode a32 (pre ++ (escByte c.1 :: modRm m.mod c.2 m.rm :: m.tail) ++ rest) = .error .reserved) ∧
  (∀ (a32 : Bool) (pre : List Byte) (b1 b2 : Byte) (rest : List Byte), (∀ x ∈ pre, x ∈ prefixBytes) → isEsc b1 = true →
    0xC0 ≤ b2.toNat → listedRegisterForm b1 b2 = false → decode a32 (pre ++ b1 :: b2 :: rest) = .error .reserved) ∧
  ∀ (s : State) (b : List Byte), s.frozen = false → s.fetchWindow = b → decode s.addrSize32 b = .error .reserved →
    step s = .refused .reservedEncoding

/-- Words written out from the tables of 30_encoding.md decode to the instructions they stand for. The encodings are the
spec's general knowledge (log 12); 9BH read with the instruction it makes waiting, or else alone, is the model's reading
(log 11), and so is 26H as the ES override (log 34). -/
def Obligations.ManualWordsDecode : Prop :=
  decode true [0xD9, 0x05, 0x00, 0x10, 0x00, 0x00] = .ok (.fldM32real [] (.abs32 0x1000), []) ∧
  decode true [0xDB, 0x2D, 0x00, 0x20, 0x00, 0x00] = .ok (.fldM80real [] (.abs32 0x2000), []) ∧
  decode false [0x26, 0xDD, 0x5E, 0xFC] = .ok (.fstpM64real [.seg .es] (.reg16 .bp (.short 0xFC)), []) ∧
  decode true [0xD9, 0xEB] = .ok (.fldpi [], []) ∧
  decode true [0xD8, 0xC2] = .ok (.faddSt0Sti [] 2, []) ∧
  decode true [0xDE, 0xE9] = .ok (.fsubp [] 1, []) ∧
  decode true [0xDE, 0x35, 0x00, 0x10, 0x00, 0x00] = .ok (.fidivM16int [] (.abs32 0x1000), []) ∧
  decode true [0xDE, 0xD9] = .ok (.fcompp [], []) ∧
  decode true [0xDF, 0xF1] = .ok (.fcomip [] 1, []) ∧
  decode true [0xD9, 0xFB] = .ok (.fsincos [], []) ∧
  decode true [0x9B, 0xDB, 0xE3] = .ok (.finit [], []) ∧
  decode true [0x66, 0xD9, 0x34, 0x8B] = .ok (.fnstenv [.opSize] (.sib32 .ebx (some .ecx) 2 .none), []) ∧
  decode true [0x9B, 0xD9, 0xE8] = .ok (.wait [], [0xD9, 0xE8])

/-! ### The step and the invariant -/

/-- A step at a pc where the bytes of a well-formed instruction stand executes that instruction. -/
def Obligations.StepRunsDecodedInstruction : Prop :=
  (∀ (s : State) (i : Instr) (rest : List Byte), s.frozen = false →
    decode s.addrSize32 s.fetchWindow = .ok (i, rest) → step s = exec i s) ∧
  ∀ (s : State) (i : Instr), s.frozen = false → i.wf s.addrSize32 = true → i ≠ .wait [] →
    readBytes s.mem s.eip i.length = encode i → step s = exec i s

/-- Every step keeps the invariant: memory stays in canonical form, every tag is empty or says what its register holds,
ES says whether an unmasked exception is pending and B follows it, FERR# and the freeze stand only for a pending
exception. The form of memory is the model's (log 4), FERR# and the freeze are as logs 8 and 9 say. -/
def Obligations.StepKeepsInvariant : Prop := ∀ s t : State, s.Inv → step s = .next t → t.Inv

/-- The state after reset satisfies the invariant; its values are the model's (logs 1 and 2). -/
def Obligations.ResetSatisfiesInvariant : Prop := State.reset.Inv

/-- Memory: a byte reads as it was last written, every other byte as before, and a write keeps the canonical form, under
which two memories that read alike are equal. The form, and addresses that wrap at 2^32, are the model's (logs 3, 4). -/
def Obligations.MemoryReadsWhatWasWritten : Prop :=
  (∀ (m : Memory) (a b : Nat) (v : Byte), readByte (writeByte m a v) b = if b = a then v else readByte m b) ∧
  (∀ (s : State) (a : Word32) (n v : Nat), n ≤ 2 ^ 32 → (s.write a n v).read a n = v % 256 ^ n) ∧
  (∀ (m : Memory) (a : Nat) (v : Byte), Memory.wf m = true → Memory.wf (writeByte m a v) = true) ∧
  ∀ m m' : Memory, Memory.wf m = true → Memory.wf m' = true → (∀ a, readByte m a = readByte m' a) → m = m'

/-! ### Frames of every instruction -/

/-- No instruction changes the host's segments, modes or inputs; only FCOMI, FCOMIP, FUCOMI and FUCOMIP change ZF, PF and
CF; only FNSTSW AX and FSTSW AX change a general register, and of EAX only AX. What the model holds of the host is logs 5
and 28. -/
def Obligations.HostFrame : Prop :=
  ∀ (i : Instr) (s t : State), exec i s = .next t →
    t.segs = s.segs ∧ t.ne = s.ne ∧ t.ignne = s.ignne ∧ t.mode = s.mode ∧ t.opSize32 = s.opSize32 ∧
    t.addrSize32 = s.addrSize32 ∧ t.intr = s.intr ∧ t.denied = s.denied ∧ t.params = s.params ∧
    (i.writesHostFlags = false → t.zf = s.zf ∧ t.pf = s.pf ∧ t.cf = s.cf) ∧
    (i.writesAx = false → t.gprs = s.gprs) ∧
    (∀ r, r ≠ .eax → t.gpr r = s.gpr r) ∧ (t.gpr .eax).extractLsb' 16 16 = (s.gpr .eax).extractLsb' 16 16

/-- An instruction changes no byte of memory outside the bytes it stores; one that stores nothing changes none. -/
def Obligations.MemoryFrame : Prop :=
  ∀ (i : Instr) (s t : State), exec i s = .next t →
    match s.storedRange i with
    | some (a, n) => s.SameMemoryBut t a n
    | none => s.SameMemory t

/-- Only the initializing, saving and loading control instructions change the control word. A non-control instruction that
its wait check and its operand let execute records itself in FIP, FOP and, for a memory operand, FDP, whatever exception it
then signals; one that a pending exception or an operand fault replaces leaves the pointer registers as they are; a control
instruction leaves them too, unless it clears or loads them. No control instruction but FRSTOR, and none of FINCSTP,
FDECSTP, FFREE and FNOP, changes a data register. -/
def Obligations.ControlAndPointerFrame : Prop :=
  ∀ (i : Instr) (s t : State), exec i s = .next t →
    (i.writesControlWord = false → t.cw = s.cw) ∧
    (i.isControl = false → s.Ready → s.Grants i → s.Recorded t i (s.dataPointer i)) ∧
    (i.isControl = false → ¬ (s.Ready ∧ s.Grants i) → s.SamePointers t) ∧
    (i.isControl = true → i.replacesPointers = false → s.SamePointers t) ∧
    (i.isControl = true ∨ i.movesTop = true → (∀ p m, i ≠ .frstor p m) → ∀ k, t.reg k = s.reg k)

/-! ### Taking an exception -/

/-- In native mode a pending unmasked exception is reported before every waiting instruction: the host gets #MF with the
pc of the waiting instruction, which does nothing, and no FPU state changes. The report is an event, after which the pc
still addresses the instruction: the model's form of the host's delivery (log 7). The wait check lets an instruction execute
exactly when no unmasked exception is pending, or the MS-DOS mode's IGNNE# is asserted. -/
def Obligations.PendingExceptionRaisesMF : Prop :=
  (∀ (i : Instr) (s : State), i.nonWaiting = false → i.optionalPresent s.params = true → s.es = true → s.ne = true →
    exec i s = .next { s with events := s.events ++ [.mf s.pc] }) ∧
  ∀ s : State, s.Ready ↔ s.es = false ∨ (s.ne = false ∧ s.ignne = true)

/-- In the MS-DOS compatibility mode with IGNNE# deasserted the processor freezes before the waiting instruction instead,
FERR# asserted, and no FPU state changes; a frozen processor does nothing until the external interrupt comes, whose
return pointer is the frozen instruction. How the interrupt arrives is the model's (log 8). -/
def Obligations.PendingExceptionFreezes : Prop :=
  (∀ (i : Instr) (s : State), i.nonWaiting = false → i.optionalPresent s.params = true → s.es = true →
    s.ne = false → s.ignne = false →
    exec i s = .next { s with
      frozen := true, ferr := true,
      events := s.events ++ (if s.ferr then [] else [.ferr true]) ++ [.freeze s.pc] }) ∧
  ∀ s : State, s.frozen = true →
    (s.intr = false → step s = .fault .frozen) ∧
    (s.intr = true →
      step s = .next { s with frozen := false, intr := false, events := s.events ++ [.interrupt s.pc] })

/-- A host fault on any byte of the memory operand is taken instead of the instruction: nothing but the event changes.
Which addresses fault is the model's input (log 24); that a waiting pair reports the pc of its byte 9BH is the model's
choice (log 11). -/
def Obligations.OperandFaultReplacesInstruction : Prop :=
  ∀ (i : Instr) (s : State) (m : AddrMode) (j : Nat) (d : Nat × Nat), i.parts.operand = some m →
    (i.nonWaiting = true ∨ s.Ready) → j < s.operandBytes i → d ∈ s.denied →
    d.1 ≤ (s.ea m + BitVec.ofNat 32 j).toNat → (s.ea m + BitVec.ofNat 32 j).toNat < d.1 + d.2 →
    exec i s = .next { s with events := s.events ++ [.operandFault s.pc] }

/-- LOCK before an FPU instruction raises the host's invalid-opcode exception, and before an optional one that the processor
lacks it is refused as the reserved encoding that is; F2H and F3H before an ESC instruction, where they have no meaning, are
refused, and before WAIT they are skipped like any prefix. The order in which the prefixes are looked at, and that LOCK is
looked at before a pending exception, are the model's (log 10). -/
def Obligations.LockAndRepeatPrefixes : Prop :=
  ∀ (s : State) (bs : List Byte), s.frozen = false →
    (∀ (i : Instr) (r : List Byte), decode s.addrSize32 bs = .ok (i, r) →
      (s.fetchWindow = 0xF0 :: bs → i.optionalPresent s.params = true →
        step s = .next { s with events := s.events ++ [.invalidOpcode s.pc] }) ∧
      (s.fetchWindow = 0xF0 :: bs → i.optionalPresent s.params = false → step s = .refused .optionalAbsent) ∧
      (i.parts.opcodeBytes = 2 → s.fetchWindow = 0xF2 :: bs ∨ s.fetchWindow = 0xF3 :: bs →
        step s = .refused .repPrefix)) ∧
    ∀ (x : Prefix) (q : Prefixes), s.fetchWindow = x.byte :: (q.encode ++ 0x9B :: bs) → step s = exec (.wait (x :: q)) s

/-! ### Data transfer -/

/-- FLD m80real, FLD ST(i), FILD and FBLD push their operand: an extended real bit for bit, a register as it is, a converted
integer, or the sum of the decimal digits with its sign. No flag changes and C1 is 0. That a decimal zero keeps its sign is
the spec's general knowledge (log 12). FBLD of an operand with a digit above 9 pushes a value that the statement leaves open
(the free value of log 19). -/
def Obligations.ExactLoadsPush : Prop :=
  ∀ (s : State) (p : Prefixes), s.Ready → s.Room →
    (∀ m, s.Allows (s.ea m) 10 → ∃ t, exec (.fldM80real p m) s = .next t ∧
      s.Ran t (.fldM80real p m) (some (s.operandPtr p m)) ∧ s.Pushed t (BitVec.ofNat 80 (s.read (s.ea m) 10)) ∧
      s.Signals t [] false) ∧
    (∀ i, s.Full i → ∃ t, exec (.fldSti p i) s = .next t ∧ s.Ran t (.fldSti p i) none ∧ s.Pushed t (s.st i) ∧
      s.Signals t [] false) ∧
    (∀ row ∈ integerLoadRows, ∀ m, s.Allows (s.ea m) row.2 → ∃ t x, exec (row.1 p m) s = .next t ∧
      s.Ran t (row.1 p m) (some (s.operandPtr p m)) ∧ s.Pushed t x ∧ s.Signals t [] false ∧
      isFinite x = true ∧ realOf x = (sint (8 * row.2) (s.read (s.ea m) row.2) : ℚ) ∧
      (realOf x = 0 → x = zero80 false)) ∧
    ∀ m, s.Allows (s.ea m) 10 → ∃ t x, exec (.fbld p m) s = .next t ∧
      s.Ran t (.fbld p m) (some (s.operandPtr p m)) ∧ s.Pushed t x ∧ s.Signals t [] false ∧
      (DecimalDigits (s.read (s.ea m) 10) → isFinite x = true ∧ signOf x = (s.read (s.ea m) 10).testBit 79 ∧
        |realOf x| = (decimalValue (s.read (s.ea m) 10) : ℚ) ∧ (realOf x = 0 → x = zero80 (signOf x)))

/-- FLD m32real and FLD m64real push the converted operand; an SNaN is #IA, its masked response the quieted NaN; a denormal
is #D, after which a masked response goes on; an unmasked exception leaves the stack as it was. -/
def Obligations.RealLoadsConvertAndCheck : Prop :=
  ∀ (s : State) (p : Prefixes) (m : AddrMode) (row : (Prefixes → AddrMode → Instr) × Nat × RealFormat),
    row ∈ [(Instr.fldM32real, 4, single), (Instr.fldM64real, 8, double)] →
    s.Ready → s.Room → s.Allows (s.ea m) row.2.1 →
    ∃ t, exec (row.1 p m) s = .next t ∧ s.Ran t (row.1 p m) (some (s.operandPtr p m)) ∧
      if classOf (fromReal row.2.2 (s.read (s.ea m) row.2.1)).value = .snan then
        if s.masked .i = true then
          s.Pushed t (quiet (fromReal row.2.2 (s.read (s.ea m) row.2.1)).value) ∧ s.Signals t [.i] false
        else s.Popped t 0 ∧ s.Signals t [.i] s.c1
      else if (fromReal row.2.2 (s.read (s.ea m) row.2.1)).wasDenormal = true then
        if s.masked .d = true then
          s.Pushed t (fromReal row.2.2 (s.read (s.ea m) row.2.1)).value ∧ s.Signals t [.d] false
        else s.Popped t 0 ∧ s.Signals t [.d] s.c1
      else s.Pushed t (fromReal row.2.2 (s.read (s.ea m) row.2.1)).value ∧ s.Signals t [] false

/-- Each load-constant instruction is D9H and its second byte, and pushes its constant for the rounding mode; where the new
top is not empty it signals stack overflow, and the indefinite is pushed if that is masked. The encodings are the spec's
general knowledge (log 12). -/
def Obligations.ConstantsArePushed : Prop :=
  ∀ row ∈ constantRows,
    encode (row.1 []) = [0xD9, row.2.1] ∧
    ∀ (s : State) (p : Prefixes), s.Ready →
      ∃ t, exec (row.1 p) s = .next t ∧ s.Ran t (row.1 p) none ∧
        if s.pushFull = false then s.Pushed t (row.2.2 (roundMode s.cw)) ∧ s.Signals t [] false
        else if s.masked .i = true then s.Pushed t indef80 ∧ s.StackFaulted t true
        else s.Popped t 0 ∧ s.StackFaulted t true

/-- A load from memory whose push finds a full register signals stack overflow, whatever its operand; the indefinite is
pushed if that is masked, and the stack is as it was if not. -/
def Obligations.LoadOverflowsFullStack : Prop :=
  ∀ (s : State) (p : Prefixes) (m : AddrMode) (row : (Prefixes → AddrMode → Instr) × Nat),
    row ∈ [(Instr.fldM32real, 4), (Instr.fldM64real, 8), (Instr.fldM80real, 10), (Instr.fildM16int, 2),
      (Instr.fildM32int, 4), (Instr.fildM64int, 8), (Instr.fbld, 10)] →
    s.Ready → s.pushFull = true → s.Allows (s.ea m) row.2 →
    ∃ t, exec (row.1 p m) s = .next t ∧ s.Ran t (row.1 p m) (some (s.operandPtr p m)) ∧
      s.StackFaulted t true ∧ if s.masked .i = true then s.Pushed t indef80 else s.Popped t 0

/-- FST ST(i) and FSTP ST(i) copy all 80 bits of ST(0), and FSTP pops; FXCH exchanges two registers; C1 is 0 and no
exception is signalled. An empty source is a stack underflow: masked, the indefinite stands for what an empty register
holds and the instruction goes on; unmasked, nothing is written. FLD ST(i) of an empty register is the underflow, of a full
one onto a full register the overflow, whose masked response pushes the indefinite. -/
def Obligations.RegisterCopiesAndExchange : Prop :=
  ∀ (s : State) (p : Prefixes) (i : Idx), s.Ready →
    (∀ row ∈ [(Instr.fstSti p i, false), (Instr.fstpSti p i, true)],
      ∃ t, exec row.1 s = .next t ∧ s.Ran t row.1 none ∧
        if s.isEmpty 0 = true then
          s.StackFaulted t false ∧ if s.masked .i = true then s.Wrote t i row.2 indef80 else s.Popped t 0
        else s.Wrote t i row.2 (s.st 0) ∧ s.Signals t [] false) ∧
    (s.Full 0 → s.Full i → ∃ t, exec (.fxch p i) s = .next t ∧ s.Ran t (.fxch p i) none ∧ s.Signals t [] false ∧
      t.top = s.top ∧
      ∀ k, t.reg k = (if k = s.phys i then s.st 0 else if k = s.phys 0 then s.st i else s.reg k) ∧
        t.tag k = (if k = s.phys i then tagOf (s.st 0) else if k = s.phys 0 then tagOf (s.st i) else s.tag k)) ∧
    (s.isEmpty 0 = true ∨ s.isEmpty i = true →
      ∃ t, exec (.fxch p i) s = .next t ∧ s.Ran t (.fxch p i) none ∧ s.StackFaulted t false ∧
        if s.masked .i = true then
          ∃ x y, x = (if s.isEmpty 0 = true then indef80 else s.st 0) ∧
            y = (if s.isEmpty i = true then indef80 else s.st i) ∧ t.top = s.top ∧
            ∀ k, t.reg k = (if k = s.phys i then x else if k = s.phys 0 then y else s.reg k) ∧
              t.tag k = (if k = s.phys i then tagOf x else if k = s.phys 0 then tagOf y else s.tag k)
        else s.Popped t 0) ∧
    (s.isEmpty i = true ∨ s.pushFull = true →
      ∃ t, exec (.fldSti p i) s = .next t ∧ s.Ran t (.fldSti p i) none ∧ s.StackFaulted t (!s.isEmpty i) ∧
        if s.masked .i = true then s.Pushed t indef80 else s.Popped t 0)

/-- A conditional move copies ST(i) to ST(0) exactly when its condition on ZF, PF and CF holds; either way C1 is 0 and no
other register changes. An empty operand is a stack underflow whether or not the condition holds. On a processor without
FCMOVcc it is refused. -/
def Obligations.ConditionalMoves : Prop :=
  ∀ row ∈ moveRows, ∀ (s : State) (p : Prefixes) (i : Idx),
    (s.params.hasFcmov = false → exec (row.1 p i) s = .refused .optionalAbsent) ∧
    (s.params.hasFcmov = true → s.Ready → ∃ t, exec (row.1 p i) s = .next t ∧ s.Ran t (row.1 p i) none ∧
      if s.isEmpty 0 = true ∨ s.isEmpty i = true then
        s.StackFaulted t false ∧ if s.masked .i = true then s.Wrote t 0 false indef80 else s.Popped t 0
      else s.Signals t [] false ∧ if row.2 s = true then s.Wrote t 0 false (s.st i) else s.Popped t 0)

/-- Every store of ST(0) to memory: what its conversion says is stored at the operand's address and nowhere else, C1 tells
the rounding direction, and the popping forms pop; where the conversion is abandoned nothing is stored or popped. With
every exception masked it is never abandoned. -/
def Obligations.StoresWriteTheirOperand : Prop :=
  ∀ row ∈ storeRows, ∀ (s : State) (p : Prefixes) (m : AddrMode), s.Ready → s.Full 0 →
    s.Allows (s.ea m) row.bytes →
    ∃ t, exec (row.make p m) s = .next t ∧
      s.RanStoring t (row.make p m) (s.operandPtr p m) (s.ea m) row.bytes ∧
      (s.AllMasked → ∃ v c, (row.convert s (s.st 0)).action = .store v c) ∧
      match (row.convert s (s.st 0)).action with
      | .store v c => t.read (s.ea m) row.bytes = v % 256 ^ row.bytes ∧ s.Popped t (if row.pop then 1 else 0) ∧
          s.Signals t (row.convert s (s.st 0)).flags c
      | .abandonBefore => s.SameMemory t ∧ s.Popped t 0 ∧ s.Signals t (row.convert s (s.st 0)).flags s.c1
      | .abandonAfter => s.SameMemory t ∧ s.Popped t 0 ∧ s.Signals t (row.convert s (s.st 0)).flags s.c1

/-- A store of an empty ST(0) is a stack underflow: masked, the indefinite of the format is stored (and the popping forms
pop); unmasked, nothing is. -/
def Obligations.StoreOfEmptyTopUnderflows : Prop :=
  ∀ row ∈ storeRows, ∀ (s : State) (p : Prefixes) (m : AddrMode), s.Ready → s.isEmpty 0 = true →
    s.Allows (s.ea m) row.bytes →
    ∃ t, exec (row.make p m) s = .next t ∧
      s.RanStoring t (row.make p m) (s.operandPtr p m) (s.ea m) row.bytes ∧ s.StackFaulted t false ∧
      if s.masked .i = true then
        t.read (s.ea m) row.bytes = row.indefinite s % 256 ^ row.bytes ∧ s.Popped t (if row.pop then 1 else 0)
      else s.SameMemory t ∧ s.Popped t 0

/-- A single or double real that is no SNaN is stored as it was loaded, without any exception, if #U is masked. A finite
non-zero `v` is rounded once to `r`, in the rounding mode, to the precision of the format, with unbounded exponent, and in
the range of the format's normal numbers that is what is stored, #P exactly when it is inexact and C1 when it was rounded up
in magnitude. Above the range, #O: masked, the infinity or the largest finite number of the format by mode and sign, with
#P; unmasked, nothing is stored. Below the range: masked, `v` rounded once to the format's smallest denormal, with #U and #P
when that is inexact; unmasked, #U and nothing is stored. A denormal is #D first, if the parameter has it so, and nothing is
stored if that is unmasked; an unsupported operand and an SNaN are #IA. A NaN
is stored as a QNaN of its sign (the narrowing of its payload is the spec's general knowledge, log 12). -/
def Obligations.RealsAreStoredRounded : Prop :=
  (∀ (cw : Word16) (d : Bool) (f : RealFormat) (m : Nat), f = single ∨ f = double → m < 256 ^ f.bytes →
    maskedIn cw .u = true → classOf (fromReal f m).value ≠ .snan →
    storeReal cw d f (fromReal f m).value = ⟨[], .store m false⟩) ∧
  ∀ (cw : Word16) (d : Bool) (f : RealFormat) (x : Ext), f = single ∨ f = double →
    (classOf x = .unsupported → storeReal cw d f x = .indefinite cw f.indefinite) ∧
    (classOf x = .snan → ∃ m, m < 256 ^ f.bytes ∧ storeReal cw d f x = .indefinite cw m ∧
      classOf (fromReal f m).value = .qnan ∧ signOf (fromReal f m).value = signOf x) ∧
    (classOf x = .qnan → ∃ m, m < 256 ^ f.bytes ∧ storeReal cw d f x = ⟨[], .store m false⟩ ∧
      classOf (fromReal f m).value = .qnan ∧ signOf (fromReal f m).value = signOf x) ∧
    (isDenormal x = true → d = true → maskedIn cw .d = false → storeReal cw d f x = ⟨[.d], .abandonBefore⟩) ∧
    ∀ (e : ℤ) (v : ℚ), isFinite x = true → isDenormal x = false ∨ d = false ∨ maskedIn cw .d = true → v = realOf x →
      (2 : ℚ) ^ e ≤ |v| → |v| < (2 : ℚ) ^ (e + 1) →
      ∃ (r : ℚ) (flags : List Exc) (act : StoreAction),
        storeReal cw d f x = ⟨(if isDenormal x && d then [.d] else []) ++ flags, act⟩ ∧
        RoundedTo (roundMode cw) ((2 : ℚ) ^ (e - f.precision + 1)) v r ∧
        (∃ k : ℤ, r = k * (2 : ℚ) ^ (e - f.precision + 1)) ∧
        if (2 : ℚ) ^ (f.bias + 1 : ℤ) ≤ |r| then
          if maskedIn cw .o = true then
            flags = [.o, .p] ∧ ∃ m c, act = .store m c ∧ m < 256 ^ f.bytes ∧
              if OverflowsToInfinity (roundMode cw) v then
                (fromReal f m).value = inf80 (decide (v < 0)) ∧ c = true
              else isFinite (fromReal f m).value = true ∧ c = false ∧ 0 ≤ realOf (fromReal f m).value * v ∧
                |realOf (fromReal f m).value| = (2 : ℚ) ^ (f.bias + 1 : ℤ) - (2 : ℚ) ^ (f.bias + 1 - f.precision : ℤ)
          else flags = [.o] ∧ act = .abandonAfter
        else if |r| < (2 : ℚ) ^ f.emin then
          if maskedIn cw .u = true then
            ∃ m c, act = .store m c ∧ m < 256 ^ f.bytes ∧ isFinite (fromReal f m).value = true ∧
              signOf (fromReal f m).value = decide (v < 0) ∧
              RoundedTo (roundMode cw) ((2 : ℚ) ^ f.tiniest) v (realOf (fromReal f m).value) ∧
              (∃ k : ℤ, realOf (fromReal f m).value = k * (2 : ℚ) ^ f.tiniest) ∧
              flags = (if realOf (fromReal f m).value = v then [] else [.u, .p]) ∧
              (c = true ↔ |v| < |realOf (fromReal f m).value|)
          else flags = [.u] ∧ act = .abandonAfter
        else ∃ m c, act = .store m c ∧ m < 256 ^ f.bytes ∧ isFinite (fromReal f m).value = true ∧
          realOf (fromReal f m).value = r ∧ flags = (if r = v then [] else [.p]) ∧ (c = true ↔ |v| < |r|)

/-- An integer operand is converted exactly, and stored as it was loaded; so is a packed decimal with valid digits and zero
in its unused bits. A packed decimal is converted exactly when every digit is at most 9, to the sum of its digits with its
sign. A finite value is stored as the integer, or the packed decimal, that the rounding mode rounds it to, #P when that is
inexact and C1 when it was rounded up in magnitude; a value that rounds out of range, an infinity, a NaN or an unsupported
encoding is #IA: masked, the indefinite is stored, unmasked, nothing. (The range test on the rounded value, the sign of a
decimal zero and what is no finite number are the spec's general knowledge, log 12.) -/
def Obligations.IntegersAndDecimalsAreStoredRounded : Prop :=
  (∀ (cw : Word16) (n v : Nat), n = 16 ∨ n = 32 ∨ n = 64 → v < 2 ^ n →
    realOf (fromInt (sint n v)) = (sint n v : ℚ) ∧
    storeInt cw n (fromInt (sint n v)) = ⟨[], .store v false⟩) ∧
  (∀ (cw : Word16) (low : BitVec 64) (m : Nat) (x : Ext), m < 2 ^ 80 → m / 2 ^ 72 % 2 ^ 7 = 0 → fromBcd m = some x →
    storeBcd cw low x = ⟨[], .store m false⟩) ∧
  (∀ m : Nat, if DecimalDigits m then ∃ x, fromBcd m = some x ∧ isFinite x = true ∧ signOf x = m.testBit 79 ∧
      |realOf x| = (decimalValue m : ℚ) ∧ (realOf x = 0 → x = zero80 (signOf x))
    else fromBcd m = none) ∧
  (∀ (cw : Word16) (n : Nat) (x : Ext), n = 16 ∨ n = 32 ∨ n = 64 →
    if isFinite x = true then
      ∃ k : ℤ, RoundedTo (roundMode cw) 1 (realOf x) k ∧
        if -2 ^ (n - 1) ≤ k ∧ k < 2 ^ (n - 1) then
          ∃ m, m < 2 ^ n ∧ sint n m = k ∧ storeInt cw n x =
            ⟨if (k : ℚ) = realOf x then [] else [.p], .store m (decide (|realOf x| < |(k : ℚ)|))⟩
        else storeInt cw n x = .indefinite cw (2 ^ (n - 1))
    else storeInt cw n x = .indefinite cw (2 ^ (n - 1))) ∧
  ∀ (cw : Word16) (low : BitVec 64) (x : Ext),
    if isFinite x = true then
      ∃ k : ℤ, RoundedTo (roundMode cw) 1 (realOf x) k ∧
        if |k| ≤ 10 ^ 18 - 1 then
          ∃ m, m < 2 ^ 80 ∧ m / 2 ^ 72 % 2 ^ 7 = 0 ∧ DecimalDigits m ∧ (decimalValue m : ℤ) = |k| ∧
            m.testBit 79 = signOf x ∧ (k ≠ 0 → signOf x = decide (k < 0)) ∧ storeBcd cw low x =
              ⟨if (k : ℚ) = realOf x then [] else [.p], .store m (decide (|realOf x| < |(k : ℚ)|))⟩
        else storeBcd cw low x = .indefinite cw (0xFFFF * 2 ^ 64 + low.toNat)
    else storeBcd cw low x = .indefinite cw (0xFFFF * 2 ^ 64 + low.toNat)

/-! ### Arithmetic -/

/-- Every register form of the four operations writes what the operation answers for its operands, in its order, to its
destination, signals its exceptions, and the popping forms pop; with a defined precision control it always completes,
and with every exception masked always with a value. -/
def Obligations.ArithmeticRegisterForms : Prop :=
  ∀ row ∈ arithRows, ∀ (s : State) (p : Prefixes) (i : Idx), s.Ready → s.Full (row.dest i) → s.Full (row.other i) →
    ∀ q, pcBits s.cw = some q →
    ∃ r t, arith row.op s.cw (some q) s.nanPick (.of (row.left s i)) (.of (row.right s i)) = .ok r ∧
      exec (row.make p i) s = .next t ∧ s.Ran t (row.make p i) none ∧ s.Outcome t (row.dest i) row.pop r ∧
      (s.AllMasked → r.value.isSome = true)

/-- Every memory form of the four operations does so with ST(0) and its memory operand; but FIDIV signals no #O: where the
quotient rounds up out of range its value is free (log 35). -/
def Obligations.ArithmeticMemoryForms : Prop :=
  ∀ row ∈ arithMemRows, ∀ (s : State) (p : Prefixes) (m : AddrMode), s.Ready → s.Full 0 →
    s.Allows (s.ea m) row.bytes → ∀ q, row.precision s = some q →
    ∃ r t, arith row.op s.cw (some q) s.nanPick (row.left s (s.ea m)) (row.right s (s.ea m)) = .ok r ∧
      exec (row.make p m) s = .next t ∧ s.Ran t (row.make p m) (some (s.operandPtr p m)) ∧
      s.Outcome t 0 false (row.answer s r) ∧ (r.flags.contains .o = false → row.answer s r = r) ∧
      (row.isFidiv = true → (row.answer s r).flags = r.flags.filter (· != .o)) ∧
      (s.AllMasked → (row.answer s r).value.isSome = true)

/-- The result of an operation on finite operands is the exact sum, difference, product or quotient `v`, rounded once to
`r` in the rounding mode to the precision, with unbounded exponent. In the range of normal numbers that is the value
written; #P is signalled exactly when it is inexact and C1 tells whether it was rounded up in magnitude. Above the range,
#O: masked, the infinity or the largest finite number of the precision by mode and sign; unmasked, `r / 2^24576`. Below the
range: masked, `v` rounded once to the coarser of the two quanta, with #U and #P when that is inexact; unmasked, #U and
`r * 2^24576`. -/
def Obligations.ArithmeticRoundsTheExactResult : Prop :=
  ∀ (op : ArithOp) (cw : Word16) (p : Nat) (pick : Bool) (a b : Ext) (e : ℤ) (v : ℚ),
    isFinite a = true → isFinite b = true → (isDenormal a || isDenormal b) = false ∨ maskedIn cw .d = true →
    (op = .div → realOf b ≠ 0) → p = 24 ∨ p = 53 ∨ p = 64 → v = op.onRat (realOf a) (realOf b) →
    (2 : ℚ) ^ e ≤ |v| → |v| < (2 : ℚ) ^ (e + 1) →
    ∃ (r : ℚ) (flags : List Exc) (w : Written), arith op cw (some p) pick (.of a) (.of b) =
        .ok ⟨(if isDenormal a || isDenormal b then [.d] else []) ++ flags, some w⟩ ∧
      RoundedTo (roundMode cw) ((2 : ℚ) ^ (e - p + 1)) v r ∧ (∃ k : ℤ, r = k * (2 : ℚ) ^ (e - p + 1)) ∧
      if (2 : ℚ) ^ (16384 : ℤ) ≤ |r| then
        if maskedIn cw .o = true then
          flags = [.o, .p] ∧
          if OverflowsToInfinity (roundMode cw) v then w.value = inf80 (decide (v < 0)) ∧ w.c1 = true
          else isFinite w.value = true ∧ |realOf w.value| = (2 : ℚ) ^ (16384 : ℤ) - (2 : ℚ) ^ (16384 - p : ℤ) ∧
            0 ≤ realOf w.value * v ∧ w.c1 = false
        else flags = .o :: (if r = v then [] else [.p]) ∧ isFinite w.value = true ∧
          realOf w.value = r * (2 : ℚ) ^ (-24576 : ℤ) ∧ (w.c1 = true ↔ |v| < |r|)
      else if |r| < (2 : ℚ) ^ (-16382 : ℤ) then
        if maskedIn cw .u = true then
          isFinite w.value = true ∧ signOf w.value = decide (v < 0) ∧
          RoundedTo (roundMode cw) (max ((2 : ℚ) ^ (e - p + 1)) ((2 : ℚ) ^ (-16445 : ℤ))) v (realOf w.value) ∧
          (∃ k : ℤ, realOf w.value = k * max ((2 : ℚ) ^ (e - p + 1)) ((2 : ℚ) ^ (-16445 : ℤ))) ∧
          flags = (if realOf w.value = v then [] else [.u, .p]) ∧ (w.c1 = true ↔ |v| < |realOf w.value|)
        else flags = .u :: (if r = v then [] else [.p]) ∧ isFinite w.value = true ∧
          realOf w.value = r * (2 : ℚ) ^ (24576 : ℤ) ∧ (w.c1 = true ↔ |v| < |r|)
      else isFinite w.value = true ∧ realOf w.value = r ∧ flags = (if r = v then [] else [.p]) ∧
        (w.c1 = true ↔ |v| < |r|)

/-- The answers that no rounding makes, for every form of the four operations and every precision control: an unsupported
operand and an SNaN are #IA, a QNaN is propagated without exception; opposite infinities added, like infinities subtracted,
infinity times zero, infinity over infinity and zero over zero are #IA, a finite non-zero value over zero is #Z; the other
operations on zeros and infinities are exact. A masked #IA or #Z writes its response, an unmasked one writes and pops
nothing, and neither is followed by #D. Of two NaNs the quiet one is answered, of two alike the one of the larger
significand, always quiet. (That the reserved precision control 01B is not refused where no result is rounded to it is the
model's choice, log 15; the exact results and the sign of a NaN are the spec's general knowledge, log 12; `nanPick`,
between equal significands, is free, log 27.) -/
def Obligations.SpecialOperandsOfTheFourOperations : Prop :=
  (∀ row ∈ arithRows, ∀ (s : State) (p : Prefixes) (i : Idx) (r : Reply Written), s.Ready → s.Full (row.dest i) →
    s.Full (row.other i) →
    SpecialAnswer s.cw s.nanPick row.op (.of (row.left s i)) (.of (row.right s i)) r →
    ∃ t, exec (row.make p i) s = .next t ∧ s.Ran t (row.make p i) none ∧ s.Outcome t (row.dest i) row.pop r) ∧
  (∀ row ∈ arithMemRows, ∀ (s : State) (p : Prefixes) (m : AddrMode) (r : Reply Written), s.Ready → s.Full 0 →
    s.Allows (s.ea m) row.bytes →
    SpecialAnswer s.cw s.nanPick row.op (row.left s (s.ea m)) (row.right s (s.ea m)) r →
    ∃ t, exec (row.make p m) s = .next t ∧ s.Ran t (row.make p m) (some (s.operandPtr p m)) ∧ s.Outcome t 0 false r) ∧
  ∀ (pick : Bool) (a b : Ext),
    (isNaN a = true → isNaN b = false → qnanOf pick a b = quiet a ∧ qnanOf pick b a = quiet a) ∧
    (classOf a = .snan → classOf b = .qnan → qnanOf pick a b = b ∧ qnanOf pick b a = b) ∧
    (isNaN a = true → classOf a = classOf b → sigOf b < sigOf a →
      qnanOf pick a b = quiet a ∧ qnanOf pick b a = quiet a) ∧
    (isNaN a = true → isNaN b = true → qnanOf pick a b = quiet a ∨ qnanOf pick a b = quiet b) ∧
    (isNaN a = true → classOf (quiet a) = .qnan)

/-- An empty operand of an arithmetic or transcendental instruction is a stack underflow: masked, the destination becomes
the indefinite and the popping forms pop; unmasked, nothing is written or popped. FXTRACT, FSINCOS and FPTAN, which also
push, signal the underflow first and else, where the push finds a full register, the overflow; masked, both results are the
indefinite (for FPTAN that is the model's choice, log 36). That the reserved precision control 01B is not refused before a
stack underflow is the model's choice too (log 15). -/
def Obligations.ArithmeticUnderflowsEmptyOperand : Prop :=
  (∀ row ∈ arithRows, ∀ (s : State) (p : Prefixes) (i : Idx), s.Ready →
    s.isEmpty (row.dest i) = true ∨ s.isEmpty (row.other i) = true →
    ∃ t, exec (row.make p i) s = .next t ∧ s.Ran t (row.make p i) none ∧ s.StackFaulted t false ∧
      if s.masked .i = true then s.Wrote t (row.dest i) row.pop indef80 else s.Popped t 0) ∧
  (∀ row ∈ arithMemRows, ∀ (s : State) (p : Prefixes) (m : AddrMode), s.Ready → s.isEmpty 0 = true →
    s.Allows (s.ea m) row.bytes →
    ∃ t, exec (row.make p m) s = .next t ∧ s.Ran t (row.make p m) (some (s.operandPtr p m)) ∧ s.StackFaulted t false ∧
      if s.masked .i = true then s.Wrote t 0 false indef80 else s.Popped t 0) ∧
  (∀ (s : State) (p : Prefixes), s.Ready → s.isEmpty 0 = true →
    ∀ i ∈ [Instr.fsqrt p, .frndint p, .f2xm1 p, .fsin p, .fcos p],
    ∃ t, exec i s = .next t ∧ s.Ran t i none ∧ s.StackFaulted t false ∧
      if s.masked .i = true then s.Wrote t 0 false indef80 else s.Popped t 0) ∧
  (∀ (s : State) (p : Prefixes), s.Ready → s.isEmpty 0 = true ∨ s.isEmpty 1 = true →
    ∀ row ∈ [(Instr.fprem p, (0 : Idx), false), (.fprem1 p, 0, false), (.fscale p, 0, false), (.fpatan p, 1, true),
      (.fyl2x p, 1, true), (.fyl2xp1 p, 1, true)],
    ∃ t, exec row.1 s = .next t ∧ s.Ran t row.1 none ∧ s.StackFaulted t false ∧
      if s.masked .i = true then s.Wrote t row.2.1 row.2.2 indef80 else s.Popped t 0) ∧
  ∀ (s : State) (p : Prefixes), s.Ready → s.isEmpty 0 = true ∨ s.pushFull = true →
    ∀ i ∈ [Instr.fxtract p, .fsincos p, .fptan p],
    ∃ t, exec i s = .next t ∧ s.Ran t i none ∧ s.StackFaulted t (!s.isEmpty 0) ∧
      if s.masked .i = true then s.WrotePair t indef80 indef80 else s.Popped t 0

/-- With the reserved precision control 01B, every form of the four operations that rounds to it (the integer forms only
where the parameter has them do so) is refused on finite operands whose exact result is not zero, and so is FSQRT of a
positive number; an unmasked denormal operand is #D instead. Where the refusal falls is the model's (log 15). -/
def Obligations.ReservedPrecisionIsRefused : Prop :=
  (∀ row ∈ arithRows, ∀ (s : State) (p : Prefixes) (i : Idx), s.Ready → s.Full (row.dest i) → s.Full (row.other i) →
    pcBits s.cw = none → isFinite (row.left s i) = true → isFinite (row.right s i) = true →
    (row.op = .div → realOf (row.right s i) ≠ 0) →
    row.op.onRat (realOf (row.left s i)) (realOf (row.right s i)) ≠ 0 →
    if (isDenormal (row.left s i) || isDenormal (row.right s i)) && !s.masked .d then
      ∃ t, exec (row.make p i) s = .next t ∧ s.Ran t (row.make p i) none ∧ s.Popped t 0 ∧ s.Signals t [.d] s.c1
    else exec (row.make p i) s = .refused .reservedPrecisionControl) ∧
  (∀ row ∈ arithMemRows, ∀ (s : State) (p : Prefixes) (m : AddrMode), s.Ready → s.Full 0 → s.Allows (s.ea m) row.bytes →
    row.precision s = none → isFinite (row.left s (s.ea m)).value = true → isFinite (row.right s (s.ea m)).value = true →
    (row.op = .div → realOf (row.right s (s.ea m)).value ≠ 0) →
    row.op.onRat (realOf (row.left s (s.ea m)).value) (realOf (row.right s (s.ea m)).value) ≠ 0 →
    if ((row.left s (s.ea m)).denormal || (row.right s (s.ea m)).denormal) && !s.masked .d then
      ∃ t, exec (row.make p m) s = .next t ∧ s.Ran t (row.make p m) (some (s.operandPtr p m)) ∧ s.Popped t 0 ∧
        s.Signals t [.d] s.c1
    else exec (row.make p m) s = .refused .reservedPrecisionControl) ∧
  ∀ (s : State) (p : Prefixes), s.Ready → s.Full 0 → pcBits s.cw = none → isFinite (s.st 0) = true → 0 < realOf (s.st 0) →
    if isDenormal (s.st 0) && !s.masked .d then
      ∃ t, exec (.fsqrt p) s = .next t ∧ s.Ran t (.fsqrt p) none ∧ s.Popped t 0 ∧ s.Signals t [.d] s.c1
    else exec (.fsqrt p) s = .refused .reservedPrecisionControl

/-- FABS clears and FCHS complements bit 79 of ST(0), whatever the register holds; an empty ST(0) is a stack underflow. -/
def Obligations.SignOperations : Prop :=
  ∀ (s : State) (p : Prefixes), s.Ready →
    (∃ t, exec (.fabs p) s = .next t ∧ s.Ran t (.fabs p) none ∧
      if s.isEmpty 0 = true then
        s.StackFaulted t false ∧ if s.masked .i = true then s.Wrote t 0 false indef80 else s.Popped t 0
      else s.Signals t [] false ∧ s.Wrote t 0 false (0#1 ++ (s.st 0).extractLsb' 0 79)) ∧
    (∃ t, exec (.fchs p) s = .next t ∧ s.Ran t (.fchs p) none ∧
      if s.isEmpty 0 = true then
        s.StackFaulted t false ∧ if s.masked .i = true then s.Wrote t 0 false indef80 else s.Popped t 0
      else s.Signals t [] false ∧
        s.Wrote t 0 false (BitVec.ofBool (!signOf (s.st 0)) ++ (s.st 0).extractLsb' 0 79))

/-- FSQRT writes what the square root answers to ST(0) and completes with every defined precision control. A zero and plus
infinity are unchanged, any other negative operand, minus infinity and the negative denormals among them, is #IA, and so
are an unsupported operand and an SNaN; a QNaN is unchanged; a positive denormal with #D unmasked ends the instruction.
(These answers come with the reserved precision control too: the model's choice, log 15; that a NaN keeps its sign is the
spec's general knowledge, log 12.) -/
def Obligations.SquareRootCompletes : Prop :=
  (∀ (s : State) (p : Prefixes) (q : Nat), s.Ready → s.Full 0 → pcBits s.cw = some q →
    ∃ r t, sqrt s.cw (s.st 0) = .ok r ∧ exec (.fsqrt p) s = .next t ∧ s.Ran t (.fsqrt p) none ∧
      s.Outcome t 0 false r ∧ (s.AllMasked → r.value.isSome = true)) ∧
  ∀ (s : State) (p : Prefixes) (r : Reply Written), s.Ready → s.Full 0 → SqrtAnswer s.cw (s.st 0) r →
    ∃ t, exec (.fsqrt p) s = .next t ∧ s.Ran t (.fsqrt p) none ∧ s.Outcome t 0 false r

/-- The square root of a positive normal number is rounded once, in the rounding mode, to the precision, a tie to the even
significand; #P is signalled exactly when it is inexact and C1 tells whether it was rounded up. -/
def Obligations.SquareRootRoundsTheRoot : Prop :=
  ∀ (cw : Word16) (p : Nat) (x : Ext) (e : ℤ), pcBits cw = some p → classOf x = .normal → signOf x = false →
    (2 : ℚ) ^ (2 * e) ≤ realOf x → realOf x < (2 : ℚ) ^ (2 * e + 2) →
    ∃ flags w, sqrt cw x = .ok ⟨flags, some w⟩ ∧ isFinite w.value = true ∧ 0 < realOf w.value ∧
      (∃ k : ℤ, realOf w.value = k * (2 : ℚ) ^ (e - p + 1)) ∧
      flags = (if realOf w.value ^ 2 = realOf x then [] else [.p]) ∧ (w.c1 = true ↔ realOf x < realOf w.value ^ 2) ∧
      match roundMode cw with
      | .nearest => (realOf w.value - (2 : ℚ) ^ (e - p)) ^ 2 ≤ realOf x ∧
          realOf x ≤ (realOf w.value + (2 : ℚ) ^ (e - p)) ^ 2 ∧
          ((realOf w.value - (2 : ℚ) ^ (e - p)) ^ 2 = realOf x ∨ realOf x = (realOf w.value + (2 : ℚ) ^ (e - p)) ^ 2 →
            ∃ k : ℤ, realOf w.value = 2 * k * (2 : ℚ) ^ (e - p + 1))
      | .up => (realOf w.value - (2 : ℚ) ^ (e - p + 1)) ^ 2 < realOf x ∧ realOf x ≤ realOf w.value ^ 2
      | .down => realOf w.value ^ 2 ≤ realOf x ∧ realOf x < (realOf w.value + (2 : ℚ) ^ (e - p + 1)) ^ 2
      | .zero => realOf w.value ^ 2 ≤ realOf x ∧ realOf x < (realOf w.value + (2 : ℚ) ^ (e - p + 1)) ^ 2

/-- FRNDINT replaces a finite ST(0) by an integer, rounded in the rounding mode; #P is signalled and C1 tells the direction
exactly when that changes the value. An infinity is unchanged and C1 is 0; a QNaN is unchanged; an unsupported operand and
an SNaN are #IA; a denormal with #D unmasked ends the instruction. (What an infinity gives, and that a NaN keeps its sign,
are the spec's general knowledge, log 12.) -/
def Obligations.RoundToInteger : Prop :=
  (∀ (s : State) (p : Prefixes), s.Ready → s.Full 0 → isFinite (s.st 0) = true →
    isDenormal (s.st 0) = false ∨ s.masked .d = true →
    ∃ t x, exec (.frndint p) s = .next t ∧ s.Ran t (.frndint p) none ∧ s.Wrote t 0 false x ∧ isFinite x = true ∧
      (∃ k : ℤ, realOf x = k) ∧ RoundedTo (roundMode s.cw) 1 (realOf (s.st 0)) (realOf x) ∧ signOf x = signOf (s.st 0) ∧
      s.Signals t ((if isDenormal (s.st 0) then [.d] else []) ++ if realOf x = realOf (s.st 0) then [] else [.p])
        (decide (|realOf (s.st 0)| < |realOf x|))) ∧
  ∀ (s : State) (p : Prefixes) (r : Reply Written), s.Ready → s.Full 0 →
    NanAnswer1 s.cw (s.st 0) r ∨ (classOf (s.st 0) = .infinity ∧ r = ⟨[], some ⟨s.st 0, false⟩⟩) ∨
      (isDenormal (s.st 0) = true ∧ s.masked .d = false ∧ r = ⟨[.d], none⟩) →
    ∃ t, exec (.frndint p) s = .next t ∧ s.Ran t (.frndint p) none ∧ s.Outcome t 0 false r

/-- FPREM and FPREM1 of finite non-zero operands leave the dividend minus an integer times the modulus, exactly, in ST(0);
a zero has the dividend's sign. No exception is signalled but a denormal operand's and, for a tiny remainder with #U
unmasked, #U: then 2^24576 times the remainder is stored; masked, the exact denormal is, without a flag. Where the exponents
differ by less than 64 the reduction is complete: the quotient is truncated for FPREM and rounded to nearest, ties to even,
for FPREM1, and C2 is 0 and C0, C3, C1 hold its low bits. Otherwise it is partial: the remainder is smaller in magnitude, has
the dividend's sign, and C2 is 1. (The algorithm is the spec's general knowledge, log 12.) -/
def Obligations.RemainderIsExact : Prop :=
  ∀ (s : State) (p : Prefixes) (ieee : Bool), s.Ready → s.Full 0 → s.Full 1 →
    isFinite (s.st 0) = true → isFinite (s.st 1) = true → realOf (s.st 0) ≠ 0 → realOf (s.st 1) ≠ 0 →
    (isDenormal (s.st 0) || isDenormal (s.st 1)) = false ∨ s.masked .d = true →
    ∃ t x, ∃ q : ℕ, ∃ v : ℚ, exec (if ieee then .fprem1 p else .fprem p) s = .next t ∧
      s.Ran t (if ieee then .fprem1 p else .fprem p) none ∧ s.Wrote t 0 false x ∧ isFinite x = true ∧
      v = realOf (s.st 0) - (if signOf (s.st 0) = signOf (s.st 1) then (q : ℚ) else -q) * realOf (s.st 1) ∧
      (v = 0 → signOf x = signOf (s.st 0)) ∧
      (if v ≠ 0 ∧ |v| < (2 : ℚ) ^ (-16382 : ℤ) ∧ s.masked .u = false then
        realOf x = v * (2 : ℚ) ^ (24576 : ℤ) ∧
          s.Signals t ((if isDenormal (s.st 0) || isDenormal (s.st 1) then [.d] else []) ++ [.u]) t.c1
      else realOf x = v ∧ s.Signals t (if isDenormal (s.st 0) || isDenormal (s.st 1) then [.d] else []) t.c1) ∧
      if (magOf (s.st 0)).log2 - (magOf (s.st 1)).log2 < 64 then
        (if ieee then |v| ≤ |realOf (s.st 1)| / 2 ∧ (|v| = |realOf (s.st 1)| / 2 → q % 2 = 0)
          else |v| < |realOf (s.st 1)| ∧ signOf x = signOf (s.st 0)) ∧
        t.c2 = false ∧ t.c0 = q.testBit 2 ∧ t.c3 = q.testBit 1 ∧ t.c1 = q.testBit 0
      else |v| < |realOf (s.st 0)| ∧ signOf x = signOf (s.st 0) ∧ t.c2 = true

/-- FPREM and FPREM1 but of two finite non-zero operands: a zero modulus or an infinite dividend is #IA, masked with the
indefinite and C2 = 0; an infinite modulus and a zero dividend leave the dividend, and C0, C1, C2 and C3 are 0; an
unsupported operand and an SNaN are #IA, a QNaN is propagated. A denormal with #D unmasked ends the instruction. (The
algorithm is the spec's general knowledge, and so is the sign of a NaN, log 12; C1 = 0 after a masked #IA or a NaN is the
model's choice, log 18; `nanPick` is free, log 27.) -/
def Obligations.RemainderSpecialOperands : Prop :=
  ∀ (s : State) (p : Prefixes) (ieee : Bool) (r : Reply Written) (codes : State → Prop), s.Ready → s.Full 0 → s.Full 1 →
    RemainderAnswer s.cw s.nanPick (s.st 0) (s.st 1) r codes →
    ∃ t, exec (if ieee then .fprem1 p else .fprem p) s = .next t ∧
      s.Ran t (if ieee then .fprem1 p else .fprem p) none ∧ s.Outcome t 0 false r ∧ (r.value.isSome = true → codes t)

/-- FXTRACT splits a finite non-zero ST(0): ST(1) becomes its exponent, and its significand, between 1 and 2 in magnitude,
is pushed. A zero is #Z: masked, the exponent is minus infinity and the significand the zero; unmasked, nothing changes. An
infinity has the exponent plus infinity, and itself for its significand. An unsupported operand and an SNaN are #IA, masked
with both results indefinite or the quieted NaN, and a QNaN is both results (what infinities and NaNs give is the spec's
general knowledge, log 12). -/
def Obligations.ExtractSplitsTheValue : Prop :=
  ∀ (s : State) (p : Prefixes), s.Ready → s.Full 0 → s.Room →
    ∃ t, exec (.fxtract p) s = .next t ∧ s.Ran t (.fxtract p) none ∧
      match classOf (s.st 0) with
      | .zero =>
        if s.masked .z = true then s.WrotePair t (inf80 true) (s.st 0) ∧ s.Signals t [.z] false
        else s.Popped t 0 ∧ s.Signals t [.z] s.c1
      | .infinity => s.WrotePair t (inf80 false) (s.st 0) ∧ s.Signals t [] false
      | .unsupported =>
        if s.masked .i = true then s.WrotePair t indef80 indef80 ∧ s.Signals t [.i] false
        else s.Popped t 0 ∧ s.Signals t [.i] s.c1
      | .snan =>
        if s.masked .i = true then s.WrotePair t (quiet (s.st 0)) (quiet (s.st 0)) ∧ s.Signals t [.i] false
        else s.Popped t 0 ∧ s.Signals t [.i] s.c1
      | .qnan => s.WrotePair t (s.st 0) (s.st 0) ∧ s.Signals t [] false
      | _ =>
        if isDenormal (s.st 0) = true ∧ s.masked .d = false then s.Popped t 0 ∧ s.Signals t [.d] s.c1
        else ∃ x y, ∃ k : ℤ, s.WrotePair t x y ∧ isFinite x = true ∧ isFinite y = true ∧ realOf x = k ∧
          (k = 0 → x = zero80 false) ∧ realOf (s.st 0) = realOf y * (2 : ℚ) ^ k ∧ 1 ≤ |realOf y| ∧ |realOf y| < 2 ∧
          s.Signals t (if isDenormal (s.st 0) then [.d] else []) false

/-- FSCALE multiplies a finite non-zero ST(0) by two to the truncated ST(1), exactly where the result is in the range of
normal numbers. Above it, #O: masked, the infinity or the largest finite number by mode and sign, with #P; unmasked, `v /
2^24576`, or, where that is too large as well, the infinity of the sign. Below it: masked, `v` rounded to a multiple of
2^-16445, with #U and #P when that is inexact; unmasked, #U and `v * 2^24576`, or, where that is tiny as well, a zero of
the sign. An infinite ST(1) makes the infinity or the zero of the sign of ST(0), but plus infinity with a zero and minus
infinity with an infinity are #IA; a zero or infinite ST(0) is unchanged by a finite ST(1); an unsupported operand and an
SNaN are #IA, a QNaN is propagated. A denormal operand is #D, before an exact result too (log 16), after which a masked
response goes on. (The operand roles, these exact results and the sign of a NaN are the spec's general knowledge, log 12;
`nanPick` is free, log 27.) -/
def Obligations.ScaleMultipliesByPowerOfTwo : Prop :=
  (∀ (s : State) (p : Prefixes) (r : Reply Written), s.Ready → s.Full 0 → s.Full 1 →
    ScaleAnswer s.cw s.nanPick (s.st 0) (s.st 1) r →
    ∃ t, exec (.fscale p) s = .next t ∧ s.Ran t (.fscale p) none ∧ s.Outcome t 0 false r) ∧
  ∀ (s : State) (p : Prefixes) (n e : ℤ) (v : ℚ), s.Ready → s.Full 0 → s.Full 1 → isFinite (s.st 0) = true →
    isFinite (s.st 1) = true → (isDenormal (s.st 0) || isDenormal (s.st 1)) = false ∨ s.masked .d = true →
    |(n : ℚ)| ≤ |realOf (s.st 1)| → |realOf (s.st 1)| < |(n : ℚ)| + 1 → 0 ≤ (n : ℚ) * realOf (s.st 1) →
    (2 : ℚ) ^ e ≤ |realOf (s.st 0)| → |realOf (s.st 0)| < (2 : ℚ) ^ (e + 1) → v = realOf (s.st 0) * (2 : ℚ) ^ n →
    ∃ (t : State) (flags : List Exc) (w : Written), exec (.fscale p) s = .next t ∧ s.Ran t (.fscale p) none ∧
      s.Wrote t 0 false w.value ∧
      s.Signals t ((if isDenormal (s.st 0) || isDenormal (s.st 1) then [.d] else []) ++ flags) w.c1 ∧
      if 16384 ≤ e + n then
        if s.masked .o = true then
          flags = [.o, .p] ∧
          if OverflowsToInfinity (roundMode s.cw) v then w = ⟨inf80 (signOf (s.st 0)), true⟩
          else isFinite w.value = true ∧ signOf w.value = signOf (s.st 0) ∧ w.c1 = false ∧
            |realOf w.value| = (2 : ℚ) ^ (16384 : ℤ) - (2 : ℚ) ^ (16320 : ℤ)
        else flags = [.o] ∧ w.c1 = false ∧
          if 16384 ≤ e + n - 24576 then w.value = inf80 (signOf (s.st 0))
          else isFinite w.value = true ∧ realOf w.value = v * (2 : ℚ) ^ (-24576 : ℤ)
      else if e + n < -16382 then
        if s.masked .u = true then
          isFinite w.value = true ∧ signOf w.value = signOf (s.st 0) ∧
          RoundedTo (roundMode s.cw) ((2 : ℚ) ^ (-16445 : ℤ)) v (realOf w.value) ∧
          flags = (if realOf w.value = v then [] else [.u, .p]) ∧ (w.c1 = true ↔ |v| < |realOf w.value|)
        else flags = [.u] ∧ w.c1 = false ∧
          if e + n + 24576 < -16382 then w.value = zero80 (signOf (s.st 0))
          else isFinite w.value = true ∧ realOf w.value = v * (2 : ℚ) ^ (24576 : ℤ)
      else isFinite w.value = true ∧ realOf w.value = v ∧ flags = [] ∧ w.c1 = false

/-! ### Comparison -/

/-- Every comparison into the condition codes, with a register, with memory or with zero, writes the relation of its
operands to C3, C2 and C0, sets C1 to 0 and pops as its name says; an unmasked exception leaves codes and stack as they
were. An unsupported operand and an SNaN are #IA, and a QNaN too but for the FUCOM forms; a denormal operand is #D. With
every exception masked it always answers a relation. -/
def Obligations.ComparisonsSetConditionCodes : Prop :=
  ∀ (s : State) (p : Prefixes) (i : Idx) (m : AddrMode), s.Ready → s.Full 0 →
    ∀ x ∈ (compareRows.map (fun r => (r.1 p i, s.Full i, r.2.1, Operand.of (s.st i), r.2.2, (none : Option FarPtr)))) ++
        (comparePopRows.map fun r => (r.1 p, s.Full 1, r.2, Operand.of (s.st 1), 2, none)) ++
        (compareMemRows.map fun r =>
          (r.1 p m, s.Allows (s.ea m) r.2.1, false, r.2.2.1 s (s.ea m), r.2.2.2, some (s.operandPtr p m))) ++
        [(.ftst p, True, false, Operand.of (zero80 false), 0, none)],
      x.2.1 →
      ∃ t, exec x.1 s = .next t ∧ s.Ran t x.1 x.2.2.2.2.2 ∧
        CompareAnswers s.cw x.2.2.1 true (.of (s.st 0)) x.2.2.2.1 ∧
        (s.AllMasked → (compare s.cw x.2.2.1 true (.of (s.st 0)) x.2.2.2.1).value.isSome = true) ∧
        match (compare s.cw x.2.2.1 true (.of (s.st 0)) x.2.2.2.1).value with
        | some r => t.codes = r.codes ∧ s.Popped t x.2.2.2.2.1 ∧
            s.Signals t (compare s.cw x.2.2.1 true (.of (s.st 0)) x.2.2.2.1).flags false
        | none => t.codes = s.codes ∧ s.Popped t 0 ∧
            s.Signals t (compare s.cw x.2.2.1 true (.of (s.st 0)) x.2.2.2.1).flags s.c1

/-- FCOMI, FCOMIP, FUCOMI and FUCOMIP write the relation to ZF, PF and CF instead, set C1 to 0 and do not test for
denormals; every other host register is unchanged. An unsupported operand and an SNaN are #IA, and for FCOMI and FCOMIP a
QNaN too. On a processor without them they are refused. -/
def Obligations.ComparisonsSetHostFlags : Prop :=
  ∀ row ∈ compareFlagRows, ∀ (s : State) (p : Prefixes) (i : Idx),
    (s.params.hasFcomi = false → exec (row.1 p i) s = .refused .optionalAbsent) ∧
    (s.params.hasFcomi = true → s.Ready → s.Full 0 → s.Full i →
      ∃ t, exec (row.1 p i) s = .next t ∧ s.SameMemory t ∧ t.cw = s.cw ∧ s.Recorded t (row.1 p i) none ∧
        s.PastInstr t (row.1 p i) ∧ t.gprs = s.gprs ∧ t.segs = s.segs ∧
        CompareAnswers s.cw row.2.1 false (.of (s.st 0)) (.of (s.st i)) ∧
        (s.AllMasked → (compare s.cw row.2.1 false (.of (s.st 0)) (.of (s.st i))).value.isSome = true) ∧
        match (compare s.cw row.2.1 false (.of (s.st 0)) (.of (s.st i))).value with
        | some r => (t.zf, t.pf, t.cf) = r.codes ∧ s.Popped t row.2.2 ∧
            s.Signals t (compare s.cw row.2.1 false (.of (s.st 0)) (.of (s.st i))).flags false
        | none => (t.zf, t.pf, t.cf) = (s.zf, s.pf, s.cf) ∧ s.Popped t 0 ∧
            s.Signals t (compare s.cw row.2.1 false (.of (s.st 0)) (.of (s.st i))).flags s.c1)

/-- The relation of two encodings is the order of their values, infinities at the ends; it is unordered exactly when one of
them is a NaN or unsupported; and the result codes C3, C2, C0 and ZF, PF, CF are those of the table of 44_comparison.md
R381. -/
def Obligations.RelationIsTheOrderOfValues : Prop :=
  (Relation.greater.codes = (false, false, false) ∧ Relation.less.codes = (false, false, true) ∧
    Relation.equal.codes = (true, false, false) ∧ Relation.unordered.codes = (true, true, true)) ∧
  ∀ a b : Ext,
    (compareExt a b = .unordered ↔ isOrdered a = false ∨ isOrdered b = false) ∧
    (isFinite a = true → isFinite b = true →
      (compareExt a b = .less ↔ realOf a < realOf b) ∧ (compareExt a b = .greater ↔ realOf b < realOf a) ∧
      (compareExt a b = .equal ↔ realOf a = realOf b)) ∧
    (classOf a = .infinity → isFinite b = true → compareExt a b = if signOf a then .less else .greater) ∧
    (isFinite a = true → classOf b = .infinity → compareExt a b = if signOf b then .greater else .less) ∧
    (classOf a = .infinity → classOf b = .infinity →
      compareExt a b = if signOf a = signOf b then .equal else if signOf a then .less else .greater)

/-- FXAM tells the class of ST(0), or that it is empty, in C3, C2 and C0, and its sign in C1; nothing else changes (the
codes are the spec's general knowledge, log 12). -/
def Obligations.ExamineClassifiesTheTop : Prop :=
  ∀ (s : State) (p : Prefixes), s.Ready →
    ∃ t, exec (.fxam p) s = .next t ∧ s.Ran t (.fxam p) none ∧ s.SameRegisters t ∧ s.SameStatusBut t codeBits ∧
      t.c1 = signOf (s.st 0) ∧
      t.codes =
        if s.isEmpty 0 = true then (true, false, true)
        else match classOf (s.st 0) with
          | .unsupported => (false, false, false)
          | .snan => (false, false, true)
          | .qnan => (false, false, true)
          | .normal => (false, true, false)
          | .infinity => (false, true, true)
          | .zero => (true, false, false)
          | .denormal => (true, true, false)
          | .pseudoDenormal => (true, true, false)

/-- A comparison with an empty operand, into the condition codes or into ZF, PF and CF, is a stack underflow: masked, the
codes or flags say unordered and the popping forms pop; unmasked, they and the stack are as they were. -/
def Obligations.ComparisonUnderflowsEmptyOperand : Prop :=
  ∀ (s : State) (p : Prefixes) (i : Idx) (m : AddrMode), s.Ready →
    (∀ x ∈ (compareRows.map (fun r => (r.1 p i, s.isEmpty 0 || s.isEmpty i, r.2.2, (none : Option FarPtr)))) ++
        (comparePopRows.map fun r => (r.1 p, s.isEmpty 0 || s.isEmpty 1, 2, none)) ++
        (compareMemRows.map fun r => (r.1 p m, s.isEmpty 0 && !s.operandDenied (s.ea m) r.2.1, r.2.2.2,
          some (s.operandPtr p m))) ++ [(.ftst p, s.isEmpty 0, 0, none)],
      x.2.1 = true →
      ∃ t, exec x.1 s = .next t ∧ s.Ran t x.1 x.2.2.2 ∧ s.StackFaulted t false ∧
        if s.masked .i = true then t.codes = (true, true, true) ∧ s.Popped t x.2.2.1
        else t.codes = s.codes ∧ s.Popped t 0) ∧
    ∀ row ∈ compareFlagRows, s.params.hasFcomi = true → s.isEmpty 0 = true ∨ s.isEmpty i = true →
      ∃ t, exec (row.1 p i) s = .next t ∧ s.SameMemory t ∧ t.cw = s.cw ∧ s.Recorded t (row.1 p i) none ∧
        s.PastInstr t (row.1 p i) ∧ t.gprs = s.gprs ∧ t.segs = s.segs ∧ s.StackFaulted t false ∧
        if s.masked .i = true then (t.zf, t.pf, t.cf) = (true, true, true) ∧ s.Popped t row.2.2
        else (t.zf, t.pf, t.cf) = (s.zf, s.pf, s.cf) ∧ s.Popped t 0

/-! ### Transcendental -/

/-- FSIN, FCOS, FSINCOS and FPTAN of a finite operand of magnitude 2^63 or more set C2 and change no register, tag, TOP or
exception flag. An infinite or unsupported operand and an SNaN are #IA, masked with the indefinite or the quieted NaN, a
QNaN is unchanged; FSINCOS and FPTAN write and push it (for FPTAN the model's reading, log 36), and C2 is 0 (after a NaN
the spec's general knowledge, and so is the sign of a NaN, log 12). A denormal with #D unmasked ends the instruction. -/
def Obligations.TrigonometrySpecialOperands : Prop :=
  ∀ (s : State) (p : Prefixes), s.Ready → s.Full 0 →
    (∀ i ∈ [Instr.fsin p, .fcos p, .fsincos p, .fptan p], (i = .fsincos p ∨ i = .fptan p → s.Room) →
      isFinite (s.st 0) = true → (2 : ℚ) ^ (63 : ℕ) ≤ |realOf (s.st 0)| →
      ∃ t, exec i s = .next t ∧ s.Ran t i none ∧ s.SameRegisters t ∧ t.c2 = true ∧ s.SameStatusBut t codeBits) ∧
    (∀ i ∈ [Instr.fsin p, .fcos p], ∀ r, TrigAnswer s.cw (s.st 0) r →
      ∃ t, exec i s = .next t ∧ s.Ran t i none ∧ s.Outcome t 0 false r ∧ (r.value.isSome = true → t.c2 = false)) ∧
    ∀ i ∈ [Instr.fsincos p, .fptan p], s.Room → ∀ r, TrigAnswer s.cw (s.st 0) r →
      ∃ t, exec i s = .next t ∧ s.Ran t i none ∧ s.OutcomePair t r ∧ (r.value.isSome = true → t.c2 = false)

/-- Inside the range, FSIN and FCOS replace ST(0), FSINCOS and FPTAN also push (FPTAN the number 1), and C2 is 0. The sine
and tangent of a zero are that zero, its cosine 1; else the result is within the error bound of the true value, and #P, C1
and #U are those of `Delivers` (the exact results, the order of the pushes and the ulp of the bound are the spec's general
knowledge, log 12). The true value is the model's, enclosed between two rationals (log 21); a tiny result is treated as log
22 says. -/
def Obligations.TrigonometryInRange : Prop :=
  ∀ (s : State) (p : Prefixes), s.Ready → s.Full 0 → isFinite (s.st 0) = true →
    |realOf (s.st 0)| < (2 : ℚ) ^ (63 : ℕ) → isDenormal (s.st 0) = false ∨ s.masked .d = true →
    (∀ row ∈ [(Instr.fsin p, TranscFn.sin), (.fcos p, .cos)],
      ∃ t flags w, exec row.1 s = .next t ∧ s.Ran t row.1 none ∧ s.Wrote t 0 false w.value ∧ t.c2 = false ∧
        s.Signals t ((if isDenormal (s.st 0) then [.d] else []) ++ flags) w.c1 ∧ TrigGives row.2 s.cw (s.st 0) flags w) ∧
    (s.Room → ∃ t flags w flags' w', exec (.fsincos p) s = .next t ∧ s.Ran t (.fsincos p) none ∧
      s.WrotePair t w.value w'.value ∧ t.c2 = false ∧
      s.Signals t ((if isDenormal (s.st 0) then [.d] else []) ++ (flags ++ flags')) w'.c1 ∧
      TrigGives .sin s.cw (s.st 0) flags w ∧ TrigGives .cos s.cw (s.st 0) flags' w') ∧
    (s.Room → ∃ t flags w, exec (.fptan p) s = .next t ∧ s.Ran t (.fptan p) none ∧ s.WrotePair t w.value one80 ∧
      t.c2 = false ∧ s.Signals t ((if isDenormal (s.st 0) then [.d] else []) ++ flags) w.c1 ∧
      TrigGives .tan s.cw (s.st 0) flags w)

/-- FPATAN, FYL2X and FYL2XP1 write their result to ST(1) and pop, and F2XM1 writes it to ST(0), whenever every exception
is masked, whatever the operands; outside the domains of FYL2XP1 and F2XM1 the value is free (log 20). In the domain, but
for the exact results of the next statement, it is within the error bound of the true value, and #P, C1, #O and #U are
those of `Delivers`; the true value of FYL2X at a power of two and of F2XM1 at 1 and -1 is known exactly. The operand
roles, the domain of FYL2XP1 and the ulp of the bound are the spec's general knowledge (log 12). The true value is the
model's, enclosed between two rationals (log 21); a tiny result or an overflow is treated as log 22 says. -/
def Obligations.LogarithmsAndArctangentComplete : Prop :=
  (∀ (s : State) (p : Prefixes), s.Ready → s.Full 0 → s.AllMasked →
    (∀ i ∈ [Instr.fpatan p, .fyl2x p, .fyl2xp1 p], s.Full 1 →
      ∃ t x, exec i s = .next t ∧ s.Ran t i none ∧ s.Wrote t 1 true x ∧ t.sf = s.sf ∧ t.es = s.es) ∧
    ∃ t x, exec (.f2xm1 p) s = .next t ∧ s.Ran t (.f2xm1 p) none ∧ s.Wrote t 0 false x ∧ t.sf = s.sf ∧ t.es = s.es) ∧
  (∀ (s : State) (p : Prefixes), s.Ready → s.Full 0 →
    (∀ row ∈ [(Instr.fpatan p, TranscFn.atan2), (.fyl2x p, .ylog2x), (.fyl2xp1 p, .ylog2xp1)], s.Full 1 →
      InDomain row.2 (s.st 1) (s.st 0) → (isDenormal (s.st 0) || isDenormal (s.st 1)) = false ∨ s.masked .d = true →
      ∃ t flags w, exec row.1 s = .next t ∧ s.Ran t row.1 none ∧ s.Wrote t 1 true w.value ∧
        s.Signals t ((if isDenormal (s.st 0) || isDenormal (s.st 1) then [.d] else []) ++ flags) w.c1 ∧
        (trueValue row.2 (s.st 1) (s.st 0)).Delivers s.cw flags w) ∧
    (InDomain .exp2m1 0 (s.st 0) → isDenormal (s.st 0) = false ∨ s.masked .d = true →
      ∃ t flags w, exec (.f2xm1 p) s = .next t ∧ s.Ran t (.f2xm1 p) none ∧ s.Wrote t 0 false w.value ∧
        s.Signals t ((if isDenormal (s.st 0) then [.d] else []) ++ flags) w.c1 ∧
        (trueValue .exp2m1 0 (s.st 0)).Delivers s.cw flags w)) ∧
  ∀ (x y : Ext), isFinite x = true → isFinite y = true →
    (∀ k : ℤ, realOf x = (2 : ℚ) ^ k → (trueValue .ylog2x y x).Known |k * realOf y|) ∧
    (realOf x = 1 → (trueValue .exp2m1 0 x).Known 1) ∧ (realOf x = -1 → (trueValue .exp2m1 0 x).Known (1 / 2))

/-- What FPATAN, FYL2X, FYL2XP1 and F2XM1 answer without a computation. FYL2X: a negative operand is #IA, a zero with a
finite non-zero factor #Z with the infinity of the opposite sign; the zeros, ones and infinities of R435. FYL2XP1: an
operand more negative than -1, minus infinity among them (log 20), is #IA; a zero makes a zero. FPATAN: the exact zeros of
R434. F2XM1: a zero is unchanged. An unsupported operand and an SNaN are #IA, a QNaN is propagated. A denormal operand is
#D, before an exact result too (log 16), and ends the instruction if that is unmasked; no ended instruction pops. That
ST(1) is the factor, or the ordinate, and the destination, the pop, the exact results and the sign of a NaN are the spec's
general knowledge (log 12); `nanPick` is free (log 27). -/
def Obligations.LogarithmAndArctangentSpecialOperands : Prop :=
  ∀ (s : State) (p : Prefixes) (r : Reply Written), s.Ready → s.Full 0 →
    (s.Full 1 → ∀ row ∈ [(Instr.fpatan p, Atan2Answer), (.fyl2x p, Log2Answer), (.fyl2xp1 p, Log2p1Answer)],
      row.2 s.cw s.nanPick (s.st 0) (s.st 1) r →
      ∃ t, exec row.1 s = .next t ∧ s.Ran t row.1 none ∧ s.Outcome t 1 true r) ∧
    (Exp2Answer s.cw (s.st 0) r →
      ∃ t, exec (.f2xm1 p) s = .next t ∧ s.Ran t (.f2xm1 p) none ∧ s.Outcome t 0 false r)

/-- The computed results of the transcendental functions are a function of the operands and the rounding mode, monotonic in
its magnitude: at operands that intervals connect on which the function is monotonic (`inOrder`), in one rounding mode, the
result at the earlier operands has the same sign and no larger magnitude than that at the later ones. So for true values in
the range of normal numbers, wherever the model's enclosures of them are in the order that the true values are in, the later
one narrow. (Monotonicity is the source's; the intervals and the enclosures are the model's, log 21.) -/
def Obligations.TranscendentalResultsAreMonotonic : Prop :=
  ∀ row ∈ transcRows, ∀ (s0 s : State) (p : Prefixes) (e0 e : Enclosure), row.Runs s0 → row.Runs s →
    roundMode s0.cw = roundMode s.cw →
    e0 = trueValue row.fn (row.second s0) (s0.st 0) → e = trueValue row.fn (row.second s) (s.st 0) →
    -16382 ≤ e0.log2 → e.log2 ≤ 16382 →
    ∃ t0 t, exec (row.make p) s0 = .next t0 ∧ exec (row.make p) s = .next t ∧
      (s0.st 0 = s.st 0 → row.second s0 = row.second s → t0.st row.place = t.st row.place) ∧
      (inOrder row.fn (row.second s0) (s0.st 0) (row.second s) (s.st 0) = true → e0.neg = e.neg →
        e0.lo.toRat ≤ e.lo.toRat → e0.hi.toRat ≤ e.hi.toRat → e.Narrow →
        signOf (t0.st row.place) = signOf (t.st row.place) ∧
          |realOf (t0.st row.place)| ≤ |realOf (t.st row.place)|)

/-! ### Control -/

/-- FNINIT is DB E3: without a wait check it sets the control word to 037FH, the status word to 0, every tag to empty and
the pointer registers to 0, and keeps the data registers; the pc moves past it and FERR# is deasserted. FINIT is
9B DB E3 and does the same once the wait check lets it. The encodings, the kept registers and FERR# are the spec's general
knowledge (logs 9, 12). -/
def Obligations.InitializeTheProcessor : Prop :=
  encode (.fninit []) = [0xDB, 0xE3] ∧ encode (.finit []) = [0x9B, 0xDB, 0xE3] ∧
  ∀ (s : State) (p : Prefixes) (i : Instr), i = .fninit p ∨ (i = .finit p ∧ s.Ready) →
    ∃ t, exec i s = .next t ∧ t.cw = 0x037F ∧ t.sw = 0 ∧ t.tw = 0xFFFF ∧ t.fip = 0 ∧ t.fdp = 0 ∧ t.fop = 0 ∧
      t.regs = s.regs ∧ t.ferr = false ∧ s.PastInstr t i ∧ s.SameHost t ∧ s.SameMemory t

/-- FLDCW loads all 16 bits of the control word and recomputes ES and B: they become 1 exactly when some flag is set whose
mask is now clear; no exception flag, register, tag or pointer changes. -/
def Obligations.LoadControlWord : Prop :=
  ∀ (s : State) (p : Prefixes) (m : AddrMode), s.Ready → s.Allows (s.ea m) 2 →
    ∃ t, exec (.fldcw p m) s = .next t ∧ t.cw = BitVec.ofNat 16 (s.read (s.ea m) 2) ∧
      s.SameStatusBut t (codeBits ++ [esBit, busyBit]) ∧ t.busy = t.es ∧
      (t.es = true ↔ ∃ x, s.flag x = true ∧ t.masked x = false) ∧
      s.SameRegisters t ∧ s.SamePointers t ∧ s.SameHost t ∧ s.SameMemory t ∧ s.PastInstr t (.fldcw p m)

/-- FNSTCW, FSTCW, FNSTSW and FSTSW store the control word, or the status word with B equal to ES, to memory or to AX, and
change nothing of the FPU; only the F forms check for a pending exception. That the upper half of EAX stays is the model's
reading (log 5). -/
def Obligations.StoreControlAndStatusWords : Prop :=
  ∀ (s : State) (p : Prefixes) (m : AddrMode),
    (∀ i, i = .fnstcw p m ∨ (i = .fstcw p m ∧ s.Ready) → s.Allows (s.ea m) 2 →
      ∃ t, exec i s = .next t ∧ t.read (s.ea m) 2 = s.cw.toNat ∧ s.SameMemoryBut t (s.ea m) 2 ∧ t.sw = s.sw ∧
        t.cw = s.cw ∧ t.tw = s.tw ∧ t.regs = s.regs ∧ s.SamePointers t ∧ s.SameHost t ∧ s.PastInstr t i) ∧
    (∀ i, i = .fnstswM2byte p m ∨ (i = .fstswM2byte p m ∧ s.Ready) → s.Allows (s.ea m) 2 →
      ∃ t, exec i s = .next t ∧ (∀ n < 15, (t.read (s.ea m) 2).testBit n = s.sw.getLsbD n) ∧
        (t.read (s.ea m) 2).testBit 15 = s.es ∧ s.SameMemoryBut t (s.ea m) 2 ∧ t.sw = s.sw ∧
        t.cw = s.cw ∧ t.tw = s.tw ∧ t.regs = s.regs ∧ s.SamePointers t ∧ s.SameHost t ∧ s.PastInstr t i) ∧
    (∀ i, i = .fnstswAx p ∨ (i = .fstswAx p ∧ s.Ready) →
      ∃ t, exec i s = .next t ∧ (∀ n < 15, (t.gpr .eax).getLsbD n = s.sw.getLsbD n) ∧
        (t.gpr .eax).getLsbD 15 = s.es ∧ (t.gpr .eax).extractLsb' 16 16 = (s.gpr .eax).extractLsb' 16 16 ∧
        (∀ r, r ≠ .eax → t.gpr r = s.gpr r) ∧ s.SameMemory t ∧ t.sw = s.sw ∧ t.cw = s.cw ∧ t.tw = s.tw ∧
        t.regs = s.regs ∧ s.SamePointers t ∧ s.PastInstr t i)

/-- FNCLEX and FCLEX clear the six exception flags, SF, ES and B and deassert FERR#; TOP, the control and tag words, the
data registers and the pointer registers are unchanged. That FERR# is deasserted is the model's reading (log 9). -/
def Obligations.ClearExceptions : Prop :=
  ∀ (s : State) (p : Prefixes) (i : Instr), i = .fnclex p ∨ (i = .fclex p ∧ s.Ready) →
    ∃ t, exec i s = .next t ∧ (∀ x, t.flag x = false) ∧ t.sf = false ∧ t.es = false ∧ t.busy = false ∧
      t.ferr = false ∧ t.top = s.top ∧ t.cw = s.cw ∧ t.tw = s.tw ∧ t.regs = s.regs ∧ s.SamePointers t ∧
      s.SameHost t ∧ s.SameMemory t ∧ s.PastInstr t i

/-- FNSTENV and FSTENV store the environment as it was, in the layout of the image format, then mask every exception,
which clears ES and B and deasserts FERR#. The layout is the spec's general knowledge, a parameter (logs 12, 13); FERR# is
the model's reading (log 9); what an image does not carry is free when read back (log 23). -/
def Obligations.StoreEnvironment : Prop :=
  ∀ (s : State) (p : Prefixes) (m : AddrMode) (i : Instr), i = .fnstenv p m ∨ (i = .fstenv p m ∧ s.Ready) →
    s.Allows (s.ea m) (s.imageFormat p).envBytes →
    ∃ t, exec i s = .next t ∧ s.SameMemoryBut t (s.ea m) (s.imageFormat p).envBytes ∧
      s.EnvironmentStored t (s.imageFormat p) .environment (s.ea m) ∧
      t.cw = s.cw ||| 0x003F ∧ t.es = false ∧ t.busy = false ∧ t.ferr = false ∧
      s.SameStatusBut t (codeBits ++ [esBit, busyBit]) ∧ s.SameRegisters t ∧ s.SamePointers t ∧ s.SameHost t ∧
      s.PastInstr t i

/-- FLDENV loads the control word, the status word but for ES and B, and the pointer registers; a register stays empty or
becomes so if the image says so and is tagged by what it holds otherwise; ES and B are recomputed. What an image does not
carry is free (log 23). -/
def Obligations.LoadEnvironment : Prop :=
  ∀ (s : State) (p : Prefixes) (m : AddrMode), s.Ready → s.Allows (s.ea m) (s.imageFormat p).envBytes →
    ∃ t, exec (.fldenv p m) s = .next t ∧ t.cw = (readEnvironment (s.imageFormat p) .environment (s.ea m) s).cw ∧
      (∀ n, n ≠ esBit → n ≠ busyBit →
        t.sw.getLsbD n = (readEnvironment (s.imageFormat p) .environment (s.ea m) s).sw.getLsbD n) ∧
      (t.es = true ↔ ∃ x, t.flag x = true ∧ t.masked x = false) ∧ t.busy = t.es ∧
      (∀ k, t.tag k = if tagAt (readEnvironment (s.imageFormat p) .environment (s.ea m) s).tw k = emptyTag then emptyTag
        else tagOf (s.reg k)) ∧
      t.fip = (readEnvironment (s.imageFormat p) .environment (s.ea m) s).fip ∧
      t.fdp = (readEnvironment (s.imageFormat p) .environment (s.ea m) s).fdp ∧
      t.fop = (readEnvironment (s.imageFormat p) .environment (s.ea m) s).fop ∧ t.regs = s.regs ∧ s.SameHost t ∧
      s.SameMemory t ∧ s.PastInstr t (.fldenv p m)

/-- FNSAVE and FSAVE store the environment and the eight registers in stack order, in the layout of the image format (by
default the registers follow the environment), all as they were, and then initialize. The layout is the spec's general knowledge, a parameter (logs 12, 13); that
FERR# is deasserted is the model's reading (log 9); what an image does not carry is free when read back (log 23). -/
def Obligations.SaveState : Prop :=
  ∀ (s : State) (p : Prefixes) (m : AddrMode) (i : Instr), i = .fnsave p m ∨ (i = .fsave p m ∧ s.Ready) →
    s.Allows (s.ea m) (s.imageFormat p).stateBytes →
    ∃ t, exec i s = .next t ∧ s.SameMemoryBut t (s.ea m) (s.imageFormat p).stateBytes ∧
      s.StateStored t (s.imageFormat p) (s.ea m) ∧
      t.cw = 0x037F ∧ t.sw = 0 ∧ t.tw = 0xFFFF ∧ t.fip = 0 ∧ t.fdp = 0 ∧ t.fop = 0 ∧ t.regs = s.regs ∧
      t.ferr = false ∧ s.SameHost t ∧ s.PastInstr t i

/-- FRSTOR loads the environment as FLDENV does, the pointer registers included, and the eight registers, in the order of
the loaded TOP, bit for bit from where the layout has them, by default after the environment (the layout is the spec's
general knowledge, a parameter: logs 12, 13). What an image does not carry is free (log 23). -/
def Obligations.RestoreState : Prop :=
  ∀ (s : State) (p : Prefixes) (m : AddrMode), s.Ready → s.Allows (s.ea m) (s.imageFormat p).stateBytes →
    ∃ t, exec (.frstor p m) s = .next t ∧ t.cw = (readEnvironment (s.imageFormat p) .state (s.ea m) s).cw ∧
      (∀ n, n ≠ esBit → n ≠ busyBit →
        t.sw.getLsbD n = (readEnvironment (s.imageFormat p) .state (s.ea m) s).sw.getLsbD n) ∧
      (t.es = true ↔ ∃ x, t.flag x = true ∧ t.masked x = false) ∧ t.busy = t.es ∧
      (∀ j : Idx, t.st j = readRegister (s.imageFormat p) (s.ea m) j s ∧
        (s.params.envLayout = EnvLayout.standard → t.st j =
          BitVec.ofNat 80 (s.read (s.ea m + BitVec.ofNat 32 ((s.imageFormat p).envBytes + 10 * j.toNat)) 10))) ∧
      (∀ k, t.tag k = if tagAt (readEnvironment (s.imageFormat p) .state (s.ea m) s).tw k = emptyTag then emptyTag
        else tagOf (t.reg k)) ∧
      t.fip = (readEnvironment (s.imageFormat p) .state (s.ea m) s).fip ∧
      t.fdp = (readEnvironment (s.imageFormat p) .state (s.ea m) s).fdp ∧
      t.fop = (readEnvironment (s.imageFormat p) .state (s.ea m) s).fop ∧
      s.SameHost t ∧ s.SameMemory t ∧ s.PastInstr t (.frstor p m)

/-- FNSAVE and then FRSTOR of the same image restores the data registers, the control, status and tag words, and in the
32-bit protected-mode format the pointer registers, of every state that satisfies the invariant, under every injective
layout of the image. -/
def Obligations.SaveThenRestore : Prop :=
  ∀ (s t u : State) (p q : Prefixes) (m : AddrMode), s.Inv → s.params.envLayout.injective = true →
    s.imageFormat p = s.imageFormat q → s.Allows (s.ea m) (s.imageFormat p).stateBytes →
    exec (.fnsave p m) s = .next t → exec (.frstor q m) t = .next u →
    u.regs = s.regs ∧ u.cw = s.cw ∧ u.sw = s.sw ∧ u.tw = s.tw ∧
    (s.imageFormat p = .p32 → s.SamePointers u)

/-- FINCSTP and FDECSTP move TOP by one, wrapping, and touch neither a register nor a tag; C1 is 0. FFREE tags one register
empty; FNOP changes no register. None signals an exception (that tags and registers stay is the spec's general knowledge,
log 12). -/
def Obligations.StackPointerInstructions : Prop :=
  ∀ (s : State) (p : Prefixes), s.Ready →
    (∃ t, exec (.fincstp p) s = .next t ∧ s.Ran t (.fincstp p) none ∧ t.top = s.top + 1 ∧ s.SameRegisters t ∧
      s.Signals t [] false) ∧
    (∃ t, exec (.fdecstp p) s = .next t ∧ s.Ran t (.fdecstp p) none ∧ t.top = s.top - 1 ∧ s.SameRegisters t ∧
      s.Signals t [] false) ∧
    (∀ i, ∃ t, exec (.ffree p i) s = .next t ∧ s.Ran t (.ffree p i) none ∧ s.SameStatusBut t codeBits ∧
      (∀ k, t.reg k = s.reg k) ∧ ∀ k, t.tag k = if k = s.phys i then emptyTag else s.tag k) ∧
    ∃ t, exec (.fnop p) s = .next t ∧ s.Ran t (.fnop p) none ∧ s.SameStatusBut t codeBits ∧ s.SameRegisters t

/-- WAIT, once its wait check lets it, and FENI, FDISI and FSETPM always, move the pc past themselves and change nothing
else of the FPU, the host or memory. -/
def Obligations.InstructionsWithoutEffect : Prop :=
  ∀ (s : State) (p : Prefixes) (i : Instr),
    (i = .wait p ∧ s.Ready) ∨ i = .feni p ∨ i = .fdisi p ∨ i = .fsetpm p →
    ∃ t, exec i s = .next t ∧ t.sw = s.sw ∧ t.cw = s.cw ∧ t.tw = s.tw ∧ t.regs = s.regs ∧ s.SamePointers t ∧
      s.SameHost t ∧ t.mem = s.mem ∧ s.PastInstr t i
end

