-- ==== Sys2Proof/Laws/Numbers.lean ====
section
/-! SUPPORT. Magnitudes as rational numbers: the logarithm, the order, and everything a rounding to multiples of a power of two
answers (40_numerics.md R200, R201). -/

namespace Sys2Proof.Machine

theorem shift_ratio (a b : ℕ) (k : ℤ) :
    ((a <<< k.toNat : ℕ) : ℚ) / ((b <<< (-k).toNat : ℕ) : ℚ) = (a : ℚ) / b * (2 : ℚ) ^ k := by
  simp only [Nat.shiftLeft_eq, Nat.cast_mul, Nat.cast_pow, Nat.cast_ofNat]
  rcases Int.le_total 0 k with h | h
  · rw [Int.toNat_eq_zero.mpr (by omega : -k ≤ 0), ← zpow_natCast, Int.toNat_of_nonneg h]
    simp; ring
  · rw [Int.toNat_eq_zero.mpr h, pow_zero, ← zpow_natCast, Int.toNat_of_nonneg (by omega : 0 ≤ -k), zpow_neg]
    have : (2 : ℚ) ^ k ≠ 0 := by positivity
    field_simp

theorem shift_le_iff (a b : ℕ) (hb : b ≠ 0) (k : ℤ) :
    b <<< k.toNat ≤ a <<< (-k).toNat ↔ (2 : ℚ) ^ k ≤ (a : ℚ) / b := by
  have h := shift_ratio a b (-k)
  rw [neg_neg] at h
  have hp : (0 : ℚ) < ((b <<< k.toNat : ℕ) : ℚ) := by
    simp only [Nat.shiftLeft_eq]; positivity
  rw [← Nat.cast_le (α := ℚ), ← one_le_div hp, h, zpow_neg, ← div_eq_mul_inv, one_le_div (by positivity)]

theorem Mag.toRat_pos {m : Mag} (hn : m.num ≠ 0) (hd : m.den ≠ 0) : 0 < m.toRat := by
  unfold Mag.toRat; positivity

theorem Mag.log2_spec {m : Mag} (hn : m.num ≠ 0) (hd : m.den ≠ 0) :
    (2 : ℚ) ^ m.log2 ≤ m.toRat ∧ m.toRat < (2 : ℚ) ^ (m.log2 + 1) := by
  have two : (2 : ℚ) ≠ 0 := two_ne_zero
  have n1 : (2 : ℚ) ^ (m.num.log2 : ℤ) ≤ m.num := by
    rw [zpow_natCast]; exact_mod_cast Nat.log2_self_le hn
  have n2 : (m.num : ℚ) < (2 : ℚ) ^ ((m.num.log2 : ℤ) + 1) := by
    have : m.num < 2 ^ (m.num.log2 + 1) := Nat.lt_log2_self
    exact_mod_cast this
  have d1 : (2 : ℚ) ^ (m.den.log2 : ℤ) ≤ m.den := by
    rw [zpow_natCast]; exact_mod_cast Nat.log2_self_le hd
  have d2 : (m.den : ℚ) < (2 : ℚ) ^ ((m.den.log2 : ℤ) + 1) := by
    have : m.den < 2 ^ (m.den.log2 + 1) := Nat.lt_log2_self
    exact_mod_cast this
  have dp : (0 : ℚ) < m.den := by positivity
  have lo : (2 : ℚ) ^ ((m.num.log2 : ℤ) - m.den.log2 - 1) ≤ (m.num : ℚ) / m.den := by
    rw [le_div_iff₀ dp]
    calc (2 : ℚ) ^ ((m.num.log2 : ℤ) - m.den.log2 - 1) * m.den
        ≤ (2 : ℚ) ^ ((m.num.log2 : ℤ) - m.den.log2 - 1) * (2 : ℚ) ^ ((m.den.log2 : ℤ) + 1) := by gcongr
      _ = (2 : ℚ) ^ (m.num.log2 : ℤ) := by rw [← zpow_add₀ two]; congr 1; ring
      _ ≤ m.num := n1
  have hi : (m.num : ℚ) / m.den < (2 : ℚ) ^ ((m.num.log2 : ℤ) - m.den.log2 + 1) := by
    rw [div_lt_iff₀ dp]
    calc (m.num : ℚ) < (2 : ℚ) ^ ((m.num.log2 : ℤ) + 1) := n2
      _ = (2 : ℚ) ^ ((m.num.log2 : ℤ) - m.den.log2 + 1) * (2 : ℚ) ^ (m.den.log2 : ℤ) := by
        rw [← zpow_add₀ two]; congr 1; ring
      _ ≤ _ := by gcongr
  have key : ∀ k : ℤ, (2 : ℚ) ^ k ≤ (m.num : ℚ) / m.den → (m.num : ℚ) / m.den < (2 : ℚ) ^ (k + 1) →
      (2 : ℚ) ^ (k + m.exp) ≤ m.toRat ∧ m.toRat < (2 : ℚ) ^ (k + m.exp + 1) := by
    intro k h1 h2
    unfold Mag.toRat
    have ep : (0 : ℚ) < (2 : ℚ) ^ m.exp := by positivity
    constructor
    · rw [zpow_add₀ two]; exact mul_le_mul_of_nonneg_right h1 ep.le
    · rw [show k + m.exp + 1 = (k + 1) + m.exp by ring, zpow_add₀ two]; exact mul_lt_mul_of_pos_right h2 ep
  unfold Mag.log2
  simp only
  split
  · rename_i h
    exact key _ ((shift_le_iff _ _ hd _).mp h) hi
  · rename_i h
    refine key _ lo ?_
    rw [shift_le_iff _ _ hd, not_le] at h
    rw [sub_add_cancel]; exact h

/-- The logarithm is the one exponent whose binade holds the magnitude. -/
theorem Mag.log2_unique {m : Mag} (hn : m.num ≠ 0) (hd : m.den ≠ 0) {k : ℤ} (h1 : (2 : ℚ) ^ k ≤ m.toRat)
    (h2 : m.toRat < (2 : ℚ) ^ (k + 1)) : m.log2 = k := by
  have h := Mag.log2_spec hn hd
  have a := (zpow_lt_zpow_iff_right₀ (one_lt_two : (1 : ℚ) < 2)).mp (h.1.trans_lt h2)
  have b := (zpow_lt_zpow_iff_right₀ (one_lt_two : (1 : ℚ) < 2)).mp (h1.trans_lt h.2)
  omega

theorem Mag.le_iff {a b : Mag} (ha : a.den ≠ 0) (hb : b.den ≠ 0) : a.le b = true ↔ a.toRat ≤ b.toRat := by
  unfold Mag.le Mag.toRat
  have hA : (0 : ℚ) < a.den := by positivity
  have hB : (0 : ℚ) < b.den := by positivity
  have h := shift_ratio (a.num * b.den) (b.num * a.den) (a.exp - b.exp)
  rw [decide_eq_true_iff, neg_sub] at *
  have e1 : (2:ℚ) ^ (a.exp - b.exp) = 2 ^ a.exp / 2 ^ b.exp := zpow_sub₀ two_ne_zero _ _
  rcases Nat.eq_zero_or_pos b.num with hz | hz
  · simp only [hz, Nat.le_zero, Nat.shiftLeft_eq, Nat.cast_zero, zero_div, zero_mul]
    constructor
    · intro h0
      have : a.num = 0 := by
        rcases Nat.mul_eq_zero.mp h0 with h0 | h0
        · exact (Nat.mul_eq_zero.mp h0).resolve_right hb
        · exact absurd h0 (by positivity)
      simp [this]
    · intro h0
      have : a.num = 0 := by
        by_contra hne
        have : 0 < (a.num : ℚ) / a.den * 2 ^ a.exp := by positivity
        linarith
      simp [this]
  · have hp : (0 : ℚ) < (((b.num * a.den) <<< (b.exp - a.exp).toNat : ℕ) : ℚ) := by
      simp only [Nat.shiftLeft_eq]
      have : 0 < a.den := Nat.pos_of_ne_zero ha
      positivity
    rw [← Nat.cast_le (α := ℚ), ← div_le_one hp, h, e1]
    have hz' : (0 : ℚ) < b.num := by exact_mod_cast hz
    have p1 : (0 : ℚ) < 2 ^ b.exp := by positivity
    push_cast
    rw [div_mul_div_comm, div_le_one (by positivity), div_mul_eq_mul_div, div_mul_eq_mul_div, div_le_div_iff₀ hA hB]
    constructor <;> intro h <;> linarith

/-- A magnitude as a fraction of natural numbers in units of `2 ^ q`. -/
theorem Mag.toRat_eq (m : Mag) (q : ℤ) :
    m.toRat = ((m.num <<< (m.exp - q).toNat : ℕ) : ℚ) / ((m.den <<< (q - m.exp).toNat : ℕ) : ℚ) * (2 : ℚ) ^ q := by
  have h := shift_ratio m.num m.den (m.exp - q)
  rw [neg_sub] at h
  rw [h, mul_assoc, ← zpow_add₀ two_ne_zero, sub_add_cancel, Mag.toRat]

/-- The number a rounded magnitude stands for. -/
def Rounded.toMag (r : Rounded) : Mag := ⟨r.mant, 1, r.quantum⟩

theorem Rounded.toMag_toRat (r : Rounded) : r.toMag.toRat = (r.mant : ℚ) * (2 : ℚ) ^ r.quantum := by
  simp [Rounded.toMag, Mag.toRat]

theorem roundAt_quantum (rm : RoundMode) (v : Exact) (q : ℤ) : (roundAt rm v q).quantum = q := by
  unfold roundAt; simp only; split <;> rfl

/-- The mantissa, in units of `2 ^ q`: below `n` or above it as the mode chooses. -/
theorem roundAt_cases (rm : RoundMode) (v : Exact) (hd : v.mag.den ≠ 0) (q : ℤ) :
    ∃ lo rem d : ℕ, 0 < d ∧ rem < d ∧ v.mag.toRat = ((lo : ℚ) + rem / d) * (2 : ℚ) ^ q ∧
      roundAt rm v q =
        if rem = 0 then ⟨lo, q, false, false⟩
        else ⟨if choosesUp rm v.neg lo rem d then lo + 1 else lo, q, true, choosesUp rm v.neg lo rem d⟩ := by
  have dp : 0 < v.mag.den <<< (q - v.mag.exp).toNat := by rw [Nat.shiftLeft_eq]; positivity
  refine ⟨(v.mag.num <<< (v.mag.exp - q).toNat) / (v.mag.den <<< (q - v.mag.exp).toNat),
    (v.mag.num <<< (v.mag.exp - q).toNat) % (v.mag.den <<< (q - v.mag.exp).toNat), _, dp, Nat.mod_lt _ dp, ?_, ?_⟩
  · rw [Mag.toRat_eq _ q]
    congr 1
    have h := Nat.div_add_mod (v.mag.num <<< (v.mag.exp - q).toNat) (v.mag.den <<< (q - v.mag.exp).toNat)
    have dq : ((v.mag.den <<< (q - v.mag.exp).toNat : ℕ) : ℚ) ≠ 0 := by exact_mod_cast dp.ne'
    conv_lhs => rw [← h]
    push_cast
    field_simp
  · unfold roundAt
    simp only

/-- Rounding is inexact exactly when it changes the value. -/
theorem roundAt_inexact (rm : RoundMode) (v : Exact) (hd : v.mag.den ≠ 0) (q : ℤ) :
    (roundAt rm v q).inexact = true ↔ (roundAt rm v q).toMag.toRat ≠ v.mag.toRat := by
  obtain ⟨lo, rem, d, dp, hr, hv, h⟩ := roundAt_cases rm v hd q
  have two : (0 : ℚ) < (2 : ℚ) ^ q := by positivity
  have dq : (0 : ℚ) < d := by exact_mod_cast dp
  rw [h, Rounded.toMag_toRat, hv]
  split
  · rename_i h0; simp [h0]
  · rename_i h0
    have r0 : (0 : ℚ) < rem / d := by have : 0 < rem := Nat.pos_of_ne_zero h0; positivity
    have r1 : (rem : ℚ) / d < 1 := by rw [div_lt_one dq]; exact_mod_cast hr
    simp only [true_iff, ne_eq, mul_eq_mul_right_iff, not_or]
    refine ⟨?_, two.ne'⟩
    split <;> push_cast <;> intro e <;> linarith

/-- Rounding goes up exactly when it enlarges the magnitude. -/
theorem roundAt_up (rm : RoundMode) (v : Exact) (hd : v.mag.den ≠ 0) (q : ℤ) :
    (roundAt rm v q).up = true ↔ v.mag.toRat < (roundAt rm v q).toMag.toRat := by
  obtain ⟨lo, rem, d, dp, hr, hv, h⟩ := roundAt_cases rm v hd q
  have two : (0 : ℚ) < (2 : ℚ) ^ q := by positivity
  have dq : (0 : ℚ) < d := by exact_mod_cast dp
  rw [h, Rounded.toMag_toRat, hv]
  split
  · rename_i h0; simp [h0]
  · rename_i h0
    have r0 : (0 : ℚ) < rem / d := by have : 0 < rem := Nat.pos_of_ne_zero h0; positivity
    have r1 : (rem : ℚ) / d < 1 := by rw [div_lt_one dq]; exact_mod_cast hr
    rw [mul_lt_mul_iff_left₀ two]
    split
    · rename_i hc; simp only [hc, true_iff]; push_cast; linarith
    · rename_i hc; simp only [hc]; simp only [Bool.false_eq_true, false_iff, not_lt]; linarith

theorem RoundedTo.self (rm : RoundMode) {u : ℚ} (hu : 0 < u) (v : ℚ) : RoundedTo rm u v v := by
  unfold RoundedTo
  cases rm with
  | nearest => exact ⟨by rw [sub_self, abs_zero]; positivity, fun h => absurd (by simpa using h : (0 : ℚ) = u / 2) (by positivity)⟩
  | zero => exact ⟨mul_self_nonneg v, le_refl _, by linarith⟩
  | _ => simp [hu]

/-- What rounding to multiples of `2 ^ q` answers, by the mode (40_numerics.md R200). -/
theorem roundAt_roundedTo (rm : RoundMode) (v : Exact) (hd : v.mag.den ≠ 0) (q : ℤ) :
    RoundedTo rm ((2 : ℚ) ^ q) v.toRat (Exact.toRat ⟨v.neg, (roundAt rm v q).toMag⟩) := by
  obtain ⟨lo, rem, d, dp, hr, hv, h⟩ := roundAt_cases rm v hd q
  have two : (0 : ℚ) < (2 : ℚ) ^ q := by positivity
  have dq : (0 : ℚ) < d := by exact_mod_cast dp
  have lo0 : (0 : ℚ) ≤ lo := by positivity
  have r1 : (rem : ℚ) / d < 1 := by rw [div_lt_one dq]; exact_mod_cast hr
  by_cases h0 : rem = 0
  · have e : Exact.toRat ⟨v.neg, (roundAt rm v q).toMag⟩ = v.toRat := by
      unfold Exact.toRat
      simp only
      rw [Rounded.toMag_toRat, hv, h, if_pos h0, h0]
      simp
    rw [e]
    exact RoundedTo.self rm two _
  · have r0 : (0 : ℚ) < rem / d := by have : 0 < rem := Nat.pos_of_ne_zero h0; positivity
    have hx2 : (d < 2 * rem ↔ (1 : ℚ) / 2 < rem / d) ∧ (2 * rem = d ↔ (rem : ℚ) / d = 1 / 2) := by
      constructor
      · rw [div_lt_div_iff₀ two_pos dq]
        rw [← Nat.cast_lt (α := ℚ)]; push_cast; constructor <;> intro _ <;> linarith
      · rw [div_eq_div_iff dq.ne' two_ne_zero, ← Nat.cast_inj (R := ℚ)]
        push_cast; constructor <;> intro _ <;> linarith
    unfold Exact.toRat
    simp only
    rw [Rounded.toMag_toRat, roundAt_quantum, hv, h, if_neg h0]
    simp only
    generalize (2 : ℚ) ^ q = u at *
    generalize (rem : ℚ) / d = x at *
    have xu0 : 0 < x * u := by positivity
    have xu1 : x * u < u := by nlinarith
    have lou : 0 ≤ (lo : ℚ) * u := by positivity
    have m1 : ((lo + 1 : ℕ) : ℚ) * u = lo * u + u := by push_cast; ring
    have mu : ((lo : ℚ) + x) * u = lo * u + x * u := by ring
    unfold RoundedTo choosesUp
    cases rm with
    | nearest =>
      simp only [Bool.or_eq_true, decide_eq_true_eq, Bool.and_eq_true, beq_iff_eq]
      by_cases hup : d < 2 * rem ∨ (2 * rem = d ∧ lo % 2 = 1)
      · rw [if_pos hup]
        have hx : 1 / 2 ≤ x := by
          rcases hup with hup | hup
          · exact (hx2.1.mp hup).le
          · exact (hx2.2.mp hup.1).ge
        have hxu : u / 2 ≤ x * u := by nlinarith
        have ab : |((lo + 1 : ℕ) : ℚ) * u - ((lo : ℚ) + x) * u| = u - x * u := by
          push_cast; rw [abs_of_nonneg (by linarith)]; ring
        have ab' : |(-(((lo + 1 : ℕ) : ℚ) * u)) - (-(((lo : ℚ) + x) * u))| = u - x * u := by
          rw [← ab, ← abs_neg]; congr 1; ring
        have tie : u - x * u = u / 2 → ∃ k : ℤ, ((lo + 1 : ℕ) : ℚ) = 2 * k := by
          intro e
          have : x = 1 / 2 := by nlinarith
          have ho : lo % 2 = 1 := by
            rcases hup with hup | hup
            · have := hx2.1.mp hup; linarith
            · exact hup.2
          refine ⟨((lo + 1) / 2 : ℕ), ?_⟩
          have : lo + 1 = 2 * ((lo + 1) / 2) := by omega
          exact_mod_cast this
        split
        · rw [ab']
          refine ⟨by linarith, fun e => ?_⟩
          obtain ⟨k, hk⟩ := tie e
          exact ⟨-k, by rw [hk]; push_cast; ring⟩
        · rw [ab]
          refine ⟨by linarith, fun e => ?_⟩
          obtain ⟨k, hk⟩ := tie e
          exact ⟨k, by rw [hk]⟩
      · rw [if_neg hup]
        push Not at hup
        have hx : x ≤ 1 / 2 := by
          by_contra hc
          exact absurd (hx2.1.mpr (not_le.mp hc)) (not_lt.mpr hup.1)
        have hxu : x * u ≤ u / 2 := by nlinarith
        have ab : |(lo : ℚ) * u - ((lo : ℚ) + x) * u| = x * u := by
          rw [abs_of_nonpos (by linarith)]; ring
        have ab' : |(-((lo : ℚ) * u)) - (-(((lo : ℚ) + x) * u))| = x * u := by
          rw [← ab, ← abs_neg]; congr 1; ring
        have tie : x * u = u / 2 → ∃ k : ℤ, (lo : ℚ) = 2 * k := by
          intro e
          have hx' : x = 1 / 2 := by nlinarith
          have := hup.2 (hx2.2.mpr hx')
          refine ⟨(lo / 2 : ℕ), ?_⟩
          have : lo = 2 * (lo / 2) := by omega
          exact_mod_cast this
        split
        · rw [ab']
          refine ⟨by linarith, fun e => ?_⟩
          obtain ⟨k, hk⟩ := tie e
          exact ⟨-k, by rw [hk]; push_cast; ring⟩
        · rw [ab]
          refine ⟨by linarith, fun e => ?_⟩
          obtain ⟨k, hk⟩ := tie e
          exact ⟨k, by rw [hk]⟩
    | down =>
      cases v.neg <;> simp only [Bool.false_eq_true, if_true, if_false] <;> constructor <;> linarith
    | up =>
      cases v.neg <;> simp only [Bool.false_eq_true, if_true, if_false, Bool.not_true, Bool.not_false] <;>
        constructor <;> linarith
    | zero =>
      simp only
      split
      · rw [abs_neg, abs_neg]
        simp only [Bool.false_eq_true, if_false]
        rw [abs_of_nonneg lou, abs_of_nonneg (by linarith : 0 ≤ ((lo : ℚ) + x) * u)]
        exact ⟨by nlinarith, by linarith, by linarith⟩
      · simp only [Bool.false_eq_true, if_false]
        rw [abs_of_nonneg lou, abs_of_nonneg (by linarith : 0 ≤ ((lo : ℚ) + x) * u)]
        exact ⟨by nlinarith, by linarith, by linarith⟩

end Sys2Proof.Machine
end

