-- ==== Sys2Proof/Laws/Values.lean ====
section
/-! SUPPORT. The extended-real format: fields, classes and values of an encoding, and the encoding of a representable value
(40_numerics.md R172 to R189). -/

namespace Sys2Proof.Machine

theorem shiftNat_cast (n : ℕ) (k : ℤ) (h : 2 ^ (-k).toNat ∣ n) : (shiftNat n k : ℚ) = n * (2 : ℚ) ^ k := by
  unfold shiftNat
  obtain ⟨c, rfl⟩ := h
  rcases Int.le_total 0 k with hk | hk
  · rw [Int.toNat_eq_zero.mpr (by omega : -k ≤ 0), Nat.shiftRight_zero, Nat.shiftLeft_eq]
    push_cast
    rw [← zpow_natCast, Int.toNat_of_nonneg hk]
  · rw [Int.toNat_eq_zero.mpr hk, Nat.shiftLeft_zero, Nat.shiftRight_eq_div_pow, Nat.mul_div_cancel_left _ (by positivity)]
    push_cast
    rw [← zpow_natCast, Int.toNat_of_nonneg (by omega : 0 ≤ -k), zpow_neg]
    have : (2 : ℚ) ^ k ≠ 0 := by positivity
    field_simp

/-! ### The fields of an extended-real encoding -/

theorem pack_toNat (s : Bool) (e sig : ℕ) :
    (pack s e sig).toNat = (s.toNat * 2 ^ 15 + e % 2 ^ 15) * 2 ^ 64 + sig % 2 ^ 64 := by
  unfold pack
  rw [BitVec.toNat_append, BitVec.toNat_append, Nat.shiftLeft_eq, Nat.shiftLeft_eq,
    Nat.mul_comm _ (2 ^ 15), ← Nat.two_pow_add_eq_or_of_lt (BitVec.isLt _), Nat.mul_comm _ (2 ^ 64),
    ← Nat.two_pow_add_eq_or_of_lt (BitVec.isLt _)]
  simp only [BitVec.toNat_ofNat]
  cases s <;> simp <;> ring

theorem signOf_eq (x : Ext) : signOf x = decide (2 ^ 79 ≤ x.toNat) := by
  unfold signOf
  rw [BitVec.getLsbD, Nat.testBit_eq_decide_div_mod_eq]
  have := x.isLt
  congr 1
  simp only [eq_iff_iff]
  constructor <;> intro h <;> omega

theorem expOf_eq (x : Ext) : expOf x = x.toNat / 2 ^ 64 % 2 ^ 15 := by
  simp [expOf, BitVec.extractLsb'_toNat, Nat.shiftRight_eq_div_pow]

theorem sigOf_eq (x : Ext) : sigOf x = x.toNat % 2 ^ 64 := by
  simp [sigOf, BitVec.extractLsb'_toNat]

theorem fracOf_eq (x : Ext) : fracOf x = sigOf x % 2 ^ 63 := by
  rw [sigOf_eq]
  simp [fracOf, BitVec.extractLsb'_toNat]

theorem integerBit_eq (x : Ext) : x.getLsbD 63 = decide (2 ^ 63 ≤ sigOf x) := by
  rw [sigOf_eq, BitVec.getLsbD, Nat.testBit_eq_decide_div_mod_eq]
  congr 1
  simp only [eq_iff_iff]
  constructor <;> intro h <;> omega

theorem quietBit_eq (x : Ext) : x.getLsbD 62 = decide (2 ^ 62 ≤ fracOf x) := by
  rw [fracOf_eq, sigOf_eq, BitVec.getLsbD, Nat.testBit_eq_decide_div_mod_eq]
  congr 1
  simp only [eq_iff_iff]
  constructor <;> intro h <;> omega

theorem expOf_lt (x : Ext) : expOf x < 2 ^ 15 := by rw [expOf_eq]; exact Nat.mod_lt _ (by positivity)

theorem sigOf_lt (x : Ext) : sigOf x < 2 ^ 64 := by rw [sigOf_eq]; exact Nat.mod_lt _ (by positivity)

@[simp] theorem signOf_pack (s : Bool) (e sig : ℕ) : signOf (pack s e sig) = s := by
  rw [signOf_eq, pack_toNat]
  cases s <;> simp <;> omega

theorem expOf_pack (s : Bool) (e sig : ℕ) : expOf (pack s e sig) = e % 2 ^ 15 := by
  rw [expOf_eq, pack_toNat]
  omega

theorem sigOf_pack (s : Bool) (e sig : ℕ) : sigOf (pack s e sig) = sig % 2 ^ 64 := by
  rw [sigOf_eq, pack_toNat]
  omega

/-- An encoding is its sign, exponent field and significand. -/
theorem pack_fields (x : Ext) : pack (signOf x) (expOf x) (sigOf x) = x := by
  apply BitVec.eq_of_toNat_eq
  rw [pack_toNat, signOf_eq, expOf_eq, sigOf_eq]
  have := x.isLt
  by_cases h : 2 ^ 79 ≤ x.toNat <;> simp only [h, decide_true, decide_false, Bool.toNat_true, Bool.toNat_false] <;> omega

theorem ext_fields {x y : Ext} (hs : signOf x = signOf y) (he : expOf x = expOf y) (hm : sigOf x = sigOf y) : x = y := by
  rw [← pack_fields x, ← pack_fields y, hs, he, hm]

/-! ### Classes -/

/-- The class in terms of the exponent field and the significand (40_numerics.md R185). -/
theorem classOf_eq (x : Ext) : classOf x =
    if expOf x = 0 then if 2 ^ 63 ≤ sigOf x then .pseudoDenormal else if sigOf x = 0 then .zero else .denormal
    else if expOf x = 0x7FFF then
      if sigOf x < 2 ^ 63 then .unsupported
      else if sigOf x = 2 ^ 63 then .infinity
      else if 3 * 2 ^ 62 ≤ sigOf x then .qnan else .snan
    else if 2 ^ 63 ≤ sigOf x then .normal else .unsupported := by
  have h := sigOf_lt x
  unfold classOf
  rw [integerBit_eq, quietBit_eq, fracOf_eq]
  simp only [decide_eq_true_eq, Bool.not_eq_true', decide_eq_false_iff_not, not_le]
  split_ifs <;> first | rfl | omega

/-- An encoding is finite when its exponent field is not all ones and it is not an unnormal (40_numerics.md R185). -/
theorem isFinite_iff (x : Ext) : isFinite x = true ↔ expOf x ≠ 0x7FFF ∧ (expOf x = 0 ∨ 2 ^ 63 ≤ sigOf x) := by
  unfold isFinite
  rw [classOf_eq]
  split_ifs <;> simp_all

theorem classOf_zero_iff (x : Ext) : classOf x = .zero ↔ expOf x = 0 ∧ sigOf x = 0 := by
  rw [classOf_eq]
  split_ifs <;> simp_all
  omega

theorem classOf_normal_iff (x : Ext) :
    classOf x = .normal ↔ expOf x ≠ 0 ∧ expOf x ≠ 0x7FFF ∧ 2 ^ 63 ≤ sigOf x := by
  rw [classOf_eq]
  split_ifs <;> simp_all

theorem classOf_infinity_iff (x : Ext) : classOf x = .infinity ↔ expOf x = 0x7FFF ∧ sigOf x = 2 ^ 63 := by
  rw [classOf_eq]
  split_ifs <;> simp_all
  omega

/-- A denormal operand has exponent field 0 and a non-zero significand (40_numerics.md R187). -/
theorem isDenormal_iff (x : Ext) : isDenormal x = true ↔ expOf x = 0 ∧ sigOf x ≠ 0 := by
  unfold isDenormal
  rw [classOf_eq]
  split_ifs <;> simp_all
  omega

/-! ### The value of a finite encoding -/

theorem magOf_toRat (x : Ext) : (magOf x).toRat = sigOf x * (2 : ℚ) ^ ((max (expOf x) 1 : ℕ) - 16446 : ℤ) := by
  simp [magOf, Mag.toRat]

theorem magOf_den (x : Ext) : (magOf x).den ≠ 0 := one_ne_zero

/-- The value of an encoding by its fields (40_numerics.md R186). -/
theorem realOf_eq (x : Ext) : realOf x =
    (if signOf x then -1 else 1) * (sigOf x * (2 : ℚ) ^ ((max (expOf x) 1 : ℕ) - 16446 : ℤ)) := by
  rw [← magOf_toRat]
  unfold realOf valOf Exact.toRat
  simp only
  split <;> simp

theorem abs_realOf (x : Ext) : |realOf x| = (magOf x).toRat := by
  rw [realOf_eq, magOf_toRat, abs_mul, abs_of_nonneg (a := (sigOf x : ℚ) * _) (by positivity)]
  split <;> simp

theorem realOf_eq_zero_iff (x : Ext) : realOf x = 0 ↔ sigOf x = 0 := by
  rw [← abs_eq_zero, abs_realOf, magOf_toRat]
  have : (2 : ℚ) ^ ((max (expOf x) 1 : ℕ) - 16446 : ℤ) ≠ 0 := by positivity
  rw [mul_eq_zero_iff_right this, Nat.cast_eq_zero]

/-- A finite encoding stands for 0 exactly when it is a zero. -/
theorem realOf_eq_zero_iff_zero {x : Ext} (h : isFinite x = true) : realOf x = 0 ↔ classOf x = .zero := by
  rw [realOf_eq_zero_iff, classOf_zero_iff]
  rw [isFinite_iff] at h
  constructor
  · intro h0; refine ⟨?_, h0⟩; rcases h.2 with h | h
    · exact h
    · omega
  · exact And.right

theorem realOf_neg_iff {x : Ext} (h : realOf x ≠ 0) : realOf x < 0 ↔ signOf x = true := by
  have hp : 0 < (magOf x).toRat := by rw [← abs_realOf]; exact abs_pos.mpr h
  rw [realOf_eq, ← magOf_toRat]
  cases signOf x <;> simp [hp, hp.le]

@[simp] theorem realOf_zero80 (s : Bool) : realOf (zero80 s) = 0 := by
  rw [realOf_eq_zero_iff, zero80, sigOf_pack, Nat.zero_mod]

@[simp] theorem signOf_zero80 (s : Bool) : signOf (zero80 s) = s := signOf_pack _ _ _

@[simp] theorem isFinite_zero80 (s : Bool) : isFinite (zero80 s) = true := by cases s <;> decide

@[simp] theorem classOf_zero80 (s : Bool) : classOf (zero80 s) = .zero := by cases s <;> decide

@[simp] theorem classOf_inf80 (s : Bool) : classOf (inf80 s) = .infinity := by cases s <;> decide

@[simp] theorem signOf_inf80 (s : Bool) : signOf (inf80 s) = s := signOf_pack _ _ _

/-- The exponent of a normal number (40_numerics.md R186). -/
theorem log2_magOf_normal {x : Ext} (h : classOf x = .normal) : (magOf x).log2 = (expOf x : ℤ) - 16383 := by
  rw [classOf_normal_iff] at h
  have hs := sigOf_lt x
  have hm : max (expOf x) 1 = expOf x := by omega
  have e : ((expOf x : ℤ) - 16383) = 63 + ((expOf x : ℤ) - 16446) := by ring
  refine Mag.log2_unique (by simp only [magOf]; omega) (magOf_den x) ?_ ?_
  · rw [magOf_toRat, hm, e, zpow_add₀ two_ne_zero]
    refine mul_le_mul_of_nonneg_right ?_ (by positivity)
    exact_mod_cast h.2.2
  · rw [magOf_toRat, hm, e, show (63 + ((expOf x : ℤ) - 16446) + 1 : ℤ) = 64 + ((expOf x : ℤ) - 16446) by ring,
      zpow_add₀ two_ne_zero]
    refine mul_lt_mul_of_pos_right ?_ (by positivity)
    exact_mod_cast hs

/-- A finite value is below `2 ^ 16384` in magnitude. -/
theorem abs_realOf_lt {x : Ext} (h : isFinite x = true) : |realOf x| < (2 : ℚ) ^ (16384 : ℤ) := by
  rw [abs_realOf, magOf_toRat]
  have h1 := sigOf_lt x
  have h2 := expOf_lt x
  have h3 : expOf x ≠ 0x7FFF := ((isFinite_iff x).mp h).1
  obtain ⟨b, hb⟩ : ∃ b : ℤ, b = 16384 := ⟨_, rfl⟩
  have h4 : (sigOf x : ℚ) < (2 : ℚ) ^ (64 : ℤ) := by exact_mod_cast h1
  calc (sigOf x : ℚ) * 2 ^ _ < (2 : ℚ) ^ (64 : ℤ) * 2 ^ ((max (expOf x) 1 : ℕ) - 16446 : ℤ) :=
        mul_lt_mul_of_pos_right h4 (by positivity)
    _ ≤ _ := by rw [← zpow_add₀ two_ne_zero, ← hb]; exact zpow_le_zpow_right₀ one_le_two (by omega)

/-- A finite value is a multiple of the smallest denormal. -/
theorem realOf_multiple (x : Ext) : ∃ k : ℤ, realOf x = k * (2 : ℚ) ^ (-16445 : ℤ) := by
  obtain ⟨b, hb⟩ : ∃ b : ℤ, b = -16445 := ⟨_, rfl⟩
  rw [← hb]
  have : realOf x =
      (if signOf x then -1 else 1) * ((sigOf x : ℚ) * (2 : ℚ) ^ ((max (expOf x) 1 - 1 : ℕ) : ℤ)) * (2 : ℚ) ^ b := by
    rw [realOf_eq, show (((max (expOf x) 1 : ℕ) : ℤ) - 16446) = ((max (expOf x) 1 - 1 : ℕ) : ℤ) + b by omega,
      zpow_add₀ two_ne_zero]
    ring
  rw [zpow_natCast] at this
  exact ⟨(if signOf x then -1 else 1) * (sigOf x * 2 ^ (max (expOf x) 1 - 1)), by
    rw [this]; push_cast; split <;> simp⟩

/-! ### Encoding a representable value -/

/-- `Enc80` of a representable value is finite, has its sign and stands for it (40_numerics.md R189). -/
theorem enc80_spec (neg : Bool) (mant : ℕ) (q : ℤ) (h0 : mant ≠ 0) (hw : 2 ^ (mant.log2 - 63) ∣ mant)
    (hq : 2 ^ (-(q + 16445)).toNat ∣ mant) (hk : (mant.log2 : ℤ) + q ≤ 16383) :
    isFinite (enc80 neg mant q) = true ∧ signOf (enc80 neg mant q) = neg ∧
      (magOf (enc80 neg mant q)).toRat = mant * (2 : ℚ) ^ q := by
  have l1 : 2 ^ mant.log2 ≤ mant := Nat.log2_self_le h0
  have l2 : mant < 2 ^ (mant.log2 + 1) := Nat.lt_log2_self
  have l1' : (2 : ℚ) ^ (mant.log2 : ℤ) ≤ mant := by rw [zpow_natCast]; exact_mod_cast l1
  have l2' : (mant : ℚ) < (2 : ℚ) ^ ((mant.log2 : ℤ) + 1) := by exact_mod_cast l2
  unfold enc80
  rw [if_neg h0]
  simp only
  split
  · rename_i hk'
    have hw' : 2 ^ (-(63 - (mant.log2 : ℤ))).toNat ∣ mant := by
      rw [show (-(63 - (mant.log2 : ℤ))).toNat = mant.log2 - 63 by omega]; exact hw
    have hc := shiftNat_cast mant (63 - (mant.log2 : ℤ)) hw'
    have b1 : 2 ^ 63 ≤ shiftNat mant (63 - (mant.log2 : ℤ)) := by
      have : (2 : ℚ) ^ (63 : ℤ) ≤ (shiftNat mant (63 - (mant.log2 : ℤ)) : ℚ) := by
        rw [hc]
        calc (2 : ℚ) ^ (63 : ℤ) = (2 : ℚ) ^ (mant.log2 : ℤ) * (2 : ℚ) ^ (63 - (mant.log2 : ℤ)) := by
              rw [← zpow_add₀ two_ne_zero]; congr 1; ring
          _ ≤ _ := mul_le_mul_of_nonneg_right l1' (by positivity)
      exact_mod_cast this
    have b2 : shiftNat mant (63 - (mant.log2 : ℤ)) < 2 ^ 64 := by
      have : (shiftNat mant (63 - (mant.log2 : ℤ)) : ℚ) < (2 : ℚ) ^ (64 : ℤ) := by
        rw [hc]
        calc _ < (2 : ℚ) ^ ((mant.log2 : ℤ) + 1) * (2 : ℚ) ^ (63 - (mant.log2 : ℤ)) :=
              mul_lt_mul_of_pos_right l2' (by positivity)
          _ = _ := by rw [← zpow_add₀ two_ne_zero]; congr 1; ring
      exact_mod_cast this
    have he : ((mant.log2 : ℤ) + q + 16383).toNat % 2 ^ 15 = ((mant.log2 : ℤ) + q + 16383).toNat :=
      Nat.mod_eq_of_lt (by omega)
    refine ⟨?_, signOf_pack _ _ _, ?_⟩
    · rw [isFinite_iff, expOf_pack, sigOf_pack, he, Nat.mod_eq_of_lt b2]
      exact ⟨by omega, Or.inr b1⟩
    · rw [magOf_toRat, expOf_pack, sigOf_pack, he, Nat.mod_eq_of_lt b2, hc, mul_assoc, ← zpow_add₀ two_ne_zero]
      congr 2
      rw [max_eq_left (by omega), Int.toNat_of_nonneg (by omega)]
      ring
  · rename_i hk'
    have hc := shiftNat_cast mant (q + 16445) hq
    have b2 : shiftNat mant (q + 16445) < 2 ^ 63 := by
      have : (shiftNat mant (q + 16445) : ℚ) < (2 : ℚ) ^ (63 : ℤ) := by
        rw [hc]
        calc _ < (2 : ℚ) ^ ((mant.log2 : ℤ) + 1) * (2 : ℚ) ^ (q + 16445) :=
              mul_lt_mul_of_pos_right l2' (by positivity)
          _ = (2 : ℚ) ^ ((mant.log2 : ℤ) + 1 + (q + 16445)) := by rw [← zpow_add₀ two_ne_zero]
          _ ≤ _ := zpow_le_zpow_right₀ one_le_two (by omega)
      exact_mod_cast this
    refine ⟨?_, signOf_pack _ _ _, ?_⟩
    · rw [isFinite_iff, expOf_pack]
      exact ⟨by decide, Or.inl rfl⟩
    · rw [magOf_toRat, expOf_pack, sigOf_pack, Nat.mod_eq_of_lt (b2.trans (by norm_num)), hc, mul_assoc,
        ← zpow_add₀ two_ne_zero]
      congr 2
      norm_num

/-- A normal result of `Enc80`: its exponent is not below the range (40_numerics.md R189). -/
theorem enc80_normal (neg : Bool) (mant : ℕ) (q : ℤ) (h0 : mant ≠ 0) (hw : 2 ^ (mant.log2 - 63) ∣ mant)
    (hl : -16382 ≤ (mant.log2 : ℤ) + q) (hk : (mant.log2 : ℤ) + q ≤ 16383) :
    isFinite (enc80 neg mant q) = true ∧ signOf (enc80 neg mant q) = neg ∧
      (magOf (enc80 neg mant q)).toRat = mant * (2 : ℚ) ^ q := by
  refine enc80_spec neg mant q h0 hw ?_ hk
  refine dvd_trans (Nat.pow_dvd_pow 2 ?_) hw
  omega

end Sys2Proof.Machine
end

