-- ==== Sys2Proof/Laws/Rounding.lean ====
section
/-! SUPPORT. Everything a delivered result, an exact operation, an operand check, an integer conversion, an integer square root,
a real format and a packed decimal answer (40_numerics.md R210 to R246, 43_basic_arithmetic.md R323 to R326). -/

namespace Sys2Proof.Machine

/-! ### Delivering a result -/

/-- Rounded to `p` bits, a magnitude has a mantissa of `p` bits, or `2 ^ p` (40_numerics.md R200). -/
theorem roundTo_mant (rm : RoundMode) (v : Exact) (hn : v.mag.num ≠ 0) (hd : v.mag.den ≠ 0) {p : ℕ} (hp : 1 ≤ p) :
    2 ^ (p - 1) ≤ (roundTo rm v p).mant ∧ (roundTo rm v p).mant ≤ 2 ^ p := by
  obtain ⟨lo, rem, d, dp, hr, hv, h⟩ := roundAt_cases rm v hd (v.mag.log2 - p + 1)
  have hs := Mag.log2_spec hn hd
  have dq : (0 : ℚ) < d := by exact_mod_cast dp
  have up : (0 : ℚ) < (2 : ℚ) ^ (v.mag.log2 - p + 1) := by positivity
  have r0 : (0 : ℚ) ≤ (rem : ℚ) / d := by positivity
  have r1 : (rem : ℚ) / d < 1 := by rw [div_lt_one dq]; exact_mod_cast hr
  have e1 : (2 : ℚ) ^ v.mag.log2 = (2 : ℚ) ^ ((p - 1 : ℕ) : ℤ) * (2 : ℚ) ^ (v.mag.log2 - p + 1) := by
    rw [← zpow_add₀ two_ne_zero]; congr 1; omega
  have e2 : (2 : ℚ) ^ (v.mag.log2 + 1) = (2 : ℚ) ^ (p : ℤ) * (2 : ℚ) ^ (v.mag.log2 - p + 1) := by
    rw [← zpow_add₀ two_ne_zero]; congr 1; ring
  rw [hv, e1, e2] at hs
  have a := le_of_mul_le_mul_right hs.1 up
  have b := lt_of_mul_lt_mul_right hs.2 up.le
  rw [zpow_natCast] at a b
  have lo1 : 2 ^ (p - 1) ≤ lo := by
    have : ((2 ^ (p - 1) : ℕ) : ℚ) < ((lo + 1 : ℕ) : ℚ) := by push_cast; linarith
    have := Nat.cast_lt.mp this
    omega
  have lo2 : lo < 2 ^ p := by
    have : (lo : ℚ) < ((2 ^ p : ℕ) : ℚ) := by push_cast; linarith
    exact Nat.cast_lt.mp this
  unfold roundTo
  rw [h]
  split
  · exact ⟨lo1, lo2.le⟩
  · simp only
    split <;> constructor <;> omega

theorem log2_of_bounds {n p : ℕ} (hp : 1 ≤ p) (h1 : 2 ^ (p - 1) ≤ n) (h2 : n ≤ 2 ^ p) :
    n ≠ 0 ∧ (n.log2 = p - 1 ∨ n = 2 ^ p ∧ n.log2 = p) := by
  have h0 : n ≠ 0 := by have : 0 < 2 ^ (p - 1) := by positivity
                        omega
  refine ⟨h0, ?_⟩
  rcases h2.lt_or_eq with h | h
  · left
    refine le_antisymm ?_ ((Nat.le_log2 h0).mpr h1)
    have := (Nat.log2_lt h0).mpr h
    omega
  · right; exact ⟨h, by rw [h, Nat.log2_two_pow]⟩

/-- The exponent of a rounded magnitude is that of the exact one or the next. -/
theorem roundTo_log2 (rm : RoundMode) (v : Exact) (hn : v.mag.num ≠ 0) (hd : v.mag.den ≠ 0) {p : ℕ} (hp : 1 ≤ p) :
    v.mag.log2 ≤ (roundTo rm v p).log2 ∧ (roundTo rm v p).log2 ≤ v.mag.log2 + 1 := by
  obtain ⟨m1, m2⟩ := roundTo_mant rm v hn hd hp
  obtain ⟨-, hl2⟩ := log2_of_bounds hp m1 m2
  have hq : (roundTo rm v p).quantum = v.mag.log2 - p + 1 := roundAt_quantum _ _ _
  unfold Rounded.log2
  rw [hq]
  rcases hl2 with h | ⟨-, h⟩ <;> rw [h] <;> constructor <;> omega

/-- `floor(log2 r)` of a rounded magnitude tells the powers of two it lies between. -/
theorem roundTo_pow_le (rm : RoundMode) (v : Exact) (hn : v.mag.num ≠ 0) (hd : v.mag.den ≠ 0) {p : ℕ} (hp : 1 ≤ p)
    (k : ℤ) : (2 : ℚ) ^ k ≤ (roundTo rm v p).toMag.toRat ↔ k ≤ (roundTo rm v p).log2 := by
  obtain ⟨m1, m2⟩ := roundTo_mant rm v hn hd hp
  obtain ⟨h0, -⟩ := log2_of_bounds hp m1 m2
  have l1 : (2 : ℚ) ^ ((roundTo rm v p).mant.log2 : ℤ) ≤ (roundTo rm v p).mant := by
    rw [zpow_natCast]; exact_mod_cast Nat.log2_self_le h0
  have l2 : ((roundTo rm v p).mant : ℚ) < (2 : ℚ) ^ (((roundTo rm v p).mant.log2 : ℤ) + 1) := by
    exact_mod_cast (Nat.lt_log2_self (n := (roundTo rm v p).mant))
  have two : (0 : ℚ) < (2 : ℚ) ^ (roundTo rm v p).quantum := by positivity
  rw [Rounded.toMag_toRat, Rounded.log2]
  constructor
  · intro h
    have h2 := h.trans_lt (mul_lt_mul_of_pos_right l2 two)
    rw [← zpow_add₀ two_ne_zero] at h2
    have := (zpow_lt_zpow_iff_right₀ one_lt_two).mp h2
    omega
  · intro h
    refine le_trans ?_ (mul_le_mul_of_nonneg_right l1 two.le)
    rw [← zpow_add₀ two_ne_zero]
    exact zpow_le_zpow_right₀ one_le_two h

/-- `Enc80` of a number rounded to at most 64 bits that lies in the normal range. -/
theorem enc80_rounded (rm : RoundMode) (v : Exact) (hn : v.mag.num ≠ 0) (hd : v.mag.den ≠ 0) {p : ℕ} (hp : 1 ≤ p)
    (hp' : p ≤ 64) (hl : -16382 ≤ (roundTo rm v p).log2) (hk : (roundTo rm v p).log2 ≤ 16383) :
    isFinite (enc80 v.neg (roundTo rm v p).mant (roundTo rm v p).quantum) = true ∧
      signOf (enc80 v.neg (roundTo rm v p).mant (roundTo rm v p).quantum) = v.neg ∧
      (magOf (enc80 v.neg (roundTo rm v p).mant (roundTo rm v p).quantum)).toRat = (roundTo rm v p).toMag.toRat := by
  obtain ⟨m1, m2⟩ := roundTo_mant rm v hn hd hp
  obtain ⟨h0, hl2⟩ := log2_of_bounds hp m1 m2
  rw [Rounded.toMag_toRat]
  refine enc80_normal _ _ _ h0 ?_ hl hk
  rcases hl2 with h | ⟨h, h'⟩
  · rw [h, show p - 1 - 63 = 0 by omega]; exact one_dvd _
  · rw [h', h]; exact Nat.pow_dvd_pow 2 (by omega)

/-- Everything `Deliver` does with a result in range: it is rounded once, #P and C1 tell of it
(40_numerics.md R210, R214). -/
theorem deliver_inRange (cw : Word16) (v : Exact) (hn : v.mag.num ≠ 0) (hd : v.mag.den ≠ 0) {p : ℕ} (hp : 1 ≤ p)
    (hp' : p ≤ 64) (hl : -16382 ≤ v.mag.log2) (hk : v.mag.log2 ≤ 16382) :
    isFinite (deliver cw p v).value = true ∧ signOf (deliver cw p v).value = v.neg ∧
      RoundedTo (roundMode cw) ((2 : ℚ) ^ (v.mag.log2 - p + 1)) v.toRat (realOf (deliver cw p v).value) ∧
      (∃ k : ℤ, realOf (deliver cw p v).value = k * (2 : ℚ) ^ (v.mag.log2 - p + 1)) ∧
      (deliver cw p v).flags = (if (magOf (deliver cw p v).value).toRat = v.mag.toRat then [] else [.p]) ∧
      ((deliver cw p v).c1 = true ↔ v.mag.toRat < (magOf (deliver cw p v).value).toRat) := by
  obtain ⟨m1, m2⟩ := roundTo_mant (roundMode cw) v hn hd hp
  obtain ⟨h0, hl2⟩ := log2_of_bounds hp m1 m2
  have hq : (roundTo (roundMode cw) v p).quantum = v.mag.log2 - p + 1 := roundAt_quantum _ _ _
  have hlog := roundTo_log2 (roundMode cw) v hn hd hp
  have hv : deliver cw p v = ⟨enc80 v.neg (roundTo (roundMode cw) v p).mant (roundTo (roundMode cw) v p).quantum,
      (roundTo (roundMode cw) v p).up, inexactFlag (roundTo (roundMode cw) v p).inexact⟩ := by
    unfold deliver
    simp only
    rw [if_neg (by omega), if_neg (by omega)]
  obtain ⟨hf, hs, hm⟩ := enc80_rounded (roundMode cw) v hn hd hp hp' (by omega) (by omega)
  have hr : realOf (enc80 v.neg (roundTo (roundMode cw) v p).mant (roundTo (roundMode cw) v p).quantum) =
      Exact.toRat ⟨v.neg, (roundTo (roundMode cw) v p).toMag⟩ := by
    rw [realOf_eq, ← magOf_toRat, hs, hm]
    unfold Exact.toRat
    simp only
    split <;> simp
  rw [hv]
  simp only
  refine ⟨hf, hs, ?_, ?_, ?_, ?_⟩
  · rw [hr]; exact roundAt_roundedTo _ _ hd _
  · rw [hr]
    unfold Exact.toRat
    simp only
    rw [Rounded.toMag_toRat, hq]
    split
    · exact ⟨-((roundTo (roundMode cw) v p).mant : ℤ), by push_cast; ring⟩
    · exact ⟨((roundTo (roundMode cw) v p).mant : ℤ), by push_cast; ring⟩
  · have := roundAt_inexact (roundMode cw) v hd (v.mag.log2 - p + 1)
    rw [hm]
    unfold inexactFlag
    change (roundTo (roundMode cw) v p).inexact = true ↔ (roundTo (roundMode cw) v p).toMag.toRat ≠ _ at this
    by_cases hi : (roundTo (roundMode cw) v p).inexact = true
    · rw [if_pos hi, if_neg (this.mp hi)]
    · rw [if_neg hi, if_pos (not_not.mp (mt this.mpr hi))]
  · rw [hm]; exact roundAt_up _ _ hd _

/-- `Enc80` of a number rounded to at most 64 bits whose exponent a scaling by `2 ^ b` brings into the normal range. -/
theorem enc80_scaled (rm : RoundMode) (v : Exact) (hn : v.mag.num ≠ 0) (hd : v.mag.den ≠ 0) {p : ℕ} (hp : 1 ≤ p)
    (hp' : p ≤ 64) {b : ℤ} (hl : -16382 ≤ (roundTo rm v p).log2 + b) (hk : (roundTo rm v p).log2 + b ≤ 16383) :
    isFinite (enc80 v.neg (roundTo rm v p).mant ((roundTo rm v p).quantum + b)) = true ∧
      realOf (enc80 v.neg (roundTo rm v p).mant ((roundTo rm v p).quantum + b)) =
        Exact.toRat ⟨v.neg, (roundTo rm v p).toMag⟩ * (2 : ℚ) ^ b := by
  obtain ⟨m1, m2⟩ := roundTo_mant rm v hn hd hp
  obtain ⟨h0, hl2⟩ := log2_of_bounds hp m1 m2
  unfold Rounded.log2 at hl hk
  have h := enc80_normal v.neg (roundTo rm v p).mant ((roundTo rm v p).quantum + b) h0 (by
    rcases hl2 with h | ⟨h, h'⟩
    · rw [h, show p - 1 - 63 = 0 by omega]; exact one_dvd _
    · rw [h', h]; exact Nat.pow_dvd_pow 2 (by omega)) (by omega) (by omega)
  refine ⟨h.1, ?_⟩
  rw [realOf_eq, ← magOf_toRat, h.2.1, h.2.2, zpow_add₀ two_ne_zero]
  unfold Exact.toRat
  simp only
  rw [Rounded.toMag_toRat]
  split <;> ring

/-- The largest finite number of a precision (40_numerics.md R189). -/
theorem maxFinite80_spec (neg : Bool) {p : ℕ} (hp : 1 ≤ p) (hp' : p ≤ 64) :
    isFinite (maxFinite80 neg p) = true ∧ signOf (maxFinite80 neg p) = neg ∧ realOf (maxFinite80 neg p) ≠ 0 ∧
      |realOf (maxFinite80 neg p)| = (2 : ℚ) ^ (16384 : ℤ) - (2 : ℚ) ^ (16384 - p : ℤ) := by
  have h1 : (2 ^ p - 1) * 2 ^ (64 - p) < 2 ^ 64 := by
    calc (2 ^ p - 1) * 2 ^ (64 - p) < 2 ^ p * 2 ^ (64 - p) :=
          Nat.mul_lt_mul_of_pos_right (Nat.sub_lt (by positivity) one_pos) (by positivity)
      _ = 2 ^ 64 := by rw [← pow_add]; congr 1; omega
  have h2 : 2 ^ 63 ≤ (2 ^ p - 1) * 2 ^ (64 - p) := by
    have h : 2 ^ (p - 1) ≤ 2 ^ p - 1 := by
      have : 2 ^ p = 2 * 2 ^ (p - 1) := by rw [← pow_succ']; congr 1; omega
      have : 0 < 2 ^ (p - 1) := by positivity
      omega
    calc 2 ^ 63 = 2 ^ (p - 1) * 2 ^ (64 - p) := by rw [← pow_add]; congr 1; omega
      _ ≤ _ := Nat.mul_le_mul_right _ h
  unfold maxFinite80
  refine ⟨?_, signOf_pack _ _ _, ?_, ?_⟩
  · rw [isFinite_iff, expOf_pack, sigOf_pack, Nat.mod_eq_of_lt h1]
    exact ⟨by decide, .inr h2⟩
  · rw [Ne, realOf_eq_zero_iff, sigOf_pack, Nat.mod_eq_of_lt h1]; omega
  · rw [abs_realOf, magOf_toRat, expOf_pack, sigOf_pack, Nat.mod_eq_of_lt h1]
    have e : ((max (0x7FFE % 2 ^ 15) 1 : ℕ) - 16446 : ℤ) = 16320 := by norm_num
    obtain ⟨b, hb⟩ : ∃ b : ℤ, b = 16384 := ⟨_, rfl⟩
    rw [e, show (16320 : ℤ) = b - 64 by omega, ← hb]
    push_cast [Nat.one_le_two_pow]
    rw [sub_mul, sub_mul, one_mul, ← zpow_natCast, ← zpow_natCast, ← zpow_add₀ two_ne_zero, ← zpow_add₀ two_ne_zero,
      ← zpow_add₀ two_ne_zero]
    congr 2 <;> omega

/-- Everything `Deliver` does with a tiny result whose exception is masked: it is rounded once, to the coarser of its own
quantum and the denormal one (40_numerics.md R213, D27). -/
theorem deliver_tiny (cw : Word16) (v : Exact) (hn : v.mag.num ≠ 0) (hd : v.mag.den ≠ 0) {p : ℕ} (hp : 1 ≤ p)
    (hp' : p ≤ 64) (hu : maskedIn cw .u = true) (ht : (roundTo (roundMode cw) v p).log2 < -16382) :
    isFinite (deliver cw p v).value = true ∧ signOf (deliver cw p v).value = v.neg ∧
      RoundedTo (roundMode cw) (max ((2 : ℚ) ^ (v.mag.log2 - p + 1)) ((2 : ℚ) ^ (-16445 : ℤ))) v.toRat
        (realOf (deliver cw p v).value) ∧
      (∃ k : ℤ, realOf (deliver cw p v).value = k * max ((2 : ℚ) ^ (v.mag.log2 - p + 1)) ((2 : ℚ) ^ (-16445 : ℤ))) ∧
      (deliver cw p v).flags = (if (magOf (deliver cw p v).value).toRat = v.mag.toRat then [] else [.u, .p]) ∧
      ((deliver cw p v).c1 = true ↔ v.mag.toRat < (magOf (deliver cw p v).value).toRat) := by
  have hq : (roundTo (roundMode cw) v p).quantum = v.mag.log2 - p + 1 := roundAt_quantum _ _ _
  have hlog := roundTo_log2 (roundMode cw) v hn hd hp
  obtain ⟨q, hqd⟩ : ∃ q, q = max (v.mag.log2 - p + 1) (-16445) := ⟨_, rfl⟩
  have hmax : max ((2 : ℚ) ^ (v.mag.log2 - p + 1)) ((2 : ℚ) ^ (-16445 : ℤ)) = (2 : ℚ) ^ q := by
    rw [hqd]
    exact ((zpow_right_mono₀ (one_le_two (α := ℚ))).map_max).symm
  rw [hmax]
  have hdv : deliver cw p v = deliverTiny cw v (roundTo (roundMode cw) v p) := by
    unfold deliver; simp only; rw [if_neg (by omega), if_pos ht]
  rw [hdv]
  unfold deliverTiny
  rw [if_pos hu, hq, ← hqd]
  obtain ⟨lo, rem, d, dp, hr, hv, h⟩ := roundAt_cases (roundMode cw) v hd q
  have two : (0 : ℚ) < (2 : ℚ) ^ q := by positivity
  have hs := Mag.log2_spec hn hd
  have hb : (roundAt (roundMode cw) v q).mant ≤ 2 ^ (-16382 - q).toNat := by
    have hlo : lo < 2 ^ (-16382 - q).toNat := by
      have dq : (0 : ℚ) < d := by exact_mod_cast dp
      have r0 : (0 : ℚ) ≤ (rem : ℚ) / d := by positivity
      have h1 : v.mag.toRat < (2 : ℚ) ^ (-16382 : ℤ) :=
        hs.2.trans_le (zpow_le_zpow_right₀ one_le_two (by omega))
      have h2 : (lo : ℚ) * (2 : ℚ) ^ q < (2 : ℚ) ^ (-16382 - q) * (2 : ℚ) ^ q := by
        rw [← zpow_add₀ two_ne_zero, show -16382 - q + q = -16382 by ring]
        refine lt_of_le_of_lt ?_ h1
        rw [hv]
        exact mul_le_mul_of_nonneg_right (by linarith) two.le
      have h3 := lt_of_mul_lt_mul_right h2 two.le
      rw [← Int.toNat_of_nonneg (show 0 ≤ -16382 - q by omega), zpow_natCast] at h3
      exact_mod_cast h3
    rw [h]; split
    · exact hlo.le
    · simp only; split <;> omega
  have henc : isFinite (enc80 v.neg (roundAt (roundMode cw) v q).mant (roundAt (roundMode cw) v q).quantum) = true ∧
      signOf (enc80 v.neg (roundAt (roundMode cw) v q).mant (roundAt (roundMode cw) v q).quantum) = v.neg ∧
      (magOf (enc80 v.neg (roundAt (roundMode cw) v q).mant (roundAt (roundMode cw) v q).quantum)).toRat =
        (roundAt (roundMode cw) v q).toMag.toRat := by
    rw [Rounded.toMag_toRat, roundAt_quantum]
    by_cases h0 : (roundAt (roundMode cw) v q).mant = 0
    · rw [h0]
      have : enc80 v.neg 0 q = zero80 v.neg := by simp [enc80]
      rw [this]
      refine ⟨by cases v.neg <;> decide, by cases v.neg <;> decide, ?_⟩
      rw [magOf_toRat]
      have : sigOf (zero80 v.neg) = 0 := by cases v.neg <;> decide
      rw [this]; simp
    · have hl : (roundAt (roundMode cw) v q).mant.log2 ≤ (-16382 - q).toNat := by
        by_contra hc
        have := (Nat.le_log2 h0).mp (show (-16382 - q).toNat + 1 ≤ (roundAt (roundMode cw) v q).mant.log2 by omega)
        rw [pow_succ] at this
        have : 0 < 2 ^ (-16382 - q).toNat := by positivity
        omega
      refine enc80_spec _ _ _ h0 ?_ ?_ (by omega)
      · rw [show (roundAt (roundMode cw) v q).mant.log2 - 63 = 0 by omega]; exact one_dvd _
      · rw [show (-(q + 16445)).toNat = 0 by omega]; exact one_dvd _
  have hi := roundAt_inexact (roundMode cw) v hd q
  have hu' := roundAt_up (roundMode cw) v hd q
  have hr2 : realOf (enc80 v.neg (roundAt (roundMode cw) v q).mant (roundAt (roundMode cw) v q).quantum) =
      Exact.toRat ⟨v.neg, (roundAt (roundMode cw) v q).toMag⟩ := by
    rw [realOf_eq, ← magOf_toRat, henc.2.1, henc.2.2]
    unfold Exact.toRat
    simp only
    split <;> simp
  have hg := hr2 ▸ roundAt_roundedTo (roundMode cw) v hd q
  have hk : ∃ k : ℤ, realOf (enc80 v.neg (roundAt (roundMode cw) v q).mant (roundAt (roundMode cw) v q).quantum) =
      k * (2 : ℚ) ^ q := by
    rw [hr2]
    unfold Exact.toRat
    simp only
    rw [Rounded.toMag_toRat, roundAt_quantum]
    split
    · exact ⟨-((roundAt (roundMode cw) v q).mant : ℤ), by push_cast; ring⟩
    · exact ⟨((roundAt (roundMode cw) v q).mant : ℤ), by push_cast; ring⟩
  simp only
  split
  · rename_i hx
    refine ⟨henc.1, henc.2.1, hg, hk, ?_, ?_⟩
    · simp only [henc.2.2, if_neg (hi.mp hx)]
    · simp only [henc.2.2]; exact hu'
  · rename_i hx
    have := not_not.mp (mt hi.mpr hx)
    refine ⟨henc.1, henc.2.1, hg, hk, ?_, ?_⟩
    · simp only [henc.2.2, this, if_true]
    · simp only [henc.2.2, this]; simp

/-! ### Integers -/

/-- A signed multiple of `2 ^ e` stands for the value it was taken from. -/
theorem alignedInt_cast (v : Exact) (hd : v.mag.den = 1) {e : ℤ} (he : e ≤ v.mag.exp) :
    (alignedInt v e : ℚ) * (2 : ℚ) ^ e = v.toRat := by
  have hm : v.mag.toRat = ((v.mag.num <<< (v.mag.exp - e).toNat : ℕ) : ℚ) * (2 : ℚ) ^ e := by
    have h := Mag.toRat_eq v.mag e
    rw [hd, show (e - v.mag.exp).toNat = 0 by omega] at h
    simpa using h
  unfold alignedInt Exact.toRat
  rw [hm]
  simp only
  split
  · simp only [Int.cast_neg, Int.cast_natCast, neg_mul]
  · simp only [Int.cast_natCast]

/-- The exact sum of two encodings. -/
theorem addExact_cast (a b : Ext) :
    ((addExact (valOf a) (valOf b)).1 : ℚ) * (2 : ℚ) ^ (addExact (valOf a) (valOf b)).2 = realOf a + realOf b := by
  unfold addExact
  simp only
  push_cast
  rw [add_mul, alignedInt_cast _ rfl (min_le_left _ _), alignedInt_cast _ rfl (min_le_right _ _)]
  rfl

theorem negate_fields (x : Ext) : signOf (negate x) = !signOf x ∧ expOf (negate x) = expOf x ∧ sigOf (negate x) = sigOf x := by
  unfold negate
  refine ⟨?_, ?_, ?_⟩
  · simp [signOf]
  · unfold expOf
    congr 1
    have h : (0x80000000000000000000 : Ext).extractLsb' 64 15 = 0#15 := by decide
    rw [BitVec.extractLsb'_xor, h, BitVec.xor_zero]
  · unfold sigOf
    congr 1
    have h : (0x80000000000000000000 : Ext).extractLsb' 0 64 = 0#64 := by decide
    rw [BitVec.extractLsb'_xor, h, BitVec.xor_zero]

theorem realOf_negate (x : Ext) : realOf (negate x) = -realOf x := by
  obtain ⟨h1, h2, h3⟩ := negate_fields x
  rw [realOf_eq, realOf_eq, h1, h2, h3]
  cases signOf x <;> simp

/-- An integer of at most 64 bits is converted exactly (40_numerics.md R223). -/
theorem fromInt_spec (v : ℤ) (hv : v.natAbs ≤ 2 ^ 64) :
    isFinite (fromInt v) = true ∧ realOf (fromInt v) = v ∧ (v ≠ 0 → (signOf (fromInt v) = true ↔ v < 0)) := by
  unfold fromInt
  by_cases h0 : v = 0
  · subst h0
    refine ⟨by decide, ?_, fun h => absurd rfl h⟩
    rw [show enc80 (decide ((0 : ℤ) < 0)) (Int.natAbs 0) 0 = zero80 false from rfl, realOf_zero80]; simp
  · have hn : v.natAbs ≠ 0 := Int.natAbs_ne_zero.mpr h0
    have hl : v.natAbs.log2 ≤ 64 := by
      have := (Nat.log2_lt hn).mpr (lt_of_le_of_lt hv (by norm_num : 2 ^ 64 < 2 ^ 65)); omega
    have hw : 2 ^ (v.natAbs.log2 - 63) ∣ v.natAbs := by
      rcases hv.lt_or_eq with h | h
      · have := (Nat.log2_lt hn).mpr h
        rw [show v.natAbs.log2 - 63 = 0 by omega]; exact one_dvd _
      · rw [h, Nat.log2_two_pow]; exact Nat.pow_dvd_pow 2 (by norm_num)
    obtain ⟨h1, h2, h3⟩ := enc80_normal (decide (v < 0)) v.natAbs 0 hn hw (by omega) (by omega)
    refine ⟨h1, ?_, fun _ => by rw [h2, decide_eq_true_iff]⟩
    rw [realOf_eq, ← magOf_toRat, h2, h3, zpow_zero, mul_one]
    rcases lt_or_ge v 0 with h | h
    · simp only [h, decide_true, if_true]
      have : (v.natAbs : ℤ) = -v := by omega
      rw [show (v.natAbs : ℚ) = ((v.natAbs : ℤ) : ℚ) by simp, this]; push_cast; ring
    · simp only [not_lt.mpr h, decide_false, Bool.false_eq_true, if_false]
      have : (v.natAbs : ℤ) = v := by omega
      rw [show (v.natAbs : ℚ) = ((v.natAbs : ℤ) : ℚ) by simp, this]; ring

theorem isqrtFrom_spec (n : ℕ) (bits : ℕ) : ∀ r, r * r ≤ n → n < (r + 2 ^ bits) * (r + 2 ^ bits) →
    isqrtFrom n bits r * isqrtFrom n bits r ≤ n ∧ n < (isqrtFrom n bits r + 1) * (isqrtFrom n bits r + 1) := by
  induction bits with
  | zero => intro r h1 h2; exact ⟨h1, by simpa [isqrtFrom] using h2⟩
  | succ b ih =>
    intro r h1 h2
    unfold isqrtFrom
    split
    · rename_i h
      refine ih _ h ?_
      rw [show r + 2 ^ b + 2 ^ b = r + 2 ^ (b + 1) by rw [pow_succ]; ring]
      exact h2
    · rename_i h
      exact ih _ h1 (not_le.mp h)

/-- The integer square root (43_basic_arithmetic.md R352). -/
theorem isqrt_spec (n bits : ℕ) (h : n < 2 ^ (2 * bits)) :
    isqrt n bits * isqrt n bits ≤ n ∧ n < (isqrt n bits + 1) * (isqrt n bits + 1) := by
  refine isqrtFrom_spec n bits 0 (Nat.zero_le _) ?_
  rw [Nat.zero_add, ← pow_add, ← two_mul]
  exact h

/-! ### Operand checks -/

theorem isFinite_classes {x : Ext} (h : isFinite x = true) :
    classOf x ≠ .unsupported ∧ classOf x ≠ .snan ∧ classOf x ≠ .qnan ∧ classOf x ≠ .infinity := by
  unfold isFinite at h
  generalize classOf x = c at *
  cases c <;> simp at h ⊢

theorem isOrdered_classes {x : Ext} (h : isOrdered x = true) :
    classOf x ≠ .unsupported ∧ classOf x ≠ .snan ∧ classOf x ≠ .qnan := by
  unfold isOrdered isNaN at h
  generalize classOf x = c at *
  cases c <;> simp at h ⊢

theorem isOrdered_of_isFinite {x : Ext} (h : isFinite x = true) : isOrdered x = true := by
  unfold isFinite at h
  unfold isOrdered isNaN
  generalize classOf x = c at *
  cases c <;> simp at h ⊢

/-- No operand check ends an operation on ordered operands (40_numerics.md R246 steps 3 to 5). -/
theorem nanCheck2_ordered (pick : Bool) {a b : Ext} (ha : isOrdered a = true) (hb : isOrdered b = true) :
    nanCheck2 pick a b = none := by
  obtain ⟨a1, a2, a3⟩ := isOrdered_classes ha
  obtain ⟨b1, b2, b3⟩ := isOrdered_classes hb
  unfold nanCheck2
  rw [if_neg (by simp [a1, b1]), if_neg (by simp [a2, b2]), if_neg (by simp [a3, b3])]

theorem nanCheck1_ordered {a : Ext} (ha : isOrdered a = true) : nanCheck1 a = none := by
  obtain ⟨a1, a2, a3⟩ := isOrdered_classes ha
  unfold nanCheck1
  generalize classOf a = c at *
  cases c <;> simp_all

theorem nanCheck2_none {pick : Bool} {a b : Ext} (h : nanCheck2 pick a b = none) :
    isOrdered a = true ∧ isOrdered b = true := by
  unfold nanCheck2 at h
  split_ifs at h with h1 h2 h3
  push Not at h1 h2 h3
  unfold isOrdered isNaN
  generalize classOf a = c at *
  generalize classOf b = d at *
  cases c <;> simp at h1 h2 h3 ⊢ <;> cases d <;> simp at h1 h2 h3 ⊢

/-- A masked #D lets the operation go on, with DE set (40_numerics.md R246 step 7). -/
theorem Reply.afterDenormal_masked {α : Type} {cw : Word16} {d : Bool} (k : Reply α) (h : d = false ∨ maskedIn cw .d = true) :
    Reply.afterDenormal cw d k = ⟨(if d then [Exc.d] else []) ++ k.flags, k.value⟩ := by
  unfold Reply.afterDenormal
  cases d
  · simp
  · have : maskedIn cw .d = true := h.resolve_left (by simp)
    simp [this]

/-- What an exactly known sum, product or quotient is before rounding: it is computed, or it is zero
(43_basic_arithmetic.md R323 to R326). -/
theorem arithSpecial_finite (op : ArithOp) (rm : RoundMode) {a b : Ext} (ha : isFinite a = true) (hb : isFinite b = true)
    (hz : op = .div → realOf b ≠ 0) :
    (op.onRat (realOf a) (realOf b) = 0 ∧ ∃ s, arithSpecial op rm a b = .exact (zero80 s)) ∨
      ∃ v : Exact, arithSpecial op rm a b = .compute v ∧ v.mag.num ≠ 0 ∧ v.mag.den ≠ 0 ∧
        v.toRat = op.onRat (realOf a) (realOf b) := by
  have add : ∀ b : Ext, isFinite b = true →
      (realOf a + realOf b = 0 ∧ ∃ s, addSpecial rm a b = .exact (zero80 s)) ∨
      ∃ v : Exact, addSpecial rm a b = .compute v ∧ v.mag.num ≠ 0 ∧ v.mag.den ≠ 0 ∧ v.toRat = realOf a + realOf b := by
    intro b hb
    have hc := addExact_cast a b
    have ia := (isFinite_classes ha).2.2.2
    have ib := (isFinite_classes hb).2.2.2
    unfold addSpecial
    rw [if_neg ia, if_neg ib]
    simp only
    by_cases h0 : (addExact (valOf a) (valOf b)).1 = 0
    · rw [if_pos h0]
      rw [h0] at hc
      refine .inl ⟨by rw [← hc]; simp, ?_⟩
      split
      · exact ⟨_, rfl⟩
      · exact ⟨_, rfl⟩
    · rw [if_neg h0]
      refine .inr ⟨_, rfl, Int.natAbs_ne_zero.mpr h0, one_ne_zero, ?_⟩
      rw [← hc]
      unfold Exact.toRat Mag.toRat
      simp only [Nat.cast_one, div_one, decide_eq_true_eq]
      generalize (addExact (valOf a) (valOf b)).1 = n
      split
      · rename_i h
        have : (n.natAbs : ℤ) = -n := by omega
        rw [show (n.natAbs : ℚ) = ((n.natAbs : ℤ) : ℚ) by simp, this]; push_cast; ring
      · rename_i h
        have : (n.natAbs : ℤ) = n := by omega
        rw [show (n.natAbs : ℚ) = ((n.natAbs : ℤ) : ℚ) by simp, this]
  have ia := (isFinite_classes ha).2.2.2
  have ib := (isFinite_classes hb).2.2.2
  have za := realOf_eq_zero_iff_zero ha
  have zb := realOf_eq_zero_iff_zero hb
  have num : ∀ {x : Ext}, isFinite x = true → classOf x ≠ .zero → (magOf x).num ≠ 0 := by
    intro x hx hne h
    exact hne ((realOf_eq_zero_iff_zero hx).mp ((realOf_eq_zero_iff x).mpr h))
  cases op with
  | add => exact add b hb
  | sub =>
    have hn : isFinite (negate b) = true := by
      rw [isFinite_iff] at hb ⊢
      rw [(negate_fields b).2.1, (negate_fields b).2.2]; exact hb
    have h := add (negate b) hn
    rw [realOf_negate, ← sub_eq_add_neg] at h
    exact h
  | mul =>
    unfold arithSpecial mulSpecial ArithOp.onRat
    simp only
    rw [if_neg ia, if_neg ib]
    by_cases h : classOf a = .zero ∨ classOf b = .zero
    · rw [if_pos h]
      refine .inl ⟨?_, _, rfl⟩
      rcases h with h | h
      · rw [za.mpr h, zero_mul]
      · rw [zb.mpr h, mul_zero]
    · rw [if_neg h]
      push Not at h
      refine .inr ⟨⟨signOf a != signOf b, ⟨(magOf a).num * (magOf b).num, 1, (magOf a).exp + (magOf b).exp⟩⟩, rfl,
        Nat.mul_ne_zero (num ha h.1) (num hb h.2), Nat.one_ne_zero, ?_⟩
      unfold realOf valOf Exact.toRat Mag.toRat
      have da : (magOf a).den = 1 := rfl
      have db : (magOf b).den = 1 := rfl
      clear num
      generalize magOf a = A at *
      generalize magOf b = B at *
      simp only [da, db, Nat.cast_mul, Nat.cast_one, div_one]
      rw [zpow_add₀ two_ne_zero]
      cases signOf a <;> cases signOf b <;> simp <;> ring
  | div =>
    have hb0 : classOf b ≠ .zero := fun h => hz rfl (zb.mpr h)
    unfold arithSpecial divSpecial ArithOp.onRat
    simp only
    rw [if_neg ia, if_neg ib, if_neg hb0]
    by_cases h : classOf a = .zero
    · rw [if_pos h]
      exact .inl ⟨by rw [za.mpr h, zero_div], _, rfl⟩
    · rw [if_neg h]
      refine .inr ⟨⟨signOf a != signOf b, ⟨(magOf a).num, (magOf b).num, (magOf a).exp - (magOf b).exp⟩⟩, rfl,
        num ha h, num hb hb0, ?_⟩
      unfold realOf valOf Exact.toRat Mag.toRat
      have nb : ((magOf b).num : ℚ) ≠ 0 := by exact_mod_cast num hb hb0
      have da : (magOf a).den = 1 := rfl
      have db : (magOf b).den = 1 := rfl
      clear num
      generalize magOf a = A at *
      generalize magOf b = B at *
      simp only [da, db, Nat.cast_one, div_one]
      rw [zpow_sub₀ two_ne_zero]
      cases signOf a <;> cases signOf b <;> simp <;> field_simp

/-! ### Real formats -/

/-- The fields of a packed real operand. -/
theorem RealFormat.pack_fields {f : RealFormat} (hf : f = single ∨ f = double) (neg : Bool) {e frac : ℕ}
    (he : e ≤ f.expMax) (hw : frac < 2 ^ f.fracBits) :
    f.pack neg e frac < 256 ^ f.bytes ∧ (f.pack neg e frac).testBit (f.fracBits + f.expBits) = neg ∧
      f.pack neg e frac / 2 ^ f.fracBits % 2 ^ f.expBits = e ∧ f.pack neg e frac % 2 ^ f.fracBits = frac := by
  rw [Nat.testBit_eq_decide_div_mod_eq]
  rcases hf with rfl | rfl <;> cases neg <;>
    simp only [RealFormat.pack, RealFormat.expMax, RealFormat.fracBits, RealFormat.bytes, single, double, Bool.toNat_true,
      Bool.toNat_false] at he hw ⊢ <;> norm_num at he hw ⊢ <;> omega

/-- A representable value that is stored reads back (40_numerics.md R220, R221, R225 steps 6 and 7). -/
theorem fromReal_encode {f : RealFormat} (hf : f = single ∨ f = double) (neg : Bool) (mant : ℕ) (q : ℤ)
    (h0 : mant ≠ 0) (hw : 2 ^ (mant.log2 - f.fracBits) ∣ mant) (hq : 2 ^ (f.tiniest - q).toNat ∣ mant)
    (hk : (mant.log2 : ℤ) + q ≤ f.bias) :
    f.encode neg mant q < 256 ^ f.bytes ∧ isFinite (fromReal f (f.encode neg mant q)).value = true ∧
      signOf (fromReal f (f.encode neg mant q)).value = neg ∧
      (magOf (fromReal f (f.encode neg mant q)).value).toRat = mant * (2 : ℚ) ^ q := by
  have l1 : (2 : ℚ) ^ (mant.log2 : ℤ) ≤ mant := by rw [zpow_natCast]; exact_mod_cast Nat.log2_self_le h0
  have l2 : (mant : ℚ) < (2 : ℚ) ^ ((mant.log2 : ℤ) + 1) := by exact_mod_cast (Nat.lt_log2_self (n := mant))
  have hc : f.expMax = 2 * f.bias + 1 ∧ 2 ≤ f.bias ∧ f.bias ≤ 1023 ∧ f.fracBits ≤ 52 ∧ 1 ≤ f.fracBits := by
    rcases hf with rfl | rfl <;> decide
  have ht : f.tiniest = 1 - (f.bias : ℤ) - f.fracBits := rfl
  have hm : f.emin = 1 - (f.bias : ℤ) := rfl
  unfold RealFormat.encode
  rw [if_neg h0]
  simp only
  split
  · rename_i hn
    have hs := shiftNat_cast mant (f.fracBits - (mant.log2 : ℤ))
      (by rw [show (-((f.fracBits : ℤ) - (mant.log2 : ℤ))).toNat = mant.log2 - f.fracBits by omega]; exact hw)
    have b1 : 2 ^ f.fracBits ≤ shiftNat mant (f.fracBits - (mant.log2 : ℤ)) := by
      have : (2 : ℚ) ^ (f.fracBits : ℤ) ≤ (shiftNat mant (f.fracBits - (mant.log2 : ℤ)) : ℚ) := by
        rw [hs]
        calc (2 : ℚ) ^ (f.fracBits : ℤ) = (2 : ℚ) ^ (mant.log2 : ℤ) * (2 : ℚ) ^ (f.fracBits - (mant.log2 : ℤ)) := by
              rw [← zpow_add₀ two_ne_zero]; congr 1; ring
          _ ≤ _ := mul_le_mul_of_nonneg_right l1 (by positivity)
      exact_mod_cast this
    have b2 : shiftNat mant (f.fracBits - (mant.log2 : ℤ)) < 2 ^ (f.fracBits + 1) := by
      have : (shiftNat mant (f.fracBits - (mant.log2 : ℤ)) : ℚ) < (2 : ℚ) ^ ((f.fracBits + 1 : ℕ) : ℤ) := by
        rw [hs]
        calc _ < (2 : ℚ) ^ ((mant.log2 : ℤ) + 1) * (2 : ℚ) ^ (f.fracBits - (mant.log2 : ℤ)) :=
              mul_lt_mul_of_pos_right l2 (by positivity)
          _ = _ := by rw [← zpow_add₀ two_ne_zero]; congr 1; push_cast; ring
      exact_mod_cast this
    obtain ⟨p1, p2, p3, p4⟩ := RealFormat.pack_fields hf neg (e := ((mant.log2 : ℤ) + q + f.bias).toNat)
      (frac := shiftNat mant (f.fracBits - (mant.log2 : ℤ)) % 2 ^ f.fracBits) (by omega) (Nat.mod_lt _ (by positivity))
    refine ⟨p1, ?_⟩
    unfold fromReal
    simp only [p2, p3, p4]
    rw [if_neg (by omega), if_neg (by omega)]
    simp only [Operand.of]
    have hsig : 2 ^ 63 + shiftNat mant (f.fracBits - (mant.log2 : ℤ)) % 2 ^ f.fracBits * 2 ^ (63 - f.fracBits) =
        shiftNat mant (f.fracBits - (mant.log2 : ℤ)) * 2 ^ (63 - f.fracBits) := by
      have e : 2 ^ 63 = 2 ^ f.fracBits * 2 ^ (63 - f.fracBits) := by rw [← pow_add]; congr 1; omega
      rw [e, ← Nat.add_mul]
      congr 1
      rw [Nat.mod_eq_sub_mod b1, Nat.mod_eq_of_lt (by rw [pow_succ] at b2; omega)]
      omega
    rw [hsig]
    have c1 : 2 ^ 63 ≤ shiftNat mant (f.fracBits - (mant.log2 : ℤ)) * 2 ^ (63 - f.fracBits) := by omega
    have c2 : shiftNat mant (f.fracBits - (mant.log2 : ℤ)) * 2 ^ (63 - f.fracBits) < 2 ^ 64 := by
      calc _ < 2 ^ (f.fracBits + 1) * 2 ^ (63 - f.fracBits) := Nat.mul_lt_mul_of_pos_right b2 (by positivity)
        _ = 2 ^ 64 := by rw [← pow_add]; congr 1; omega
    have hE : (((mant.log2 : ℤ) + q + f.bias).toNat + 16383 - f.bias) % 2 ^ 15 =
        ((mant.log2 : ℤ) + q + f.bias).toNat + 16383 - f.bias := Nat.mod_eq_of_lt (by omega)
    refine ⟨?_, signOf_pack _ _ _, ?_⟩
    · rw [isFinite_iff, expOf_pack, sigOf_pack, hE, Nat.mod_eq_of_lt c2]
      exact ⟨by omega, .inr c1⟩
    · rw [magOf_toRat, expOf_pack, sigOf_pack, hE, Nat.mod_eq_of_lt c2]
      push_cast
      rw [hs, ← zpow_natCast (2 : ℚ) (63 - f.fracBits), mul_assoc, mul_assoc, ← zpow_add₀ two_ne_zero, ← zpow_add₀ two_ne_zero]
      congr 2
      omega
  · rename_i hn
    have hs := shiftNat_cast mant (q - f.tiniest) (by rw [neg_sub]; exact hq)
    have b2 : shiftNat mant (q - f.tiniest) < 2 ^ f.fracBits := by
      have : (shiftNat mant (q - f.tiniest) : ℚ) < (2 : ℚ) ^ (f.fracBits : ℤ) := by
        rw [hs]
        calc _ < (2 : ℚ) ^ ((mant.log2 : ℤ) + 1) * (2 : ℚ) ^ (q - f.tiniest) :=
              mul_lt_mul_of_pos_right l2 (by positivity)
          _ = (2 : ℚ) ^ ((mant.log2 : ℤ) + 1 + (q - f.tiniest)) := by rw [← zpow_add₀ two_ne_zero]
          _ ≤ _ := zpow_le_zpow_right₀ one_le_two (by omega)
      exact_mod_cast this
    have b0 : shiftNat mant (q - f.tiniest) ≠ 0 := by
      intro h
      rw [h, Nat.cast_zero] at hs
      have : (0 : ℚ) < mant * (2 : ℚ) ^ (q - f.tiniest) := mul_pos (by exact_mod_cast Nat.pos_of_ne_zero h0) (by positivity)
      linarith
    obtain ⟨p1, p2, p3, p4⟩ := RealFormat.pack_fields hf neg (e := 0) (Nat.zero_le _) b2
    refine ⟨p1, ?_⟩
    unfold fromReal
    simp only [p2, p3, p4, if_true]
    rw [if_neg b0]
    have hl : (shiftNat mant (q - f.tiniest)).log2 < f.fracBits := (Nat.log2_lt b0).mpr b2
    obtain ⟨h1, h2, h3⟩ := enc80_normal neg _ f.tiniest b0
      (by rw [show (shiftNat mant (q - f.tiniest)).log2 - 63 = 0 by omega]; exact one_dvd _) (by omega) (by omega)
    refine ⟨h1, h2, ?_⟩
    rw [h3, hs, mul_assoc, ← zpow_add₀ two_ne_zero, sub_add_cancel]
/-! ### Packed decimal -/

/-- Decimal digits stand for their sum (40_numerics.md R224). -/
theorem bcdValue_sum (m : ℕ) : ∀ n, (∀ k < n, m / 16 ^ k % 16 ≤ 9) →
    bcdValue m n = some (∑ k ∈ Finset.range n, m / 16 ^ k % 16 * 10 ^ k)
  | 0, _ => by simp [bcdValue]
  | n + 1, h => by
    rw [bcdValue, bcdValue_sum m n fun k hk => h k (by omega)]
    simp only
    rw [if_pos (show bcdDigit m n ≤ 9 from h n (by omega)), Finset.sum_range_succ]; rfl

/-- A digit above 9 makes the operand no number (40_numerics.md R224). -/
theorem bcdValue_none (m : ℕ) : ∀ n, (∃ k < n, ¬ m / 16 ^ k % 16 ≤ 9) → bcdValue m n = none
  | 0, ⟨k, hk, _⟩ => absurd hk (by omega)
  | n + 1, ⟨k, hk, hd⟩ => by
    rw [bcdValue]
    by_cases h : k < n
    · rw [bcdValue_none m n ⟨k, h, hd⟩]
    · have : k = n := by omega
      subst this
      cases bcdValue m k with
      | none => rfl
      | some v => simp only; rw [if_neg (show ¬ bcdDigit m k ≤ 9 from hd)]

theorem bcdValue_spec (m : ℕ) : ∀ n v, bcdValue m n = some v → v < 10 ^ n ∧ toBcd v n = m % 16 ^ n
  | 0, v, h => by
    simp only [bcdValue, Option.some.injEq] at h
    subst h
    simp [toBcd, Nat.mod_one]
  | n + 1, v, h => by
    unfold bcdValue at h
    split at h
    · cases h
    · rename_i w hw
      split at h
      · rename_i hd
        injection h with h
        obtain ⟨h1, h2⟩ := bcdValue_spec m n w hw
        have hp : 0 < 10 ^ n := by positivity
        have hdig : v / 10 ^ n = bcdDigit m n := by
          rw [← h, Nat.add_mul_div_right _ _ hp, Nat.div_eq_of_lt h1, Nat.zero_add]
        refine ⟨?_, ?_⟩
        · rw [← h, pow_succ]; nlinarith
        · have lower : ∀ k ≤ n, toBcd v k = toBcd w k := by
            intro k
            induction k with
            | zero => intro _; rfl
            | succ k ih =>
              intro hk
              unfold toBcd
              rw [ih (by omega)]
              congr 2
              have e : v / 10 ^ k = w / 10 ^ k + bcdDigit m n * 10 ^ (n - k) := by
                rw [← h, show (10 : ℕ) ^ n = 10 ^ (n - k) * 10 ^ k by rw [← pow_add]; congr 1; omega, ← mul_assoc,
                  Nat.add_mul_div_right _ _ (by positivity)]
              rw [e, show (10 : ℕ) ^ (n - k) = 10 ^ (n - k - 1) * 10 by rw [← pow_succ]; congr 1; omega, ← mul_assoc,
                Nat.add_mul_mod_self_right]
          unfold toBcd
          rw [lower n le_rfl, h2, hdig, Nat.mod_eq_of_lt (by omega : bcdDigit m n < 10)]
          unfold bcdDigit
          rw [pow_succ, Nat.mod_mul, Nat.mul_comm]
      · cases h

end Sys2Proof.Machine
end

