-- ==== Sys2Proof/Laws/Transc.lean ====
section
/-! SUPPORT. The transcendental functions are monotonic (45_transcendental.md R421 c): the order of operands is
transitive, what is reached at some operands is reached at all operands after them, and the chosen value is the largest
that is reached. -/

namespace Sys2Proof.Machine

/-! ### The order of operands -/

theorem Mag.le_trans {a b c : Mag} (ha : a.den ≠ 0) (hb : b.den ≠ 0) (hc : c.den ≠ 0) (h1 : a.le b = true)
    (h2 : b.le c = true) : a.le c = true :=
  (Mag.le_iff ha hc).mpr (((Mag.le_iff ha hb).mp h1).trans ((Mag.le_iff hb hc).mp h2))

theorem magLe_iff (a b : Ext) :
    magLe a b = true ↔ classOf b = .infinity ∨ (classOf a ≠ .infinity ∧ |realOf a| ≤ |realOf b|) := by
  simp only [magLe, Bool.or_eq_true, Bool.and_eq_true, beq_iff_eq, bne_iff_ne, ne_eq, abs_realOf,
    Mag.le_iff (magOf_den a) (magOf_den b)]

theorem magLe_trans {a b c : Ext} (h1 : magLe a b = true) (h2 : magLe b c = true) : magLe a c = true := by
  rw [magLe_iff] at *
  rcases h2 with h2 | ⟨h2, h3⟩
  · exact .inl h2
  · rcases h1 with h1 | ⟨h1, h4⟩
    · exact absurd h1 h2
    · exact .inr ⟨h1, h4.trans h3⟩

/-- What is not above a zero is a zero. -/
theorem zero_of_magLe {a b : Ext} (ho : isOrdered a = true) (hb : classOf b = .zero) (h : magLe a b = true) :
    classOf a = .zero := by
  rcases (magLe_iff a b).mp h with h | ⟨hi, h⟩
  · rw [hb] at h; cases h
  · have hf : isFinite a = true := by
      unfold isOrdered isNaN at ho
      unfold isFinite
      cases hc : classOf a <;> simp_all
    have hz : realOf b = 0 := (realOf_eq_zero_iff_zero (by simp [isFinite, hb])).mpr hb
    rw [hz, abs_zero] at h
    exact (realOf_eq_zero_iff_zero hf).mp (abs_nonpos_iff.mp h)

theorem reduceAngle_den (x : Exact) : (reduceAngle x).mag.den ≠ 0 := by
  unfold reduceAngle reduceTurns; simp only; split <;> exact one_ne_zero

theorem angleOrder_trans {r : Bool} {a b c : Exact} (h1 : angleOrder r a b = true) (h2 : angleOrder r b c = true) :
    angleOrder r a c = true := by
  unfold angleOrder at *
  cases r
  · simp only [Bool.false_eq_true, if_false] at *
    exact Mag.le_trans (reduceAngle_den _) (reduceAngle_den _) (reduceAngle_den _) h2 h1
  · simp only [if_true] at *
    exact Mag.le_trans (reduceAngle_den _) (reduceAngle_den _) (reduceAngle_den _) h1 h2

/-- Not negative and not positive is zero. -/
theorem zero_of_signs {x : Ext} (h1 : notNegative x = true) (h2 : notPositive x = true) : classOf x = .zero := by
  unfold notNegative at h1; unfold notPositive at h2
  cases hs : signOf x <;> simp_all

theorem signs_of_zero {x : Ext} (h : classOf x = .zero) : notNegative x = true ∧ notPositive x = true := by
  simp [notNegative, notPositive, h]

theorem inOrder_trans {f : TranscFn} {y0 x0 y1 x1 y x : Ext} (ho0 : isOrdered x0 = true) (ho : isOrdered x = true)
    (h1 : inOrder f y0 x0 y1 x1 = true) (h2 : inOrder f y1 x1 y x = true) : inOrder f y0 x0 y x = true := by
  cases f with
  | sin =>
    simp only [inOrder, Bool.and_eq_true, beq_iff_eq] at *
    refine ⟨⟨h1.1.1.trans h2.1.1, h1.1.2.trans h2.1.2⟩, angleOrder_trans ?_ h2.2⟩
    rw [← h2.1.2]; exact h1.2
  | cos =>
    simp only [inOrder, Bool.and_eq_true, beq_iff_eq] at *
    refine ⟨⟨h1.1.1.trans h2.1.1, h1.1.2.trans h2.1.2⟩, angleOrder_trans ?_ h2.2⟩
    rw [← h2.1.2]; exact h1.2
  | tan =>
    simp only [inOrder, Bool.and_eq_true, beq_iff_eq] at *
    refine ⟨⟨h1.1.1.trans h2.1.1, h1.1.2.trans h2.1.2⟩, angleOrder_trans ?_ h2.2⟩
    rw [← h2.1.2]; exact h1.2
  | atan2 =>
    simp only [inOrder, Bool.and_eq_true, Bool.or_eq_true, beq_iff_eq] at *
    obtain ⟨⟨⟨hs1, ha0⟩, -⟩, c1⟩ := h1
    obtain ⟨⟨⟨hs2, -⟩, ha⟩, c2⟩ := h2
    refine ⟨⟨⟨hs1.trans hs2, ha0⟩, ha⟩, ?_⟩
    rcases c1 with (⟨⟨⟨n0, n1⟩, hy1⟩, hx1⟩ | ⟨⟨⟨p0, p1⟩, hy1⟩, hx1⟩) | ⟨n0, p1⟩
    · rcases c2 with (⟨⟨⟨-, n2⟩, hy2⟩, hx2⟩ | ⟨⟨⟨-, p2⟩, -⟩, -⟩) | ⟨-, p2⟩
      · exact .inl (.inl ⟨⟨⟨n0, n2⟩, magLe_trans hy1 hy2⟩, magLe_trans hx2 hx1⟩)
      · exact .inr ⟨n0, p2⟩
      · exact .inr ⟨n0, p2⟩
    · rcases c2 with (⟨⟨⟨n1, -⟩, -⟩, hx2⟩ | ⟨⟨⟨-, p2⟩, hy2⟩, hx2⟩) | ⟨n1, p2⟩
      · have hz := zero_of_signs n1 p1
        exact .inr ⟨(signs_of_zero (zero_of_magLe ho0 hz hx1)).1, (signs_of_zero (zero_of_magLe ho hz hx2)).2⟩
      · exact .inl (.inr ⟨⟨⟨p0, p2⟩, magLe_trans hy2 hy1⟩, magLe_trans hx1 hx2⟩)
      · exact .inr ⟨(signs_of_zero (zero_of_magLe ho0 (zero_of_signs n1 p1) hx1)).1, p2⟩
    · rcases c2 with (⟨⟨⟨n1, -⟩, -⟩, hx2⟩ | ⟨⟨⟨-, p2⟩, -⟩, -⟩) | ⟨-, p2⟩
      · exact .inr ⟨n0, (signs_of_zero (zero_of_magLe ho (zero_of_signs n1 p1) hx2)).2⟩
      · exact .inr ⟨n0, p2⟩
      · exact .inr ⟨n0, p2⟩
  | ylog2x =>
    simp only [inOrder, Bool.and_eq_true, Bool.or_eq_true, beq_iff_eq] at *
    obtain ⟨⟨⟨hs1, hx1⟩, hy1⟩, c1⟩ := h1
    obtain ⟨⟨⟨hs2, hx2⟩, hy2⟩, c2⟩ := h2
    refine ⟨⟨⟨hs1.trans hs2, hx1.trans hx2⟩, magLe_trans hy1 hy2⟩, ?_⟩
    rcases c1 with ⟨a1, b1⟩ | ⟨a1, b1⟩ <;> rcases c2 with ⟨a2, b2⟩ | ⟨a2, b2⟩
    · exact .inl ⟨a1, magLe_trans b1 b2⟩
    · exact .inr ⟨magLe_trans a2 (magLe_trans b2 a1), magLe_trans b1 b2⟩
    · exact .inl ⟨magLe_trans a2 a1, magLe_trans b1 (magLe_trans a2 b2)⟩
    · exact .inr ⟨magLe_trans a2 a1, b1⟩
  | ylog2xp1 =>
    simp only [inOrder, Bool.and_eq_true, beq_iff_eq] at *
    exact ⟨⟨⟨h1.1.1.1.trans h2.1.1.1, h1.1.1.2.trans h2.1.1.2⟩, magLe_trans h1.1.2 h2.1.2⟩, magLe_trans h1.2 h2.2⟩
  | exp2m1 =>
    simp only [inOrder, Bool.and_eq_true, beq_iff_eq] at *
    exact ⟨⟨h1.1.1.trans h2.1.1, h1.1.2.trans h2.1.2⟩, magLe_trans h1.2 h2.2⟩

theorem notAbove_refl (f : TranscFn) (y x : Ext) : notAbove f y x y x = true := by simp [notAbove]

theorem notAbove_trans {f : TranscFn} {y0 x0 y1 x1 y x : Ext} (ho : isOrdered x = true)
    (h1 : notAbove f y0 x0 y1 x1 = true) (h2 : notAbove f y1 x1 y x = true) : notAbove f y0 x0 y x = true := by
  simp only [notAbove, Bool.or_eq_true, Bool.and_eq_true, beq_iff_eq] at *
  rcases h1 with ⟨rfl, rfl⟩ | ⟨h1, c1⟩
  · exact h2
  · rcases h2 with ⟨rfl, rfl⟩ | ⟨-, c2⟩
    · exact .inr ⟨h1, c1⟩
    · exact .inr ⟨h1, inOrder_trans h1.2 ho c1 c2⟩

/-! ### What is reached -/

/-- What is reached at some operands is reached at all operands after them. -/
theorem reached_mono {ext : Bool} {rm : RoundMode} {f : TranscFn} {y0 x0 y x : Ext} {g : Nat × Int}
    (ho : isOrdered x = true) (h : notAbove f y0 x0 y x = true) (hr : reached ext rm f y0 x0 g = true) :
    reached ext rm f y x g = true := by
  rw [reached, decide_eq_true_eq] at *
  obtain ⟨y1, x1, h1, hc⟩ := hr
  exact ⟨y1, x1, notAbove_trans ho h1 h, hc⟩

/-- The least choice is reached. -/
theorem reached_last {ext : Bool} {rm : RoundMode} {f : TranscFn} {y x : Ext} {g : Nat × Int}
    (h : (choices ext rm (trueValue f y x)).getLast? = some g) : reached ext rm f y x g = true := by
  rw [reached, decide_eq_true_eq]
  exact ⟨y, x, notAbove_refl f y x, .inl h⟩

/-- The rational number of a magnitude `mant * 2 ^ quantum`. -/
def gridValue (g : Nat × Int) : ℚ := g.1 * (2 : ℚ) ^ g.2

theorem gridPoint_value (q : Int) {c : Nat} (h : halfUlpOk c = true) :
    gridValue (gridPoint q c) = c * (2 : ℚ) ^ q := by
  have two : (2 : ℚ) ≠ 0 := two_ne_zero
  simp only [halfUlpOk, Bool.or_eq_true, Bool.and_eq_true, decide_eq_true_eq, beq_iff_eq] at h
  unfold gridPoint gridValue
  split
  · rfl
  · split
    · have h2 : c % 2 = 0 := by omega
      obtain ⟨d, rfl⟩ := Nat.dvd_of_mod_eq_zero h2
      rw [Nat.mul_div_cancel_left _ (by decide), zpow_add₀ two]; push_cast; ring
    · have h4 : c % 4 = 0 := by omega
      obtain ⟨d, rfl⟩ := Nat.dvd_of_mod_eq_zero h4
      rw [Nat.mul_div_cancel_left _ (by decide), zpow_add₀ two]; push_cast; ring

/-- The candidates stand in order, the largest first. -/
theorem candidates_sorted (rm : RoundMode) (e : Enclosure) :
    (candidates rm e).Pairwise fun a b => gridValue b ≤ gridValue a := by
  have hr : ∀ n : ℕ, ((List.range 8).map fun j => n + 4 - j).Pairwise fun a b => b ≤ a := fun n =>
    List.pairwise_map.mpr ((List.pairwise_lt_range (n := 8)).imp fun h => by omega)
  unfold candidates
  rw [List.pairwise_map]
  refine ((hr _).filter _).imp_of_mem ?_
  intro a b ha hb hab
  rw [List.mem_filter, Bool.and_eq_true] at ha hb
  rw [gridPoint_value _ ha.2.1, gridPoint_value _ hb.2.1]
  have : (b : ℚ) ≤ a := by exact_mod_cast hab
  gcongr

/-- Rounding to multiples of one quantum keeps the order of magnitudes. -/
theorem roundAt_mono (rm : RoundMode) (neg : Bool) (q : ℤ) {a b : Mag} (ha : a.den ≠ 0) (hb : b.den ≠ 0)
    (h : a.toRat ≤ b.toRat) : (roundAt rm ⟨neg, a⟩ q).mant ≤ (roundAt rm ⟨neg, b⟩ q).mant := by
  obtain ⟨lo, rem, d, dp, hr, hv, hm⟩ := roundAt_cases rm ⟨neg, a⟩ ha q
  obtain ⟨lo', rem', d', dp', hr', hv', hm'⟩ := roundAt_cases rm ⟨neg, b⟩ hb q
  have two : (0 : ℚ) < (2 : ℚ) ^ q := by positivity
  have dq : (0 : ℚ) < d := by exact_mod_cast dp
  have dq' : (0 : ℚ) < d' := by exact_mod_cast dp'
  simp only at hv hv' hm hm'
  rw [hv, hv', mul_le_mul_iff_left₀ two] at h
  have f0 : (0 : ℚ) ≤ rem / d := by positivity
  have f1 : (rem' : ℚ) / d' < 1 := by rw [div_lt_one dq']; exact_mod_cast hr'
  have hlo : lo ≤ lo' := by
    have : (lo : ℚ) < lo' + 1 := by linarith
    exact Nat.lt_succ_iff.mp (by exact_mod_cast this)
  have hup : (roundAt rm ⟨neg, a⟩ q).mant ≤ lo + 1 := by
    rw [hm]; split
    · exact Nat.le_succ _
    · simp only; split <;> omega
  have hdn : lo' ≤ (roundAt rm ⟨neg, b⟩ q).mant := by
    rw [hm']; split
    · exact le_refl _
    · simp only; split <;> omega
  rcases hlo.lt_or_eq with hlt | rfl
  · omega
  · have hf : (rem : ℚ) / d ≤ rem' / d' := by linarith
    rw [div_le_div_iff₀ dq dq'] at hf
    have hf : rem * d' ≤ rem' * d := by exact_mod_cast hf
    by_cases h0 : rem = 0
    · rw [hm, if_pos h0]; exact hdn
    · have h0' : rem' ≠ 0 := by
        rintro rfl
        have : 0 < rem * d' := Nat.mul_pos (Nat.pos_of_ne_zero h0) dp'
        omega
      rw [hm, hm', if_neg h0, if_neg h0']
      have hc : choosesUp rm neg lo rem d = true → choosesUp rm neg lo rem' d' = true := by
        cases rm with
        | nearest =>
          simp only [choosesUp, Bool.or_eq_true, decide_eq_true_eq, Bool.and_eq_true, beq_iff_eq]
          rintro (h | ⟨h, ho⟩)
          · left; nlinarith
          · rcases Nat.lt_trichotomy d' (2 * rem') with h2 | h2 | h2
            · exact .inl h2
            · exact .inr ⟨h2.symm, ho⟩
            · nlinarith
        | _ => exact id
      simp only
      split
      · rename_i hu; rw [if_pos (hc hu)]
      · split <;> omega

theorem gridValue_toRat (g : Nat × Int) : gridValue g = Mag.toRat ⟨g.1, 1, g.2⟩ := by simp [gridValue, Mag.toRat]

/-- An extended-real magnitude is not changed. -/
theorem toExtended_value (rm : RoundMode) (neg : Bool) {g : Nat × Int} (h : isExtended g = true) :
    gridValue (toExtended rm neg g) = gridValue g := by
  have hi := roundAt_inexact rm ⟨neg, ⟨g.1, 1, g.2⟩⟩ one_ne_zero (max g.2 (-16445))
  have he : (roundAt rm ⟨neg, ⟨g.1, 1, g.2⟩⟩ (max g.2 (-16445))).inexact = false := by
    unfold roundAt
    simp only [Nat.shiftLeft_eq, Nat.one_mul]
    rw [if_pos]
    unfold isExtended at h
    rw [beq_iff_eq] at h
    rcases le_total (-16445) g.2 with hg | hg
    · simp [max_eq_left hg, Nat.mod_one]
    · rw [max_eq_right hg, Nat.mul_mod, h]; simp
  rw [he] at hi
  have hv := not_not.mp (hi.not.mp (by simp))
  rw [gridValue_toRat g, ← hv, Rounded.toMag_toRat]; rfl

/-- A magnitude that is no extended-real one is rounded to the quantum of the denormals. -/
theorem toExtended_quantum (rm : RoundMode) (neg : Bool) {g : Nat × Int} (h : isExtended g = false) :
    toExtended rm neg g = ((roundAt rm ⟨neg, ⟨g.1, 1, g.2⟩⟩ (-16445)).mant, -16445) := by
  have hg : g.2 ≤ -16445 := by
    by_contra hc
    unfold isExtended at h
    rw [show (-16445 - g.2).toNat = 0 by omega, Nat.pow_zero, Nat.mod_one] at h
    exact absurd h (by decide)
  unfold toExtended
  simp only [max_eq_right hg, roundAt_quantum]

/-- The choices stand in order, the largest first. -/
theorem choices_sorted (ext : Bool) (rm : RoundMode) (e : Enclosure) :
    (choices ext rm e).Pairwise fun a b => gridValue b ≤ gridValue a := by
  have hs := candidates_sorted rm e
  cases ext with
  | false => exact hs
  | true =>
    show (extendedCandidates rm e).Pairwise _
    unfold extendedCandidates
    simp only
    rw [List.pairwise_map]
    split
    · rename_i hf
      rw [List.isEmpty_iff, List.filter_eq_nil_iff] at hf
      refine hs.imp_of_mem fun {a b} ha hb hab => ?_
      rw [toExtended_quantum rm e.neg (Bool.eq_false_iff.mpr (hf a ha)),
        toExtended_quantum rm e.neg (Bool.eq_false_iff.mpr (hf b hb))]
      rw [gridValue_toRat a, gridValue_toRat b] at hab
      have hm := roundAt_mono rm e.neg (-16445) one_ne_zero one_ne_zero hab
      unfold gridValue
      have : ((roundAt rm ⟨e.neg, ⟨b.1, 1, b.2⟩⟩ (-16445)).mant : ℚ) ≤ (roundAt rm ⟨e.neg, ⟨a.1, 1, a.2⟩⟩ (-16445)).mant := by
        exact_mod_cast hm
      simp only
      gcongr
    · refine (hs.filter _).imp_of_mem fun {a b} ha hb hab => ?_
      rw [toExtended_value rm e.neg (List.mem_filter.mp ha).2, toExtended_value rm e.neg (List.mem_filter.mp hb).2]
      exact hab

/-- The computed value is the largest choice that is reached (45_transcendental.md R421). -/
theorem computedValue_spec {ext : Bool} {rm : RoundMode} {f : TranscFn} {y x : Ext}
    (h : choices ext rm (trueValue f y x) ≠ []) :
    computedValue ext rm f y x ∈ choices ext rm (trueValue f y x) ∧
      reached ext rm f y x (computedValue ext rm f y x) = true ∧
      ∀ g ∈ choices ext rm (trueValue f y x), reached ext rm f y x g = true →
        gridValue g ≤ gridValue (computedValue ext rm f y x) := by
  have hs := choices_sorted ext rm (trueValue f y x)
  have hl := List.getLast?_eq_some_getLast h
  unfold computedValue
  cases hf : (choices ext rm (trueValue f y x)).find? (reached ext rm f y x) with
  | none =>
    have := List.find?_eq_none.mp hf _ (List.getLast_mem h)
    exact absurd (reached_last hl) this
  | some g =>
    refine ⟨List.mem_of_find?_eq_some hf, List.find?_some hf, fun g' hg' hr => ?_⟩
    obtain ⟨-, as, bs, he, hn⟩ := List.find?_eq_some_iff_append.mp hf
    rw [he] at hs hg'
    rcases List.mem_append.mp hg' with hm | hm
    · exact absurd hr (by simpa using hn g' hm)
    · rcases List.mem_cons.mp hm with rfl | hm
      · exact le_refl _
      · exact (List.pairwise_cons.mp (List.pairwise_append.mp hs).2.1).1 g' hm

/-- The computed magnitude is monotonic (45_transcendental.md R421 c), given that the choices of the later operands are no
smaller than those of the earlier ones, as they are where the true value is no smaller. -/
theorem computedValue_mono {ext : Bool} {rm : RoundMode} {f : TranscFn} {y0 x0 y x : Ext} (ho : isOrdered x = true)
    (h : notAbove f y0 x0 y x = true) (h0 : choices ext rm (trueValue f y0 x0) ≠ [])
    (h1 : choices ext rm (trueValue f y x) ≠ [])
    (hw : ∀ g0 ∈ choices ext rm (trueValue f y0 x0), g0 ∈ choices ext rm (trueValue f y x) ∨
      ∀ g ∈ choices ext rm (trueValue f y x), gridValue g0 ≤ gridValue g) :
    gridValue (computedValue ext rm f y0 x0) ≤ gridValue (computedValue ext rm f y x) := by
  obtain ⟨hm, hr, -⟩ := computedValue_spec h0
  obtain ⟨hm1, -, hg⟩ := computedValue_spec h1
  rcases hw _ hm with hw | hw
  · exact hg _ hw (reached_mono ho h hr)
  · exact hw _ hm1

/-- A candidate is within the error bound (45_transcendental.md R421 b). -/
theorem candidate_bound {rm : RoundMode} {e : Enclosure} {g : Nat × Int} (h : g ∈ candidates rm e) :
    ∃ c, g = gridPoint (e.log2 - 64) c ∧ halfUlpOk c = true ∧
      withinBound e c (if rm = .nearest then 2 else 3) (e.log2 - 64) = true := by
  unfold candidates at h
  obtain ⟨c, hc, rfl⟩ := List.mem_map.mp h
  rw [List.mem_filter, Bool.and_eq_true] at hc
  exact ⟨c, rfl, hc.2.1, hc.2.2⟩

/-- An extended-real choice is within the error bound, if some extended-real value is (45_transcendental.md R421 a, b). -/
theorem extended_bound {rm : RoundMode} {e : Enclosure} {g : Nat × Int} (h : g ∈ extendedCandidates rm e)
    (hx : ∃ c ∈ candidates rm e, isExtended c = true) :
    ∃ c ∈ candidates rm e, isExtended c = true ∧ gridValue g = gridValue c := by
  obtain ⟨c0, hc0, hx0⟩ := hx
  unfold extendedCandidates at h
  simp only at h
  have hne : ((candidates rm e).filter isExtended).isEmpty = false := by
    rw [Bool.eq_false_iff, ne_eq, List.isEmpty_iff, List.filter_eq_nil_iff]
    exact fun hf => hf c0 hc0 hx0
  rw [hne] at h
  obtain ⟨c, hc, rfl⟩ := List.mem_map.mp h
  obtain ⟨hm, hc⟩ := List.mem_filter.mp hc
  exact ⟨c, hm, hc, toExtended_value rm e.neg hc⟩

end Sys2Proof.Machine
end

