-- ==== Sys2Proof/Laws/Enclosures.lean ====
section
/-! SUPPORT. The enclosures of the true values of the transcendental functions (45_transcendental.md R421 to R423): at every
operand of the domain the ends are in order and `log2` is the exponent of the values between them (`sound_trueValue`), and
they are far from the limits of the biased exponents (`range_trueValue`). -/

namespace Sys2Proof.Machine

/-- An enclosure of two magnitudes in order, the upper one not zero. -/
structure Enclosure.Sound (e : Enclosure) : Prop where
  loDen : e.lo.den ≠ 0
  hiDen : e.hi.den ≠ 0
  order : e.lo.toRat ≤ e.hi.toRat
  hiNum : e.hi.num ≠ 0

theorem Mag.toRat_nonneg (m : Mag) : 0 ≤ m.toRat := by unfold Mag.toRat; positivity

theorem Mag.num_of_pos {m : Mag} (h : 0 < m.toRat) : m.num ≠ 0 := by
  intro h0; unfold Mag.toRat at h; simp [h0] at h

theorem pow_toRat (k : ℤ) : Mag.toRat ⟨1, 1, k⟩ = (2 : ℚ) ^ k := by simp [Mag.toRat]

theorem Enclosure.Sound.proper {e : Enclosure} (h : e.Sound) : e.Proper := by
  have hs := Mag.log2_spec h.hiNum h.hiDen
  refine ⟨h.order, ?_, ?_⟩
  all_goals
    unfold Enclosure.log2
    split
    · rename_i hc
      rw [Bool.and_eq_true, Bool.not_eq_true', ← Bool.not_eq_true, Mag.le_iff h.hiDen h.loDen, not_le,
        Mag.le_iff h.hiDen one_ne_zero, pow_toRat] at hc
      have he := le_antisymm hc.2 hs.1
      first
        | (rw [he]; exact zpow_le_zpow_right₀ one_le_two (by omega))
        | (rw [sub_add_cancel]; exact .inr ⟨hc.1, he⟩)
    · first
        | exact hs.1
        | exact .inl hs.2

/-! ### The enclosures of the functions -/

theorem Enclosure.sound_exactly {v : Exact} (hn : v.mag.num ≠ 0) (hd : v.mag.den ≠ 0) : (Enclosure.exactly v).Sound :=
  ⟨hd, hd, le_rfl, hn⟩

theorem fixSlack_pos : 0 < fixSlack := by decide

theorem sound_between (neg : Bool) {a : Mag} (hn : a.num ≠ 0) (hd : a.den ≠ 0) (f c : ℕ) (k : ℤ) (hc : 0 < c) :
    Enclosure.Sound ⟨neg, ⟨a.num * (f - c), a.den, k⟩, ⟨a.num * (f + c), a.den, k⟩⟩ := by
  refine ⟨hd, hd, ?_, Nat.mul_ne_zero hn (by omega)⟩
  unfold Mag.toRat
  simp only
  have : a.num * (f - c) ≤ a.num * (f + c) := Nat.mul_le_mul_left _ (by omega)
  have : ((a.num * (f - c) : ℕ) : ℚ) ≤ ((a.num * (f + c) : ℕ) : ℚ) := by exact_mod_cast this
  gcongr

theorem sound_enclose (neg : Bool) {a : Mag} (hn : a.num ≠ 0) (hd : a.den ≠ 0) (f : ℕ) : (enclose neg a f).Sound :=
  sound_between neg hn hd f fixSlack _ fixSlack_pos

theorem sound_ratio (neg : Bool) {a : Mag} (hn : a.num ≠ 0) (hd : a.den ≠ 0) (f g c : ℕ) (hc : 0 < c) :
    Enclosure.Sound ⟨neg, ⟨a.num * (f - c), a.den * (g + c), a.exp⟩, ⟨a.num * (f + c), a.den * max (g - c) 1, a.exp⟩⟩ := by
  have hm : max (g - c) 1 ≠ 0 := by omega
  refine ⟨Nat.mul_ne_zero hd (by omega), Nat.mul_ne_zero hd hm, ?_, Nat.mul_ne_zero hn (by omega)⟩
  unfold Mag.toRat
  simp only
  have h1 : a.num * (f - c) ≤ a.num * (f + c) := Nat.mul_le_mul_left _ (by omega)
  have h2 : a.den * max (g - c) 1 ≤ a.den * (g + c) := Nat.mul_le_mul_left _ (by omega)
  have h3 : 0 < a.den * max (g - c) 1 := Nat.pos_of_ne_zero (Nat.mul_ne_zero hd hm)
  have h1 : ((a.num * (f - c) : ℕ) : ℚ) ≤ ((a.num * (f + c) : ℕ) : ℚ) := by exact_mod_cast h1
  have h2 : ((a.den * max (g - c) 1 : ℕ) : ℚ) ≤ ((a.den * (g + c) : ℕ) : ℚ) := by exact_mod_cast h2
  have h3 : (0 : ℚ) < ((a.den * max (g - c) 1 : ℕ) : ℚ) := by exact_mod_cast h3
  gcongr

theorem sound_encloseRatio (neg : Bool) {a : Mag} (hn : a.num ≠ 0) (hd : a.den ≠ 0) (f g : ℕ) :
    (encloseRatio neg a f g).Sound := sound_ratio neg hn hd f g fixSlack fixSlack_pos

theorem Enclosure.Sound.atMost {e : Enclosure} (h : e.Sound) {m : Mag} (hn : m.num ≠ 0) (hd : m.den ≠ 0) :
    (e.atMost m).Sound := by
  unfold Enclosure.atMost
  split
  · exact h
  · refine ⟨?_, hd, ?_, hn⟩
    · simp only; split
      · exact h.loDen
      · exact hd
    · simp only; split
      · rename_i hc; exact (Mag.le_iff h.loDen hd).mp hc
      · exact le_rfl

theorem Enclosure.Sound.atLeast {e : Enclosure} (h : e.Sound) {m : Mag} (hn : m.num ≠ 0) (hd : m.den ≠ 0) :
    (e.atLeast m).Sound := by
  unfold Enclosure.atLeast
  split
  · exact h
  · refine ⟨hd, ?_, ?_, ?_⟩
    · simp only; split
      · exact h.hiDen
      · exact hd
    · simp only; split
      · rename_i hc; exact (Mag.le_iff hd h.hiDen).mp hc
      · exact le_rfl
    · simp only; split
      · exact h.hiNum
      · exact hn

theorem Enclosure.times_lo (e : Enclosure) (v : Exact) : (e.times v).lo.toRat = e.lo.toRat * v.mag.toRat := by
  unfold Enclosure.times Mag.toRat; simp only; rw [zpow_add₀ two_ne_zero]; push_cast; ring

theorem Enclosure.times_hi (e : Enclosure) (v : Exact) : (e.times v).hi.toRat = e.hi.toRat * v.mag.toRat := by
  unfold Enclosure.times Mag.toRat; simp only; rw [zpow_add₀ two_ne_zero]; push_cast; ring

theorem Enclosure.Sound.times {e : Enclosure} (h : e.Sound) {v : Exact} (hn : v.mag.num ≠ 0) (hd : v.mag.den ≠ 0) :
    (e.times v).Sound := by
  refine ⟨Nat.mul_ne_zero h.loDen hd, Nat.mul_ne_zero h.hiDen hd, ?_, Nat.mul_ne_zero h.hiNum hn⟩
  rw [Enclosure.times_lo, Enclosure.times_hi]
  exact mul_le_mul_of_nonneg_right h.order (Mag.toRat_nonneg _)

theorem sigOf_ne_of {x : Ext} (h : realOf x ≠ 0) : (magOf x).num ≠ 0 := fun h0 => h ((realOf_eq_zero_iff x).mpr h0)

/-- The reduced angle of a non-zero operand is not zero: `P66` is odd and has more bits than a significand. -/
theorem reduceAngle_num {x : Exact} (h0 : x.mag.num ≠ 0) (h : x.mag.num < 2 ^ 64) : (reduceAngle x).mag.num ≠ 0 := by
  have hodd : Nat.Coprime p66 2 := by decide
  have hlt : ∀ k, (x.mag.num <<< k) % (p66 <<< (-63 - min x.mag.exp (-63)).toNat) ≠ 0 := by
    intro k hc
    have hd := Nat.dvd_of_mod_eq_zero hc
    rw [Nat.shiftLeft_eq, Nat.shiftLeft_eq] at hd
    have h1 := (Nat.dvd_mul_right p66 _).trans hd
    have h2 : p66 ∣ x.mag.num := (Nat.Coprime.pow_right k hodd).dvd_of_dvd_mul_right h1
    have h3 := Nat.le_of_dvd (Nat.pos_of_ne_zero h0) h2
    have : 2 ^ 64 < p66 := by decide
    omega
  have hm : 0 < p66 <<< (-63 - min x.mag.exp (-63)).toNat := by
    rw [Nat.shiftLeft_eq]; exact Nat.mul_pos (by decide) (by positivity)
  unfold reduceAngle reduceTurns
  simp only
  split
  · exact hlt _
  · simp only
    have := Nat.mod_lt (x.mag.num <<< (x.mag.exp - min x.mag.exp (-63)).toNat) hm
    omega

theorem sound_trueSin {x : Ext} (h : realOf x ≠ 0) : (trueSin (valOf x)).Sound :=
  have ht := reduceAngle_num (x := valOf x) (sigOf_ne_of h) (sigOf_lt x)
  (sound_enclose _ ht (reduceAngle_den _) _).atMost ht (reduceAngle_den _)

theorem sound_trueCos (x : Exact) : (trueCos x).Sound :=
  (sound_enclose _ one_ne_zero one_ne_zero _).atMost one_ne_zero one_ne_zero

theorem sound_trueTan {x : Ext} (h : realOf x ≠ 0) : (trueTan (valOf x)).Sound := by
  have ht := reduceAngle_num (x := valOf x) (sigOf_ne_of h) (sigOf_lt x)
  have hr := fun n f g => sound_encloseRatio n ht (reduceAngle_den _) f g
  unfold trueTan
  simp only
  split
  · exact hr _ _ _
  · exact (hr _ _ _).atLeast ht (reduceAngle_den _)

theorem sound_quarterPi (neg : Bool) {n : ℕ} (h : n ≠ 0) : (quarterPi neg n).Sound := sound_enclose _ h one_ne_zero _

theorem Enclosure.Sound.neg {e : Enclosure} (h : e.Sound) (b : Bool) : ({ e with neg := b } : Enclosure).Sound :=
  ⟨h.loDen, h.hiDen, h.order, h.hiNum⟩

theorem shiftLeft_ne {n k : ℕ} (h : n ≠ 0) : n <<< k ≠ 0 := by
  rw [Nat.shiftLeft_eq]; exact Nat.mul_ne_zero h (by positivity)

theorem sound_trueAtan2 {y x : Ext} (hy : realOf y ≠ 0) (hx : realOf x ≠ 0) : (trueAtan2 (valOf y) (valOf x)).Sound := by
  unfold trueAtan2
  simp only
  split
  · split
    · exact sound_enclose _ (a := .one) one_ne_zero one_ne_zero _
    · refine Enclosure.Sound.neg ?_ _
      have n0 := fun k => shiftLeft_ne (k := k) (sigOf_ne_of hy)
      have d0 := fun k => shiftLeft_ne (k := k) (sigOf_ne_of hx)
      unfold atanRatio
      refine (sound_enclose _ (Nat.mul_ne_zero (n0 _) (d0 _)) ?_ _).atMost (n0 _) (d0 _)
      simp only
      exact Nat.ne_of_gt (Nat.add_pos_left (Nat.pos_of_ne_zero (Nat.mul_ne_zero (n0 _) (n0 _))) _)
  · split <;> exact sound_enclose _ (a := .one) one_ne_zero one_ne_zero _

theorem sound_log2Near {n : ℤ} {d : ℕ} (hn : n ≠ 0) (hd : -n ≤ d) (h0 : d ≠ 0) : (log2Near n d).Sound := by
  unfold log2Near
  simp only
  refine sound_encloseRatio _ (Nat.mul_ne_zero two_ne_zero (Int.natAbs_ne_zero.mpr hn)) ?_ _ _
  simp only
  omega

theorem sound_trueLog2 {x : Ext} (h : 0 < realOf x) (h1 : realOf x ≠ 1) : (trueLog2 (magOf x)).Sound := by
  have hx := sigOf_ne_of h.ne'
  have hr : realOf x = (magOf x).toRat := by rw [← abs_realOf, abs_of_pos h]
  have hd : (magOf x).den = 1 := rfl
  unfold trueLog2
  simp only
  generalize (if 3 * 2 ^ (magOf x).num.log2 ≤ 2 * (magOf x).num then (magOf x).num.log2 + 1 else (magOf x).num.log2) = l
  generalize magOf x = m at *
  have two0 : ∀ k : ℕ, 2 ^ k ≠ 0 := fun k => by positivity
  split
  · rename_i hn
    refine Enclosure.sound_exactly (v := ⟨_, ⟨_, 1, 0⟩⟩) (fun he => h1 ?_) one_ne_zero
    simp only [Int.natAbs_eq_zero] at he
    have hnum : (m.num : ℚ) = (2 : ℚ) ^ (-m.exp) := by
      have h2 : m.num = 2 ^ l := by
        have : (m.num : ℤ) = ((2 ^ l : ℕ) : ℤ) := by linarith
        exact_mod_cast this
      rw [h2, Nat.cast_pow, ← zpow_natCast]
      congr 1
      omega
    rw [hr, Mag.toRat, hnum, hd, Nat.cast_one, div_one, ← zpow_add₀ two_ne_zero]; simp
  · rename_i hn
    split
    · refine sound_log2Near hn ?_ (two0 _)
      omega
    · exact sound_enclose _ (a := .one) one_ne_zero one_ne_zero _

theorem sound_trueLog2p1 {x : Ext} (h : realOf x ≠ 0) (h1 : |realOf x| ≤ 1) : (trueLog2p1 (valOf x)).Sound := by
  have hx := sigOf_ne_of h
  unfold trueLog2p1
  have hs : (valOf x).mag = magOf x := rfl
  rw [hs]
  simp only
  have hle : (magOf x).num <<< (magOf x).exp.toNat ≤ 2 ^ (-(magOf x).exp).toNat := by
    rw [abs_realOf] at h1
    have := (Mag.le_iff (a := magOf x) (b := ⟨1, 1, 0⟩) (magOf_den x) one_ne_zero).mpr (by rw [pow_toRat]; simpa using h1)
    unfold Mag.le at this
    rw [show (magOf x).den = 1 from rfl] at this
    simpa [Nat.shiftLeft_eq] using this
  have h0 := shiftLeft_ne (k := (magOf x).exp.toNat) hx
  generalize (magOf x).num <<< (magOf x).exp.toNat = n at *
  generalize 2 ^ (-(magOf x).exp).toNat = d at *
  refine sound_log2Near ?_ ?_ (by omega)
  · split <;> omega
  · split <;> omega

theorem sound_trueExp2m1 {x : Ext} (h : realOf x ≠ 0) : (trueExp2m1 (valOf x)).Sound := by
  unfold trueExp2m1
  split
  · exact Enclosure.sound_exactly (v := ⟨_, ⟨1, 1, _⟩⟩) one_ne_zero one_ne_zero
  · exact sound_enclose _ (sigOf_ne_of h) (magOf_den x) _

/-- The enclosure of every function at every operand of its domain. -/
theorem sound_trueValue {f : TranscFn} {y x : Ext} (h : InDomain f y x) : (trueValue f y x).Sound := by
  unfold InDomain at h
  cases f with
  | sin => unfold trueValue; exact sound_trueSin h.2.1
  | cos => unfold trueValue; exact sound_trueCos _
  | tan => unfold trueValue; exact sound_trueTan h.2.1
  | atan2 =>
    obtain ⟨hy, hx, hn⟩ := h
    show ((atan2Value y x).getD _).Sound
    have q2 := sound_quarterPi (signOf y) (n := 2) two_ne_zero
    have q4 := sound_quarterPi (signOf y) (n := 4) four_ne_zero
    unfold atan2Value
    simp only
    by_cases hz : classOf y = .zero
    · have hs : signOf x = true := by
        by_contra hc; exact hn ⟨by simpa using hc, .inl hz⟩
      rw [if_pos hz, if_pos hs]; exact q4
    · rw [if_neg hz]
      by_cases hi : classOf y = .infinity
      · rw [if_pos hi]
        split
        · refine sound_quarterPi (signOf y) ?_
          split
          · exact three_ne_zero
          · exact one_ne_zero
        · exact q2
      · have hf : isFinite y = true := by
          unfold isOrdered isNaN at hy; unfold isFinite
          cases hc : classOf y <;> simp_all
        rw [if_neg hi]
        split
        · exact q2
        · rename_i hxz
          split
          · rename_i hxi
            have hs : signOf x = true := by
              by_contra hc; exact hn ⟨by simpa using hc, .inr ⟨hf, hxi⟩⟩
            rw [if_pos hs]; exact q4
          · rename_i hxi
            have hfx : isFinite x = true := by
              unfold isOrdered isNaN at hx; unfold isFinite
              cases hc : classOf x <;> simp_all
            exact sound_trueAtan2 (fun h => hz ((realOf_eq_zero_iff_zero hf).mp h))
              (fun h => hxz ((realOf_eq_zero_iff_zero hfx).mp h))
  | ylog2x => exact (sound_trueLog2 h.2.1 h.2.2.1).times (sigOf_ne_of h.2.2.2.2) (magOf_den y)
  | ylog2xp1 => exact (sound_trueLog2p1 h.2.1 h.2.2.1).times (sigOf_ne_of h.2.2.2.2.2) (magOf_den y)
  | exp2m1 => exact sound_trueExp2m1 h.2.1

/-! ### The size of the series -/

theorem natAbs_div_le (t y : ℤ) (d c : ℕ) (hd : 0 < d) (h : y.natAbs ≤ c * d) : (t * y / (d : ℤ)).natAbs ≤ t.natAbs * c + 1 := by
  have hd' : (0 : ℤ) < d := by exact_mod_cast hd
  have h1 : (t * y).natAbs ≤ t.natAbs * c * d := by
    rw [Int.natAbs_mul, Nat.mul_assoc]; exact Nat.mul_le_mul_left _ h
  have h2 : |t * y| ≤ ((t.natAbs * c : ℕ) : ℤ) * d := by rw [Int.abs_eq_natAbs]; exact_mod_cast h1
  obtain ⟨a, b⟩ := abs_le.mp h2
  have u : t * y / (d : ℤ) ≤ ((t.natAbs * c : ℕ) : ℤ) := Int.ediv_le_of_le_mul hd' b
  have l : -((t.natAbs * c : ℕ) : ℤ) ≤ t * y / (d : ℤ) := Int.le_ediv_of_mul_le hd' (by linarith)
  omega

theorem tail_step {t v : ℤ} {w c n : ℕ} (h4 : w ≤ (t.natAbs * c + 1 + n) * (c + 1) ^ n)
    (h3 : v.natAbs ≤ t.natAbs + w) : v.natAbs ≤ (t.natAbs + (n + 1)) * (c + 1) ^ (n + 1) := by
  have h5 : t.natAbs ≤ t.natAbs * (c + 1) ^ n := Nat.le_mul_of_pos_right _ (by positivity)
  calc _ ≤ t.natAbs + w := h3
    _ ≤ t.natAbs * (c + 1) ^ n + (t.natAbs * c + 1 + n) * (c + 1) ^ n := by omega
    _ = (t.natAbs * (c + 1) + (n + 1)) * (c + 1) ^ n := by ring
    _ ≤ ((t.natAbs + (n + 1)) * (c + 1)) * (c + 1) ^ n := by
      refine Nat.mul_le_mul_right _ ?_
      rw [Nat.add_mul]; refine Nat.add_le_add_left ?_ _; exact Nat.le_mul_of_pos_right _ (by omega)
    _ = _ := by rw [pow_succ]; ring

theorem trigTail_le {y c : ℕ} (h : y ≤ c * fixOne) : ∀ (n k : ℕ) (t : ℤ),
    (trigTail y n k t).natAbs ≤ (t.natAbs + n) * (c + 1) ^ n := by
  intro n
  induction n with
  | zero => intro k t; simp [trigTail]
  | succ n ih =>
    intro k t
    have h0 : 0 < fixOne * ((k + 1) * (k + 2)) := Nat.mul_pos (by unfold fixOne; positivity) (by positivity)
    have hy : (y : ℤ).natAbs ≤ c * (fixOne * ((k + 1) * (k + 2))) := by
      rw [Int.natAbs_natCast]
      refine h.trans (Nat.mul_le_mul_left _ (Nat.le_mul_of_pos_right _ (by positivity)))
    have h1 := natAbs_div_le (-t) y (fixOne * ((k + 1) * (k + 2))) c h0 hy
    rw [Int.natAbs_neg, Int.neg_mul] at h1
    have h2 := ih (k + 2) (-(t * (y : ℤ)) / (fixOne * ((k + 1) * (k + 2)) : ℕ))
    have h3 := Int.natAbs_add_le t (trigTail y n (k + 2) (-(t * (y : ℤ)) / (fixOne * ((k + 1) * (k + 2)) : ℕ)))
    show (t + trigTail y n (k + 2) (-(t * (y : ℤ)) / (fixOne * ((k + 1) * (k + 2)) : ℕ))).natAbs ≤ _
    generalize trigTail y n (k + 2) (-(t * (y : ℤ)) / (fixOne * ((k + 1) * (k + 2)) : ℕ)) = w at *
    generalize (-(t * (y : ℤ)) / (fixOne * ((k + 1) * (k + 2)) : ℕ)).natAbs = u at *
    exact tail_step (h2.trans (Nat.mul_le_mul_right _ (by omega))) h3

theorem atanTail_le {z : ℕ} (h : z ≤ fixOne) : ∀ n k t, atanTail z n k t ≤ n * t := by
  intro n
  induction n with
  | zero => intro k t; simp [atanTail]
  | succ n ih =>
    intro k t
    have h1 : t * z * (2 * k + 2) / (fixOne * (2 * k + 3)) ≤ t := by
      refine Nat.div_le_of_le_mul ?_
      calc t * z * (2 * k + 2) ≤ t * fixOne * (2 * k + 3) := Nat.mul_le_mul (Nat.mul_le_mul_left _ h) (by omega)
        _ = _ := by ring
    have h2 := (ih (k + 1) (t * z * (2 * k + 2) / (fixOne * (2 * k + 3)))).trans (Nat.mul_le_mul_left n h1)
    show t + atanTail z n (k + 1) (t * z * (2 * k + 2) / (fixOne * (2 * k + 3))) ≤ (n + 1) * t
    rw [Nat.add_mul, Nat.one_mul]; omega

theorem logTail_le {w : ℕ} (h : w ≤ fixOne) : ∀ n k p, logTail w n k p ≤ n * p := by
  intro n
  induction n with
  | zero => intro k p; simp [logTail]
  | succ n ih =>
    intro k p
    have h1 : p * w / fixOne ≤ p :=
      Nat.div_le_of_le_mul (by rw [Nat.mul_comm]; exact Nat.mul_le_mul_right _ h)
    have h2 := (ih (k + 1) (p * w / fixOne)).trans (Nat.mul_le_mul_left n h1)
    have h3 : p / (2 * k + 1) ≤ p := Nat.div_le_self _ _
    show p / (2 * k + 1) + logTail w n (k + 1) (p * w / fixOne) ≤ (n + 1) * p
    rw [Nat.add_mul, Nat.one_mul]; omega

theorem expTail_le {z : ℤ} {c : ℕ} (h : z.natAbs ≤ c * fixOne) : ∀ (n k : ℕ) (t : ℤ),
    (expTail z n k t).natAbs ≤ (t.natAbs + n) * (c + 1) ^ n := by
  intro n
  induction n with
  | zero => intro k t; simp [expTail]
  | succ n ih =>
    intro k t
    have h0 : 0 < fixOne * (k + 2) := Nat.mul_pos (by unfold fixOne; positivity) (by positivity)
    have h1 := natAbs_div_le t z (fixOne * (k + 2)) c h0 (by
      rw [← Nat.mul_assoc]; exact h.trans (Nat.le_mul_of_pos_right _ (by omega)))
    have h2 := ih (k + 1) (t * z / (fixOne * (k + 2) : ℕ))
    have h3 := Int.natAbs_add_le t (expTail z n (k + 1) (t * z / (fixOne * (k + 2) : ℕ)))
    show (t + expTail z n (k + 1) (t * z / (fixOne * (k + 2) : ℕ))).natAbs ≤ _
    generalize expTail z n (k + 1) (t * z / (fixOne * (k + 2) : ℕ)) = w at *
    generalize (t * z / (fixOne * (k + 2) : ℕ)).natAbs = u at *
    exact tail_step (h2.trans (Nat.mul_le_mul_right _ (by omega))) h3

theorem fixBits_nat : fixBits = 320 := rfl

theorem fixOne_le : fixOne ≤ 2 ^ 320 := by unfold fixOne; rw [fixBits_nat]

/-- A bound of one power of two for a product. -/
theorem mul_le_pow {a b p q r : ℕ} (ha : a ≤ 2 ^ p) (hb : b ≤ 2 ^ q) (h : p + q ≤ r) : a * b ≤ 2 ^ r :=
  (Nat.mul_le_mul ha hb).trans (by rw [← pow_add]; exact Nat.pow_le_pow_right (by decide) h)

theorem add_le_pow {a b p q r : ℕ} (ha : a ≤ 2 ^ p) (hb : b ≤ 2 ^ q) (h : max p q + 1 ≤ r) : a + b ≤ 2 ^ r := by
  have h1 : 2 ^ p ≤ 2 ^ max p q := Nat.pow_le_pow_right (by decide) (le_max_left _ _)
  have h2 : 2 ^ q ≤ 2 ^ max p q := Nat.pow_le_pow_right (by decide) (le_max_right _ _)
  have h3 : 2 ^ (max p q + 1) ≤ 2 ^ r := Nat.pow_le_pow_right (by decide) h
  rw [pow_succ] at h3
  omega

theorem small_le_pow {a p q : ℕ} (h : a ≤ 2 ^ p) (hpq : p ≤ q) : a ≤ 2 ^ q := h.trans (Nat.pow_le_pow_right (by decide) hpq)

theorem trigSeries_le {y : ℕ} (h : y ≤ 2 ^ 7 * fixOne) (k : ℕ) : (trigTail y 64 k fixOne).natAbs ≤ 2 ^ 1000 := by
  refine (trigTail_le h 64 k fixOne).trans ?_
  rw [Int.natAbs_natCast]
  refine mul_le_pow (p := 321) (q := 8 * 64) ?_ ?_ (by decide)
  · exact add_le_pow (p := 320) (q := 6) fixOne_le (by decide) (by decide)
  · rw [pow_mul]; exact Nat.pow_le_pow_left (by decide) _

theorem sinSeries_le {y : ℕ} (h : y ≤ 2 ^ 7 * fixOne) : (sinSeries y).natAbs ≤ 2 ^ 1000 := trigSeries_le h 1

theorem cosSeries_le {y : ℕ} (h : y ≤ 2 ^ 7 * fixOne) : (cosSeries y).natAbs ≤ 2 ^ 1000 := trigSeries_le h 0

theorem atanSeries_le {z : ℕ} (h : z ≤ fixOne) : atanSeries z ≤ 2 ^ 330 :=
  (atanTail_le h 400 0 fixOne).trans (mul_le_pow (p := 9) (q := 320) (by decide) fixOne_le (by decide))

theorem logSeries_le {w : ℕ} (h : w ≤ fixOne) : logSeries w ≤ 2 ^ 330 :=
  (logTail_le h 120 0 fixOne).trans (mul_le_pow (p := 7) (q := 320) (by decide) fixOne_le (by decide))

theorem expSeries_le {z : ℤ} (h : z.natAbs ≤ 2 ^ 11 * fixOne) : (expSeries z).natAbs ≤ 2 ^ 2000 := by
  refine (expTail_le h 80 0 fixOne).trans ?_
  rw [Int.natAbs_natCast]
  refine mul_le_pow (p := 321) (q := 12 * 80) ?_ ?_ (by decide)
  · exact add_le_pow (p := 320) (q := 7) fixOne_le (by decide) (by decide)
  · rw [pow_mul]; exact Nat.pow_le_pow_left (by decide) _

theorem fixLn2_le : fixLn2 ≤ 2 ^ 331 :=
  (Nat.div_le_self _ _).trans (mul_le_pow (p := 1) (by decide) (logSeries_le (Nat.div_le_self _ _)) (by decide))

theorem fixPi_le : fixPi ≤ 2 ^ 331 :=
  mul_le_pow (p := 1) (by decide) (atanSeries_le (Nat.div_le_self _ _)) (by decide)

/-! ### The size of the enclosures -/

/-- The upper end is neither so small nor so large that a biased exponent could not hold it. -/
def Enclosure.Moderate (e : Enclosure) : Prop := (2 : ℚ) ^ (-40000 : ℤ) ≤ e.hi.toRat ∧ e.hi.toRat ≤ (2 : ℚ) ^ (40000 : ℤ)

theorem Enclosure.Moderate.log2 {e : Enclosure} (h : e.Sound) (hm : e.Moderate) : -40957 ≤ e.log2 ∧ e.log2 ≤ 40950 := by
  have hp := h.proper
  have hi : e.hi.toRat ≤ (2 : ℚ) ^ (e.log2 + 1) := by
    rcases hp.upper with hu | ⟨-, hu⟩
    · exact hu.le
    · exact hu.le
  have h1 := (zpow_le_zpow_iff_right₀ (one_lt_two : (1 : ℚ) < 2)).mp (hm.1.trans hi)
  have h2 := (zpow_le_zpow_iff_right₀ (one_lt_two : (1 : ℚ) < 2)).mp (hp.lower.trans hm.2)
  omega

/-- A magnitude in a range of exponents. -/
def Mag.Range (m : Mag) (a b : ℤ) : Prop := (2 : ℚ) ^ a ≤ m.toRat ∧ m.toRat ≤ (2 : ℚ) ^ b

theorem Mag.Range.mono {m : Mag} {a b a' b' : ℤ} (h : m.Range a b) (ha : a' ≤ a) (hb : b ≤ b') : m.Range a' b' :=
  ⟨(zpow_le_zpow_right₀ one_le_two ha).trans h.1, h.2.trans (zpow_le_zpow_right₀ one_le_two hb)⟩

theorem Mag.Range.times {m n : Mag} {a b c d : ℤ} (h : m.Range a b) (g : n.Range c d) {r : ℚ} (hr : r = m.toRat * n.toRat) :
    (2 : ℚ) ^ (a + c) ≤ r ∧ r ≤ (2 : ℚ) ^ (b + d) := by
  have p : ∀ k : ℤ, (0 : ℚ) ≤ (2 : ℚ) ^ k := fun k => by positivity
  rw [hr, zpow_add₀ two_ne_zero, zpow_add₀ two_ne_zero]
  exact ⟨mul_le_mul h.1 g.1 (p _) ((p _).trans h.1), mul_le_mul h.2 g.2 ((p _).trans g.1) (p _)⟩

theorem range_pow (k : ℕ) {n : ℕ} (h0 : n ≠ 0) (h : n ≤ 2 ^ k) : Mag.Range ⟨n, 1, 0⟩ 0 k := by
  have e : Mag.toRat ⟨n, 1, 0⟩ = n := by simp [Mag.toRat]
  rw [Mag.Range, e, zpow_zero, zpow_natCast]
  exact ⟨by exact_mod_cast Nat.pos_of_ne_zero h0, by exact_mod_cast h⟩

theorem fixSlack_le : fixSlack ≤ 2 ^ 30 := by decide

theorem fixBits_eq : (fixBits : ℤ) = 320 := by decide

theorem range_between {a : Mag} {l u : ℤ} (ha : a.Range l u) {f c F : ℕ} (hf : f ≤ 2 ^ F) (hc : 0 < c) (hc' : c ≤ 2 ^ 30)
    {k : ℤ} (hk : k = a.exp - 320) : Mag.Range ⟨a.num * (f + c), a.den, k⟩ (l - 320) (u - 320 + (max F 30 + 1 : ℕ)) := by
  have hf' : f + c ≤ 2 ^ (max F 30 + 1) := add_le_pow hf hc' le_rfl
  have := ha.times (range_pow _ (by omega) hf') (r := Mag.toRat ⟨a.num * (f + c), a.den, k⟩ * (2 : ℚ) ^ (320 : ℤ)) (by
    unfold Mag.toRat
    rw [hk, sub_eq_add_neg, zpow_add₀ two_ne_zero, mul_assoc, mul_assoc, ← zpow_add₀ two_ne_zero]
    push_cast
    norm_num
    ring)
  have p : (0 : ℚ) < (2 : ℚ) ^ (320 : ℤ) := by positivity
  rw [Mag.Range,
      show l - 320 = l + 0 - 320 by ring, show u - 320 + ((max F 30 + 1 : ℕ) : ℤ) = u + ((max F 30 + 1 : ℕ) : ℤ) - 320 by ring,
    zpow_sub₀ two_ne_zero, zpow_sub₀ two_ne_zero, div_le_iff₀ p, le_div_iff₀ p]
  exact this

theorem range_enclose (neg : Bool) {a : Mag} {l u : ℤ} (ha : a.Range l u) {f F : ℕ} (hf : f ≤ 2 ^ F) :
    (enclose neg a f).hi.Range (l - 320) (u - 320 + (max F 30 + 1 : ℕ)) :=
  range_between ha hf fixSlack_pos fixSlack_le (by rw [fixBits_eq])

theorem range_ratio {a : Mag} {l u : ℤ} (ha : a.Range l u) {f g c F G : ℕ} (hf : f ≤ 2 ^ F) (hg : g ≤ 2 ^ G) (hc : 0 < c)
    (hc' : c ≤ 2 ^ 30) :
    Mag.Range ⟨a.num * (f + c), a.den * max (g - c) 1, a.exp⟩ (l - G) (u + (max F 30 + 1 : ℕ)) := by
  have hf' : f + c ≤ 2 ^ (max F 30 + 1) := add_le_pow hf hc' le_rfl
  have hd : max (g - c) 1 ≤ 2 ^ G := by have := Nat.one_le_two_pow (n := G); omega
  have h1 : 1 ≤ max (g - c) 1 := le_max_right _ _
  generalize max (g - c) 1 = d at *
  have hd0 : (1 : ℚ) ≤ (d : ℕ) := by exact_mod_cast h1
  have hd1 : (d : ℚ) ≤ (2 : ℚ) ^ (G : ℤ) := by rw [zpow_natCast]; exact_mod_cast hd
  obtain ⟨t1, t2⟩ := ha.times (range_pow _ (by omega) hf')
    (r := Mag.toRat ⟨a.num * (f + c), a.den * d, a.exp⟩ * d) (by
      unfold Mag.toRat
      push_cast
      rw [div_one, mul_one, ← div_div, div_mul_eq_mul_div, div_mul_cancel₀ _ (by linarith : (d : ℚ) ≠ 0)]
      ring)
  have p := Mag.toRat_nonneg ⟨a.num * (f + c), a.den * d, a.exp⟩
  rw [add_zero] at t1
  rw [Mag.Range, zpow_sub₀ two_ne_zero, div_le_iff₀ (by positivity)]
  exact ⟨t1.trans (mul_le_mul_of_nonneg_left hd1 p), (le_mul_of_one_le_right p hd0).trans t2⟩

theorem range_encloseRatio (neg : Bool) {a : Mag} {l u : ℤ} (ha : a.Range l u) {f g F G : ℕ} (hf : f ≤ 2 ^ F) (hg : g ≤ 2 ^ G) :
    (encloseRatio neg a f g).hi.Range (l - G) (u + (max F 30 + 1 : ℕ)) := range_ratio ha hf hg fixSlack_pos fixSlack_le

theorem range_atMost {e : Enclosure} (h : e.Sound) {m : Mag} (hd : m.den ≠ 0) {l u : ℤ} (he : (2 : ℚ) ^ l ≤ e.hi.toRat)
    (hm : m.Range l u) : (e.atMost m).hi.Range l u := by
  unfold Enclosure.atMost
  split
  · rename_i hc; exact ⟨he, ((Mag.le_iff h.hiDen hd).mp hc).trans hm.2⟩
  · exact hm

theorem range_atLeast {e : Enclosure} {m : Mag} {l u : ℤ} (he : e.hi.Range l u) (hm : m.Range l u) :
    (e.atLeast m).hi.Range l u := by
  unfold Enclosure.atLeast
  split
  · exact he
  · simp only; split
    · exact he
    · exact hm

/-! ### The size of the true values -/

theorem range_magOf {x : Ext} (hf : isFinite x = true) (h : realOf x ≠ 0) : (magOf x).Range (-16445) 16384 := by
  have h0 := sigOf_ne_of h
  refine ⟨?_, by rw [← abs_realOf]; exact (abs_realOf_lt hf).le⟩
  obtain ⟨k, hk⟩ := realOf_multiple x
  rw [← abs_realOf, hk, abs_mul, abs_of_pos (show (0 : ℚ) < (2 : ℚ) ^ (-16445 : ℤ) by positivity)]
  refine le_mul_of_one_le_left (by positivity) ?_
  have : k ≠ 0 := by rintro rfl; simp at hk; exact h hk
  exact_mod_cast Int.one_le_abs this

/-- The reduced angle of a non-zero operand. -/
theorem range_reduceAngle {x : Ext} (h : realOf x ≠ 0) : (reduceAngle (valOf x)).mag.Range (-16445) 3 := by
  have h0 := reduceAngle_num (x := valOf x) (sigOf_ne_of h) (sigOf_lt x)
  have he : -16445 ≤ (valOf x).mag.exp := by show -16445 ≤ (magOf x).exp; unfold magOf; simp only; omega
  unfold reduceAngle reduceTurns at h0 ⊢
  simp only at h0 ⊢
  generalize hq : min (valOf x).mag.exp (-63) = q at *
  have hm : 0 < p66 <<< (-63 - q).toNat := by
    rw [Nat.shiftLeft_eq]; exact Nat.mul_pos (by decide) (by positivity)
  have hmod := Nat.mod_lt ((valOf x).mag.num <<< ((valOf x).mag.exp - q).toNat) hm
  have hmq : ((p66 <<< (-63 - q).toNat : ℕ) : ℚ) * (2 : ℚ) ^ q ≤ (2 : ℚ) ^ (3 : ℤ) := by
    rw [Nat.shiftLeft_eq]
    push_cast
    rw [← zpow_natCast, Int.toNat_of_nonneg (by omega), mul_assoc, ← zpow_add₀ two_ne_zero, sub_add_cancel]
    have : (p66 : ℚ) ≤ (2 : ℚ) ^ (66 : ℤ) := by unfold p66; norm_num
    calc _ ≤ (2 : ℚ) ^ (66 : ℤ) * (2 : ℚ) ^ (-63 : ℤ) := mul_le_mul_of_nonneg_right this (by positivity)
      _ = _ := by rw [← zpow_add₀ two_ne_zero]; congr 1
  have key : ∀ r : ℕ, r ≠ 0 → r ≤ p66 <<< (-63 - q).toNat → Mag.Range ⟨r, 1, q⟩ (-16445) 3 := by
    intro r hr hle
    have e : Mag.toRat ⟨r, 1, q⟩ = r * (2 : ℚ) ^ q := by simp [Mag.toRat]
    rw [Mag.Range, e]
    have hr1 : (1 : ℚ) ≤ r := by exact_mod_cast Nat.pos_of_ne_zero hr
    have hr2 : (r : ℚ) ≤ ((p66 <<< (-63 - q).toNat : ℕ) : ℚ) := by exact_mod_cast hle
    exact ⟨(zpow_le_zpow_right₀ one_le_two (by omega)).trans (le_mul_of_one_le_left (by positivity) hr1),
      (mul_le_mul_of_nonneg_right hr2 (by positivity)).trans hmq⟩
  split at h0
  · rename_i hc; rw [if_pos hc]; exact key _ h0 hmod.le
  · rename_i hc; rw [if_neg hc]; exact key _ h0 (Nat.sub_le _ _)

theorem shiftNat_le (n : ℕ) (k : ℤ) : (shiftNat n k : ℚ) ≤ n * (2 : ℚ) ^ k := by
  unfold shiftNat
  rw [Nat.shiftRight_eq_div_pow]
  refine Nat.cast_div_le.trans (le_of_eq ?_)
  have := shift_ratio n 1 k
  simp only [Nat.shiftLeft_eq, Nat.one_mul, Nat.cast_one, div_one] at this ⊢
  exact this

theorem squareFix_le {x : Ext} (h : realOf x ≠ 0) : squareFix (reduceAngle (valOf x)).mag ≤ 2 ^ 7 * fixOne := by
  have hr := range_reduceAngle h
  have hd : (reduceAngle (valOf x)).mag.den = 1 := by
    unfold reduceAngle reduceTurns; simp only; split <;> rfl
  have ht : (reduceAngle (valOf x)).mag.toRat = (reduceAngle (valOf x)).mag.num * (2 : ℚ) ^ (reduceAngle (valOf x)).mag.exp := by
    unfold Mag.toRat; rw [hd]; simp
  generalize (reduceAngle (valOf x)).mag = t at *
  have h1 : (squareFix t : ℚ) ≤ (2 : ℚ) ^ (6 : ℤ) * (2 : ℚ) ^ (320 : ℤ) := by
    unfold squareFix
    refine (shiftNat_le _ _).trans ?_
    rw [fixBits_eq, zpow_add₀ two_ne_zero, ← mul_assoc]
    refine mul_le_mul_of_nonneg_right ?_ (by positivity)
    have : ((t.num * t.num : ℕ) : ℚ) * (2 : ℚ) ^ (2 * t.exp) = t.toRat * t.toRat := by
      rw [ht, two_mul, zpow_add₀ two_ne_zero]; push_cast; ring
    rw [this, show (6 : ℤ) = 3 + 3 by norm_num, zpow_add₀ two_ne_zero]
    exact mul_le_mul hr.2 hr.2 (Mag.toRat_nonneg _) (by positivity)
  have h2 : (fixOne : ℚ) = (2 : ℚ) ^ (320 : ℤ) := by
    rw [← fixBits_eq, zpow_natCast]; unfold fixOne; rw [Nat.cast_pow, Nat.cast_ofNat]
  rw [← h2] at h1
  generalize fixOne = F at *
  have h3 : (squareFix t : ℚ) ≤ ((2 ^ 6 * F : ℕ) : ℚ) := by push_cast; exact_mod_cast h1
  have h4 : squareFix t ≤ 2 ^ 6 * F := by exact_mod_cast h3
  omega

theorem Mag.Range.hi {e : Enclosure} {a b : ℤ} (h : e.hi.Range a b) (ha : -40000 ≤ a) (hb : b ≤ 40000) : e.Moderate :=
  h.mono ha hb

theorem range_one : Mag.one.Range 0 0 := by
  rw [Mag.Range, Mag.one, pow_toRat]; exact ⟨le_rfl, le_rfl⟩

theorem range_trueSin {x : Ext} (h : realOf x ≠ 0) : (trueSin (valOf x)).Moderate := by
  have ht := range_reduceAngle h
  have h0 := reduceAngle_num (x := valOf x) (sigOf_ne_of h) (sigOf_lt x)
  have he := range_enclose (reduceAngle (valOf x)).neg ht (sinSeries_le (squareFix_le h))
  exact (range_atMost (sound_enclose _ h0 (reduceAngle_den _) _) (reduceAngle_den _) he.1
    (ht.mono (by decide) le_rfl)).hi (by decide) (by decide)

theorem range_trueCos {x : Ext} (h : realOf x ≠ 0) : (trueCos (valOf x)).Moderate := by
  have he := fun b => range_enclose b range_one (cosSeries_le (squareFix_le h))
  exact (range_atMost (sound_enclose _ one_ne_zero one_ne_zero _) one_ne_zero (he _).1
    (range_one.mono (by decide) le_rfl)).hi (by decide) (by decide)

theorem range_trueTan {x : Ext} (h : realOf x ≠ 0) : (trueTan (valOf x)).Moderate := by
  have ht := range_reduceAngle h
  have he := fun b => range_encloseRatio b ht (sinSeries_le (squareFix_le h)) (cosSeries_le (squareFix_le h))
  unfold trueTan
  simp only
  split
  · exact (he _).hi (by decide) (by decide)
  · exact (range_atLeast (he _) (ht.mono (by decide) (by decide))).hi (by decide) (by decide)

theorem range_quarterPi (neg : Bool) {n : ℕ} (h : n ≠ 0) (h4 : n ≤ 4) : (quarterPi neg n).Moderate := by
  have : Mag.Range ⟨n, 1, -2⟩ (-2) 0 := by
    have e : Mag.toRat ⟨n, 1, -2⟩ = n * (2 : ℚ) ^ (-2 : ℤ) := by simp [Mag.toRat]
    have h1 : (1 : ℚ) ≤ n := by exact_mod_cast Nat.pos_of_ne_zero h
    have h2 : (n : ℚ) ≤ 4 := by exact_mod_cast h4
    have p : (0 : ℚ) ≤ (2 : ℚ) ^ (-2 : ℤ) := by positivity
    rw [Mag.Range, e]
    refine ⟨le_mul_of_one_le_left p h1, (mul_le_mul_of_nonneg_right h2 p).trans (le_of_eq ?_)⟩
    norm_num
  exact (range_enclose neg this fixPi_le).hi (by decide) (by decide)

theorem part_le (n d : ℕ) : n * n * fixOne / (n * n + d * d) ≤ fixOne := by
  refine Nat.div_le_of_le_mul ?_
  exact Nat.mul_le_mul_right _ (Nat.le_add_right _ _)

theorem atanFix_le (n d : ℕ) : atanFix n d ≤ 2 ^ 330 := by
  unfold atanFix
  refine (Nat.div_le_of_le_mul ?_).trans (atanSeries_le (part_le n d))
  refine Nat.mul_le_mul_right _ ?_
  nlinarith [sq_nonneg ((n : ℤ) - d), Nat.le_total n d,
      (by zify; nlinarith [sq_nonneg ((n : ℤ) - d)] : 2 * (n * d) ≤ n * n + d * d)]

theorem range_atanRatio {n d : ℕ} (hn : n ≠ 0) (hd : d ≠ 0) (hle : n ≤ d) (h : (2 : ℚ) ^ (-32829 : ℤ) ≤ (n : ℚ) / d) :
    (atanRatio n d).Moderate := by
  have np : (0 : ℚ) < n := by exact_mod_cast Nat.pos_of_ne_zero hn
  have dp : (0 : ℚ) < d := by exact_mod_cast Nat.pos_of_ne_zero hd
  have hle' : (n : ℚ) ≤ d := by exact_mod_cast hle
  have hr1 : Mag.Range ⟨n, d, 0⟩ (-32829) 0 := by
    have e : Mag.toRat ⟨n, d, 0⟩ = (n : ℚ) / d := by simp [Mag.toRat]
    rw [Mag.Range, e, zpow_zero]
    exact ⟨h, by rw [div_le_one dp]; exact hle'⟩
  have hs0 : n * n + d * d ≠ 0 := Nat.ne_of_gt (Nat.add_pos_left (Nat.pos_of_ne_zero (Nat.mul_ne_zero hn hn)) _)
  have hr2 : Mag.Range ⟨n * d, n * n + d * d, 0⟩ (-32830) 0 := by
    have e : Mag.toRat ⟨n * d, n * n + d * d, 0⟩ = (n * d : ℚ) / (n * n + d * d) := by simp [Mag.toRat]
    have sp : (0 : ℚ) < n * n + d * d := by positivity
    rw [Mag.Range, e, zpow_zero]
    constructor
    · rw [le_div_iff₀ sp]
      rw [le_div_iff₀ dp] at h
      have p1 : (0 : ℚ) < (2 : ℚ) ^ (-32830 : ℤ) := by positivity
      have e2 : (2 : ℚ) ^ (-32829 : ℤ) = 2 * (2 : ℚ) ^ (-32830 : ℤ) := by
        rw [show (-32829 : ℤ) = 1 + (-32830) by norm_num, zpow_add₀ two_ne_zero, zpow_one]
      rw [e2] at h
      generalize (2 : ℚ) ^ (-32830 : ℤ) = w at *
      nlinarith [mul_le_mul_of_nonneg_right h dp.le, mul_le_mul hle' hle' np.le dp.le]
    · rw [div_le_one sp]; nlinarith [sq_nonneg ((n : ℚ) - d)]
  have he := range_enclose false hr2 (atanSeries_le (part_le n d))
  exact (range_atMost (sound_enclose _ (a := ⟨n * d, n * n + d * d, 0⟩) (Nat.mul_ne_zero hn hd) hs0 _) hd
    he.1 (hr1.mono (by decide) le_rfl)).hi (by decide) (by decide)

theorem shift_toRat {m : Mag} (hd : m.den = 1) {q : ℤ} (h : q ≤ m.exp) :
    ((m.num <<< (m.exp - q).toNat : ℕ) : ℚ) = m.toRat * (2 : ℚ) ^ (-q) := by
  unfold Mag.toRat
  rw [hd, Nat.shiftLeft_eq]
  push_cast
  rw [← zpow_natCast, Int.toNat_of_nonneg (by omega), sub_eq_add_neg, zpow_add₀ two_ne_zero]
  ring

theorem Enclosure.Moderate.neg {e : Enclosure} (h : e.Moderate) (b : Bool) : ({ e with neg := b } : Enclosure).Moderate := h

theorem ratio_low {n d : ℕ} {a b : ℚ} (d0 : d ≠ 0) (ha : (2 : ℚ) ^ (-16445 : ℤ) ≤ a) (hb : b ≤ (2 : ℚ) ^ (16384 : ℤ))
    {k : ℤ} (hn : (n : ℚ) = a * (2 : ℚ) ^ k) (hd : (d : ℚ) = b * (2 : ℚ) ^ k) : (2 : ℚ) ^ (-32829 : ℤ) ≤ (n : ℚ) / d := by
  have dp : (0 : ℚ) < d := by exact_mod_cast Nat.pos_of_ne_zero d0
  rw [le_div_iff₀ dp, hn, hd, ← mul_assoc]
  refine mul_le_mul_of_nonneg_right ?_ (by positivity)
  refine (mul_le_mul_of_nonneg_left hb (by positivity)).trans (le_trans (le_of_eq ?_) ha)
  rw [← zpow_add₀ two_ne_zero, show (-32829 + 16384 : ℤ) = -16445 by norm_num]

theorem range_trueAtan2 {y x : Ext} (hfy : isFinite y = true) (hfx : isFinite x = true) (hy : realOf y ≠ 0)
    (hx : realOf x ≠ 0) : (trueAtan2 (valOf y) (valOf x)).Moderate := by
  have hyr : (valOf y).mag.Range (-16445) 16384 := range_magOf hfy hy
  have hxr : (valOf x).mag.Range (-16445) 16384 := range_magOf hfx hx
  have n0 := fun k => shiftLeft_ne (k := k) (n := (valOf y).mag.num) (sigOf_ne_of hy)
  have d0 := fun k => shiftLeft_ne (k := k) (n := (valOf x).mag.num) (sigOf_ne_of hx)
  have yd : (valOf y).mag.den = 1 := rfl
  have xd : (valOf x).mag.den = 1 := rfl
  generalize valOf y = y at *
  generalize valOf x = x at *
  have one := fun (b : Bool) (f F : ℕ) (hf : f ≤ 2 ^ F) => range_enclose b range_one hf
  have hp := fixPi_le
  unfold trueAtan2
  generalize fixPi = P at *
  simp only
  have hn := shift_toRat yd (q := min y.mag.exp x.mag.exp) (min_le_left _ _)
  have hdq := shift_toRat xd (q := min y.mag.exp x.mag.exp) (min_le_right _ _)
  have n0' := n0 (y.mag.exp - min y.mag.exp x.mag.exp).toNat
  have d0' := d0 (x.mag.exp - min y.mag.exp x.mag.exp).toNat
  generalize y.mag.num <<< (y.mag.exp - min y.mag.exp x.mag.exp).toNat = n at *
  generalize x.mag.num <<< (x.mag.exp - min y.mag.exp x.mag.exp).toNat = d at *
  split
  · rename_i hle
    split
    · exact (one _ _ _ ((Nat.sub_le _ _).trans hp)).hi (by decide) (by decide)
    · exact (range_atanRatio n0' d0' hle (ratio_low d0' hyr.1 hxr.2 hn hdq)).neg _
  · split
    · exact (one _ _ 332 (add_le_pow ((Nat.div_le_self _ _).trans hp) (atanFix_le _ _) (by decide))).hi (by decide) (by decide)
    · exact (one _ _ _ ((Nat.sub_le _ _).trans ((Nat.div_le_self _ _).trans hp))).hi (by decide) (by decide)

theorem range_log2Near {n : ℤ} {d : ℕ} (hn : n ≠ 0) (hd : -n ≤ d) {k : ℕ} (hk : d ≤ 2 ^ k) (hnd : n ≤ 2 * d) :
    (log2Near n d).hi.Range (-(k : ℤ) - 333) 332 := by
  unfold log2Near
  simp only
  have hs1 : n.natAbs ≤ ((2 * d : ℕ) + n).toNat := by omega
  have hs2 : ((2 * d : ℕ) + n).toNat ≤ 2 ^ (k + 2) := by rw [pow_add]; omega
  have hn1 : 1 ≤ n.natAbs := Int.natAbs_pos.mpr hn
  have hw : n.natAbs * n.natAbs * fixOne / (((2 * d : ℕ) + n).toNat * ((2 * d : ℕ) + n).toNat) ≤ fixOne :=
    Nat.div_le_of_le_mul (Nat.mul_le_mul_right _ (Nat.mul_le_mul hs1 hs1))
  generalize ((2 * d : ℕ) + n).toNat = s at *
  generalize n.natAbs = a at *
  have hr : Mag.Range ⟨2 * a, s, 0⟩ (-(k : ℤ) - 2) 1 := by
    have e : Mag.toRat ⟨2 * a, s, 0⟩ = (2 * a : ℚ) / s := by simp [Mag.toRat]
    have sp : (0 : ℚ) < s := by exact_mod_cast (by omega : 0 < s)
    have a1 : (1 : ℚ) ≤ a := by exact_mod_cast hn1
    have a2 : (a : ℚ) ≤ s := by exact_mod_cast hs1
    have s2 : (s : ℚ) ≤ (2 : ℚ) ^ ((k : ℤ) + 2) := by
      have : (s : ℚ) ≤ ((2 ^ (k + 2) : ℕ) : ℚ) := by exact_mod_cast hs2
      refine this.trans (le_of_eq ?_)
      push_cast
      rw [← zpow_natCast]; push_cast; rfl
    rw [Mag.Range, e, zpow_one]
    constructor
    · rw [le_div_iff₀ sp, show -(k : ℤ) - 2 = -((k : ℤ) + 2) by ring, zpow_neg]
      have p : (0 : ℚ) < (2 : ℚ) ^ ((k : ℤ) + 2) := by positivity
      rw [inv_mul_le_iff₀ p]
      nlinarith
    · rw [div_le_iff₀ sp]; linarith
  exact (range_encloseRatio _ hr (logSeries_le hw) fixLn2_le).mono (by push_cast; omega) (by decide)

theorem range_trueLog2 {x : Ext} (h : 0 < realOf x) (h1 : realOf x ≠ 1) : (trueLog2 (magOf x)).hi.Range (-1000) 1100 := by
  have hx := sigOf_ne_of h.ne'
  have hexp : (magOf x).exp.natAbs ≤ 2 ^ 15 := by
    have := expOf_lt x
    unfold magOf; simp only; omega
  have hnum : (magOf x).num < 2 ^ 64 := sigOf_lt x
  have hs := sound_trueLog2 h h1
  have hl := (Nat.log2_lt hx).mpr hnum
  unfold trueLog2 at hs ⊢
  simp only at hs ⊢
  have hl' : (if 3 * 2 ^ (magOf x).num.log2 ≤ 2 * (magOf x).num then (magOf x).num.log2 + 1 else (magOf x).num.log2) ≤ 64 := by
    split <;> omega
  have hln : 2 ^ (if 3 * 2 ^ (magOf x).num.log2 ≤ 2 * (magOf x).num then (magOf x).num.log2 + 1 else (magOf x).num.log2) ≤ 2 * (magOf x).num := by
    have := Nat.log2_self_le hx
    split
    · rw [pow_succ]; omega
    · omega
  have hln' : (magOf x).num ≤ 2 * 2 ^ (if 3 * 2 ^ (magOf x).num.log2 ≤ 2 * (magOf x).num then (magOf x).num.log2 + 1 else (magOf x).num.log2) := by
    have : (magOf x).num < 2 ^ ((magOf x).num.log2 + 1) := Nat.lt_log2_self
    rw [pow_succ] at this
    split
    · rw [pow_succ]; omega
    · omega
  generalize (if 3 * 2 ^ (magOf x).num.log2 ≤ 2 * (magOf x).num then (magOf x).num.log2 + 1 else (magOf x).num.log2) = l at *
  have hd : 2 ^ l ≤ 2 ^ 64 := Nat.pow_le_pow_right (by decide) hl'
  have hd0 : 2 ^ l ≠ 0 := by positivity
  generalize hD : 2 ^ l = d at *
  generalize magOf x = m at *
  split
  · rename_i hn
    rw [if_pos hn] at hs
    have he0 : (m.exp + l).natAbs ≠ 0 := hs.hiNum
    exact (range_pow 16 he0 (by omega)).mono (by decide) (by decide)
  · rename_i hn
    split
    · exact (range_log2Near hn (by omega) hd (by omega)).mono (by decide) (by decide)
    · have hb : ((m.num : ℤ) - d).natAbs ≤ 2 ^ 65 := by omega
      have hw : ((m.num : ℤ) - d).natAbs * ((m.num : ℤ) - d).natAbs * fixOne / ((m.num + d) * (m.num + d)) ≤ fixOne :=
        Nat.div_le_of_le_mul (Nat.mul_le_mul_right _ (Nat.mul_le_mul (by omega) (by omega)))
      have hS := logSeries_le hw
      generalize logSeries (((m.num : ℤ) - d).natAbs * ((m.num : ℤ) - d).natAbs * fixOne / ((m.num + d) * (m.num + d))) = S at *
      have hf : (2 * ((m.num : ℤ) - d) * S * fixOne / ((m.num + d) * fixLn2 : ℕ)).natAbs ≤ 2 ^ 716 := by
        refine (Int.natAbs_ediv_le_natAbs _ _).trans ?_
        rw [Int.natAbs_mul, Int.natAbs_mul, Int.natAbs_mul, Int.natAbs_natCast, Int.natAbs_natCast]
        exact mul_le_pow (mul_le_pow (mul_le_pow (p := 1) (by decide) hb (r := 66) (by decide)) hS (r := 396) (by decide)) fixOne_le (by decide)
      have he : ((m.exp + l) * (fixOne : ℤ)).natAbs ≤ 2 ^ 337 := by
        rw [Int.natAbs_mul, Int.natAbs_natCast]
        exact mul_le_pow (p := 17) (by omega) fixOne_le (by decide)
      generalize 2 * ((m.num : ℤ) - d) * S * fixOne / ((m.num + d) * fixLn2 : ℕ) = f at *
      generalize (m.exp + l) * (fixOne : ℤ) = g at *
      have hv : (g + f).natAbs ≤ 2 ^ 717 := (Int.natAbs_add_le g f).trans (add_le_pow he hf (by decide))
      exact (range_enclose _ range_one hv).mono (by decide) (by decide)

theorem range_trueLog2p1 {x : Ext} (h : realOf x ≠ 0) (h1 : |realOf x| ≤ 1) : (trueLog2p1 (valOf x)).hi.Range (-16800) 332 := by
  have hx := sigOf_ne_of h
  unfold trueLog2p1
  have hs : (valOf x).mag = magOf x := rfl
  rw [hs]
  simp only
  have hle : (magOf x).num <<< (magOf x).exp.toNat ≤ 2 ^ (-(magOf x).exp).toNat := by
    rw [abs_realOf] at h1
    have := (Mag.le_iff (a := magOf x) (b := ⟨1, 1, 0⟩) (magOf_den x) one_ne_zero).mpr (by rw [pow_toRat]; simpa using h1)
    unfold Mag.le at this
    rw [show (magOf x).den = 1 from rfl] at this
    simpa [Nat.shiftLeft_eq] using this
  have h0 := shiftLeft_ne (k := (magOf x).exp.toNat) hx
  obtain ⟨K, hK⟩ : ∃ K : ℕ, K = 16445 := ⟨_, rfl⟩
  have hk : 2 ^ (-(magOf x).exp).toNat ≤ 2 ^ K :=
    Nat.pow_le_pow_right (by decide) (by unfold magOf; simp only; omega)
  generalize (magOf x).num <<< (magOf x).exp.toNat = n at *
  generalize 2 ^ (-(magOf x).exp).toNat = d at *
  have : -(K : ℤ) - 333 ≥ -16800 := by omega
  refine (range_log2Near (k := K) ?_ ?_ hk ?_).mono this le_rfl
  · split <;> omega
  · split <;> omega
  · split <;> omega

theorem range_trueExp2m1 {x : Ext} (hf : isFinite x = true) (h : realOf x ≠ 0) (h1 : |realOf x| ≤ 1) :
    (trueExp2m1 (valOf x)).Moderate := by
  unfold trueExp2m1
  split
  · have : Mag.Range ⟨1, 1, if (valOf x).neg = true then -1 else 0⟩ (-1) 0 := by
      rw [Mag.Range, pow_toRat]
      split
      · exact ⟨le_rfl, zpow_le_zpow_right₀ one_le_two (by decide)⟩
      · exact ⟨zpow_le_zpow_right₀ one_le_two (by decide), le_rfl⟩
    exact Mag.Range.hi (e := .exactly _) this (by decide) (by decide)
  · have hx := range_magOf hf h
    have hL := fixLn2_le
    generalize fixLn2 = L at *
    have hz : shiftNat ((magOf x).num * L) (magOf x).exp ≤ 2 ^ 331 := by
      have h2 : (shiftNat ((magOf x).num * L) (magOf x).exp : ℚ) ≤ (L : ℚ) := by
        refine (shiftNat_le _ _).trans ?_
        rw [abs_realOf, magOf_toRat] at h1
        push_cast
        have e : ((magOf x).num : ℚ) * (2 : ℚ) ^ (magOf x).exp ≤ 1 := h1
        nlinarith [(by positivity : (0 : ℚ) ≤ (L : ℚ))]
      have h3 : shiftNat ((magOf x).num * L) (magOf x).exp ≤ L := by exact_mod_cast h2
      exact h3.trans hL
    have hz2 : shiftNat ((magOf x).num * L) (magOf x).exp ≤ 2 ^ 11 * fixOne := by
      refine hz.trans ?_
      rw [show (331 : ℕ) = 11 + 320 from rfl, pow_add]
      refine Nat.mul_le_mul_left _ ?_
      unfold fixOne; rw [fixBits_nat]
    have hS : (expSeries (if (valOf x).neg = true then -(shiftNat ((magOf x).num * L) (magOf x).exp : ℤ)
        else shiftNat ((magOf x).num * L) (magOf x).exp)).natAbs ≤ 2 ^ 2000 := by
      refine expSeries_le ?_
      split
      · rw [Int.natAbs_neg, Int.natAbs_natCast]; exact hz2
      · rw [Int.natAbs_natCast]; exact hz2
    have hfin := mul_le_pow hS hL (r := 2331) (by decide)
    exact (range_enclose _ hx ((Nat.div_le_self _ fixOne).trans hfin)).hi (by decide) (by decide)

theorem range_times {e : Enclosure} {a b : ℤ} (h : e.hi.Range a b) (ha : -23000 ≤ a) (hb : b ≤ 23000) {y : Ext}
    (hf : isFinite y = true) (hy : realOf y ≠ 0) : (e.times (valOf y)).Moderate := by
  have hr := h.times (range_magOf hf hy) (r := (e.times (valOf y)).hi.toRat) (by
    unfold Enclosure.times Mag.toRat
    have h2 : (valOf y).mag = magOf y := rfl
    simp only [h2]
    rw [zpow_add₀ two_ne_zero]; push_cast
    rw [mul_div_mul_comm]; ring)
  exact ⟨(zpow_le_zpow_right₀ one_le_two (by omega)).trans hr.1,
    hr.2.trans (zpow_le_zpow_right₀ one_le_two (by omega))⟩

theorem finite_of_ordered {x : Ext} (h : isOrdered x = true) (hi : ¬ classOf x = .infinity) : isFinite x = true := by
  unfold isOrdered isNaN at h; unfold isFinite
  cases hc : classOf x <;> simp_all

/-- The enclosure of every function at every operand of its domain. -/
theorem range_trueValue {f : TranscFn} {y x : Ext} (h : InDomain f y x) : (trueValue f y x).Moderate := by
  unfold InDomain at h
  cases f with
  | sin => unfold trueValue; exact range_trueSin h.2.1
  | cos => unfold trueValue; exact range_trueCos h.2.1
  | tan => unfold trueValue; exact range_trueTan h.2.1
  | atan2 =>
    obtain ⟨hy, hx, hn⟩ := h
    show ((atan2Value y x).getD _).Moderate
    have q := fun n h0 h4 => range_quarterPi (signOf y) (n := n) h0 h4
    unfold atan2Value
    simp only
    by_cases hz : classOf y = .zero
    · have hs : signOf x = true := by
        by_contra hc; exact hn ⟨by simpa using hc, .inl hz⟩
      rw [if_pos hz, if_pos hs]; exact q 4 (by decide) (by decide)
    · rw [if_neg hz]
      by_cases hi : classOf y = .infinity
      · rw [if_pos hi]
        split
        · refine q _ ?_ ?_ <;> split <;> decide
        · exact q 2 (by decide) (by decide)
      · have hf := finite_of_ordered hy hi
        rw [if_neg hi]
        split
        · exact q 2 (by decide) (by decide)
        · rename_i hxz
          split
          · rename_i hxi
            have hs : signOf x = true := by
              by_contra hc; exact hn ⟨by simpa using hc, .inr ⟨hf, hxi⟩⟩
            rw [if_pos hs]; exact q 4 (by decide) (by decide)
          · rename_i hxi
            have hfx := finite_of_ordered hx hxi
            exact range_trueAtan2 hf hfx (fun h => hz ((realOf_eq_zero_iff_zero hf).mp h))
              (fun h => hxz ((realOf_eq_zero_iff_zero hfx).mp h))
  | ylog2x => exact range_times (range_trueLog2 h.2.1 h.2.2.1) (by decide) (by decide) h.2.2.2.1 h.2.2.2.2
  | ylog2xp1 => exact range_times (range_trueLog2p1 h.2.1 h.2.2.1) (by decide) (by decide) h.2.2.2.2.1 h.2.2.2.2.2
  | exp2m1 => exact range_trueExp2m1 h.1 h.2.1 h.2.2

end Sys2Proof.Machine
end

