-- ==== Sys2Proof/Laws/Candidates.lean ====
section
/-! SUPPORT. The candidates of a transcendental result, and everything `Transc` delivers (45_transcendental.md R421, R422):
a candidate is within the error bound, there is one at every operand of the domain, the candidates of later operands are no
smaller, and `Transc` delivers one (`transc_delivers`). -/

namespace Sys2Proof.Machine

/-- The test for a candidate, as inequalities between rational numbers. -/
theorem withinBound_iff {e : Enclosure} (h : e.Sound) (c b : ℕ) (q : ℤ) :
    withinBound e c b q = true ↔ ((c : ℚ) - b) * (2 : ℚ) ^ q < e.hi.toRat ∧ e.lo.toRat < ((c : ℚ) + b) * (2 : ℚ) ^ q := by
  have two : (0 : ℚ) < (2 : ℚ) ^ q := by positivity
  have hp := Mag.toRat_pos h.hiNum h.hiDen
  have g : ∀ n : ℕ, Mag.toRat ⟨n, 1, q⟩ = (n : ℚ) * (2 : ℚ) ^ q := fun n => by simp [Mag.toRat]
  unfold withinBound
  rw [Bool.and_eq_true, Bool.or_eq_true, Bool.not_eq_true', Bool.not_eq_true', ← Bool.not_eq_true, ← Bool.not_eq_true,
    Mag.le_iff h.hiDen one_ne_zero, Mag.le_iff one_ne_zero h.loDen, not_le, not_le, decide_eq_true_eq, g, g, Nat.cast_add]
  refine and_congr_left fun _ => ?_
  rcases Nat.lt_or_ge c b with hc | hc
  · refine iff_of_true (.inl hc) ((mul_nonpos_of_nonpos_of_nonneg ?_ two.le).trans_lt hp)
    have : (c : ℚ) < b := by exact_mod_cast hc
    linarith
  · rw [Nat.cast_sub hc, or_iff_right (Nat.not_lt.mpr hc)]

/-- The lower end in units of half an ulp, without its fraction. -/
theorem base_spec {e : Enclosure} (h : e.Sound) (q : ℤ) :
    ((roundAt .zero ⟨false, e.lo⟩ q).mant : ℚ) * (2 : ℚ) ^ q ≤ e.lo.toRat ∧
      e.lo.toRat < ((roundAt .zero ⟨false, e.lo⟩ q).mant + 1 : ℚ) * (2 : ℚ) ^ q := by
  obtain ⟨lo, rem, d, dp, hr, hv, hm⟩ := roundAt_cases .zero ⟨false, e.lo⟩ h.loDen q
  have two : (0 : ℚ) < (2 : ℚ) ^ q := by positivity
  have dq : (0 : ℚ) < d := by exact_mod_cast dp
  have f0 : (0 : ℚ) ≤ rem / d := by positivity
  have f1 : (rem : ℚ) / d < 1 := by rw [div_lt_one dq]; exact_mod_cast hr
  have hb : (roundAt .zero ⟨false, e.lo⟩ q).mant = lo := by rw [hm]; split <;> simp [choosesUp]
  simp only at hv
  rw [hb, hv]
  exact ⟨mul_le_mul_of_nonneg_right (by linarith) two.le, mul_lt_mul_of_pos_right (by linarith) two⟩

theorem base_lt {e : Enclosure} (h : e.Sound) : (roundAt .zero ⟨false, e.lo⟩ (e.log2 - 64)).mant < 2 ^ 65 := by
  have two : (0 : ℚ) < (2 : ℚ) ^ (e.log2 - 64) := by positivity
  have hl : e.lo.toRat < (2 : ℚ) ^ (e.log2 + 1) := by
    rcases h.proper.upper with hu | ⟨hu, he⟩
    · exact h.order.trans_lt hu
    · rwa [he] at hu
  have hb := (base_spec h (e.log2 - 64)).1.trans_lt hl
  rw [show e.log2 + 1 = ((65 : ℕ) : ℤ) + (e.log2 - 64) by push_cast; ring, zpow_add₀ two_ne_zero, zpow_natCast] at hb
  exact_mod_cast lt_of_mul_lt_mul_right hb two.le

/-- The error bound in units of half an ulp. -/
def boundOf (rm : RoundMode) : ℕ := if rm = .nearest then 2 else 3

theorem boundOf_cast (rm : RoundMode) (k : ℤ) :
    (boundOf rm : ℚ) * (2 : ℚ) ^ (k - 64) = (if rm = .nearest then 1 else 3 / 2) * (2 : ℚ) ^ (k - 63) := by
  rw [show k - 63 = 1 + (k - 64) by ring, zpow_add₀ two_ne_zero, zpow_one]
  unfold boundOf; split <;> push_cast <;> ring

theorem boundOf_bounds (rm : RoundMode) : 2 ≤ boundOf rm ∧ boundOf rm ≤ 3 := by unfold boundOf; split <;> decide

/-- What the candidates are: the grid points near the lower end that are within the error bound. -/
theorem mem_candidates {rm : RoundMode} {e : Enclosure} {g : ℕ × ℤ} :
    g ∈ candidates rm e ↔ ∃ j < 8, g = gridPoint (e.log2 - 64) ((roundAt .zero ⟨false, e.lo⟩ (e.log2 - 64)).mant + 4 - j) ∧
      halfUlpOk ((roundAt .zero ⟨false, e.lo⟩ (e.log2 - 64)).mant + 4 - j) = true ∧
      withinBound e ((roundAt .zero ⟨false, e.lo⟩ (e.log2 - 64)).mant + 4 - j) (boundOf rm) (e.log2 - 64) = true := by
  unfold candidates
  simp only [List.mem_map, List.mem_filter, List.mem_range, Bool.and_eq_true]
  constructor
  · rintro ⟨c, ⟨⟨j, hj, rfl⟩, h1, h2⟩, rfl⟩; exact ⟨j, hj, rfl, h1, h2⟩
  · rintro ⟨j, hj, rfl, h1, h2⟩; exact ⟨_, ⟨⟨j, hj, rfl⟩, h1, h2⟩, rfl⟩

/-- A value near the enclosure that is within the error bound is a candidate. -/
theorem candidate_of {rm : RoundMode} {e : Enclosure} {c : ℕ} (hk : halfUlpOk c = true)
    (hw : withinBound e c (boundOf rm) (e.log2 - 64) = true)
    (hl : (roundAt .zero ⟨false, e.lo⟩ (e.log2 - 64)).mant ≤ c + 3)
    (hu : c ≤ (roundAt .zero ⟨false, e.lo⟩ (e.log2 - 64)).mant + 4) : gridPoint (e.log2 - 64) c ∈ candidates rm e := by
  rw [mem_candidates]
  generalize (roundAt .zero ⟨false, e.lo⟩ (e.log2 - 64)).mant = b at *
  refine ⟨b + 4 - c, by omega, ?_⟩
  rw [show b + 4 - (b + 4 - c) = c by omega]
  exact ⟨rfl, hk, hw⟩

/-- A candidate is within the error bound (45_transcendental.md R421 b). -/
theorem candidate_within {rm : RoundMode} {e : Enclosure} (h : e.Sound) {g : ℕ × ℤ} (hg : g ∈ candidates rm e) :
    e.Within rm (gridValue g) := by
  obtain ⟨j, -, rfl, hk, hw⟩ := mem_candidates.mp hg
  rw [gridPoint_value _ hk]
  rw [withinBound_iff h, sub_mul, add_mul] at hw
  unfold Enclosure.Within
  simp only [← boundOf_cast]
  generalize ((((roundAt .zero ⟨false, e.lo⟩ (e.log2 - 64)).mant + 4 - j : ℕ) : ℚ) * (2 : ℚ) ^ (e.log2 - 64)) = r at *
  have hb : (0 : ℚ) < (boundOf rm : ℚ) * (2 : ℚ) ^ (e.log2 - 64) :=
    mul_pos (by exact_mod_cast (by have := boundOf_bounds rm; omega : 0 < boundOf rm)) (by positivity)
  generalize (boundOf rm : ℚ) * (2 : ℚ) ^ (e.log2 - 64) = b at *
  have ho := h.order
  rcases le_total r e.lo.toRat with h1 | h1
  · exact ⟨_, le_rfl, ho, by rw [abs_sub_lt_iff]; constructor <;> linarith⟩
  · rcases le_total r e.hi.toRat with h2 | h2
    · exact ⟨r, h1, h2, by rw [sub_self, abs_zero]; exact hb⟩
    · exact ⟨_, ho, le_rfl, by rw [abs_sub_lt_iff]; constructor <;> linarith⟩

theorem gridPoint_lt {q : ℤ} {c : ℕ} (h : c < 2 ^ 66) : (gridPoint q c).1 < 2 ^ 64 := by
  unfold gridPoint
  split
  · assumption
  · split <;> simp only <;> omega

theorem candidate_bits {rm : RoundMode} {e : Enclosure} (h : e.Sound) {g : ℕ × ℤ} (hg : g ∈ candidates rm e) :
    g.1 < 2 ^ 64 ∧ e.log2 - 64 ≤ g.2 ∧ g.2 ≤ e.log2 - 62 := by
  obtain ⟨j, -, rfl, -, -⟩ := mem_candidates.mp hg
  have := base_lt h
  generalize (roundAt .zero ⟨false, e.lo⟩ (e.log2 - 64)).mant = b at *
  refine ⟨gridPoint_lt (by omega), ?_⟩
  unfold gridPoint
  split
  · simp only; omega
  · split <;> simp only <;> omega

/-- There is a candidate that is an extended-real value, where no value near is tiny (45_transcendental.md R421 a). -/
theorem candidates_nonempty (rm : RoundMode) {e : Enclosure} (h : e.Sound) :
    ∃ g ∈ candidates rm e, -16382 ≤ e.log2 → isExtended g = true := by
  have hb := base_lt h
  have hs := base_spec h (e.log2 - 64)
  have ho := h.order
  have two : (0 : ℚ) < (2 : ℚ) ^ (e.log2 - 64) := by positivity
  have hbd := boundOf_bounds rm
  have hp := Mag.toRat_pos h.hiNum h.hiDen
  generalize hbase : (roundAt .zero ⟨false, e.lo⟩ (e.log2 - 64)).mant = b at *
  have hev : (b - b % 2) % 2 = 0 := by omega
  obtain ⟨c, hc, hcb, hc2⟩ : ∃ c, c % 2 = 0 ∧ c ≤ b ∧ b ≤ c + 1 := ⟨b - b % 2, hev, by omega, by omega⟩
  have hk : halfUlpOk c = true := by
    simp only [halfUlpOk, Bool.or_eq_true, Bool.and_eq_true, decide_eq_true_eq, beq_iff_eq]
    exact .inl (.inr ⟨by omega, hc⟩)
  refine ⟨gridPoint (e.log2 - 64) c, candidate_of hk ?_ (by omega) (by omega), ?_⟩
  · rw [withinBound_iff h]
    have c1 : (c : ℚ) ≤ b := by exact_mod_cast hcb
    have c2 : (b : ℚ) ≤ c + 1 := by exact_mod_cast hc2
    have b1 : (2 : ℚ) ≤ boundOf rm := by exact_mod_cast hbd.1
    constructor
    · have : ((c : ℚ) - boundOf rm) * (2 : ℚ) ^ (e.log2 - 64) < b * (2 : ℚ) ^ (e.log2 - 64) :=
        mul_lt_mul_of_pos_right (by linarith) two
      linarith
    · refine hs.2.trans_le (mul_le_mul_of_nonneg_right (by linarith) two.le)
  · intro hl
    unfold isExtended gridPoint
    rw [beq_iff_eq]
    split
    · simp only
      rcases (show (-16445 - (e.log2 - 64)).toNat = 0 ∨ (-16445 - (e.log2 - 64)).toNat = 1 by omega) with h0 | h0
      · rw [h0]; simp [Nat.mod_one]
      · rw [h0]; exact hc
    · rw [if_pos (by omega)]
      simp only
      rw [show (-16445 - (e.log2 - 64 + 1)).toNat = 0 by omega]
      simp [Nat.mod_one]

theorem choices_nonempty (ext : Bool) (rm : RoundMode) {e : Enclosure} (h : e.Sound) : choices ext rm e ≠ [] := by
  obtain ⟨g, hg, -⟩ := candidates_nonempty rm h
  have hc : candidates rm e ≠ [] := List.ne_nil_of_mem hg
  unfold choices
  split
  · unfold extendedCandidates
    simp only
    split
    · simpa using hc
    · rename_i hf
      rw [List.isEmpty_iff] at hf
      simpa using hf
  · exact hc

theorem toExtended_bits (rm : RoundMode) (neg : Bool) {g : ℕ × ℤ} (h : g.1 < 2 ^ 64) :
    (toExtended rm neg g).1 < 2 ^ 64 ∧ -16445 ≤ (toExtended rm neg g).2 := by
  obtain ⟨lo, rem, d, dp, hr, hv, hm⟩ := roundAt_cases rm ⟨neg, ⟨g.1, 1, g.2⟩⟩ one_ne_zero (max g.2 (-16445))
  have dq : (0 : ℚ) < d := by exact_mod_cast dp
  have f0 : (0 : ℚ) ≤ rem / d := by positivity
  have two : (0 : ℚ) < (2 : ℚ) ^ max g.2 (-16445) := by positivity
  simp only at hv
  have hle : (lo : ℚ) + rem / d ≤ g.1 := by
    rw [← gridValue_toRat, gridValue] at hv
    have : ((lo : ℚ) + rem / d) * (2 : ℚ) ^ max g.2 (-16445) ≤ g.1 * (2 : ℚ) ^ max g.2 (-16445) := by
      rw [← hv]
      exact mul_le_mul_of_nonneg_left (zpow_le_zpow_right₀ one_le_two (le_max_left _ _)) (by positivity)
    exact le_of_mul_le_mul_right this two
  have hmant : (roundAt rm ⟨neg, ⟨g.1, 1, g.2⟩⟩ (max g.2 (-16445))).mant ≤ g.1 := by
    rw [hm]
    split
    · have : (lo : ℚ) ≤ g.1 := by linarith
      exact_mod_cast this
    · rename_i h0
      have r0 : (0 : ℚ) < rem / d := by have : 0 < rem := Nat.pos_of_ne_zero h0; positivity
      have : (lo : ℚ) < g.1 := by linarith
      have : lo < g.1 := by exact_mod_cast this
      simp only; split <;> omega
  refine ⟨hmant.trans_lt h, ?_⟩
  unfold toExtended
  simp only [roundAt_quantum]
  exact le_max_right _ _

/-- The choices but for the biased result of an unmasked underflow (45_transcendental.md R421 a, R422). -/
theorem extended_choice {rm : RoundMode} {e : Enclosure} (h : e.Sound) {g : ℕ × ℤ} (hg : g ∈ choices true rm e) :
    g.1 < 2 ^ 64 ∧ -16445 ≤ g.2 ∧ ∃ c ∈ candidates rm e, g = toExtended rm e.neg c ∧
      ((∃ c' ∈ candidates rm e, isExtended c' = true) → isExtended c = true) := by
  change g ∈ extendedCandidates rm e at hg
  unfold extendedCandidates at hg
  simp only at hg
  obtain ⟨c, hc, rfl⟩ := List.mem_map.mp hg
  split at hc
  · rename_i hf
    rw [List.isEmpty_iff, List.filter_eq_nil_iff] at hf
    exact ⟨(toExtended_bits _ _ (candidate_bits h hc).1).1, (toExtended_bits _ _ (candidate_bits h hc).1).2, c, hc, rfl,
      fun ⟨c', hc', hx⟩ => absurd hx (hf c' hc')⟩
  · obtain ⟨hm, hx⟩ := List.mem_filter.mp hc
    exact ⟨(toExtended_bits _ _ (candidate_bits h hm).1).1, (toExtended_bits _ _ (candidate_bits h hm).1).2, c, hm, rfl,
      fun _ => hx⟩

/-! ### Delivering a computed magnitude -/

theorem enc80_grid (neg : Bool) {m : ℕ} {q : ℤ} (h : m < 2 ^ 64) (hq : -16445 ≤ q)
    (hv : (m : ℚ) * (2 : ℚ) ^ q < (2 : ℚ) ^ (16384 : ℤ)) :
    isFinite (enc80 neg m q) = true ∧ signOf (enc80 neg m q) = neg ∧ |realOf (enc80 neg m q)| = m * (2 : ℚ) ^ q := by
  rw [abs_realOf]
  rcases Nat.eq_zero_or_pos m with rfl | hp
  · unfold enc80
    rw [if_pos rfl]
    refine ⟨?_, signOf_pack _ _ _, ?_⟩
    · rw [isFinite_iff, zero80, expOf_pack]; exact ⟨by decide, .inl rfl⟩
    · rw [magOf_toRat, zero80, sigOf_pack]; simp
  · have hl : m.log2 < 64 := (Nat.log2_lt hp.ne').mpr h
    refine enc80_spec neg m q hp.ne' ?_ ?_ ?_
    · rw [show m.log2 - 63 = 0 by omega]; simp
    · rw [show (-(q + 16445)).toNat = 0 by omega]; simp
    · have h1 : (2 : ℚ) ^ ((m.log2 : ℤ) + q) ≤ m * (2 : ℚ) ^ q := by
        rw [zpow_add₀ two_ne_zero, zpow_natCast]
        exact mul_le_mul_of_nonneg_right (by exact_mod_cast Nat.log2_self_le hp.ne') (by positivity)
      have := (zpow_lt_zpow_iff_right₀ (one_lt_two : (1 : ℚ) < 2)).mp (h1.trans_lt hv)
      omega

theorem Enclosure.Sound.isExactly_iff {e : Enclosure} (h : e.Sound) (g : ℕ × ℤ) :
    e.isExactly ⟨g.1, 1, g.2⟩ = true ↔ e.Known (gridValue g) := by
  unfold Enclosure.isExactly Enclosure.Known
  rw [Bool.and_eq_true, Bool.and_eq_true, Mag.le_iff h.hiDen h.loDen, Mag.le_iff one_ne_zero h.loDen,
    Mag.le_iff h.loDen one_ne_zero, ← gridValue_toRat]
  have := h.order
  constructor
  · rintro ⟨⟨a, b⟩, c⟩; constructor <;> linarith
  · rintro ⟨a, b⟩; refine ⟨⟨?_, ?_⟩, ?_⟩ <;> linarith

theorem Enclosure.Sound.tells {e : Enclosure} (h : e.Sound) (g : ℕ × ℤ) (u : Bool) :
    e.Tells (gridValue g) (e.below u ⟨g.1, 1, g.2⟩) := by
  unfold Enclosure.below
  have a1 := Mag.le_iff (a := ⟨g.1, 1, g.2⟩) one_ne_zero h.loDen
  have a2 := Mag.le_iff (b := ⟨g.1, 1, g.2⟩) h.hiDen one_ne_zero
  rw [← gridValue_toRat] at a1 a2
  simp only [a1, a2]
  constructor
  · intro hr; rw [if_pos hr]
  · intro h1 h2; rw [if_neg (not_le.mpr h1), if_pos h2]

theorem overflowsToInf_iff (rm : RoundMode) (neg : Bool) {r : ℚ} (h : 0 < r) :
    overflowsToInf rm neg = true ↔ OverflowsToInfinity rm (if neg = true then -r else r) := by
  cases rm <;> cases neg <;> simp [overflowsToInf, OverflowsToInfinity, h, h.le]

theorem gridValue_nonneg (g : ℕ × ℤ) : 0 ≤ gridValue g := by unfold gridValue; positivity

/-- A magnitude within the error bound is below the next power of two but one. -/
theorem Enclosure.Sound.within_lt {e : Enclosure} (h : e.Sound) {rm : RoundMode} {r : ℚ} (hr : e.Within rm r) :
    r < (2 : ℚ) ^ (e.log2 + 2) := by
  obtain ⟨v, -, hv, hb⟩ := hr
  have hu : e.hi.toRat ≤ (2 : ℚ) ^ (e.log2 + 1) := by
    rcases h.proper.upper with hu | ⟨-, hu⟩
    · exact hu.le
    · exact hu.le
  have h1 := (abs_sub_lt_iff.mp hb).1
  have e1 : (2 : ℚ) ^ (e.log2 + 2) = 2 * (2 : ℚ) ^ (e.log2 + 1) := by
    rw [show e.log2 + 2 = 1 + (e.log2 + 1) by ring, zpow_add₀ two_ne_zero, zpow_one]
  have e2 : (2 : ℚ) ^ (e.log2 - 63) ≤ (2 : ℚ) ^ e.log2 := zpow_le_zpow_right₀ one_le_two (by omega)
  have e3 : (2 : ℚ) ^ (e.log2 + 1) = 2 * (2 : ℚ) ^ e.log2 := by
    rw [show e.log2 + 1 = 1 + e.log2 by ring, zpow_add₀ two_ne_zero, zpow_one]
  have p : (0 : ℚ) < (2 : ℚ) ^ (e.log2 - 63) := by positivity
  have e4 : (if rm = .nearest then 1 else 3 / 2 : ℚ) * (2 : ℚ) ^ (e.log2 - 63) ≤ 2 * (2 : ℚ) ^ (e.log2 - 63) :=
    mul_le_mul_of_nonneg_right (by split <;> norm_num) p.le
  linarith

/-- An extended-real value within the error bound of a tiny, narrow enclosure is a candidate. -/
theorem extended_candidate {e : Enclosure} (h : e.Sound) (hn : e.Narrow) (ht : e.log2 < -16382) {rm : RoundMode} {x : Ext}
    (hw : e.Within rm |realOf x|) : ∃ c ∈ candidates rm e, isExtended c = true := by
  obtain ⟨k, hk⟩ := realOf_multiple x
  obtain ⟨v, v1, v2, vb⟩ := hw
  rw [← boundOf_cast] at vb
  have hs := base_spec h (e.log2 - 64)
  have two : (0 : ℚ) < (2 : ℚ) ^ (e.log2 - 64) := by positivity
  have hbd := boundOf_bounds rm
  unfold Enclosure.Narrow at hn
  obtain ⟨j, hj⟩ : ∃ j : ℕ, -16445 - (e.log2 - 64) = j + 2 := ⟨(-16445 - (e.log2 - 64) - 2).toNat, by omega⟩
  have hr : |realOf x| = ((k.natAbs * 2 ^ (j + 2) : ℕ) : ℚ) * (2 : ℚ) ^ (e.log2 - 64) := by
    rw [hk, abs_mul, abs_of_pos (show (0 : ℚ) < (2 : ℚ) ^ (-16445 : ℤ) by positivity),
      show (-16445 : ℤ) = ((j + 2 : ℕ) : ℤ) + (e.log2 - 64) by push_cast; omega, zpow_add₀ two_ne_zero, zpow_natCast]
    push_cast
    rw [Nat.cast_natAbs, Int.cast_abs]; ring
  rw [hr] at vb
  generalize hbase : (roundAt .zero ⟨false, e.lo⟩ (e.log2 - 64)).mant = b at *
  generalize hc : k.natAbs * 2 ^ (j + 2) = c at *
  have h4 : c % 4 = 0 := by rw [← hc, pow_add, ← Nat.mul_assoc]; exact Nat.mul_mod_left _ _
  obtain ⟨w1, w2⟩ := abs_sub_lt_iff.mp vb
  have b3 : (boundOf rm : ℚ) ≤ 3 := by exact_mod_cast hbd.2
  refine ⟨gridPoint (e.log2 - 64) c, candidate_of ?_ ?_ ?_ ?_, ?_⟩
  · simp only [halfUlpOk, Bool.or_eq_true, beq_iff_eq]; exact .inr h4
  · rw [withinBound_iff h]; constructor <;> linarith
  · rw [hbase]
    have : (b : ℚ) * (2 : ℚ) ^ (e.log2 - 64) < ((c : ℚ) + 3) * (2 : ℚ) ^ (e.log2 - 64) := by nlinarith
    exact_mod_cast (lt_of_mul_lt_mul_right this two.le).le
  · rw [hbase]
    have : (c : ℚ) * (2 : ℚ) ^ (e.log2 - 64) < ((b : ℚ) + 5) * (2 : ℚ) ^ (e.log2 - 64) := by nlinarith
    have := lt_of_mul_lt_mul_right this two.le
    have : c < b + 5 := by exact_mod_cast this
    omega
  · unfold isExtended
    rw [beq_iff_eq]
    have hd : 2 ^ (j + 2) ∣ c := ⟨k.natAbs, by rw [← hc, Nat.mul_comm]⟩
    unfold gridPoint
    split
    · simp only; rw [hj]; exact Nat.mod_eq_zero_of_dvd (by exact_mod_cast hd)
    · split
      · simp only
        rw [show (-16445 - (e.log2 - 64 + 1)).toNat = j + 1 by omega]
        refine Nat.mod_eq_zero_of_dvd ?_
        obtain ⟨d, hd⟩ := hd
        exact ⟨d, by rw [hd, pow_succ 2 (j + 1)]; rw [Nat.mul_right_comm, Nat.mul_div_cancel _ (by decide)]⟩
      · simp only
        rw [show (-16445 - (e.log2 - 64 + 2)).toNat = j by omega]
        refine Nat.mod_eq_zero_of_dvd ?_
        obtain ⟨d, hd⟩ := hd
        exact ⟨d, by rw [hd, pow_add, Nat.mul_right_comm]; exact Nat.mul_div_cancel _ (by decide)⟩

theorem log2_pos_lt {m : ℕ} {q k : ℤ} (hm : m ≠ 0) (h : (m : ℚ) * (2 : ℚ) ^ q < (2 : ℚ) ^ k) : (m.log2 : ℤ) + q < k := by
  have h1 : (2 : ℚ) ^ ((m.log2 : ℤ) + q) ≤ m * (2 : ℚ) ^ q := by
    rw [zpow_add₀ two_ne_zero, zpow_natCast]
    exact mul_le_mul_of_nonneg_right (by exact_mod_cast Nat.log2_self_le hm) (by positivity)
  exact (zpow_lt_zpow_iff_right₀ (one_lt_two : (1 : ℚ) < 2)).mp (h1.trans_lt h)

/-- Everything `Transc` delivers (45_transcendental.md R421, R422). -/
theorem transcDeliver_delivers {e : Enclosure} (h : e.Sound) (hl : -40957 ≤ e.log2) (hu : e.log2 ≤ 40950) {cw : Word16}
    {u : Bool} {c : ℕ × ℤ} (hc : c ∈ choices (maskedIn cw .u || decide (-16382 ≤ e.log2)) (roundMode cw) e) :
    e.Delivers cw (transcDeliver cw u e c).flags ⟨(transcDeliver cw u e c).value, (transcDeliver cw u e c).c1⟩ := by
  refine ⟨h.proper, ?_⟩
  have two : ∀ k : ℤ, (0 : ℚ) < (2 : ℚ) ^ k := fun k => by positivity
  have mono : ∀ {a b : ℤ}, a ≤ b → (2 : ℚ) ^ a ≤ (2 : ℚ) ^ b := fun hab => zpow_le_zpow_right₀ one_le_two hab
  have hov : Mag.le ⟨1, 1, 16384⟩ ⟨c.1, 1, c.2⟩ = true ↔ (2 : ℚ) ^ (16384 : ℤ) ≤ gridValue c := by
    rw [Mag.le_iff one_ne_zero one_ne_zero, pow_toRat, ← gridValue_toRat]
  have hx := h.isExactly_iff c
  have ht := h.tells c u
  have hfl : inexactFlag (!e.isExactly ⟨c.1, 1, c.2⟩) = if e.Known (gridValue c) then [] else [.p] := by
    unfold inexactFlag
    by_cases hk : e.Known (gridValue c)
    · rw [hx.mpr hk, if_pos hk]; rfl
    · rw [Bool.eq_false_iff.mpr (fun hh => hk (hx.mp hh)), if_neg hk]; rfl
  by_cases hn : -16382 ≤ e.log2
  · rw [decide_eq_true hn, Bool.or_true] at hc
    obtain ⟨b1, b2, c0, h0, rfl, hxt⟩ := extended_choice h hc
    have hcx := hxt (let ⟨g, hg, hi⟩ := candidates_nonempty (roundMode cw) h; ⟨g, hg, hi hn⟩)
    have hv := toExtended_value (roundMode cw) e.neg hcx
    have hw := candidate_within h h0
    rw [← hv] at hw
    have hb := h.within_lt hw
    generalize toExtended (roundMode cw) e.neg c0 = c at *
    refine ⟨gridValue c, gridValue_nonneg c, hw, ?_⟩
    unfold transcDeliver
    simp only
    by_cases ho : (2 : ℚ) ^ (16384 : ℤ) ≤ gridValue c
    · rw [if_pos ho, if_pos (hov.mpr ho)]
      have hpos : 0 < gridValue c := (two _).trans_le ho
      unfold deliverOverflow
      by_cases hm : maskedIn cw .o = true
      · rw [if_pos hm, if_pos hm]
        by_cases hi : overflowsToInf (roundMode cw) e.neg = true
        · rw [if_pos hi]
          exact ⟨rfl, by rw [if_pos ((overflowsToInf_iff _ _ hpos).mp hi)]⟩
        · rw [if_neg hi]
          refine ⟨rfl, ?_⟩
          rw [if_neg (fun hh => hi ((overflowsToInf_iff _ _ hpos).mpr hh))]
          obtain ⟨f1, f2, -, f4⟩ := maxFinite80_spec e.neg (p := 64) (by norm_num) le_rfl
          exact ⟨f1, f2, rfl, by rw [f4]; norm_num⟩
      · rw [if_neg hm, if_neg hm]
        have hr : gridValue c < (2 : ℚ) ^ (40960 : ℤ) := hb.trans_le (mono (by omega))
        refine ⟨by rw [hfl], ht, ?_⟩
        have hc0 : c.1 ≠ 0 := by intro h0; unfold gridValue at hpos; simp [h0] at hpos
        have hlt : ((c.1.log2 : ℕ) : ℤ) + c.2 < 40960 := log2_pos_lt hc0 hr
        have hge : (16384 : ℤ) < (c.1.log2 : ℤ) + 1 + c.2 := by
          have hh : (c.1 : ℚ) < (2 : ℚ) ^ ((c.1.log2 : ℤ) + 1) := by
            have : c.1 < 2 ^ (c.1.log2 + 1) := Nat.lt_log2_self
            exact_mod_cast this
          have : (2 : ℚ) ^ (16384 : ℤ) < (2 : ℚ) ^ ((c.1.log2 : ℤ) + 1 + c.2) := by
            rw [zpow_add₀ two_ne_zero ((c.1.log2 : ℤ) + 1)]
            exact ho.trans_lt (mul_lt_mul_of_pos_right hh (two _))
          exact (zpow_lt_zpow_iff_right₀ (one_lt_two : (1 : ℚ) < 2)).mp this
        have hl64 : c.1.log2 < 64 := (Nat.log2_lt hc0).mpr b1
        rw [if_neg (by simp only [Rounded.log2]; omega)]
        have hval : (c.1 : ℚ) * (2 : ℚ) ^ (c.2 - 24576) = gridValue c * (2 : ℚ) ^ (-24576 : ℤ) := by
          unfold gridValue; rw [sub_eq_add_neg, zpow_add₀ two_ne_zero, mul_assoc]
        obtain ⟨g1, g2, g3⟩ := enc80_grid e.neg (m := c.1) (q := c.2 - 24576) b1 (by omega) (by
          rw [hval]
          calc _ < (2 : ℚ) ^ (40960 : ℤ) * (2 : ℚ) ^ (-24576 : ℤ) := mul_lt_mul_of_pos_right hr (two _)
            _ = _ := by rw [← zpow_add₀ two_ne_zero]; congr 1)
        exact ⟨g1, g2, by rw [g3, hval]⟩
    · rw [if_neg ho, if_neg (fun hh => ho (hov.mp hh)), if_neg (by omega), if_pos hn]
      obtain ⟨g1, g2, g3⟩ := enc80_grid e.neg (m := c.1) (q := c.2) b1 b2 (not_le.mp ho)
      exact ⟨g1, g2, g3, hfl, ht⟩
  · rw [decide_eq_false hn, Bool.or_false] at hc
    have small : ∀ {r : ℚ}, r < (2 : ℚ) ^ (e.log2 + 2) → r < (2 : ℚ) ^ (16384 : ℤ) := fun hr => hr.trans_le (mono (by omega))
    by_cases hm : maskedIn cw .u = true
    · rw [hm] at hc
      obtain ⟨b1, b2, c0, h0, hce, hxt⟩ := extended_choice h hc
      have hw := candidate_within h h0
      have hb := small (h.within_lt hw)
      have hbits := candidate_bits h h0
      have hmax : max c0.2 (-16445) = -16445 := by omega
      have hround := roundAt_roundedTo (roundMode cw) ⟨e.neg, ⟨c0.1, 1, c0.2⟩⟩ one_ne_zero (-16445)
      have hcr : (roundAt (roundMode cw) ⟨e.neg, ⟨c0.1, 1, c0.2⟩⟩ (-16445)).toMag = ⟨c.1, 1, c.2⟩ := by
        rw [hce, toExtended, hmax]; rfl
      have hc2 : c.2 = -16445 := by rw [hce, toExtended, hmax]; simp [roundAt_quantum]
      have hcv : gridValue c < (2 : ℚ) ^ (16384 : ℤ) := by
        unfold gridValue
        rw [hc2]
        have : (c.1 : ℚ) < (2 : ℚ) ^ (64 : ℤ) := by exact_mod_cast b1
        calc _ < (2 : ℚ) ^ (64 : ℤ) * (2 : ℚ) ^ (-16445 : ℤ) := mul_lt_mul_of_pos_right this (two _)
          _ = (2 : ℚ) ^ (-16381 : ℤ) := by rw [← zpow_add₀ two_ne_zero]; congr 1
          _ ≤ _ := mono (by omega)
      obtain ⟨g1, g2, g3⟩ := enc80_grid e.neg (m := c.1) (q := c.2) b1 b2 hcv
      refine ⟨gridValue c0, gridValue_nonneg c0, hw, ?_⟩
      unfold transcDeliver
      simp only
      rw [if_neg (not_le.mpr hb), if_neg (fun hh => not_le.mpr hcv (hov.mp hh)), if_pos (by omega), if_pos hm, if_neg hn,
        if_pos hm]
      simp only
      change |realOf (enc80 e.neg c.1 c.2)| = gridValue c at g3
      rw [g3]
      refine ⟨g1, g2, ?_, ?_, ht, fun hna ⟨x, _, hxw⟩ => ?_⟩
      · rw [hcr] at hround
        have e1 : realOf (enc80 e.neg c.1 c.2) = Exact.toRat ⟨e.neg, ⟨c.1, 1, c.2⟩⟩ := by
          unfold Exact.toRat; simp only
          rw [← gridValue_toRat, ← g3, abs_realOf]
          unfold realOf Exact.toRat valOf
          rw [g2]
        rw [e1]
        convert hround using 1
        unfold Exact.toRat; simp only; rw [← gridValue_toRat]
      · by_cases hk : e.Known (gridValue c)
        · rw [hx.mpr hk, if_pos hk]; rfl
        · rw [Bool.eq_false_iff.mpr (fun hh => hk (hx.mp hh)), if_neg hk]; rfl
      · have := toExtended_value (roundMode cw) e.neg (hxt (extended_candidate h hna (by omega) hxw))
        rw [hce, this]; exact hw
    · rw [Bool.eq_false_iff.mpr hm] at hc
      have hc : c ∈ candidates (roundMode cw) e := hc
      have hw := candidate_within h hc
      have hb := small (h.within_lt hw)
      have hbits := candidate_bits h hc
      have hval : (c.1 : ℚ) * (2 : ℚ) ^ (c.2 + 24576) = gridValue c * (2 : ℚ) ^ (24576 : ℤ) := by
        unfold gridValue; rw [zpow_add₀ two_ne_zero, mul_assoc]
      obtain ⟨g1, g2, g3⟩ := enc80_grid e.neg (m := c.1) (q := c.2 + 24576) hbits.1 (by omega) (by
        rw [hval]
        calc _ < (2 : ℚ) ^ (e.log2 + 2) * (2 : ℚ) ^ (24576 : ℤ) := mul_lt_mul_of_pos_right (h.within_lt hw) (two _)
          _ = (2 : ℚ) ^ (e.log2 + 2 + 24576) := by rw [← zpow_add₀ two_ne_zero]
          _ ≤ _ := mono (by omega))
      refine ⟨gridValue c, gridValue_nonneg c, hw, ?_⟩
      unfold transcDeliver
      simp only
      rw [if_neg (not_le.mpr hb), if_neg (fun hh => not_le.mpr hb (hov.mp hh)), if_pos (by omega), if_neg hm, if_neg hn,
        if_neg hm]
      exact ⟨g1, g2, by rw [g3, hval], by rw [hfl], ht⟩

/-- Everything `Transc` delivers at operands of the domain (45_transcendental.md R421, R422). -/
theorem transc_delivers {f : TranscFn} {y x : Ext} (h : InDomain f y x) (cw : Word16) :
    (trueValue f y x).Delivers cw (transc cw f y x).flags ⟨(transc cw f y x).value, (transc cw f y x).c1⟩ := by
  have hs := sound_trueValue h
  obtain ⟨hl, hu⟩ := (range_trueValue h).log2 hs
  exact transcDeliver_delivers hs hl hu (computedValue_spec (choices_nonempty _ _ hs)).1

/-! ### Monotonicity -/

theorem log2_le {e0 e : Enclosure} (h0 : e0.Sound) (h : e.Sound) (hl : e0.lo.toRat ≤ e.lo.toRat) (hh : e0.hi.toRat ≤ e.hi.toRat) :
    e0.log2 ≤ e.log2 := by
  by_contra hc
  have hc : e.log2 + 1 ≤ e0.log2 := by omega
  have a := h0.proper.lower
  have b : (2 : ℚ) ^ (e.log2 + 1) ≤ (2 : ℚ) ^ e0.log2 := zpow_le_zpow_right₀ one_le_two hc
  rcases h.proper.upper with u | ⟨u, v⟩
  · linarith
  · have e1 : e0.hi.toRat = (2 : ℚ) ^ e0.log2 := by linarith
    have e2 : e0.lo.toRat < e0.hi.toRat := by linarith
    have s := Mag.log2_spec h0.hiNum h0.hiDen
    have l : e0.log2 = e0.hi.log2 - 1 ∨ (e0.log2 = e0.hi.log2 ∧ ¬ ((!e0.hi.le e0.lo && e0.hi.le ⟨1, 1, e0.hi.log2⟩) = true)) := by
      unfold Enclosure.log2
      split
      · exact .inl rfl
      · rename_i hn; exact .inr ⟨rfl, hn⟩
    rcases l with l | ⟨l, hn⟩
    · rw [e1, l] at s
      have := (zpow_le_zpow_iff_right₀ (one_lt_two : (1 : ℚ) < 2)).mp s.1
      omega
    · apply hn
      rw [Bool.and_eq_true, Bool.not_eq_true', ← Bool.not_eq_true, Mag.le_iff h0.hiDen h0.loDen,
          Mag.le_iff h0.hiDen one_ne_zero, pow_toRat, ← l]
      exact ⟨not_le.mpr e2, e1.le⟩

theorem halfUlp_iff (c : ℕ) : halfUlpOk c = true ↔ c < 2 ^ 64 ∨ (c < 2 ^ 65 ∧ c % 2 = 0) ∨ c % 4 = 0 := by
  simp only [halfUlpOk, Bool.or_eq_true, Bool.and_eq_true, decide_eq_true_eq, beq_iff_eq, or_assoc]

theorem candidates_mono {rm : RoundMode} {e0 e : Enclosure} (h0 : e0.Sound) (h : e.Sound) (hl : e0.lo.toRat ≤ e.lo.toRat)
    (hh : e0.hi.toRat ≤ e.hi.toRat) (hn : e.Narrow) {g0 : ℕ × ℤ} (hg : g0 ∈ candidates rm e0) :
    g0 ∈ candidates rm e ∨ ∀ g ∈ candidates rm e, gridValue g0 ≤ gridValue g := by
  have hk := log2_le h0 h hl hh
  obtain ⟨j, -, rfl, hu0, hw0⟩ := mem_candidates.mp hg
  generalize (roundAt .zero ⟨false, e0.lo⟩ (e0.log2 - 64)).mant + 4 - j = c0 at *
  rw [withinBound_iff h0] at hw0
  have hb := boundOf_bounds rm
  have b3 : (boundOf rm : ℚ) ≤ 3 := by exact_mod_cast hb.2
  have b2 : (2 : ℚ) ≤ boundOf rm := by exact_mod_cast hb.1
  have hs := base_spec h (e.log2 - 64)
  have two : (0 : ℚ) < (2 : ℚ) ^ (e.log2 - 64) := by positivity
  have two0 : (0 : ℚ) < (2 : ℚ) ^ (e0.log2 - 64) := by positivity
  have bu := mul_le_mul_of_nonneg_right b3 two.le
  have bu0 := mul_le_mul_of_nonneg_right b3 two0.le
  have lower : ∀ g ∈ candidates rm e, e.lo.toRat - 3 * (2 : ℚ) ^ (e.log2 - 64) < gridValue g := by
    intro g hg
    obtain ⟨j, -, rfl, hu, hw⟩ := mem_candidates.mp hg
    rw [withinBound_iff h] at hw
    rw [gridPoint_value _ hu]
    linarith [hw.2, bu]
  unfold Enclosure.Narrow at hn
  rw [gridPoint_value _ hu0]
  rcases eq_or_lt_of_le hk with he | hlt
  · rw [he] at hw0 ⊢
    by_cases hin : e.lo.toRat < ((c0 : ℚ) + boundOf rm) * (2 : ℚ) ^ (e.log2 - 64)
    · left
      refine candidate_of hu0 ((withinBound_iff h _ _ _).mpr ⟨hw0.1.trans_le hh, hin⟩) ?_ ?_
      · have : (((roundAt .zero ⟨false,
          e.lo⟩ (e.log2 - 64)).mant : ℕ) : ℚ) * (2 : ℚ) ^ (e.log2 - 64) < ((c0 : ℚ) + 3) * (2 : ℚ) ^ (e.log2 - 64) := by linarith [hs.1, hs.2, hw0.1, hin]
        exact_mod_cast (lt_of_mul_lt_mul_right this two.le).le
      · have : (c0 : ℚ) * (2 : ℚ) ^ (e.log2 - 64) < ((((roundAt .zero ⟨false,
          e.lo⟩ (e.log2 - 64)).mant : ℕ) : ℚ) + 5) * (2 : ℚ) ^ (e.log2 - 64) := by linarith [hs.1, hs.2, hw0.1, hin]
        have := lt_of_mul_lt_mul_right this two.le
        have : c0 < (roundAt .zero ⟨false, e.lo⟩ (e.log2 - 64)).mant + 5 := by exact_mod_cast this
        omega
    · right
      intro g hg
      obtain ⟨j, -, rfl, hu, hw⟩ := mem_candidates.mp hg
      rw [withinBound_iff h] at hw
      rw [gridPoint_value _ hu]
      linarith [hw.2, not_lt.mp hin]
  · -- the later operands' ulp is larger
    obtain ⟨d, hd⟩ : ∃ d : ℕ, e.log2 = e0.log2 + d + 1 := ⟨(e.log2 - e0.log2 - 1).toNat, by omega⟩
    have hhi0 : e0.hi.toRat ≤ (2 : ℚ) ^ (e0.log2 + 1) := by
      rcases h0.proper.upper with u | ⟨-, u⟩
      · exact u.le
      · exact u.le
    have p65 : (2 : ℚ) ^ (e0.log2 + 1) = (2 ^ 65 : ℕ) * (2 : ℚ) ^ (e0.log2 - 64) := by
      rw [show e0.log2 + 1 = ((65 : ℕ) : ℤ) + (e0.log2 - 64) by push_cast; ring, zpow_add₀ two_ne_zero, zpow_natCast]; push_cast; rfl
    have hc0 : c0 ≤ 2 ^ 65 := by
      have h1 : ((c0 : ℚ) - 3) * (2 : ℚ) ^ (e0.log2 - 64) < (2 ^ 65 : ℕ) * (2 : ℚ) ^ (e0.log2 - 64) := by linarith [hw0.1, bu0]
      have h2 := lt_of_mul_lt_mul_right h1 two0.le
      have h3 : (c0 : ℚ) < ((2 ^ 65 + 3 : ℕ) : ℚ) := by push_cast at h2 ⊢; linarith
      have h4 : c0 < 2 ^ 65 + 3 := by exact_mod_cast h3
      rcases (halfUlp_iff c0).mp hu0 with h | ⟨h, -⟩ | h <;> omega
    have plo : (2 : ℚ) ^ e.log2 = (2 ^ 64 : ℕ) * (2 : ℚ) ^ (e.log2 - 64) := by
      rw [show e.log2 = ((64 : ℕ) : ℤ) + (e.log2 - 64) by push_cast; ring, zpow_add₀ two_ne_zero, zpow_natCast, show ((64 : ℕ) : ℤ) + (e.log2 - 64) - 64 = e.log2 - 64 by push_cast; ring]; push_cast; rfl
    have hlow := h.proper.lower
    by_cases hsmall : d ≠ 0 ∨ c0 < 2 ^ 64
    · right
      intro g hg
      refine le_trans ?_ (lower g hg).le
      have hhalf : (c0 : ℚ) * (2 : ℚ) ^ (e0.log2 - 64) ≤ (2 : ℚ) ^ (e.log2 - 1) := by
        rcases hsmall with hd0 | hcs
        · have : (c0 : ℚ) ≤ ((2 ^ 65 : ℕ) : ℚ) := by exact_mod_cast hc0
          calc (c0 : ℚ) * (2 : ℚ) ^ (e0.log2 - 64) ≤ ((2 ^ 65 : ℕ) : ℚ) * (2 : ℚ) ^ (e0.log2 - 64) := mul_le_mul_of_nonneg_right this two0.le
            _ = (2 : ℚ) ^ (e0.log2 + 1) := p65.symm
            _ ≤ _ := zpow_le_zpow_right₀ one_le_two (by omega)
        · have : (c0 : ℚ) ≤ ((2 ^ 64 : ℕ) : ℚ) := by exact_mod_cast hcs.le
          calc (c0 : ℚ) * (2 : ℚ) ^ (e0.log2 - 64) ≤ ((2 ^ 64 : ℕ) : ℚ) * (2 : ℚ) ^ (e0.log2 - 64) := mul_le_mul_of_nonneg_right this two0.le
            _ = (2 : ℚ) ^ e0.log2 := by
              rw [show e0.log2 = ((64 : ℕ) : ℤ) + (e0.log2 - 64) by push_cast; ring, zpow_add₀ two_ne_zero, zpow_natCast, show ((64 : ℕ) : ℤ) + (e0.log2 - 64) - 64 = e0.log2 - 64 by push_cast; ring]; push_cast; rfl
            _ ≤ _ := zpow_le_zpow_right₀ one_le_two (by omega)
      have e2 : (2 : ℚ) ^ (e.log2 - 1) = (2 ^ 63 : ℕ) * (2 : ℚ) ^ (e.log2 - 64) := by
        rw [show e.log2 - 1 = ((63 : ℕ) : ℤ) + (e.log2 - 64) by push_cast; ring, zpow_add₀ two_ne_zero, zpow_natCast]; push_cast; rfl
      rw [e2] at hhalf
      rw [plo] at hlow
      push_cast at hhalf hlow
      linarith
    · have hd0 : d = 0 := by by_contra hc; exact hsmall (.inl hc)
      have hcb : 2 ^ 64 ≤ c0 := by by_contra hc; exact hsmall (.inr (by omega))
      subst hd0
      have hev : c0 % 2 = 0 := by
        rcases (halfUlp_iff c0).mp hu0 with h | ⟨-, h⟩ | h <;> omega
      obtain ⟨c, rfl⟩ := Nat.dvd_of_mod_eq_zero hev
      have hq : e.log2 = e0.log2 + 1 := by omega
      have hval : ((2 * c : ℕ) : ℚ) * (2 : ℚ) ^ (e0.log2 - 64) = c * (2 : ℚ) ^ (e.log2 - 64) := by
        rw [hq, show e0.log2 + 1 - 64 = 1 + (e0.log2 - 64) by ring, zpow_add₀ two_ne_zero]; push_cast; ring
      have hcu : halfUlpOk c = true := by
        rw [halfUlp_iff]; omega
      by_cases hin : e.lo.toRat < ((c : ℚ) + boundOf rm) * (2 : ℚ) ^ (e.log2 - 64)
      · left
        have hgp : gridPoint (e0.log2 - 64) (2 * c) = gridPoint (e.log2 - 64) c := by
          unfold gridPoint
          rw [if_neg (by omega)]
          rcases Nat.lt_or_ge c (2 ^ 64) with h | h
          · rw [if_pos (by omega), if_pos h, hq, Nat.mul_div_cancel_left _ (by decide)]
            congr 1; omega
          · have : c = 2 ^ 64 := by omega
            subst this
            rw [if_neg (by decide), if_neg (by decide), if_pos (by decide), hq]
            refine Prod.ext (by show (2 * 2 ^ 64 / 4 : ℕ) = 2 ^ 64 / 2; decide) ?_
            show e0.log2 - 64 + 2 = e0.log2 + 1 - 64 + 1
            ring
        rw [hgp]
        have hcl : (c : ℚ) ≤ ((2 ^ 64 : ℕ) : ℚ) := by
          have : c ≤ 2 ^ 64 := by omega
          exact_mod_cast this
        rw [plo] at hlow
        have hcl' := mul_le_mul_of_nonneg_right hcl two.le
        have bu2 := mul_le_mul_of_nonneg_right b2 two.le
        refine candidate_of hcu ((withinBound_iff h _ _ _).mpr ⟨?_, hin⟩) ?_ ?_
        · linarith [hcl', bu2]
        · have : (((roundAt .zero ⟨false,
            e.lo⟩ (e.log2 - 64)).mant : ℕ) : ℚ) * (2 : ℚ) ^ (e.log2 - 64) < ((c : ℚ) + 3) * (2 : ℚ) ^ (e.log2 - 64) := by linarith [hs.1, hs.2, hw0.1, hin]
          exact_mod_cast (lt_of_mul_lt_mul_right this two.le).le
        · have : (c : ℚ) * (2 : ℚ) ^ (e.log2 - 64) < ((((roundAt .zero ⟨false,
            e.lo⟩ (e.log2 - 64)).mant : ℕ) : ℚ) + 5) * (2 : ℚ) ^ (e.log2 - 64) := by linarith [hs.1, hs.2, hw0.1, hin]
          have := lt_of_mul_lt_mul_right this two.le
          have : c < (roundAt .zero ⟨false, e.lo⟩ (e.log2 - 64)).mant + 5 := by exact_mod_cast this
          omega
      · right
        intro g hg
        rw [hval]
        obtain ⟨j, -, rfl, hu, hw⟩ := mem_candidates.mp hg
        rw [withinBound_iff h] at hw
        rw [gridPoint_value _ hu]
        linarith [hw.2, not_lt.mp hin]

theorem ext_has (rm : RoundMode) {e : Enclosure} (h : e.Sound) (hl : -16382 ≤ e.log2) :
    ((candidates rm e).filter isExtended).isEmpty = false := by
  obtain ⟨g, hg, hx⟩ := candidates_nonempty rm h
  rw [List.isEmpty_eq_false_iff_exists_mem]
  exact ⟨g, List.mem_filter.mpr ⟨hg, hx hl⟩⟩

theorem choices_normal (rm : RoundMode) {e : Enclosure} (h : e.Sound) (hl : -16382 ≤ e.log2) :
    choices true rm e = ((candidates rm e).filter isExtended).map (toExtended rm e.neg) := by
  show extendedCandidates rm e = _
  unfold extendedCandidates
  simp only
  rw [ext_has rm h hl]; rfl

theorem choices_mono {rm : RoundMode} {e0 e : Enclosure} (h0 : e0.Sound) (h : e.Sound) (hl : e0.lo.toRat ≤ e.lo.toRat)
    (hh : e0.hi.toRat ≤ e.hi.toRat) (hn : e.Narrow) (hs : e0.neg = e.neg) (hk : -16382 ≤ e0.log2) :
    ∀ g0 ∈ choices true rm e0, g0 ∈ choices true rm e ∨ ∀ g ∈ choices true rm e, gridValue g0 ≤ gridValue g := by
  have hk' : -16382 ≤ e.log2 := hk.trans (log2_le h0 h hl hh)
  rw [choices_normal rm h0 hk, choices_normal rm h hk']
  intro g0 hg
  obtain ⟨c0, hc0, rfl⟩ := List.mem_map.mp hg
  obtain ⟨hc, hx⟩ := List.mem_filter.mp hc0
  rcases candidates_mono h0 h hl hh hn hc with hc | hc
  · left; rw [hs]; exact List.mem_map.mpr ⟨c0, List.mem_filter.mpr ⟨hc, hx⟩, rfl⟩
  · right
    intro g hg
    obtain ⟨c, hcm, rfl⟩ := List.mem_map.mp hg
    obtain ⟨hcm, hxc⟩ := List.mem_filter.mp hcm
    rw [toExtended_value _ _ hx, toExtended_value _ _ hxc]
    exact hc c hcm

/-- The delivered value of a result in the range of normal numbers. -/
theorem transc_value {f : TranscFn} {y x : Ext} (h : InDomain f y x) (cw : Word16) (hl : -16382 ≤ (trueValue f y x).log2)
    (hu : (trueValue f y x).log2 ≤ 16382) :
    (transc cw f y x).value = enc80 (trueValue f y x).neg (computedValue true (roundMode cw) f y x).1 (computedValue true (roundMode cw) f y x).2 ∧
    signOf (transc cw f y x).value = (trueValue f y x).neg ∧
    |realOf (transc cw f y x).value| = gridValue (computedValue true (roundMode cw) f y x) := by
  have hs := sound_trueValue h
  have hc := (computedValue_spec (choices_nonempty true (roundMode cw) hs) (rm := roundMode cw) (f := f) (y := y) (x := x)).1
  have he : transc cw f y x = transcDeliver cw (Config.transcUp f y x (roundMode cw)) (trueValue f y x) (computedValue true (roundMode cw) f y x) := by
    unfold transc; rw [decide_eq_true hl, Bool.or_true]
  obtain ⟨b1, b2, c0, h0, hce, hxt⟩ := extended_choice hs hc
  have hcx := hxt (let ⟨g, hg, hi⟩ := candidates_nonempty (roundMode cw) hs; ⟨g, hg, hi hl⟩)
  have hv : gridValue (computedValue true (roundMode cw) f y x) = gridValue c0 := by rw [hce]; exact toExtended_value _ _ hcx
  have hlt := hs.within_lt (candidate_within hs h0)
  rw [← hv] at hlt
  have hb : gridValue (computedValue true (roundMode cw) f y x) < (2 : ℚ) ^ (16384 : ℤ) := hlt.trans_le (zpow_le_zpow_right₀ one_le_two (by omega))
  have hov : ¬ Mag.le ⟨1, 1, 16384⟩ ⟨(computedValue true (roundMode cw) f y x).1, 1,
      (computedValue true (roundMode cw) f y x).2⟩ = true := by
    rw [Mag.le_iff one_ne_zero one_ne_zero, pow_toRat, ← gridValue_toRat]; exact not_le.mpr hb
  have hval : (transc cw f y x).value = enc80 (trueValue f y x).neg (computedValue true (roundMode cw) f y x).1 (computedValue true (roundMode cw) f y x).2 := by
    rw [he]; unfold transcDeliver; simp only
    rw [if_neg hov, if_neg (by omega)]
  obtain ⟨g1, g2, g3⟩ := enc80_grid (trueValue f y x).neg b1 b2 hb
  rw [hval]
  exact ⟨rfl, g2, g3⟩

end Sys2Proof.Machine
end

