-- ==== Sys2Proof/Laws/Answers.lean ====
section
/-! SUPPORT. Everything the operations of the instructions answer that no rounding makes (40_numerics.md R246,
43_basic_arithmetic.md R323 to R365, 45_transcendental.md R424 to R438), and what the transcendental ones answer in their
domain. -/

namespace Sys2Proof.Machine

/-! ### Operand checks -/

/-- A masked or unmasked #IA of the operand check. -/
theorem nanReply_invalid (cw x) : (nanReply cw (true, x)).map plain = Reply.special cw .i x := by
  unfold nanReply Reply.pre Reply.map Reply.special plain
  cases maskedIn cw .i <;> rfl

theorem afterDenormal_exactly (cw d x) : Reply.afterDenormal cw d (.ok (plain x)) = Reply.exactly cw d x := by
  unfold Reply.afterDenormal Reply.exactly Reply.ok plain
  cases d <;> cases maskedIn cw .d <;> rfl

theorem isOrdered_of_infinity {x : Ext} (h : classOf x = .infinity) : isOrdered x = true := by simp [isOrdered, isNaN, h]

theorem isOrdered_of_zero {x : Ext} (h : classOf x = .zero) : isOrdered x = true := by simp [isOrdered, isNaN, h]

theorem isFinite_of_zero {x : Ext} (h : classOf x = .zero) : isFinite x = true := by simp [isFinite, h]

/-- Everything the check of two operands answers (40_numerics.md R246 steps 3 to 5). -/
theorem nanCheck2_answer {cw pick a b r} (h : NanAnswer cw pick a b r) :
    ∃ q, nanCheck2 pick a b = some q ∧ (nanReply cw q).map plain = r := by
  cases h with
  | unsupported h => exact ⟨_, by unfold nanCheck2; rw [if_pos h], nanReply_invalid _ _⟩
  | snan ha hb h => exact ⟨_, by unfold nanCheck2; rw [if_neg (by simp [ha, hb]), if_pos h], nanReply_invalid _ _⟩
  | qnan ha hb ha' hb' h =>
    exact ⟨_, by unfold nanCheck2; rw [if_neg (by simp [ha, hb]), if_neg (by simp [ha', hb']), if_pos h], rfl⟩

/-- Everything the check of one operand answers (40_numerics.md R246 steps 3 to 5). -/
theorem nanCheck1_answer {cw x r} (h : NanAnswer1 cw x r) : ∃ q, nanCheck1 x = some q ∧ (nanReply cw q).map plain = r := by
  cases h with
  | unsupported h => exact ⟨_, by unfold nanCheck1; rw [h], nanReply_invalid _ _⟩
  | snan h => exact ⟨_, by unfold nanCheck1; rw [h], nanReply_invalid _ _⟩
  | qnan h => exact ⟨_, by unfold nanCheck1; rw [h], rfl⟩

theorem isDenormal_facts {x : Ext} (h : isDenormal x = true) : isOrdered x = true ∧ isFinite x = true ∧ classOf x ≠ .zero ∧
    classOf x ≠ .infinity := by
  unfold isDenormal at h; unfold isOrdered isNaN isFinite
  cases hc : classOf x <;> simp_all

theorem isDenormal_eq_false {x : Ext} (h : classOf x = .zero ∨ classOf x = .infinity) : isDenormal x = false := by
  unfold isDenormal
  rcases h with h | h <;> rw [h]

/-- An unmasked #D ends the instruction (40_numerics.md R246 step 7). -/
theorem Reply.afterDenormal_unmasked {α} {cw : Word16} {d : Bool} {k : Reply α} (h : d = true) (hm : maskedIn cw .d = false) :
    Reply.afterDenormal cw d k = ⟨[.d], none⟩ := by unfold Reply.afterDenormal; simp [h, hm]

/-- Finite values compare as the rational numbers they are (44_comparison.md R381). -/
theorem compareExt_spec {a b : Ext} (ha : isFinite a = true) (hb : isFinite b = true) :
    (compareExt a b = .less ↔ realOf a < realOf b) ∧ (compareExt a b = .equal ↔ realOf a = realOf b) := by
  unfold compareExt
  rw [isOrdered_of_isFinite ha, isOrdered_of_isFinite hb]
  simp only [Bool.and_self, Bool.not_true, Bool.false_eq_true, if_false, (isFinite_classes ha).2.2.2,
      (isFinite_classes hb).2.2.2, or_self]
  have p : (0 : ℚ) < (2 : ℚ) ^ min (magOf a).exp (magOf b).exp := by positivity
  have e1 : (alignedInt (valOf a) (min (magOf a).exp (magOf b).exp) : ℚ) * (2 : ℚ) ^ min (magOf a).exp (magOf b).exp = realOf a := alignedInt_cast _ rfl (min_le_left _ _)
  have e2 : (alignedInt (valOf b) (min (magOf a).exp (magOf b).exp) : ℚ) * (2 : ℚ) ^ min (magOf a).exp (magOf b).exp = realOf b := alignedInt_cast _ rfl (min_le_right _ _)
  rw [← e1, ← e2, mul_lt_mul_iff_left₀ p, mul_left_inj' p.ne', Int.cast_lt, Int.cast_inj]
  unfold relationOf
  constructor
  · split
    · simp; omega
    · split <;> simp <;> omega
  · split
    · simp; omega
    · split <;> simp <;> omega

/-- A denormal is below 1. -/
theorem abs_realOf_denormal_lt {x : Ext} (h : isDenormal x = true) : |realOf x| < 1 := by
  have he := ((isDenormal_iff x).mp h).1
  rw [abs_realOf, magOf_toRat, he]
  have h2 : (sigOf x : ℚ) < 2 ^ 64 := by exact_mod_cast sigOf_lt x
  calc _ < (2 : ℚ) ^ 64 * (2 : ℚ) ^ ((max 0 1 : ℕ) - 16446 : ℤ) := mul_lt_mul_of_pos_right h2 (by positivity)
    _ ≤ 1 := by
      rw [show (2 : ℚ) ^ 64 = (2 : ℚ) ^ (64 : ℤ) from rfl, ← zpow_add₀ two_ne_zero]
      exact zpow_le_one_of_nonpos₀ one_le_two (by norm_num)

/-! ### The four operations -/

theorem negate_infinity_iff (x : Ext) : (classOf (negate x) = .infinity ↔ classOf x = .infinity) := by
  rw [classOf_infinity_iff, classOf_infinity_iff, (negate_fields x).2.1, (negate_fields x).2.2]

theorem negate_infinity {x : Ext} (h : classOf x = .infinity) : negate x = inf80 (!signOf x) := by
  rw [classOf_infinity_iff] at h
  refine ext_fields ?_ ?_ ?_
  · simp [(negate_fields x).1]
  · rw [(negate_fields x).2.1, h.1, inf80, expOf_pack]; rfl
  · rw [(negate_fields x).2.2, h.2, inf80, sigOf_pack]; rfl

/-- A sum of zero (43_basic_arithmetic.md R324). -/
theorem addSpecial_zero (rm : RoundMode) {a b : Ext} (ha : classOf a ≠ .infinity) (hb : classOf b ≠ .infinity)
    (h : realOf a + realOf b = 0) :
    addSpecial rm a b = .exact (zero80 (if signOf a = signOf b then signOf a else rm == .down)) := by
  have hc := addExact_cast a b
  rw [h] at hc
  have : (addExact (valOf a) (valOf b)).1 = 0 := by
    rcases mul_eq_zero.mp hc with h | h
    · exact_mod_cast h
    · exact absurd h (by positivity)
  unfold addSpecial
  rw [if_neg ha, if_neg hb]
  simp only [this, if_true]
  split <;> rfl

theorem arith_exact {op cw p pick} {a b : Operand} {x : Ext} (ha : isOrdered a.value = true) (hb : isOrdered b.value = true)
   (h : arithSpecial op (roundMode cw) a.value b.value = .exact x) :
   arith op cw p pick a b = .ok (.exactly cw (a.denormal || b.denormal) x) := by
  unfold arith
  rw [nanCheck2_ordered pick ha hb]
  simp only
  rw [h]
  simp only
  rw [afterDenormal_exactly]

theorem arith_invalid {op cw p pick} {a b : Operand} (ha : isOrdered a.value = true) (hb : isOrdered b.value = true)
   (h : arithSpecial op (roundMode cw) a.value b.value = .invalid) :
   arith op cw p pick a b = .ok (.special cw .i indef80) := by
  unfold arith
  rw [nanCheck2_ordered pick ha hb]
  simp only
  rw [h]
  rfl

theorem arith_zeroDivide {op cw p pick} {a b : Operand} {x : Ext} (ha : isOrdered a.value = true) (hb : isOrdered b.value = true)
   (h : arithSpecial op (roundMode cw) a.value b.value = .zeroDivide x) :
   arith op cw p pick a b = .ok (.special cw .z x) := by
  unfold arith
  rw [nanCheck2_ordered pick ha hb]
  simp only
  rw [h]
  rfl

/-- Everything the four operations answer that no rounding makes (43_basic_arithmetic.md R323 to R326). -/
theorem arith_special {op cw p pick a b r} (h : SpecialAnswer cw pick op a b r) : arith op cw p pick a b = .ok r := by
  cases h with
  | nan h =>
    cases h with
    | unsupported h => unfold arith nanCheck2; rw [if_pos h]; exact congrArg _ (nanReply_invalid _ _)
    | snan ha hb h =>
      unfold arith nanCheck2
      rw [if_neg (by simp [ha, hb]), if_pos h]
      exact congrArg _ (nanReply_invalid _ _)
    | qnan ha hb ha' hb' h =>
      unfold arith nanCheck2
      rw [if_neg (by simp [ha, hb]), if_neg (by simp [ha', hb']), if_pos h]
      rfl
  | addInvalid ha hb h =>
    exact arith_invalid (isOrdered_of_infinity ha) (isOrdered_of_infinity hb) (by simp [arithSpecial, addSpecial, ha, hb, h])
  | addInfinity ha hb =>
    rcases hb with hb | ⟨hb, hs⟩
    · exact arith_exact (isOrdered_of_infinity ha) (isOrdered_of_isFinite hb)
        (by simp [arithSpecial, addSpecial, ha, (isFinite_classes hb).2.2.2])
    · exact arith_exact (isOrdered_of_infinity ha) (isOrdered_of_infinity hb) (by simp [arithSpecial, addSpecial, ha, hs])
  | infinityAdded ha hb =>
    exact arith_exact (isOrdered_of_isFinite ha) (isOrdered_of_infinity hb)
      (by simp [arithSpecial, addSpecial, hb, (isFinite_classes ha).2.2.2])
  | addZero ha hb h =>
    exact arith_exact (isOrdered_of_isFinite ha) (isOrdered_of_isFinite hb) (addSpecial_zero _ (isFinite_classes ha).2.2.2 (isFinite_classes hb).2.2.2 h)
  | subInvalid ha hb h =>
    exact arith_invalid (isOrdered_of_infinity ha) (isOrdered_of_infinity hb)
      (by simp [arithSpecial, subSpecial, addSpecial, ha, (negate_infinity_iff _).mpr hb, h, (negate_fields _).1])
  | subInfinity ha hb =>
    rcases hb with hb | ⟨hb, hs⟩
    · exact arith_exact (isOrdered_of_infinity ha) (isOrdered_of_isFinite hb)
        (by simp [arithSpecial, subSpecial, addSpecial, ha, negate_infinity_iff, (isFinite_classes hb).2.2.2])
    · refine arith_exact (isOrdered_of_infinity ha) (isOrdered_of_infinity hb) ?_
      simp only [arithSpecial, subSpecial, addSpecial, ha, if_true, (negate_infinity_iff _).mpr hb, (negate_fields _).1]
      rw [if_neg]
      revert hs; cases signOf a.value <;> cases signOf b.value <;> simp
  | infinitySubtracted ha hb =>
    exact arith_exact (isOrdered_of_isFinite ha) (isOrdered_of_infinity hb)
      (by simp [arithSpecial, subSpecial, addSpecial, (isFinite_classes ha).2.2.2, negate_infinity hb])
  | subZero ha hb h =>
    refine arith_exact (isOrdered_of_isFinite ha) (isOrdered_of_isFinite hb) ?_
    have := addSpecial_zero (roundMode cw) (a := a.value) (b := negate b.value) (isFinite_classes ha).2.2.2 (by rw [ne_eq, negate_infinity_iff]; exact (isFinite_classes hb).2.2.2) (by rw [realOf_negate, h]; ring)
    rw [arithSpecial, subSpecial, this, (negate_fields _).1]
    congr 2
    cases signOf a.value <;> cases signOf b.value <;> simp
  | mulInvalid h =>
    rcases h with ⟨ha, hb⟩ | ⟨ha, hb⟩
    · exact arith_invalid (isOrdered_of_infinity ha) (isOrdered_of_zero hb) (by simp [arithSpecial, mulSpecial, ha, hb])
    · exact arith_invalid (isOrdered_of_zero ha) (isOrdered_of_infinity hb) (by simp [arithSpecial, mulSpecial, ha, hb])
  | mulInfinity ha hb ha' hb' h =>
    refine arith_exact ha hb ?_
    rcases h with h | h
    · simp [arithSpecial, mulSpecial, h, hb']
    · by_cases g : classOf a.value = .infinity <;> simp [arithSpecial, mulSpecial, h, ha', g]
  | mulZero ha hb h =>
    exact arith_exact (isOrdered_of_isFinite ha) (isOrdered_of_isFinite hb)
      (by simp [arithSpecial, mulSpecial, (isFinite_classes ha).2.2.2, (isFinite_classes hb).2.2.2, h])
  | divInvalid h =>
    rcases h with ⟨ha, hb⟩ | ⟨ha, hb⟩
    · exact arith_invalid (isOrdered_of_infinity ha) (isOrdered_of_infinity hb) (by simp [arithSpecial, divSpecial, ha, hb])
    · exact arith_invalid (isOrdered_of_zero ha) (isOrdered_of_zero hb) (by simp [arithSpecial, divSpecial, ha, hb])
  | divByZero ha ha' hb =>
    exact arith_zeroDivide (isOrdered_of_isFinite ha) (isOrdered_of_zero hb)
      (by simp [arithSpecial, divSpecial, (isFinite_classes ha).2.2.2, ha', hb])
  | infinityDivided ha hb =>
    exact arith_exact (isOrdered_of_infinity ha) (isOrdered_of_isFinite hb)
      (by simp [arithSpecial, divSpecial, ha, (isFinite_classes hb).2.2.2])
  | divByInfinity ha hb =>
    exact arith_exact (isOrdered_of_isFinite ha) (isOrdered_of_infinity hb)
      (by simp [arithSpecial, divSpecial, hb, (isFinite_classes ha).2.2.2])
  | zeroDivided ha hb hb' =>
    exact arith_exact (isOrdered_of_zero ha) (isOrdered_of_isFinite hb)
      (by simp [arithSpecial, divSpecial, ha, hb', (isFinite_classes hb).2.2.2])

/-! ### One operand, scaling -/

/-- Everything FSQRT answers that no rounding makes (43_basic_arithmetic.md R352). -/
theorem sqrt_answer {cw x r} (h : SqrtAnswer cw x r) : sqrt cw x = .ok r := by
  cases h with
  | nan h => obtain ⟨q, hq, hr⟩ := nanCheck1_answer h; unfold sqrt; rw [hq]; exact congrArg _ hr
  | unchanged h =>
    have ho : isOrdered x = true := by rcases h with h | ⟨h, -⟩ <;> [exact isOrdered_of_zero h; exact isOrdered_of_infinity h]
    unfold sqrt; rw [nanCheck1_ordered ho]
    rcases h with h | ⟨h, hs⟩
    · simp only [h, if_true]; rfl
    · simp only [h, hs, if_true]; rfl
  | negative h hz hs => unfold sqrt; rw [nanCheck1_ordered h]; simp only [hz, hs, if_true, if_false]; rfl
  | denormal h hs hm =>
    obtain ⟨a, b, c, d⟩ := isDenormal_facts h
    unfold sqrt; rw [nanCheck1_ordered a]; simp [hs, c, d, h, hm]

/-- Everything FRNDINT answers that is no integer (43_basic_arithmetic.md R365). -/
theorem rndint_answer {cw x r} (h : NanAnswer1 cw x r ∨ (classOf x = .infinity ∧ r = ⟨[], some ⟨x, false⟩⟩) ∨
    (isDenormal x = true ∧ maskedIn cw .d = false ∧ r = ⟨[.d], none⟩)) : rndint cw x = r := by
  unfold rndint
  rcases h with h | ⟨h, rfl⟩ | ⟨h, hm, rfl⟩
  · obtain ⟨q, hq, hr⟩ := nanCheck1_answer h; rw [hq]; exact hr
  · rw [nanCheck1_ordered (isOrdered_of_infinity h)]; simp [h]; rfl
  · obtain ⟨a, b, c, d⟩ := isDenormal_facts h
    rw [nanCheck1_ordered a]; simp [c, d, h, hm, Reply.afterDenormal]

/-- Everything FSCALE answers that is no product (45_transcendental.md R438). -/
theorem scale_answer {cw pick x y r} (h : ScaleAnswer cw pick x y r) : scale cw pick x y = r := by
  cases h with
  | nan h => obtain ⟨q, hq, hr⟩ := nanCheck2_answer h; unfold scale; rw [hq]; exact hr
  | invalid hs hx =>
    have ho : isOrdered x = true := by revert hx; split <;> intro hx <;> [exact isOrdered_of_infinity hx; exact isOrdered_of_zero hx]
    unfold scale; rw [nanCheck2_ordered _ ho (isOrdered_of_infinity hs)]
    simp only [hs, if_true]
    cases hn : signOf y <;> simp [hn] at hx <;> simp [hx] <;> rfl
  | up hs hn hx hz =>
    unfold scale; rw [nanCheck2_ordered _ hx (isOrdered_of_infinity hs)]
    simp only [hs, hn, hz, if_true, if_false, isDenormal_eq_false (.inr hs), Bool.or_false, Bool.false_eq_true]
    exact afterDenormal_exactly _ _ _
  | down hs hn hx =>
    unfold scale; rw [nanCheck2_ordered _ (isOrdered_of_isFinite hx) (isOrdered_of_infinity hs)]
    simp only [hs, hn, (isFinite_classes hx).2.2.2, if_true, if_false, isDenormal_eq_false (.inr hs), Bool.or_false]
    exact afterDenormal_exactly _ _ _
  | unchanged hs hx =>
    have ho : isOrdered x = true := by rcases hx with h | h <;> [exact isOrdered_of_zero h; exact isOrdered_of_infinity h]
    unfold scale; rw [nanCheck2_ordered _ ho (isOrdered_of_isFinite hs)]
    simp only [(isFinite_classes hs).2.2.2, hx, if_true, if_false, isDenormal_eq_false hx, Bool.false_or]
    exact afterDenormal_exactly _ _ _
  | denormal hs hx hz h hm =>
    unfold scale; rw [nanCheck2_ordered _ (isOrdered_of_isFinite hx) (isOrdered_of_isFinite hs)]
    simp [(isFinite_classes hs).2.2.2, (isFinite_classes hx).2.2.2, hz, h, hm, Reply.afterDenormal]

/-! ### Trigonometric functions -/

/-- The range test (45_transcendental.md R424 step 4). -/
theorem beyondRange_iff {x : Ext} (h : realOf x ≠ 0) : beyondRange x = true ↔ (2 : ℚ) ^ (63 : ℕ) ≤ |realOf x| := by
  have hs := Mag.log2_spec (sigOf_ne_of h) (magOf_den x)
  unfold beyondRange
  rw [decide_eq_true_iff, abs_realOf]
  constructor
  · intro hh
    refine le_trans ?_ hs.1
    rw [← zpow_natCast]; exact zpow_le_zpow_right₀ one_le_two hh
  · intro hh
    have := hh.trans_lt hs.2
    rw [← zpow_natCast] at this
    have := (zpow_lt_zpow_iff_right₀ (one_lt_two : (1 : ℚ) < 2)).mp this
    push_cast at this
    omega

/-- The common front of an operand in range (45_transcendental.md R424 step 6). -/
theorem trigFront_go {cw} {x : Ext} (hf : isFinite x = true) (hl : |realOf x| < (2 : ℚ) ^ (63 : ℕ))
    (hd : isDenormal x = false ∨ maskedIn cw .d = true) :
    trigFront cw x = .go (isDenormal x) := by
  have hb : ¬ (classOf x ≠ .zero ∧ beyondRange x = true) := by
    rintro ⟨hz, hb⟩
    rw [beyondRange_iff (fun h => hz ((realOf_eq_zero_iff_zero hf).mp h))] at hb
    exact absurd hl (not_lt.mpr hb)
  unfold trigFront; rw [nanCheck1_ordered (isOrdered_of_isFinite hf)]
  simp only [(isFinite_classes hf).2.2.2, hb, if_false]
  rcases hd with h | h
  · simp [h]
  · cases isDenormal x <;> simp [h]

/-- The common front of an operand out of range (45_transcendental.md R424 step 4). -/
theorem trigFront_outOfRange {cw} {x : Ext} (hf : isFinite x = true) (hl : (2 : ℚ) ^ (63 : ℕ) ≤ |realOf x|) :
    trigFront cw x = .outOfRange := by
  have h0 : realOf x ≠ 0 := by rintro h; rw [h] at hl; norm_num at hl
  have hz : classOf x ≠ .zero := fun h => h0 ((realOf_eq_zero_iff_zero hf).mpr h)
  unfold trigFront; rw [nanCheck1_ordered (isOrdered_of_isFinite hf)]
  simp only [(isFinite_classes hf).2.2.2, (beyondRange_iff h0).mpr hl, if_false]
  simp [hz]

/-- Everything else that the common front answers (45_transcendental.md R424 steps 2, 3 and 5). -/
theorem trigFront_answer {cw x r} (h : TrigAnswer cw x r) :
    (∃ q, trigFront cw x = .value q ∧ q.map plain = r) ∨ (trigFront cw x = .abandoned ∧ r = ⟨[.d], none⟩) := by
  cases h with
  | nan h => obtain ⟨q, hq, hr⟩ := nanCheck1_answer h; unfold trigFront; rw [hq]; exact .inl ⟨_, rfl, hr⟩
  | infinity h =>
    unfold trigFront; rw [nanCheck1_ordered (isOrdered_of_infinity h)]; simp only [h, if_true]
    refine .inl ⟨_, rfl, ?_⟩
    unfold Reply.pre Reply.map Reply.special plain
    cases maskedIn cw .i <;> rfl
  | denormal h hm =>
    obtain ⟨a, b, c, d⟩ := isDenormal_facts h
    have hl := abs_realOf_denormal_lt h
    have hb : beyondRange x = false := by
      rw [Bool.eq_false_iff, ne_eq, beyondRange_iff (fun h0 => c ((realOf_eq_zero_iff_zero b).mp h0)), not_le]
      exact hl.trans_le (by norm_num)
    unfold trigFront; rw [nanCheck1_ordered a]
    right; simp [d, hb, h, hm]

/-! ### Arctangent and logarithms -/

/-- The comparison with 1 of FYL2X. -/
theorem relationToOne_iff {x : Ext} (hx : isFinite x = true) : (relationToOne x = .equal ↔ realOf x = 1) ∧
    (relationToOne x = .less ↔ realOf x < 1) := by
  have h1 : isFinite one80 = true := by decide
  have hv : realOf one80 = 1 := by rw [show realOf one80 = Exact.toRat (valOf one80) from rfl, show valOf one80 = ⟨false, ⟨2^63, 1, -63⟩⟩ by decide]; norm_num [Exact.toRat, Mag.toRat]
  have := compareExt_spec hx h1
  unfold relationToOne
  rw [hv] at this
  exact ⟨this.2, this.1⟩

/-- The class and the sign of a positive number. -/
theorem positive_facts {x : Ext} (hx : isFinite x = true) (h : 0 < realOf x) : isOrdered x = true ∧ classOf x ≠ .zero ∧
    signOf x = false ∧ classOf x ≠ .infinity := by
  refine ⟨isOrdered_of_isFinite hx, fun hz => h.ne' ((realOf_eq_zero_iff_zero hx).mpr hz), ?_, (isFinite_classes hx).2.2.2⟩
  have := (realOf_neg_iff h.ne').not.mp (not_lt.mpr h.le)
  simpa using this

/-- Everything FPATAN answers that is no computed angle (45_transcendental.md R434). -/
theorem atan2_answer {cw pick x y r} (h : Atan2Answer cw pick x y r) : atan2 cw pick y x = r := by
  cases h with
  | nan h => obtain ⟨q, hq, hr⟩ := nanCheck2_answer h; unfold atan2; rw [hq]; exact hr
  | zero hx hs h =>
    have hy : isOrdered y = true := by rcases h with h | ⟨h, -⟩ <;> [exact isOrdered_of_zero h; exact isOrdered_of_isFinite h]
    have hn : (atan2Value y x).isNone = true := by
      unfold atan2Value
      rcases h with h | ⟨h, hi⟩
      · simp [h, hs]
      · by_cases hz : classOf y = .zero
        · simp [hz, hs]
        · simp [hz, (isFinite_classes h).2.2.2, hi, hs]
    unfold atan2; rw [nanCheck2_ordered _ hx hy]
    simp only [hn, if_true]
    exact afterDenormal_exactly _ _ _
  | denormal hx hy h hm =>
    unfold atan2; rw [nanCheck2_ordered _ hx hy]
    exact Reply.afterDenormal_unmasked (by simpa using h) hm

/-- Everything FYL2X answers that is no computed logarithm (45_transcendental.md R435). -/
theorem yLog2x_answer {cw pick x y r} (h : Log2Answer cw pick x y r) : yLog2x cw pick x y = r := by
  cases h with
  | nan h => obtain ⟨q, hq, hr⟩ := nanCheck2_answer h; unfold yLog2x; rw [hq]; exact hr
  | negative hx hy hz hs => unfold yLog2x; rw [nanCheck2_ordered _ hx hy]; simp only [hz, hs, if_true, if_false]; rfl
  | zeroZero hx hy =>
    unfold yLog2x
    rw [nanCheck2_ordered _ (isOrdered_of_zero hx) (isOrdered_of_zero hy)]
    simp only [hx, hy, if_true]
    rfl
  | zeroInfinity hx hy =>
    unfold yLog2x
    rw [nanCheck2_ordered _ (isOrdered_of_zero hx) (isOrdered_of_infinity hy)]
    simp [hx, hy, isDenormal_eq_false (.inl hx), isDenormal_eq_false (.inr hy)]
    rfl
  | zeroDivide hx hy hz =>
    unfold yLog2x; rw [nanCheck2_ordered _ (isOrdered_of_zero hx) (isOrdered_of_isFinite hy)]
    simp only [hx, hz, (isFinite_classes hy).2.2.2, if_true, if_false]; rfl
  | infinityZero hx hy =>
    unfold yLog2x; rw [nanCheck2_ordered _ (isOrdered_of_infinity hx) (isOrdered_of_zero hy)]
    cases hs : signOf x <;> simp [hx, hy] <;> rfl
  | infinity hx hs hy hz =>
    unfold yLog2x; rw [nanCheck2_ordered _ (isOrdered_of_infinity hx) hy]
    simp [hx, hs, hz, isDenormal_eq_false (.inr hx)]; exact afterDenormal_exactly _ _ _
  | oneInfinity hx h hy =>
    obtain ⟨a, b, c, d⟩ := positive_facts hx (by rw [h]; norm_num)
    unfold yLog2x; rw [nanCheck2_ordered _ a (isOrdered_of_infinity hy)]
    simp [b, c, d, (relationToOne_iff hx).1.mpr h, hy]; rfl
  | one hx h hy =>
    obtain ⟨a, b, c, d⟩ := positive_facts hx (by rw [h]; norm_num)
    have hd : isDenormal x = false := by
      by_contra hc
      have := abs_realOf_denormal_lt (by simpa using hc)
      rw [h] at this; norm_num at this
    unfold yLog2x; rw [nanCheck2_ordered _ a (isOrdered_of_isFinite hy)]
    simp [b, c, d, (relationToOne_iff hx).1.mpr h, (isFinite_classes hy).2.2.2, hd]; exact afterDenormal_exactly _ _ _
  | infinityFactor hx h h1 hy =>
    obtain ⟨a, b, c, d⟩ := positive_facts hx h
    have hne : relationToOne x ≠ .equal := fun hh => h1 ((relationToOne_iff hx).1.mp hh)
    unfold yLog2x; rw [nanCheck2_ordered _ a (isOrdered_of_infinity hy)]
    simp [b, c, d, hne, hy, isDenormal_eq_false (.inr hy), (relationToOne_iff hx).2]; exact afterDenormal_exactly _ _ _
  | zeroFactor hx h h1 hy =>
    obtain ⟨a, b, c, d⟩ := positive_facts hx h
    have hne : relationToOne x ≠ .equal := fun hh => h1 ((relationToOne_iff hx).1.mp hh)
    unfold yLog2x; rw [nanCheck2_ordered _ a (isOrdered_of_zero hy)]
    simp [b, c, d, hne, hy, isDenormal_eq_false (.inl hy), (relationToOne_iff hx).2]; exact afterDenormal_exactly _ _ _
  | denormal hx h h1 hy hz hd hm =>
    obtain ⟨a, b, c, d⟩ := positive_facts hx h
    have hne : relationToOne x ≠ .equal := fun hh => h1 ((relationToOne_iff hx).1.mp hh)
    unfold yLog2x; rw [nanCheck2_ordered _ a (isOrdered_of_isFinite hy)]
    simp [b, c, d, hne, (isFinite_classes hy).2.2.2, hz]
    exact Reply.afterDenormal_unmasked (by simpa using hd) hm

/-- Everything F2XM1 answers that is no computed power (45_transcendental.md R437). -/
theorem exp2m1_answer {cw x r} (h : Exp2Answer cw x r) : exp2m1 cw x = .inside r ∨ (exp2m1 cw x = .abandoned ∧ r = ⟨[.d],
    none⟩) := by
  cases h with
  | nan h => obtain ⟨q, hq, hr⟩ := nanCheck1_answer h; unfold exp2m1; rw [hq]; exact .inl (congrArg _ hr)
  | zero h => unfold exp2m1; rw [nanCheck1_ordered (isOrdered_of_zero h)]; simp only [h, if_true]; exact .inl rfl
  | denormal h hm =>
    obtain ⟨a, b, c, d⟩ := isDenormal_facts h
    have hl : (magOf x).le .one = true := by
      rw [Mag.le_iff (magOf_den x) one_ne_zero, ← abs_realOf]
      refine (abs_realOf_denormal_lt h).le.trans ?_
      simp [Mag.one, Mag.toRat]
    unfold exp2m1; rw [nanCheck1_ordered a]; simp only [c, d, hl, if_true, if_false]
    exact .inl (congrArg _ (Reply.afterDenormal_unmasked h hm))

theorem le_one_iff (x : Ext) : (magOf x).le .one = true ↔ |realOf x| ≤ 1 := by
  rw [Mag.le_iff (magOf_den x) one_ne_zero, ← abs_realOf]; simp [Mag.one, Mag.toRat]

theorem shifted_parts (x : Ext) : (((magOf x).num <<< (magOf x).exp.toNat : ℕ) : ℚ) = |realOf x| *
    ((2 ^ (-(magOf x).exp).toNat : ℕ) : ℚ) := by
  rw [abs_realOf]; unfold Mag.toRat
  rw [Nat.shiftLeft_eq]
  push_cast
  rw [show ((magOf x).den : ℚ) = 1 by simp [magOf], div_one, ← zpow_natCast, ← zpow_natCast, mul_assoc, ← zpow_add₀ two_ne_zero]
  congr 2
  omega

/-- The domain test of FYL2XP1 (45_transcendental.md R436). -/
theorem inLogDomain_iff (x : Ext) : inLogDomain x = true ↔ |realOf x| ≤ 1 ∧ 1 / 2 ≤ (1 - |realOf x|) ^ 2 := by
  unfold inLogDomain
  simp only [Bool.and_eq_true, decide_eq_true_eq]
  have h := shifted_parts x
  have dp : (0 : ℚ) < ((2 ^ (-(magOf x).exp).toNat : ℕ) : ℚ) := by positivity
  generalize (magOf x).num <<< (magOf x).exp.toNat = n at *
  generalize 2 ^ (-(magOf x).exp).toNat = d at *
  have e1 : n ≤ d ↔ |realOf x| ≤ 1 := by
    rw [← Nat.cast_le (α := ℚ), h, mul_le_iff_le_one_left dp]
  rw [e1]
  refine and_congr_right fun hle => ?_
  have hn : n ≤ d := e1.mpr hle
  rw [← Nat.cast_le (α := ℚ)]
  push_cast [Nat.cast_sub hn]
  rw [h]
  constructor
  · intro hh
    have : (d : ℚ) * d * (1 / 2) ≤ d * d * (1 - |realOf x|) ^ 2 := by linarith
    exact le_of_mul_le_mul_left this (by positivity)
  · intro hh
    have := mul_le_mul_of_nonneg_left hh (by positivity : (0 : ℚ) ≤ (d : ℚ) * d)
    linarith

/-- Everything FYL2XP1 answers that is no computed logarithm (45_transcendental.md R436). -/
theorem yLog2xp1_answer {cw pick x y r} (h : Log2p1Answer cw pick x y r) :
    yLog2xp1 cw pick x y = .inside r ∨ (yLog2xp1 cw pick x y = .abandoned ∧ r = ⟨[.d], none⟩) := by
  cases h with
  | nan h => obtain ⟨q, hq, hr⟩ := nanCheck2_answer h; unfold yLog2xp1; rw [hq]; exact .inl (congrArg _ hr)
  | invalid hy h =>
    have hx : isOrdered x = true := by rcases h with ⟨h, -⟩ | ⟨h, -⟩ <;> [exact isOrdered_of_infinity h; exact isOrdered_of_isFinite h]
    unfold yLog2xp1; rw [nanCheck2_ordered _ hx hy]
    left
    rcases h with ⟨h, hs⟩ | ⟨hf, h⟩
    · simp [h, hs]; rfl
    · have hs : signOf x = true := (realOf_neg_iff (by linarith : realOf x ≠ 0)).mp (by linarith)
      have hl : (magOf x).le .one = false := by
        rw [Bool.eq_false_iff, ne_eq, le_one_iff, abs_of_neg (by linarith)]; linarith
      simp [hs, hl]; rfl
  | zero hx hy =>
    have hl : (magOf x).le .one = true := by
      rw [le_one_iff, (realOf_eq_zero_iff_zero (isFinite_of_zero hx)).mpr hx]; norm_num
    unfold yLog2xp1; rw [nanCheck2_ordered _ (isOrdered_of_zero hx) (isOrdered_of_isFinite hy)]
    left
    simp [hx, hl, (isFinite_classes hy).2.2.2, isDenormal_eq_false (.inl hx)]
    exact afterDenormal_exactly _ _ _
  | zeroFactor hx h h' hy =>
    have hl : (magOf x).le .one = true := (le_one_iff x).mpr h
    have hd := (inLogDomain_iff x).mpr ⟨h, h'⟩
    unfold yLog2xp1; rw [nanCheck2_ordered _ (isOrdered_of_isFinite hx) (isOrdered_of_zero hy)]
    left
    by_cases hz : classOf x = .zero
    · simp [hz, hl, hy, isDenormal_eq_false (.inl hy), isDenormal_eq_false (.inl hz)]; exact afterDenormal_exactly _ _ _
    · simp [hz, hl, hd, (isFinite_classes hx).2.2.2, hy, isDenormal_eq_false (.inl hy)]; exact afterDenormal_exactly _ _ _
  | denormal hx hy h hd hm =>
    have hdd : (isDenormal x || isDenormal y) = true := by simpa using hd
    unfold yLog2xp1; rw [nanCheck2_ordered _ hx hy]
    have hs : (signOf x && (classOf x == .infinity || !(magOf x).le .one)) = false := by
      rcases h with ⟨h, hs⟩ | ⟨hf, h⟩
      · simp [hs]
      · cases hs : signOf x
        · simp
        · have hn : realOf x ≤ 0 := by
            by_cases h0 : realOf x = 0
            · exact h0.le
            · exact ((realOf_neg_iff h0).mpr hs).le
          have hl : (magOf x).le .one = true := by rw [le_one_iff, abs_of_nonpos hn]; linarith
          simp [hl, (isFinite_classes hf).2.2.2]
    simp only [hs, Bool.false_eq_true, if_false]
    split
    · right; simp [outsideDomain, hdd, hm]
    · split
      · left; exact congrArg _ (Reply.afterDenormal_unmasked hdd hm)
      · split
        · left; exact congrArg _ (Reply.afterDenormal_unmasked hdd hm)
        · right; simp [outsideDomain, hdd, hm]

/-- What FPATAN answers in its domain. -/
theorem atan2_inDomain {cw pick y x} (h : InDomain .atan2 y x)
    (hd : (isDenormal x || isDenormal y) = false ∨ maskedIn cw .d = true) :
    atan2 cw pick y x = ⟨(if isDenormal x || isDenormal y then [.d] else []) ++ (transc cw .atan2 y x).flags,
      some ⟨(transc cw .atan2 y x).value, (transc cw .atan2 y x).c1⟩⟩ := by
  obtain ⟨hy, hx, hn⟩ := h
  have hsome : (atan2Value y x).isNone = false := by
    unfold atan2Value
    simp only
    by_cases hz : classOf y = .zero
    · have hs : signOf x = true := by by_contra hc; exact hn ⟨by simpa using hc, .inl hz⟩
      simp [hz, hs]
    · by_cases hi : classOf y = .infinity
      · simp only [hi]; split_ifs <;> simp_all
      · have hf := finite_of_ordered hy hi
        rw [if_neg hz, if_neg hi]
        split_ifs with h1 h2 h3
        · rfl
        · rfl
        · exact absurd ⟨by simpa using h3, .inr ⟨hf, h2⟩⟩ hn
        · rfl
  unfold atan2; rw [nanCheck2_ordered _ hx hy]
  simp only [hsome, Bool.false_eq_true, if_false]
  rw [Reply.afterDenormal_masked _ hd]; rfl

/-- What FYL2X answers in its domain. -/
theorem yLog2x_inDomain {cw pick y x} (h : InDomain .ylog2x y x)
    (hd : (isDenormal x || isDenormal y) = false ∨ maskedIn cw .d = true) :
    yLog2x cw pick x y = ⟨(if isDenormal x || isDenormal y then [.d] else []) ++ (transc cw .ylog2x y x).flags,
      some ⟨(transc cw .ylog2x y x).value, (transc cw .ylog2x y x).c1⟩⟩ := by
  obtain ⟨hx, h0, h1, hy, hy0⟩ := h
  obtain ⟨a, b, c, d⟩ := positive_facts hx h0
  have hne : relationToOne x ≠ .equal := fun hh => h1 ((relationToOne_iff hx).1.mp hh)
  have hz : classOf y ≠ .zero := fun h => hy0 ((realOf_eq_zero_iff_zero hy).mpr h)
  unfold yLog2x; rw [nanCheck2_ordered _ a (isOrdered_of_isFinite hy)]
  simp only [b, c, d, hne, hz, (isFinite_classes hy).2.2.2, if_false, Bool.false_eq_true]
  rw [Reply.afterDenormal_masked _ hd]; rfl

/-- What FYL2XP1 answers in its domain. -/
theorem yLog2xp1_inDomain {cw pick y x} (h : InDomain .ylog2xp1 y x)
    (hd : (isDenormal x || isDenormal y) = false ∨ maskedIn cw .d = true) :
    yLog2xp1 cw pick x y = .inside ⟨(if isDenormal x || isDenormal y then [.d] else []) ++ (transc cw .ylog2xp1 y x).flags,
      some ⟨(transc cw .ylog2xp1 y x).value, (transc cw .ylog2xp1 y x).c1⟩⟩ := by
  obtain ⟨hx, h0, h1, h2, hy, hy0⟩ := h
  have hl := (le_one_iff x).mpr h1
  have hdm := (inLogDomain_iff x).mpr ⟨h1, h2⟩
  have hz : classOf y ≠ .zero := fun h => hy0 ((realOf_eq_zero_iff_zero hy).mpr h)
  have hxz : classOf x ≠ .zero := fun h => h0 ((realOf_eq_zero_iff_zero hx).mpr h)
  unfold yLog2xp1; rw [nanCheck2_ordered _ (isOrdered_of_isFinite hx) (isOrdered_of_isFinite hy)]
  simp only [hl, hdm, hz, hxz, (isFinite_classes hy).2.2.2, (isFinite_classes hx).2.2.2, if_false, if_true, or_self]
  rw [if_neg (by rw [show (classOf x == .infinity) = false by simp [(isFinite_classes hx).2.2.2]]; simp)]
  rw [Reply.afterDenormal_masked _ hd]; rfl

/-- What F2XM1 answers in its domain. -/
theorem exp2m1_inDomain {cw x} (h : InDomain .exp2m1 0 x) (hd : isDenormal x = false ∨ maskedIn cw .d = true) :
    exp2m1 cw x = .inside ⟨(if isDenormal x then [.d] else []) ++ (transc cw .exp2m1 0 x).flags,
      some ⟨(transc cw .exp2m1 0 x).value, (transc cw .exp2m1 0 x).c1⟩⟩ := by
  obtain ⟨hx, h0, h1⟩ := h
  have hl := (le_one_iff x).mpr h1
  have hxz : classOf x ≠ .zero := fun h => h0 ((realOf_eq_zero_iff_zero hx).mpr h)
  unfold exp2m1; rw [nanCheck1_ordered (isOrdered_of_isFinite hx)]
  simp only [hl, hxz, (isFinite_classes hx).2.2.2, if_false, if_true]
  rw [Reply.afterDenormal_masked _ hd]; rfl

/-- FYL2X at a power of two is known exactly. -/
theorem known_log2 {x y : Ext} {k : ℤ} (h : realOf x = (2 : ℚ) ^ k) : (trueValue .ylog2x y x).Known |k * realOf y| := by
  have hp : (0 : ℚ) < realOf x := by rw [h]; positivity
  have h0 := sigOf_ne_of hp.ne'
  have hm : (magOf x).toRat = (2 : ℚ) ^ k := by rw [← abs_realOf, h, abs_of_pos (by positivity)]
  have hlog : (magOf x).log2 = k :=
    Mag.log2_unique h0 (magOf_den x) hm.ge (by rw [hm]; exact zpow_lt_zpow_right₀ one_lt_two (by omega))
  have hl2 : (magOf x).num = 2 ^ (magOf x).num.log2 := by
    have e1 : ((magOf x).num : ℚ) * (2 : ℚ) ^ (magOf x).exp = (2 : ℚ) ^ k := by
      rw [← hm]; unfold Mag.toRat; simp [magOf]
    have e2 : ((magOf x).num : ℚ) = (2 : ℚ) ^ (k - (magOf x).exp) := by
      rw [zpow_sub₀ two_ne_zero, ← e1, mul_div_cancel_right₀ _ (by positivity)]
    have hk : 0 ≤ k - (magOf x).exp := by
      by_contra hc
      have : ((magOf x).num : ℚ) < 1 := by rw [e2]; exact zpow_lt_one_of_neg₀ one_lt_two (by omega)
      have : (magOf x).num < 1 := by exact_mod_cast this
      omega
    obtain ⟨n, hn⟩ := Int.eq_ofNat_of_zero_le hk
    rw [hn] at e2
    have e3 : (magOf x).num = 2 ^ n := by rw [zpow_natCast] at e2; exact_mod_cast e2
    rw [e3, Nat.log2_two_pow]
  have hk : (magOf x).exp + ((magOf x).num.log2 : ℕ) = k := by
    have e1 : ((magOf x).num : ℚ) * (2 : ℚ) ^ (magOf x).exp = (2 : ℚ) ^ k := by
      rw [← hm]; unfold Mag.toRat; simp [magOf]
    rw [hl2] at e1
    push_cast at e1
    rw [← zpow_natCast, ← zpow_add₀ two_ne_zero] at e1
    have := zpow_right_injective₀ (by norm_num : (0 : ℚ) < 2) (by norm_num) e1
    omega
  have hv : trueLog2 (magOf x) = .exactly ⟨decide (k < 0), ⟨k.natAbs, 1, 0⟩⟩ := by
    have hA := Nat.two_pow_pos (magOf x).num.log2
    have hc : ¬ 3 * 2 ^ (magOf x).num.log2 ≤ 2 * (magOf x).num := by
      generalize 2 ^ (magOf x).num.log2 = A at *
      omega
    unfold trueLog2
    simp only
    rw [if_neg hc, hk, if_pos (by rw [← hl2]; simp)]
  show ((trueLog2 (magOf x)).times (valOf y)).Known _
  rw [hv]
  refine ⟨rfl, ?_⟩
  have e : ((Enclosure.exactly ⟨decide (k < 0), ⟨k.natAbs, 1, 0⟩⟩).times (valOf y)).hi.toRat = k.natAbs * (magOf y).toRat := by
    unfold Enclosure.times Enclosure.exactly Mag.toRat
    simp only [Nat.one_mul, zero_add]
    push_cast
    have : (valOf y).mag = magOf y := rfl
    rw [this]; ring
  rw [e, abs_mul, abs_realOf]
  congr 1
  rw [← Int.cast_abs, Int.abs_eq_natAbs]; rfl

/-- F2XM1 at 1 and -1 is known exactly. -/
theorem known_exp2 {x y : Ext} (h : |realOf x| = 1) : (trueValue .exp2m1 y x).Known (if signOf x = true then 1 / 2 else 1) := by
  show (trueExp2m1 (valOf x)).Known _
  have h1 : (magOf x).toRat = 1 := by rw [← abs_realOf]; exact h
  have a : (magOf x).le .one = true := by rw [Mag.le_iff (magOf_den x) one_ne_zero, h1]; simp [Mag.one, Mag.toRat]
  have b : Mag.one.le (magOf x) = true := by rw [Mag.le_iff one_ne_zero (magOf_den x), h1]; simp [Mag.one, Mag.toRat]
  unfold trueExp2m1
  rw [if_pos (by show ((magOf x).le .one && Mag.one.le (magOf x)) = true; rw [a, b]; rfl)]
  refine ⟨rfl, ?_⟩
  show _ = Mag.toRat ⟨1, 1, if signOf x = true then -1 else 0⟩
  rw [pow_toRat]
  split <;> norm_num

end Sys2Proof.Machine
end

