-- ==== Sys2Proof/Laws/State.lean ====
section
/-! SUPPORT. What each update of a field of the state does to every field. -/

namespace Sys2Proof.Machine

/-! ### setSw -/

@[simp] theorem State.setSw_regs (s : State) (w : Word16) : (s.setSw w).regs = s.regs := rfl
@[simp] theorem State.setSw_sw (s : State) (w : Word16) : (s.setSw w).sw = w := rfl
@[simp] theorem State.setSw_cw (s : State) (w : Word16) : (s.setSw w).cw = s.cw := rfl
@[simp] theorem State.setSw_tw (s : State) (w : Word16) : (s.setSw w).tw = s.tw := rfl
@[simp] theorem State.setSw_fip (s : State) (w : Word16) : (s.setSw w).fip = s.fip := rfl
@[simp] theorem State.setSw_fdp (s : State) (w : Word16) : (s.setSw w).fdp = s.fdp := rfl
@[simp] theorem State.setSw_fop (s : State) (w : Word16) : (s.setSw w).fop = s.fop := rfl
@[simp] theorem State.setSw_gprs (s : State) (w : Word16) : (s.setSw w).gprs = s.gprs := rfl
@[simp] theorem State.setSw_segs (s : State) (w : Word16) : (s.setSw w).segs = s.segs := rfl
@[simp] theorem State.setSw_eip (s : State) (w : Word16) : (s.setSw w).eip = s.eip := rfl
@[simp] theorem State.setSw_zf (s : State) (w : Word16) : (s.setSw w).zf = s.zf := rfl
@[simp] theorem State.setSw_pf (s : State) (w : Word16) : (s.setSw w).pf = s.pf := rfl
@[simp] theorem State.setSw_cf (s : State) (w : Word16) : (s.setSw w).cf = s.cf := rfl
@[simp] theorem State.setSw_ne (s : State) (w : Word16) : (s.setSw w).ne = s.ne := rfl
@[simp] theorem State.setSw_ignne (s : State) (w : Word16) : (s.setSw w).ignne = s.ignne := rfl
@[simp] theorem State.setSw_mode (s : State) (w : Word16) : (s.setSw w).mode = s.mode := rfl
@[simp] theorem State.setSw_opSize32 (s : State) (w : Word16) : (s.setSw w).opSize32 = s.opSize32 := rfl
@[simp] theorem State.setSw_addrSize32 (s : State) (w : Word16) : (s.setSw w).addrSize32 = s.addrSize32 := rfl
@[simp] theorem State.setSw_intr (s : State) (w : Word16) : (s.setSw w).intr = s.intr := rfl
@[simp] theorem State.setSw_denied (s : State) (w : Word16) : (s.setSw w).denied = s.denied := rfl
@[simp] theorem State.setSw_frozen (s : State) (w : Word16) : (s.setSw w).frozen = s.frozen := rfl
@[simp] theorem State.setSw_ferr (s : State) (w : Word16) : (s.setSw w).ferr = s.ferr := rfl
@[simp] theorem State.setSw_events (s : State) (w : Word16) : (s.setSw w).events = s.events := rfl
@[simp] theorem State.setSw_mem (s : State) (w : Word16) : (s.setSw w).mem = s.mem := rfl
@[simp] theorem State.setSw_params (s : State) (w : Word16) : (s.setSw w).params = s.params := rfl
@[simp] theorem State.setSw_draws (s : State) (w : Word16) : (s.setSw w).draws = s.draws := rfl

/-! ### setCw -/

@[simp] theorem State.setCw_regs (s : State) (w : Word16) : (s.setCw w).regs = s.regs := rfl
@[simp] theorem State.setCw_sw (s : State) (w : Word16) : (s.setCw w).sw = s.sw := rfl
@[simp] theorem State.setCw_cw (s : State) (w : Word16) : (s.setCw w).cw = w := rfl
@[simp] theorem State.setCw_tw (s : State) (w : Word16) : (s.setCw w).tw = s.tw := rfl
@[simp] theorem State.setCw_fip (s : State) (w : Word16) : (s.setCw w).fip = s.fip := rfl
@[simp] theorem State.setCw_fdp (s : State) (w : Word16) : (s.setCw w).fdp = s.fdp := rfl
@[simp] theorem State.setCw_fop (s : State) (w : Word16) : (s.setCw w).fop = s.fop := rfl
@[simp] theorem State.setCw_gprs (s : State) (w : Word16) : (s.setCw w).gprs = s.gprs := rfl
@[simp] theorem State.setCw_segs (s : State) (w : Word16) : (s.setCw w).segs = s.segs := rfl
@[simp] theorem State.setCw_eip (s : State) (w : Word16) : (s.setCw w).eip = s.eip := rfl
@[simp] theorem State.setCw_zf (s : State) (w : Word16) : (s.setCw w).zf = s.zf := rfl
@[simp] theorem State.setCw_pf (s : State) (w : Word16) : (s.setCw w).pf = s.pf := rfl
@[simp] theorem State.setCw_cf (s : State) (w : Word16) : (s.setCw w).cf = s.cf := rfl
@[simp] theorem State.setCw_ne (s : State) (w : Word16) : (s.setCw w).ne = s.ne := rfl
@[simp] theorem State.setCw_ignne (s : State) (w : Word16) : (s.setCw w).ignne = s.ignne := rfl
@[simp] theorem State.setCw_mode (s : State) (w : Word16) : (s.setCw w).mode = s.mode := rfl
@[simp] theorem State.setCw_opSize32 (s : State) (w : Word16) : (s.setCw w).opSize32 = s.opSize32 := rfl
@[simp] theorem State.setCw_addrSize32 (s : State) (w : Word16) : (s.setCw w).addrSize32 = s.addrSize32 := rfl
@[simp] theorem State.setCw_intr (s : State) (w : Word16) : (s.setCw w).intr = s.intr := rfl
@[simp] theorem State.setCw_denied (s : State) (w : Word16) : (s.setCw w).denied = s.denied := rfl
@[simp] theorem State.setCw_frozen (s : State) (w : Word16) : (s.setCw w).frozen = s.frozen := rfl
@[simp] theorem State.setCw_ferr (s : State) (w : Word16) : (s.setCw w).ferr = s.ferr := rfl
@[simp] theorem State.setCw_events (s : State) (w : Word16) : (s.setCw w).events = s.events := rfl
@[simp] theorem State.setCw_mem (s : State) (w : Word16) : (s.setCw w).mem = s.mem := rfl
@[simp] theorem State.setCw_params (s : State) (w : Word16) : (s.setCw w).params = s.params := rfl
@[simp] theorem State.setCw_draws (s : State) (w : Word16) : (s.setCw w).draws = s.draws := rfl

/-! ### setTw -/

@[simp] theorem State.setTw_regs (s : State) (w : Word16) : (s.setTw w).regs = s.regs := rfl
@[simp] theorem State.setTw_sw (s : State) (w : Word16) : (s.setTw w).sw = s.sw := rfl
@[simp] theorem State.setTw_cw (s : State) (w : Word16) : (s.setTw w).cw = s.cw := rfl
@[simp] theorem State.setTw_tw (s : State) (w : Word16) : (s.setTw w).tw = w := rfl
@[simp] theorem State.setTw_fip (s : State) (w : Word16) : (s.setTw w).fip = s.fip := rfl
@[simp] theorem State.setTw_fdp (s : State) (w : Word16) : (s.setTw w).fdp = s.fdp := rfl
@[simp] theorem State.setTw_fop (s : State) (w : Word16) : (s.setTw w).fop = s.fop := rfl
@[simp] theorem State.setTw_gprs (s : State) (w : Word16) : (s.setTw w).gprs = s.gprs := rfl
@[simp] theorem State.setTw_segs (s : State) (w : Word16) : (s.setTw w).segs = s.segs := rfl
@[simp] theorem State.setTw_eip (s : State) (w : Word16) : (s.setTw w).eip = s.eip := rfl
@[simp] theorem State.setTw_zf (s : State) (w : Word16) : (s.setTw w).zf = s.zf := rfl
@[simp] theorem State.setTw_pf (s : State) (w : Word16) : (s.setTw w).pf = s.pf := rfl
@[simp] theorem State.setTw_cf (s : State) (w : Word16) : (s.setTw w).cf = s.cf := rfl
@[simp] theorem State.setTw_ne (s : State) (w : Word16) : (s.setTw w).ne = s.ne := rfl
@[simp] theorem State.setTw_ignne (s : State) (w : Word16) : (s.setTw w).ignne = s.ignne := rfl
@[simp] theorem State.setTw_mode (s : State) (w : Word16) : (s.setTw w).mode = s.mode := rfl
@[simp] theorem State.setTw_opSize32 (s : State) (w : Word16) : (s.setTw w).opSize32 = s.opSize32 := rfl
@[simp] theorem State.setTw_addrSize32 (s : State) (w : Word16) : (s.setTw w).addrSize32 = s.addrSize32 := rfl
@[simp] theorem State.setTw_intr (s : State) (w : Word16) : (s.setTw w).intr = s.intr := rfl
@[simp] theorem State.setTw_denied (s : State) (w : Word16) : (s.setTw w).denied = s.denied := rfl
@[simp] theorem State.setTw_frozen (s : State) (w : Word16) : (s.setTw w).frozen = s.frozen := rfl
@[simp] theorem State.setTw_ferr (s : State) (w : Word16) : (s.setTw w).ferr = s.ferr := rfl
@[simp] theorem State.setTw_events (s : State) (w : Word16) : (s.setTw w).events = s.events := rfl
@[simp] theorem State.setTw_mem (s : State) (w : Word16) : (s.setTw w).mem = s.mem := rfl
@[simp] theorem State.setTw_params (s : State) (w : Word16) : (s.setTw w).params = s.params := rfl
@[simp] theorem State.setTw_draws (s : State) (w : Word16) : (s.setTw w).draws = s.draws := rfl

/-! ### setMem -/

@[simp] theorem State.setMem_regs (s : State) (m : Memory) : (s.setMem m).regs = s.regs := rfl
@[simp] theorem State.setMem_sw (s : State) (m : Memory) : (s.setMem m).sw = s.sw := rfl
@[simp] theorem State.setMem_cw (s : State) (m : Memory) : (s.setMem m).cw = s.cw := rfl
@[simp] theorem State.setMem_tw (s : State) (m : Memory) : (s.setMem m).tw = s.tw := rfl
@[simp] theorem State.setMem_fip (s : State) (m : Memory) : (s.setMem m).fip = s.fip := rfl
@[simp] theorem State.setMem_fdp (s : State) (m : Memory) : (s.setMem m).fdp = s.fdp := rfl
@[simp] theorem State.setMem_fop (s : State) (m : Memory) : (s.setMem m).fop = s.fop := rfl
@[simp] theorem State.setMem_gprs (s : State) (m : Memory) : (s.setMem m).gprs = s.gprs := rfl
@[simp] theorem State.setMem_segs (s : State) (m : Memory) : (s.setMem m).segs = s.segs := rfl
@[simp] theorem State.setMem_eip (s : State) (m : Memory) : (s.setMem m).eip = s.eip := rfl
@[simp] theorem State.setMem_zf (s : State) (m : Memory) : (s.setMem m).zf = s.zf := rfl
@[simp] theorem State.setMem_pf (s : State) (m : Memory) : (s.setMem m).pf = s.pf := rfl
@[simp] theorem State.setMem_cf (s : State) (m : Memory) : (s.setMem m).cf = s.cf := rfl
@[simp] theorem State.setMem_ne (s : State) (m : Memory) : (s.setMem m).ne = s.ne := rfl
@[simp] theorem State.setMem_ignne (s : State) (m : Memory) : (s.setMem m).ignne = s.ignne := rfl
@[simp] theorem State.setMem_mode (s : State) (m : Memory) : (s.setMem m).mode = s.mode := rfl
@[simp] theorem State.setMem_opSize32 (s : State) (m : Memory) : (s.setMem m).opSize32 = s.opSize32 := rfl
@[simp] theorem State.setMem_addrSize32 (s : State) (m : Memory) :
    (s.setMem m).addrSize32 = s.addrSize32 := rfl
@[simp] theorem State.setMem_intr (s : State) (m : Memory) : (s.setMem m).intr = s.intr := rfl
@[simp] theorem State.setMem_denied (s : State) (m : Memory) : (s.setMem m).denied = s.denied := rfl
@[simp] theorem State.setMem_frozen (s : State) (m : Memory) : (s.setMem m).frozen = s.frozen := rfl
@[simp] theorem State.setMem_ferr (s : State) (m : Memory) : (s.setMem m).ferr = s.ferr := rfl
@[simp] theorem State.setMem_events (s : State) (m : Memory) : (s.setMem m).events = s.events := rfl
@[simp] theorem State.setMem_mem (s : State) (m : Memory) : (s.setMem m).mem = m := rfl
@[simp] theorem State.setMem_params (s : State) (m : Memory) : (s.setMem m).params = s.params := rfl
@[simp] theorem State.setMem_draws (s : State) (m : Memory) : (s.setMem m).draws = s.draws := rfl

/-! ### setRegs -/

@[simp] theorem State.setRegs_regs (s : State) (r : Vector Ext 8) : (s.setRegs r).regs = r := rfl
@[simp] theorem State.setRegs_sw (s : State) (r : Vector Ext 8) : (s.setRegs r).sw = s.sw := rfl
@[simp] theorem State.setRegs_cw (s : State) (r : Vector Ext 8) : (s.setRegs r).cw = s.cw := rfl
@[simp] theorem State.setRegs_tw (s : State) (r : Vector Ext 8) : (s.setRegs r).tw = s.tw := rfl
@[simp] theorem State.setRegs_fip (s : State) (r : Vector Ext 8) : (s.setRegs r).fip = s.fip := rfl
@[simp] theorem State.setRegs_fdp (s : State) (r : Vector Ext 8) : (s.setRegs r).fdp = s.fdp := rfl
@[simp] theorem State.setRegs_fop (s : State) (r : Vector Ext 8) : (s.setRegs r).fop = s.fop := rfl
@[simp] theorem State.setRegs_gprs (s : State) (r : Vector Ext 8) : (s.setRegs r).gprs = s.gprs := rfl
@[simp] theorem State.setRegs_segs (s : State) (r : Vector Ext 8) : (s.setRegs r).segs = s.segs := rfl
@[simp] theorem State.setRegs_eip (s : State) (r : Vector Ext 8) : (s.setRegs r).eip = s.eip := rfl
@[simp] theorem State.setRegs_zf (s : State) (r : Vector Ext 8) : (s.setRegs r).zf = s.zf := rfl
@[simp] theorem State.setRegs_pf (s : State) (r : Vector Ext 8) : (s.setRegs r).pf = s.pf := rfl
@[simp] theorem State.setRegs_cf (s : State) (r : Vector Ext 8) : (s.setRegs r).cf = s.cf := rfl
@[simp] theorem State.setRegs_ne (s : State) (r : Vector Ext 8) : (s.setRegs r).ne = s.ne := rfl
@[simp] theorem State.setRegs_ignne (s : State) (r : Vector Ext 8) : (s.setRegs r).ignne = s.ignne := rfl
@[simp] theorem State.setRegs_mode (s : State) (r : Vector Ext 8) : (s.setRegs r).mode = s.mode := rfl
@[simp] theorem State.setRegs_opSize32 (s : State) (r : Vector Ext 8) :
    (s.setRegs r).opSize32 = s.opSize32 := rfl
@[simp] theorem State.setRegs_addrSize32 (s : State) (r : Vector Ext 8) :
    (s.setRegs r).addrSize32 = s.addrSize32 := rfl
@[simp] theorem State.setRegs_intr (s : State) (r : Vector Ext 8) : (s.setRegs r).intr = s.intr := rfl
@[simp] theorem State.setRegs_denied (s : State) (r : Vector Ext 8) : (s.setRegs r).denied = s.denied := rfl
@[simp] theorem State.setRegs_frozen (s : State) (r : Vector Ext 8) : (s.setRegs r).frozen = s.frozen := rfl
@[simp] theorem State.setRegs_ferr (s : State) (r : Vector Ext 8) : (s.setRegs r).ferr = s.ferr := rfl
@[simp] theorem State.setRegs_events (s : State) (r : Vector Ext 8) : (s.setRegs r).events = s.events := rfl
@[simp] theorem State.setRegs_mem (s : State) (r : Vector Ext 8) : (s.setRegs r).mem = s.mem := rfl
@[simp] theorem State.setRegs_params (s : State) (r : Vector Ext 8) : (s.setRegs r).params = s.params := rfl
@[simp] theorem State.setRegs_draws (s : State) (r : Vector Ext 8) : (s.setRegs r).draws = s.draws := rfl

/-! ### setPointers -/

@[simp] theorem State.setPointers_regs (s : State) (a b : FarPtr) (c : BitVec 11) :
    (s.setPointers a b c).regs = s.regs := rfl
@[simp] theorem State.setPointers_sw (s : State) (a b : FarPtr) (c : BitVec 11) :
    (s.setPointers a b c).sw = s.sw := rfl
@[simp] theorem State.setPointers_cw (s : State) (a b : FarPtr) (c : BitVec 11) :
    (s.setPointers a b c).cw = s.cw := rfl
@[simp] theorem State.setPointers_tw (s : State) (a b : FarPtr) (c : BitVec 11) :
    (s.setPointers a b c).tw = s.tw := rfl
@[simp] theorem State.setPointers_fip (s : State) (a b : FarPtr) (c : BitVec 11) :
    (s.setPointers a b c).fip = a := rfl
@[simp] theorem State.setPointers_fdp (s : State) (a b : FarPtr) (c : BitVec 11) :
    (s.setPointers a b c).fdp = b := rfl
@[simp] theorem State.setPointers_fop (s : State) (a b : FarPtr) (c : BitVec 11) :
    (s.setPointers a b c).fop = c := rfl
@[simp] theorem State.setPointers_gprs (s : State) (a b : FarPtr) (c : BitVec 11) :
    (s.setPointers a b c).gprs = s.gprs := rfl
@[simp] theorem State.setPointers_segs (s : State) (a b : FarPtr) (c : BitVec 11) :
    (s.setPointers a b c).segs = s.segs := rfl
@[simp] theorem State.setPointers_eip (s : State) (a b : FarPtr) (c : BitVec 11) :
    (s.setPointers a b c).eip = s.eip := rfl
@[simp] theorem State.setPointers_zf (s : State) (a b : FarPtr) (c : BitVec 11) :
    (s.setPointers a b c).zf = s.zf := rfl
@[simp] theorem State.setPointers_pf (s : State) (a b : FarPtr) (c : BitVec 11) :
    (s.setPointers a b c).pf = s.pf := rfl
@[simp] theorem State.setPointers_cf (s : State) (a b : FarPtr) (c : BitVec 11) :
    (s.setPointers a b c).cf = s.cf := rfl
@[simp] theorem State.setPointers_ne (s : State) (a b : FarPtr) (c : BitVec 11) :
    (s.setPointers a b c).ne = s.ne := rfl
@[simp] theorem State.setPointers_ignne (s : State) (a b : FarPtr) (c : BitVec 11) :
    (s.setPointers a b c).ignne = s.ignne := rfl
@[simp] theorem State.setPointers_mode (s : State) (a b : FarPtr) (c : BitVec 11) :
    (s.setPointers a b c).mode = s.mode := rfl
@[simp] theorem State.setPointers_opSize32 (s : State) (a b : FarPtr) (c : BitVec 11) :
    (s.setPointers a b c).opSize32 = s.opSize32 := rfl
@[simp] theorem State.setPointers_addrSize32 (s : State) (a b : FarPtr) (c : BitVec 11) :
    (s.setPointers a b c).addrSize32 = s.addrSize32 := rfl
@[simp] theorem State.setPointers_intr (s : State) (a b : FarPtr) (c : BitVec 11) :
    (s.setPointers a b c).intr = s.intr := rfl
@[simp] theorem State.setPointers_denied (s : State) (a b : FarPtr) (c : BitVec 11) :
    (s.setPointers a b c).denied = s.denied := rfl
@[simp] theorem State.setPointers_frozen (s : State) (a b : FarPtr) (c : BitVec 11) :
    (s.setPointers a b c).frozen = s.frozen := rfl
@[simp] theorem State.setPointers_ferr (s : State) (a b : FarPtr) (c : BitVec 11) :
    (s.setPointers a b c).ferr = s.ferr := rfl
@[simp] theorem State.setPointers_events (s : State) (a b : FarPtr) (c : BitVec 11) :
    (s.setPointers a b c).events = s.events := rfl
@[simp] theorem State.setPointers_mem (s : State) (a b : FarPtr) (c : BitVec 11) :
    (s.setPointers a b c).mem = s.mem := rfl
@[simp] theorem State.setPointers_params (s : State) (a b : FarPtr) (c : BitVec 11) :
    (s.setPointers a b c).params = s.params := rfl
@[simp] theorem State.setPointers_draws (s : State) (a b : FarPtr) (c : BitVec 11) :
    (s.setPointers a b c).draws = s.draws := rfl

/-! ### setAx -/

@[simp] theorem State.setAx_regs (s : State) (v : Word16) : (s.setAx v).regs = s.regs := rfl
@[simp] theorem State.setAx_sw (s : State) (v : Word16) : (s.setAx v).sw = s.sw := rfl
@[simp] theorem State.setAx_cw (s : State) (v : Word16) : (s.setAx v).cw = s.cw := rfl
@[simp] theorem State.setAx_tw (s : State) (v : Word16) : (s.setAx v).tw = s.tw := rfl
@[simp] theorem State.setAx_fip (s : State) (v : Word16) : (s.setAx v).fip = s.fip := rfl
@[simp] theorem State.setAx_fdp (s : State) (v : Word16) : (s.setAx v).fdp = s.fdp := rfl
@[simp] theorem State.setAx_fop (s : State) (v : Word16) : (s.setAx v).fop = s.fop := rfl
@[simp] theorem State.setAx_gprs (s : State) (v : Word16) :
    (s.setAx v).gprs = s.gprs.set 0 ((s.gprs[0].extractLsb' 16 16) ++ v) := rfl
@[simp] theorem State.setAx_segs (s : State) (v : Word16) : (s.setAx v).segs = s.segs := rfl
@[simp] theorem State.setAx_eip (s : State) (v : Word16) : (s.setAx v).eip = s.eip := rfl
@[simp] theorem State.setAx_zf (s : State) (v : Word16) : (s.setAx v).zf = s.zf := rfl
@[simp] theorem State.setAx_pf (s : State) (v : Word16) : (s.setAx v).pf = s.pf := rfl
@[simp] theorem State.setAx_cf (s : State) (v : Word16) : (s.setAx v).cf = s.cf := rfl
@[simp] theorem State.setAx_ne (s : State) (v : Word16) : (s.setAx v).ne = s.ne := rfl
@[simp] theorem State.setAx_ignne (s : State) (v : Word16) : (s.setAx v).ignne = s.ignne := rfl
@[simp] theorem State.setAx_mode (s : State) (v : Word16) : (s.setAx v).mode = s.mode := rfl
@[simp] theorem State.setAx_opSize32 (s : State) (v : Word16) : (s.setAx v).opSize32 = s.opSize32 := rfl
@[simp] theorem State.setAx_addrSize32 (s : State) (v : Word16) : (s.setAx v).addrSize32 = s.addrSize32 := rfl
@[simp] theorem State.setAx_intr (s : State) (v : Word16) : (s.setAx v).intr = s.intr := rfl
@[simp] theorem State.setAx_denied (s : State) (v : Word16) : (s.setAx v).denied = s.denied := rfl
@[simp] theorem State.setAx_frozen (s : State) (v : Word16) : (s.setAx v).frozen = s.frozen := rfl
@[simp] theorem State.setAx_ferr (s : State) (v : Word16) : (s.setAx v).ferr = s.ferr := rfl
@[simp] theorem State.setAx_events (s : State) (v : Word16) : (s.setAx v).events = s.events := rfl
@[simp] theorem State.setAx_mem (s : State) (v : Word16) : (s.setAx v).mem = s.mem := rfl
@[simp] theorem State.setAx_params (s : State) (v : Word16) : (s.setAx v).params = s.params := rfl
@[simp] theorem State.setAx_draws (s : State) (v : Word16) : (s.setAx v).draws = s.draws := rfl

/-! ### setHostFlags -/

@[simp] theorem State.setHostFlags_regs (s : State) (a b c : Bool) :
    (s.setHostFlags a b c).regs = s.regs := rfl
@[simp] theorem State.setHostFlags_sw (s : State) (a b c : Bool) : (s.setHostFlags a b c).sw = s.sw := rfl
@[simp] theorem State.setHostFlags_cw (s : State) (a b c : Bool) : (s.setHostFlags a b c).cw = s.cw := rfl
@[simp] theorem State.setHostFlags_tw (s : State) (a b c : Bool) : (s.setHostFlags a b c).tw = s.tw := rfl
@[simp] theorem State.setHostFlags_fip (s : State) (a b c : Bool) : (s.setHostFlags a b c).fip = s.fip := rfl
@[simp] theorem State.setHostFlags_fdp (s : State) (a b c : Bool) : (s.setHostFlags a b c).fdp = s.fdp := rfl
@[simp] theorem State.setHostFlags_fop (s : State) (a b c : Bool) : (s.setHostFlags a b c).fop = s.fop := rfl
@[simp] theorem State.setHostFlags_gprs (s : State) (a b c : Bool) :
    (s.setHostFlags a b c).gprs = s.gprs := rfl
@[simp] theorem State.setHostFlags_segs (s : State) (a b c : Bool) :
    (s.setHostFlags a b c).segs = s.segs := rfl
@[simp] theorem State.setHostFlags_eip (s : State) (a b c : Bool) : (s.setHostFlags a b c).eip = s.eip := rfl
@[simp] theorem State.setHostFlags_zf (s : State) (a b c : Bool) : (s.setHostFlags a b c).zf = a := rfl
@[simp] theorem State.setHostFlags_pf (s : State) (a b c : Bool) : (s.setHostFlags a b c).pf = b := rfl
@[simp] theorem State.setHostFlags_cf (s : State) (a b c : Bool) : (s.setHostFlags a b c).cf = c := rfl
@[simp] theorem State.setHostFlags_ne (s : State) (a b c : Bool) : (s.setHostFlags a b c).ne = s.ne := rfl
@[simp] theorem State.setHostFlags_ignne (s : State) (a b c : Bool) :
    (s.setHostFlags a b c).ignne = s.ignne := rfl
@[simp] theorem State.setHostFlags_mode (s : State) (a b c : Bool) :
    (s.setHostFlags a b c).mode = s.mode := rfl
@[simp] theorem State.setHostFlags_opSize32 (s : State) (a b c : Bool) :
    (s.setHostFlags a b c).opSize32 = s.opSize32 := rfl
@[simp] theorem State.setHostFlags_addrSize32 (s : State) (a b c : Bool) :
    (s.setHostFlags a b c).addrSize32 = s.addrSize32 := rfl
@[simp] theorem State.setHostFlags_intr (s : State) (a b c : Bool) :
    (s.setHostFlags a b c).intr = s.intr := rfl
@[simp] theorem State.setHostFlags_denied (s : State) (a b c : Bool) :
    (s.setHostFlags a b c).denied = s.denied := rfl
@[simp] theorem State.setHostFlags_frozen (s : State) (a b c : Bool) :
    (s.setHostFlags a b c).frozen = s.frozen := rfl
@[simp] theorem State.setHostFlags_ferr (s : State) (a b c : Bool) :
    (s.setHostFlags a b c).ferr = s.ferr := rfl
@[simp] theorem State.setHostFlags_events (s : State) (a b c : Bool) :
    (s.setHostFlags a b c).events = s.events := rfl
@[simp] theorem State.setHostFlags_mem (s : State) (a b c : Bool) : (s.setHostFlags a b c).mem = s.mem := rfl
@[simp] theorem State.setHostFlags_params (s : State) (a b c : Bool) :
    (s.setHostFlags a b c).params = s.params := rfl
@[simp] theorem State.setHostFlags_draws (s : State) (a b c : Bool) :
    (s.setHostFlags a b c).draws = s.draws := rfl

/-! ### setEip -/

@[simp] theorem State.setEip_regs (s : State) (a : Word32) : (s.setEip a).regs = s.regs := rfl
@[simp] theorem State.setEip_sw (s : State) (a : Word32) : (s.setEip a).sw = s.sw := rfl
@[simp] theorem State.setEip_cw (s : State) (a : Word32) : (s.setEip a).cw = s.cw := rfl
@[simp] theorem State.setEip_tw (s : State) (a : Word32) : (s.setEip a).tw = s.tw := rfl
@[simp] theorem State.setEip_fip (s : State) (a : Word32) : (s.setEip a).fip = s.fip := rfl
@[simp] theorem State.setEip_fdp (s : State) (a : Word32) : (s.setEip a).fdp = s.fdp := rfl
@[simp] theorem State.setEip_fop (s : State) (a : Word32) : (s.setEip a).fop = s.fop := rfl
@[simp] theorem State.setEip_gprs (s : State) (a : Word32) : (s.setEip a).gprs = s.gprs := rfl
@[simp] theorem State.setEip_segs (s : State) (a : Word32) : (s.setEip a).segs = s.segs := rfl
@[simp] theorem State.setEip_eip (s : State) (a : Word32) : (s.setEip a).eip = a := rfl
@[simp] theorem State.setEip_zf (s : State) (a : Word32) : (s.setEip a).zf = s.zf := rfl
@[simp] theorem State.setEip_pf (s : State) (a : Word32) : (s.setEip a).pf = s.pf := rfl
@[simp] theorem State.setEip_cf (s : State) (a : Word32) : (s.setEip a).cf = s.cf := rfl
@[simp] theorem State.setEip_ne (s : State) (a : Word32) : (s.setEip a).ne = s.ne := rfl
@[simp] theorem State.setEip_ignne (s : State) (a : Word32) : (s.setEip a).ignne = s.ignne := rfl
@[simp] theorem State.setEip_mode (s : State) (a : Word32) : (s.setEip a).mode = s.mode := rfl
@[simp] theorem State.setEip_opSize32 (s : State) (a : Word32) : (s.setEip a).opSize32 = s.opSize32 := rfl
@[simp] theorem State.setEip_addrSize32 (s : State) (a : Word32) :
    (s.setEip a).addrSize32 = s.addrSize32 := rfl
@[simp] theorem State.setEip_intr (s : State) (a : Word32) : (s.setEip a).intr = s.intr := rfl
@[simp] theorem State.setEip_denied (s : State) (a : Word32) : (s.setEip a).denied = s.denied := rfl
@[simp] theorem State.setEip_frozen (s : State) (a : Word32) : (s.setEip a).frozen = s.frozen := rfl
@[simp] theorem State.setEip_ferr (s : State) (a : Word32) : (s.setEip a).ferr = s.ferr := rfl
@[simp] theorem State.setEip_events (s : State) (a : Word32) : (s.setEip a).events = s.events := rfl
@[simp] theorem State.setEip_mem (s : State) (a : Word32) : (s.setEip a).mem = s.mem := rfl
@[simp] theorem State.setEip_params (s : State) (a : Word32) : (s.setEip a).params = s.params := rfl
@[simp] theorem State.setEip_draws (s : State) (a : Word32) : (s.setEip a).draws = s.draws := rfl

/-! ### emit -/

@[simp] theorem State.emit_regs (s : State) (e : HostEvent) : (s.emit e).regs = s.regs := rfl
@[simp] theorem State.emit_sw (s : State) (e : HostEvent) : (s.emit e).sw = s.sw := rfl
@[simp] theorem State.emit_cw (s : State) (e : HostEvent) : (s.emit e).cw = s.cw := rfl
@[simp] theorem State.emit_tw (s : State) (e : HostEvent) : (s.emit e).tw = s.tw := rfl
@[simp] theorem State.emit_fip (s : State) (e : HostEvent) : (s.emit e).fip = s.fip := rfl
@[simp] theorem State.emit_fdp (s : State) (e : HostEvent) : (s.emit e).fdp = s.fdp := rfl
@[simp] theorem State.emit_fop (s : State) (e : HostEvent) : (s.emit e).fop = s.fop := rfl
@[simp] theorem State.emit_gprs (s : State) (e : HostEvent) : (s.emit e).gprs = s.gprs := rfl
@[simp] theorem State.emit_segs (s : State) (e : HostEvent) : (s.emit e).segs = s.segs := rfl
@[simp] theorem State.emit_eip (s : State) (e : HostEvent) : (s.emit e).eip = s.eip := rfl
@[simp] theorem State.emit_zf (s : State) (e : HostEvent) : (s.emit e).zf = s.zf := rfl
@[simp] theorem State.emit_pf (s : State) (e : HostEvent) : (s.emit e).pf = s.pf := rfl
@[simp] theorem State.emit_cf (s : State) (e : HostEvent) : (s.emit e).cf = s.cf := rfl
@[simp] theorem State.emit_ne (s : State) (e : HostEvent) : (s.emit e).ne = s.ne := rfl
@[simp] theorem State.emit_ignne (s : State) (e : HostEvent) : (s.emit e).ignne = s.ignne := rfl
@[simp] theorem State.emit_mode (s : State) (e : HostEvent) : (s.emit e).mode = s.mode := rfl
@[simp] theorem State.emit_opSize32 (s : State) (e : HostEvent) : (s.emit e).opSize32 = s.opSize32 := rfl
@[simp] theorem State.emit_addrSize32 (s : State) (e : HostEvent) :
    (s.emit e).addrSize32 = s.addrSize32 := rfl
@[simp] theorem State.emit_intr (s : State) (e : HostEvent) : (s.emit e).intr = s.intr := rfl
@[simp] theorem State.emit_denied (s : State) (e : HostEvent) : (s.emit e).denied = s.denied := rfl
@[simp] theorem State.emit_frozen (s : State) (e : HostEvent) : (s.emit e).frozen = s.frozen := rfl
@[simp] theorem State.emit_ferr (s : State) (e : HostEvent) : (s.emit e).ferr = s.ferr := rfl
@[simp] theorem State.emit_events (s : State) (e : HostEvent) : (s.emit e).events = s.events ++ [e] := rfl
@[simp] theorem State.emit_mem (s : State) (e : HostEvent) : (s.emit e).mem = s.mem := rfl
@[simp] theorem State.emit_params (s : State) (e : HostEvent) : (s.emit e).params = s.params := rfl
@[simp] theorem State.emit_draws (s : State) (e : HostEvent) : (s.emit e).draws = s.draws := rfl

/-! ### setFrozen -/

@[simp] theorem State.setFrozen_regs (s : State) (b : Bool) : (s.setFrozen b).regs = s.regs := rfl
@[simp] theorem State.setFrozen_sw (s : State) (b : Bool) : (s.setFrozen b).sw = s.sw := rfl
@[simp] theorem State.setFrozen_cw (s : State) (b : Bool) : (s.setFrozen b).cw = s.cw := rfl
@[simp] theorem State.setFrozen_tw (s : State) (b : Bool) : (s.setFrozen b).tw = s.tw := rfl
@[simp] theorem State.setFrozen_fip (s : State) (b : Bool) : (s.setFrozen b).fip = s.fip := rfl
@[simp] theorem State.setFrozen_fdp (s : State) (b : Bool) : (s.setFrozen b).fdp = s.fdp := rfl
@[simp] theorem State.setFrozen_fop (s : State) (b : Bool) : (s.setFrozen b).fop = s.fop := rfl
@[simp] theorem State.setFrozen_gprs (s : State) (b : Bool) : (s.setFrozen b).gprs = s.gprs := rfl
@[simp] theorem State.setFrozen_segs (s : State) (b : Bool) : (s.setFrozen b).segs = s.segs := rfl
@[simp] theorem State.setFrozen_eip (s : State) (b : Bool) : (s.setFrozen b).eip = s.eip := rfl
@[simp] theorem State.setFrozen_zf (s : State) (b : Bool) : (s.setFrozen b).zf = s.zf := rfl
@[simp] theorem State.setFrozen_pf (s : State) (b : Bool) : (s.setFrozen b).pf = s.pf := rfl
@[simp] theorem State.setFrozen_cf (s : State) (b : Bool) : (s.setFrozen b).cf = s.cf := rfl
@[simp] theorem State.setFrozen_ne (s : State) (b : Bool) : (s.setFrozen b).ne = s.ne := rfl
@[simp] theorem State.setFrozen_ignne (s : State) (b : Bool) : (s.setFrozen b).ignne = s.ignne := rfl
@[simp] theorem State.setFrozen_mode (s : State) (b : Bool) : (s.setFrozen b).mode = s.mode := rfl
@[simp] theorem State.setFrozen_opSize32 (s : State) (b : Bool) : (s.setFrozen b).opSize32 = s.opSize32 := rfl
@[simp] theorem State.setFrozen_addrSize32 (s : State) (b : Bool) :
    (s.setFrozen b).addrSize32 = s.addrSize32 := rfl
@[simp] theorem State.setFrozen_intr (s : State) (b : Bool) : (s.setFrozen b).intr = s.intr := rfl
@[simp] theorem State.setFrozen_denied (s : State) (b : Bool) : (s.setFrozen b).denied = s.denied := rfl
@[simp] theorem State.setFrozen_frozen (s : State) (b : Bool) : (s.setFrozen b).frozen = b := rfl
@[simp] theorem State.setFrozen_ferr (s : State) (b : Bool) : (s.setFrozen b).ferr = s.ferr := rfl
@[simp] theorem State.setFrozen_events (s : State) (b : Bool) : (s.setFrozen b).events = s.events := rfl
@[simp] theorem State.setFrozen_mem (s : State) (b : Bool) : (s.setFrozen b).mem = s.mem := rfl
@[simp] theorem State.setFrozen_params (s : State) (b : Bool) : (s.setFrozen b).params = s.params := rfl
@[simp] theorem State.setFrozen_draws (s : State) (b : Bool) : (s.setFrozen b).draws = s.draws := rfl

/-! ### setIntr -/

@[simp] theorem State.setIntr_regs (s : State) (b : Bool) : (s.setIntr b).regs = s.regs := rfl
@[simp] theorem State.setIntr_sw (s : State) (b : Bool) : (s.setIntr b).sw = s.sw := rfl
@[simp] theorem State.setIntr_cw (s : State) (b : Bool) : (s.setIntr b).cw = s.cw := rfl
@[simp] theorem State.setIntr_tw (s : State) (b : Bool) : (s.setIntr b).tw = s.tw := rfl
@[simp] theorem State.setIntr_fip (s : State) (b : Bool) : (s.setIntr b).fip = s.fip := rfl
@[simp] theorem State.setIntr_fdp (s : State) (b : Bool) : (s.setIntr b).fdp = s.fdp := rfl
@[simp] theorem State.setIntr_fop (s : State) (b : Bool) : (s.setIntr b).fop = s.fop := rfl
@[simp] theorem State.setIntr_gprs (s : State) (b : Bool) : (s.setIntr b).gprs = s.gprs := rfl
@[simp] theorem State.setIntr_segs (s : State) (b : Bool) : (s.setIntr b).segs = s.segs := rfl
@[simp] theorem State.setIntr_eip (s : State) (b : Bool) : (s.setIntr b).eip = s.eip := rfl
@[simp] theorem State.setIntr_zf (s : State) (b : Bool) : (s.setIntr b).zf = s.zf := rfl
@[simp] theorem State.setIntr_pf (s : State) (b : Bool) : (s.setIntr b).pf = s.pf := rfl
@[simp] theorem State.setIntr_cf (s : State) (b : Bool) : (s.setIntr b).cf = s.cf := rfl
@[simp] theorem State.setIntr_ne (s : State) (b : Bool) : (s.setIntr b).ne = s.ne := rfl
@[simp] theorem State.setIntr_ignne (s : State) (b : Bool) : (s.setIntr b).ignne = s.ignne := rfl
@[simp] theorem State.setIntr_mode (s : State) (b : Bool) : (s.setIntr b).mode = s.mode := rfl
@[simp] theorem State.setIntr_opSize32 (s : State) (b : Bool) : (s.setIntr b).opSize32 = s.opSize32 := rfl
@[simp] theorem State.setIntr_addrSize32 (s : State) (b : Bool) :
    (s.setIntr b).addrSize32 = s.addrSize32 := rfl
@[simp] theorem State.setIntr_intr (s : State) (b : Bool) : (s.setIntr b).intr = b := rfl
@[simp] theorem State.setIntr_denied (s : State) (b : Bool) : (s.setIntr b).denied = s.denied := rfl
@[simp] theorem State.setIntr_frozen (s : State) (b : Bool) : (s.setIntr b).frozen = s.frozen := rfl
@[simp] theorem State.setIntr_ferr (s : State) (b : Bool) : (s.setIntr b).ferr = s.ferr := rfl
@[simp] theorem State.setIntr_events (s : State) (b : Bool) : (s.setIntr b).events = s.events := rfl
@[simp] theorem State.setIntr_mem (s : State) (b : Bool) : (s.setIntr b).mem = s.mem := rfl
@[simp] theorem State.setIntr_params (s : State) (b : Bool) : (s.setIntr b).params = s.params := rfl
@[simp] theorem State.setIntr_draws (s : State) (b : Bool) : (s.setIntr b).draws = s.draws := rfl

/-! ### nextDraw -/

@[simp] theorem State.nextDraw_regs (s : State) : (s.nextDraw).regs = s.regs := rfl
@[simp] theorem State.nextDraw_sw (s : State) : (s.nextDraw).sw = s.sw := rfl
@[simp] theorem State.nextDraw_cw (s : State) : (s.nextDraw).cw = s.cw := rfl
@[simp] theorem State.nextDraw_tw (s : State) : (s.nextDraw).tw = s.tw := rfl
@[simp] theorem State.nextDraw_fip (s : State) : (s.nextDraw).fip = s.fip := rfl
@[simp] theorem State.nextDraw_fdp (s : State) : (s.nextDraw).fdp = s.fdp := rfl
@[simp] theorem State.nextDraw_fop (s : State) : (s.nextDraw).fop = s.fop := rfl
@[simp] theorem State.nextDraw_gprs (s : State) : (s.nextDraw).gprs = s.gprs := rfl
@[simp] theorem State.nextDraw_segs (s : State) : (s.nextDraw).segs = s.segs := rfl
@[simp] theorem State.nextDraw_eip (s : State) : (s.nextDraw).eip = s.eip := rfl
@[simp] theorem State.nextDraw_zf (s : State) : (s.nextDraw).zf = s.zf := rfl
@[simp] theorem State.nextDraw_pf (s : State) : (s.nextDraw).pf = s.pf := rfl
@[simp] theorem State.nextDraw_cf (s : State) : (s.nextDraw).cf = s.cf := rfl
@[simp] theorem State.nextDraw_ne (s : State) : (s.nextDraw).ne = s.ne := rfl
@[simp] theorem State.nextDraw_ignne (s : State) : (s.nextDraw).ignne = s.ignne := rfl
@[simp] theorem State.nextDraw_mode (s : State) : (s.nextDraw).mode = s.mode := rfl
@[simp] theorem State.nextDraw_opSize32 (s : State) : (s.nextDraw).opSize32 = s.opSize32 := rfl
@[simp] theorem State.nextDraw_addrSize32 (s : State) : (s.nextDraw).addrSize32 = s.addrSize32 := rfl
@[simp] theorem State.nextDraw_intr (s : State) : (s.nextDraw).intr = s.intr := rfl
@[simp] theorem State.nextDraw_denied (s : State) : (s.nextDraw).denied = s.denied := rfl
@[simp] theorem State.nextDraw_frozen (s : State) : (s.nextDraw).frozen = s.frozen := rfl
@[simp] theorem State.nextDraw_ferr (s : State) : (s.nextDraw).ferr = s.ferr := rfl
@[simp] theorem State.nextDraw_events (s : State) : (s.nextDraw).events = s.events := rfl
@[simp] theorem State.nextDraw_mem (s : State) : (s.nextDraw).mem = s.mem := rfl
@[simp] theorem State.nextDraw_params (s : State) : (s.nextDraw).params = s.params := rfl
@[simp] theorem State.nextDraw_draws (s : State) : (s.nextDraw).draws = s.draws + 1 := rfl

/-! ### setFerr -/

@[simp] theorem State.setFerr_ferr (s : State) (b : Bool) : (s.setFerr b).ferr = b := by
  unfold State.setFerr; split
  · assumption
  · rfl

@[simp] theorem State.setFerr_regs (s : State) (b : Bool) : (s.setFerr b).regs = s.regs := by
  unfold State.setFerr; split <;> rfl
@[simp] theorem State.setFerr_sw (s : State) (b : Bool) : (s.setFerr b).sw = s.sw := by
  unfold State.setFerr; split <;> rfl
@[simp] theorem State.setFerr_cw (s : State) (b : Bool) : (s.setFerr b).cw = s.cw := by
  unfold State.setFerr; split <;> rfl
@[simp] theorem State.setFerr_tw (s : State) (b : Bool) : (s.setFerr b).tw = s.tw := by
  unfold State.setFerr; split <;> rfl
@[simp] theorem State.setFerr_fip (s : State) (b : Bool) : (s.setFerr b).fip = s.fip := by
  unfold State.setFerr; split <;> rfl
@[simp] theorem State.setFerr_fdp (s : State) (b : Bool) : (s.setFerr b).fdp = s.fdp := by
  unfold State.setFerr; split <;> rfl
@[simp] theorem State.setFerr_fop (s : State) (b : Bool) : (s.setFerr b).fop = s.fop := by
  unfold State.setFerr; split <;> rfl
@[simp] theorem State.setFerr_gprs (s : State) (b : Bool) : (s.setFerr b).gprs = s.gprs := by
  unfold State.setFerr; split <;> rfl
@[simp] theorem State.setFerr_segs (s : State) (b : Bool) : (s.setFerr b).segs = s.segs := by
  unfold State.setFerr; split <;> rfl
@[simp] theorem State.setFerr_eip (s : State) (b : Bool) : (s.setFerr b).eip = s.eip := by
  unfold State.setFerr; split <;> rfl
@[simp] theorem State.setFerr_zf (s : State) (b : Bool) : (s.setFerr b).zf = s.zf := by
  unfold State.setFerr; split <;> rfl
@[simp] theorem State.setFerr_pf (s : State) (b : Bool) : (s.setFerr b).pf = s.pf := by
  unfold State.setFerr; split <;> rfl
@[simp] theorem State.setFerr_cf (s : State) (b : Bool) : (s.setFerr b).cf = s.cf := by
  unfold State.setFerr; split <;> rfl
@[simp] theorem State.setFerr_ne (s : State) (b : Bool) : (s.setFerr b).ne = s.ne := by
  unfold State.setFerr; split <;> rfl
@[simp] theorem State.setFerr_ignne (s : State) (b : Bool) : (s.setFerr b).ignne = s.ignne := by
  unfold State.setFerr; split <;> rfl
@[simp] theorem State.setFerr_mode (s : State) (b : Bool) : (s.setFerr b).mode = s.mode := by
  unfold State.setFerr; split <;> rfl
@[simp] theorem State.setFerr_opSize32 (s : State) (b : Bool) : (s.setFerr b).opSize32 = s.opSize32 := by
  unfold State.setFerr; split <;> rfl
@[simp] theorem State.setFerr_addrSize32 (s : State) (b : Bool) : (s.setFerr b).addrSize32 = s.addrSize32 := by
  unfold State.setFerr; split <;> rfl
@[simp] theorem State.setFerr_intr (s : State) (b : Bool) : (s.setFerr b).intr = s.intr := by
  unfold State.setFerr; split <;> rfl
@[simp] theorem State.setFerr_denied (s : State) (b : Bool) : (s.setFerr b).denied = s.denied := by
  unfold State.setFerr; split <;> rfl
@[simp] theorem State.setFerr_frozen (s : State) (b : Bool) : (s.setFerr b).frozen = s.frozen := by
  unfold State.setFerr; split <;> rfl
@[simp] theorem State.setFerr_mem (s : State) (b : Bool) : (s.setFerr b).mem = s.mem := by
  unfold State.setFerr; split <;> rfl
@[simp] theorem State.setFerr_params (s : State) (b : Bool) : (s.setFerr b).params = s.params := by
  unfold State.setFerr; split <;> rfl
@[simp] theorem State.setFerr_draws (s : State) (b : Bool) : (s.setFerr b).draws = s.draws := by
  unfold State.setFerr; split <;> rfl

end Sys2Proof.Machine
end

