-- ==== Sys2Proof/Laws/Memory.lean ====
section
/-! SUPPORT. Memory: reading after writing, the bytes a write leaves alone, and the canonical form, which every memory
operation keeps. -/

namespace Sys2Proof.Machine

/-! ### One byte -/

theorem readByte_eraseByte (m : Memory) (a b : Nat) :
    readByte (eraseByte m a) b = if b = a then unlistedByte else readByte m b := by
  induction m with
  | nil => simp [eraseByte, readByte]
  | cons e r ih =>
    obtain ⟨k, v⟩ := e
    by_cases hk : k = a
    · rw [eraseByte, if_pos hk, ih]
      by_cases hb : b = a
      · rw [if_pos hb, if_pos hb]
      · rw [if_neg hb, if_neg hb, readByte, if_neg (by omega)]
    · rw [eraseByte, if_neg hk, readByte, ih, readByte]
      by_cases hb : b = a
      · rw [if_neg (by omega), if_pos hb, if_pos hb]
      · rw [if_neg hb, if_neg hb]

theorem readByte_insertByte {m : Memory} {a : Nat} (h : ∀ e ∈ m, e.1 ≠ a) (v : Byte) (b : Nat) :
    readByte (insertByte m a v) b = if b = a then v else readByte m b := by
  induction m with
  | nil =>
    by_cases hb : b = a
    · simp [insertByte, readByte, hb]
    · have : ¬ a = b := fun e => hb e.symm
      simp [insertByte, readByte, hb, this]
  | cons e r ih =>
    obtain ⟨k, w⟩ := e
    have hk : k ≠ a := h (k, w) (by simp)
    have hr : ∀ e ∈ r, e.1 ≠ a := fun e he => h e (by simp [he])
    by_cases ha : a < k
    · rw [insertByte, if_pos ha, readByte]
      by_cases hb : b = a
      · rw [if_pos hb.symm, if_pos hb]
      · rw [if_neg (fun e => hb e.symm), if_neg hb]
    · rw [insertByte, if_neg ha, readByte, ih hr, readByte]
      by_cases hb : b = a
      · rw [if_neg (by omega), if_pos hb, if_pos hb]
      · rw [if_neg hb, if_neg hb]

theorem eraseByte_absent (m : Memory) (a : Nat) : ∀ e ∈ eraseByte m a, e.1 ≠ a := by
  induction m with
  | nil => simp [eraseByte]
  | cons e r ih =>
    obtain ⟨k, v⟩ := e
    by_cases hk : k = a
    · rw [eraseByte, if_pos hk]; exact ih
    · rw [eraseByte, if_neg hk]
      intro e he
      rcases List.mem_cons.mp he with rfl | he
      · exact hk
      · exact ih e he

/-- A byte after a byte is written (20_memory.md R101). -/
theorem readByte_writeByte (m : Memory) (a : Nat) (v : Byte) (b : Nat) :
    readByte (writeByte m a v) b = if b = a then v else readByte m b := by
  unfold writeByte
  by_cases hv : v = unlistedByte
  · rw [if_pos hv, readByte_eraseByte, hv]
  · rw [if_neg hv, readByte_insertByte (eraseByte_absent m a), readByte_eraseByte]
    by_cases hb : b = a
    · rw [if_pos hb, if_pos hb]
    · rw [if_neg hb, if_neg hb, if_neg hb]

/-! ### The canonical form -/

theorem wfFrom_mono {m : Memory} {a b : Nat} (h : wfFrom b m = true) (hab : a ≤ b) : wfFrom a m = true := by
  cases m with
  | nil => rfl
  | cons e r =>
    obtain ⟨k, v⟩ := e
    simp only [wfFrom, Bool.and_eq_true, decide_eq_true_eq] at h ⊢
    exact ⟨⟨by omega, h.1.2⟩, h.2⟩

theorem wfFrom_eraseByte {m : Memory} {n : Nat} (h : wfFrom n m = true) (a : Nat) :
    wfFrom n (eraseByte m a) = true := by
  induction m generalizing n with
  | nil => rfl
  | cons e r ih =>
    obtain ⟨k, v⟩ := e
    simp only [wfFrom, Bool.and_eq_true, decide_eq_true_eq] at h
    by_cases hk : k = a
    · rw [eraseByte, if_pos hk]
      exact wfFrom_mono (ih h.2) (by omega)
    · rw [eraseByte, if_neg hk]
      simp only [wfFrom, Bool.and_eq_true, decide_eq_true_eq]
      exact ⟨h.1, ih h.2⟩

theorem wfFrom_insertByte {m : Memory} {n a : Nat} {v : Byte} (h : wfFrom n m = true) (hn : n ≤ a)
    (ha : ∀ e ∈ m, e.1 ≠ a) (hv : v ≠ unlistedByte) : wfFrom n (insertByte m a v) = true := by
  induction m generalizing n with
  | nil => simp [insertByte, wfFrom, hn, hv]
  | cons e r ih =>
    obtain ⟨k, w⟩ := e
    have hk : k ≠ a := ha (k, w) (by simp)
    have hr : ∀ e ∈ r, e.1 ≠ a := fun e he => ha e (by simp [he])
    simp only [wfFrom, Bool.and_eq_true, decide_eq_true_eq, bne_iff_ne, ne_eq] at h
    by_cases hak : a < k
    · rw [insertByte, if_pos hak]
      simp only [wfFrom, Bool.and_eq_true, decide_eq_true_eq, bne_iff_ne, ne_eq]
      exact ⟨⟨hn, hv⟩, ⟨⟨by omega, h.1.2⟩, h.2⟩⟩
    · rw [insertByte, if_neg hak]
      simp only [wfFrom, Bool.and_eq_true, decide_eq_true_eq, bne_iff_ne, ne_eq]
      exact ⟨h.1, ih h.2 (by omega) hr⟩

theorem wf_writeByte {m : Memory} (h : Memory.wf m = true) (a : Nat) (v : Byte) :
    Memory.wf (writeByte m a v) = true := by
  unfold writeByte Memory.wf at *
  by_cases hv : v = unlistedByte
  · rw [if_pos hv]; exact wfFrom_eraseByte h a
  · rw [if_neg hv]
    exact wfFrom_insertByte (wfFrom_eraseByte h a) (Nat.zero_le a) (eraseByte_absent m a) hv

theorem wf_writeBytes {m : Memory} (h : Memory.wf m = true) (a : Word32) (bs : List Byte) :
    Memory.wf (writeBytes m a bs) = true := by
  induction bs generalizing m a with
  | nil => exact h
  | cons b r ih => exact ih (wf_writeByte h _ b) _

theorem wf_write {s : State} (h : Memory.wf s.mem = true) (a : Word32) (n v : Nat) :
    Memory.wf (s.write a n v).mem = true := wf_writeBytes h _ _

theorem wf_reset : Memory.wf State.reset.mem = true := rfl

theorem wf_placeWord {s : State} (h : Memory.wf s.mem = true) (nbits w : Nat) :
    Memory.wf (s.placeWord nbits w).mem = true := wf_writeBytes h _ _

/-- Two memories in canonical form that read alike are equal. -/
theorem wfFrom_ext {m m' : Memory} {n : Nat} (h : wfFrom n m = true) (h' : wfFrom n m' = true)
    (hr : ∀ a, readByte m a = readByte m' a) : m = m' := by
  have below : ∀ {r : Memory} {j k : Nat}, wfFrom j r = true → k < j → readByte r k = unlistedByte := by
    intro r
    induction r with
    | nil => intros; rfl
    | cons e r ih =>
      obtain ⟨k', v⟩ := e
      intro j k hw hk
      simp only [wfFrom, Bool.and_eq_true, decide_eq_true_eq] at hw
      rw [readByte, if_neg (by omega)]
      exact ih hw.2 (by omega)
  induction m generalizing m' n with
  | nil =>
    cases m' with
    | nil => rfl
    | cons e r =>
      obtain ⟨k, v⟩ := e
      have := hr k
      simp only [wfFrom, Bool.and_eq_true, decide_eq_true_eq, bne_iff_ne, ne_eq] at h'
      rw [readByte, readByte, if_pos rfl] at this
      exact absurd this.symm h'.1.2
  | cons e r ih =>
    obtain ⟨k, v⟩ := e
    simp only [wfFrom, Bool.and_eq_true, decide_eq_true_eq, bne_iff_ne, ne_eq] at h
    cases m' with
    | nil =>
      have := hr k
      rw [readByte, readByte, if_pos rfl] at this
      exact absurd this h.1.2
    | cons e' r' =>
      obtain ⟨k', v'⟩ := e'
      simp only [wfFrom, Bool.and_eq_true, decide_eq_true_eq, bne_iff_ne, ne_eq] at h'
      have hk : k = k' := by
        rcases Nat.lt_trichotomy k k' with hlt | he | hlt
        · have := hr k
          rw [readByte, if_pos rfl, readByte, if_neg (by omega), below h'.2 (by omega)] at this
          exact absurd this h.1.2
        · exact he
        · have := hr k'
          rw [readByte, if_neg (by omega), below h.2 (by omega), readByte, if_pos rfl] at this
          exact absurd this.symm h'.1.2
      subst hk
      have hv : v = v' := by
        have := hr k
        rwa [readByte, if_pos rfl, readByte, if_pos rfl] at this
      subst hv
      congr 1
      refine ih h.2 h'.2 fun a => ?_
      by_cases ha : k = a
      · subst ha
        rw [below h.2 (by omega), below h'.2 (by omega)]
      · have := hr a
        rwa [readByte, if_neg ha, readByte, if_neg ha] at this

/-! ### Byte sequences -/

@[simp] theorem toBytes_length (v n : Nat) : (toBytes v n).length = n := by
  induction n generalizing v with
  | zero => rfl
  | succ n ih => simp [toBytes, ih]

@[simp] theorem readBytes_length (m : Memory) (a : Word32) (n : Nat) : (readBytes m a n).length = n := by
  induction n generalizing a with
  | zero => rfl
  | succ n ih => simp [readBytes, ih]

/-- The number that bytes hold is below the range of their width. -/
theorem fromBytes_lt (bs : List Byte) : fromBytes bs < 256 ^ bs.length := by
  induction bs with
  | nil => simp [fromBytes]
  | cons b r ih =>
    have := b.isLt
    rw [fromBytes, List.length_cons, Nat.pow_succ]
    omega

/-- Bytes of a number give the number back, as far as they go (20_memory.md R100). -/
theorem fromBytes_toBytes (v n : Nat) : fromBytes (toBytes v n) = v % 256 ^ n := by
  induction n generalizing v with
  | zero => simp [toBytes, fromBytes, Nat.mod_one]
  | succ n ih =>
    rw [toBytes, fromBytes, ih, BitVec.toNat_ofNat, Nat.pow_succ 256 n, Nat.mul_comm (256 ^ n) 256, Nat.mod_mul]

/-- The number of bytes gives the bytes back. -/
theorem toBytes_fromBytes (bs : List Byte) : toBytes (fromBytes bs) bs.length = bs := by
  induction bs with
  | nil => rfl
  | cons b r ih =>
    have hb := b.isLt
    rw [fromBytes, List.length_cons, toBytes]
    have h1 : (b.toNat + 256 * fromBytes r) / 256 = fromBytes r := by omega
    have h2 : BitVec.ofNat 8 (b.toNat + 256 * fromBytes r) = b := by
      apply BitVec.eq_of_toNat_eq
      rw [BitVec.toNat_ofNat]
      omega
    rw [h1, h2, ih]

/-! ### Bytes of an access -/

theorem inRange_zero (a : Word32) (b : Nat) : inRange a 0 b = false := rfl

theorem inRange_iff (a : Word32) (n b : Nat) :
    inRange a n b = true ↔ ∃ j, j < n ∧ (a + BitVec.ofNat 32 j).toNat = b := by
  simp [inRange, beq_iff_eq]

theorem inRange_succ (a : Word32) (n b : Nat) :
    inRange a (n + 1) b = (a.toNat == b || inRange (a + 1) n b) := by
  rw [Bool.eq_iff_iff, Bool.or_eq_true, inRange_iff, inRange_iff]
  have hs : ∀ j, a + BitVec.ofNat 32 (j + 1) = a + 1 + BitVec.ofNat 32 j := fun j => by
    apply BitVec.eq_of_toNat_eq
    simp [BitVec.toNat_add]
    omega
  constructor
  · rintro ⟨j, hj, he⟩
    cases j with
    | zero => exact .inl (by simpa using he)
    | succ j => exact .inr ⟨j, by omega, by rw [← hs]; exact he⟩
  · rintro (h | ⟨j, hj, he⟩)
    · exact ⟨0, by omega, by simpa using h⟩
    · exact ⟨j + 1, by omega, by rw [hs]; exact he⟩

/-- A write leaves every byte outside its range alone. -/
theorem readByte_writeBytes_outside (m : Memory) (a : Word32) (bs : List Byte) (b : Nat)
    (h : inRange a bs.length b = false) : readByte (writeBytes m a bs) b = readByte m b := by
  induction bs generalizing m a with
  | nil => rfl
  | cons v r ih =>
    rw [List.length_cons, inRange_succ, Bool.or_eq_false_iff] at h
    rw [writeBytes, ih _ _ h.2, readByte_writeByte, if_neg]
    rintro rfl
    simp at h

/-- The bytes of a write read back, if they do not run over the whole address space. -/
theorem readBytes_writeBytes (m : Memory) (a : Word32) (bs : List Byte) (h : bs.length ≤ 2 ^ 32) :
    readBytes (writeBytes m a bs) a bs.length = bs := by
  induction bs generalizing m a with
  | nil => rfl
  | cons v r ih =>
    rw [List.length_cons] at h
    have hout : inRange (a + 1) r.length a.toNat = false := by
      rw [Bool.eq_false_iff]
      intro hc
      obtain ⟨j, hj, he⟩ := (inRange_iff _ _ _).mp hc
      have ha := a.isLt
      simp [BitVec.toNat_add] at he
      omega
    rw [writeBytes, List.length_cons, readBytes, readByte_writeBytes_outside _ _ _ _ hout, readByte_writeByte,
      if_pos rfl, ih _ _ (by omega)]

/-- Reading is decided by the bytes of the range. -/
theorem readBytes_congr {m m' : Memory} {a : Word32} {n : Nat}
    (h : ∀ b, inRange a n b = true → readByte m b = readByte m' b) : readBytes m a n = readBytes m' a n := by
  induction n generalizing a with
  | zero => rfl
  | succ n ih =>
    rw [readBytes, readBytes, h a.toNat (by rw [inRange_succ]; simp), ih]
    intro b hb
    exact h b (by rw [inRange_succ, hb, Bool.or_true])

/-- `MemWrite` leaves every byte outside its range alone. -/
theorem write_outside (s : State) (a : Word32) (n v b : Nat) (h : inRange a n b = false) :
    readByte (s.write a n v).mem b = readByte s.mem b :=
  readByte_writeBytes_outside _ _ _ _ (by rwa [toBytes_length])

/-- `MemRead` after `MemWrite` of the same bytes (00_scope.md R12). -/
theorem read_write (s : State) (a : Word32) (n v : Nat) (h : n ≤ 2 ^ 32) :
    (s.write a n v).read a n = v % 256 ^ n := by
  have := readBytes_writeBytes s.mem a (toBytes v n) (by rwa [toBytes_length])
  rw [toBytes_length] at this
  rw [State.read, State.write, State.setMem_mem, this, fromBytes_toBytes]

theorem State.read_lt (s : State) (a : Word32) (n : Nat) : s.read a n < 256 ^ n := by
  have := fromBytes_lt (readBytes s.mem a n)
  rwa [readBytes_length] at this

end Sys2Proof.Machine
end

