-- ==== Sys2Proof/Laws/Flags.lean ====
section
/-! SUPPORT. The fields of the status and tag words after a write, and what the operations on the status word leave
alone. -/

namespace Sys2Proof.Machine

/-! ### Bits of a word -/

/-- One bit after a field is replaced. -/
theorem getLsbD_putField (w : Word16) (pos len : Nat) (v : BitVec len) (n : Nat) :
    (putField w pos len v).getLsbD n =
      if pos ≤ n ∧ n < pos + len ∧ n < 16 then v.getLsbD (n - pos) else w.getLsbD n := by
  by_cases hn : n < 16
  · by_cases h1 : pos ≤ n
    · by_cases h2 : n < pos + len
      · have h3 : n - pos < len := by omega
        have h5 : ¬ n < pos := by omega
        simp [putField, hn, h1, h2, h3, h5]
      · have h3 : ¬ n - pos < len := by omega
        have h4 : v.getLsbD (n - pos) = false := BitVec.getLsbD_of_ge _ _ (by omega)
        simp [putField, hn, h1, h2, h3, h4]
    · have : n < pos := by omega
      simp [putField, hn, h1, this]
  · have : w.getLsbD n = false := BitVec.getLsbD_of_ge _ _ (by omega)
    simp [putField, hn, this]

/-- One bit after a bit is replaced. -/
theorem getLsbD_putBit (w : Word16) (pos : Nat) (b : Bool) (n : Nat) :
    (putBit w pos b).getLsbD n = if n = pos ∧ n < 16 then b else w.getLsbD n := by
  rw [putBit, getLsbD_putField]
  by_cases h : n = pos
  · subst h; by_cases h2 : n < 16 <;> simp [h2]
  · rw [if_neg (by omega), if_neg (by omega)]

theorem Exc.bit_lt (x : Exc) : x.bit < 6 := by cases x <;> decide

theorem Exc.bit_inj {x y : Exc} : x.bit = y.bit ↔ x = y := by cases x <;> cases y <;> decide

theorem Exc.mem_all (x : Exc) : x ∈ Exc.all := by cases x <;> decide

/-! ### The tag word -/

theorem getLsbD_tagAt (w : Word16) (k : Idx) (j : Nat) :
    (tagAt w k).getLsbD j = (decide (j < 2) && w.getLsbD (2 * k.toNat + j)) := by
  simp [tagAt]

/-- One tag after a tag is replaced. -/
theorem tagAt_putTag (w : Word16) (k j : Idx) (t : BitVec 2) :
    tagAt (putTag w k t) j = if j = k then t else tagAt w j := by
  apply BitVec.eq_of_getLsbD_eq
  intro n hn
  have hk := k.isLt
  have hj := j.isLt
  rw [getLsbD_tagAt, putTag, getLsbD_putField]
  by_cases h : j = k
  · subst h
    rw [if_pos (by omega), if_pos rfl]
    simp [hn]
  · have : j.toNat ≠ k.toNat := fun e => h (BitVec.eq_of_toNat_eq e)
    rw [if_neg (by omega), if_neg h, getLsbD_tagAt]

@[simp] theorem State.setTag_tag (s : State) (k j : Idx) (t : BitVec 2) :
    (s.setTag k t).tag j = if j = k then t else s.tag j := tagAt_putTag _ _ _ _

/-! ### TOP -/

@[simp] theorem State.setTop_top (s : State) (t : Idx) : (s.setTop t).top = t := by
  apply BitVec.eq_of_getLsbD_eq
  intro n hn
  simp [State.setTop, State.top, getLsbD_putField, hn, topBit]
  omega

/-- A write of another status bit leaves TOP. -/
theorem State.putSw_top (s : State) (n : Nat) (b : Bool) (h : n < 11 ∨ 14 ≤ n) : (s.putSw n b).top = s.top := by
  apply BitVec.eq_of_getLsbD_eq
  intro j hj
  have : ¬ (11 + j = n ∧ 11 + j < 16) := by omega
  simp [State.putSw, State.top, getLsbD_putBit, hj, topBit, this]

/-! ### What the operations on the status word leave alone -/

/-- Everything but the status word. -/
def State.beyondSw (s : State) : State := s.setSw 0

/-! putSw -/

@[simp] theorem State.putSw_beyondSw (s : State) (n : Nat) (b : Bool) : (s.putSw n b).beyondSw = s.beyondSw := rfl
@[simp] theorem State.putSw_regs (s : State) (n : Nat) (b : Bool) : (s.putSw n b).regs = s.regs := rfl
@[simp] theorem State.putSw_tw (s : State) (n : Nat) (b : Bool) : (s.putSw n b).tw = s.tw := rfl
@[simp] theorem State.putSw_cw (s : State) (n : Nat) (b : Bool) : (s.putSw n b).cw = s.cw := rfl
@[simp] theorem State.putSw_mem (s : State) (n : Nat) (b : Bool) : (s.putSw n b).mem = s.mem := rfl
@[simp] theorem State.putSw_params (s : State) (n : Nat) (b : Bool) : (s.putSw n b).params = s.params := rfl
@[simp] theorem State.putSw_draws (s : State) (n : Nat) (b : Bool) : (s.putSw n b).draws = s.draws := rfl
@[simp] theorem State.putSw_fip (s : State) (n : Nat) (b : Bool) : (s.putSw n b).fip = s.fip := rfl
@[simp] theorem State.putSw_fdp (s : State) (n : Nat) (b : Bool) : (s.putSw n b).fdp = s.fdp := rfl
@[simp] theorem State.putSw_fop (s : State) (n : Nat) (b : Bool) : (s.putSw n b).fop = s.fop := rfl
@[simp] theorem State.putSw_reg (s : State) (n : Nat) (b : Bool) (k : Idx) : (s.putSw n b).reg k = s.reg k :=
  congrArg (fun r : Vector Ext 8 => r[k.toNat]) (s.putSw_regs n b)
@[simp] theorem State.putSw_tag (s : State) (n : Nat) (b : Bool) (k : Idx) : (s.putSw n b).tag k = s.tag k :=
  congrArg (tagAt · k) (s.putSw_tw n b)
@[simp] theorem State.putSw_masked (s : State) (n : Nat) (b : Bool) (y : Exc) : (s.putSw n b).masked y = s.masked y :=
  congrArg (maskedIn · y) (s.putSw_cw n b)

/-! setTop -/

@[simp] theorem State.setTop_beyondSw (s : State) (t : Idx) : (s.setTop t).beyondSw = s.beyondSw := rfl
@[simp] theorem State.setTop_regs (s : State) (t : Idx) : (s.setTop t).regs = s.regs := rfl
@[simp] theorem State.setTop_tw (s : State) (t : Idx) : (s.setTop t).tw = s.tw := rfl
@[simp] theorem State.setTop_cw (s : State) (t : Idx) : (s.setTop t).cw = s.cw := rfl
@[simp] theorem State.setTop_mem (s : State) (t : Idx) : (s.setTop t).mem = s.mem := rfl
@[simp] theorem State.setTop_params (s : State) (t : Idx) : (s.setTop t).params = s.params := rfl
@[simp] theorem State.setTop_draws (s : State) (t : Idx) : (s.setTop t).draws = s.draws := rfl
@[simp] theorem State.setTop_fip (s : State) (t : Idx) : (s.setTop t).fip = s.fip := rfl
@[simp] theorem State.setTop_fdp (s : State) (t : Idx) : (s.setTop t).fdp = s.fdp := rfl
@[simp] theorem State.setTop_fop (s : State) (t : Idx) : (s.setTop t).fop = s.fop := rfl
@[simp] theorem State.setTop_reg (s : State) (t : Idx) (k : Idx) : (s.setTop t).reg k = s.reg k :=
  congrArg (fun r : Vector Ext 8 => r[k.toNat]) (s.setTop_regs t)
@[simp] theorem State.setTop_tag (s : State) (t : Idx) (k : Idx) : (s.setTop t).tag k = s.tag k :=
  congrArg (tagAt · k) (s.setTop_tw t)
@[simp] theorem State.setTop_masked (s : State) (t : Idx) (y : Exc) : (s.setTop t).masked y = s.masked y :=
  congrArg (maskedIn · y) (s.setTop_cw t)

/-! setC1 -/

@[simp] theorem State.setC1_beyondSw (s : State) (b : Bool) : (s.setC1 b).beyondSw = s.beyondSw := rfl
@[simp] theorem State.setC1_regs (s : State) (b : Bool) : (s.setC1 b).regs = s.regs := rfl
@[simp] theorem State.setC1_tw (s : State) (b : Bool) : (s.setC1 b).tw = s.tw := rfl
@[simp] theorem State.setC1_cw (s : State) (b : Bool) : (s.setC1 b).cw = s.cw := rfl
@[simp] theorem State.setC1_mem (s : State) (b : Bool) : (s.setC1 b).mem = s.mem := rfl
@[simp] theorem State.setC1_params (s : State) (b : Bool) : (s.setC1 b).params = s.params := rfl
@[simp] theorem State.setC1_draws (s : State) (b : Bool) : (s.setC1 b).draws = s.draws := rfl
@[simp] theorem State.setC1_fip (s : State) (b : Bool) : (s.setC1 b).fip = s.fip := rfl
@[simp] theorem State.setC1_fdp (s : State) (b : Bool) : (s.setC1 b).fdp = s.fdp := rfl
@[simp] theorem State.setC1_fop (s : State) (b : Bool) : (s.setC1 b).fop = s.fop := rfl
@[simp] theorem State.setC1_reg (s : State) (b : Bool) (k : Idx) : (s.setC1 b).reg k = s.reg k :=
  congrArg (fun r : Vector Ext 8 => r[k.toNat]) (s.setC1_regs b)
@[simp] theorem State.setC1_tag (s : State) (b : Bool) (k : Idx) : (s.setC1 b).tag k = s.tag k :=
  congrArg (tagAt · k) (s.setC1_tw b)
@[simp] theorem State.setC1_masked (s : State) (b : Bool) (y : Exc) : (s.setC1 b).masked y = s.masked y :=
  congrArg (maskedIn · y) (s.setC1_cw b)
@[simp] theorem State.setC1_top (s : State) (b : Bool) : (s.setC1 b).top = s.top :=
  s.putSw_top _ _ (by decide)

/-! setCodes -/

@[simp] theorem State.setCodes_beyondSw (s : State) (a b c : Bool) : (s.setCodes a b c).beyondSw = s.beyondSw := rfl
@[simp] theorem State.setCodes_regs (s : State) (a b c : Bool) : (s.setCodes a b c).regs = s.regs := rfl
@[simp] theorem State.setCodes_tw (s : State) (a b c : Bool) : (s.setCodes a b c).tw = s.tw := rfl
@[simp] theorem State.setCodes_cw (s : State) (a b c : Bool) : (s.setCodes a b c).cw = s.cw := rfl
@[simp] theorem State.setCodes_mem (s : State) (a b c : Bool) : (s.setCodes a b c).mem = s.mem := rfl
@[simp] theorem State.setCodes_params (s : State) (a b c : Bool) : (s.setCodes a b c).params = s.params := rfl
@[simp] theorem State.setCodes_draws (s : State) (a b c : Bool) : (s.setCodes a b c).draws = s.draws := rfl
@[simp] theorem State.setCodes_fip (s : State) (a b c : Bool) : (s.setCodes a b c).fip = s.fip := rfl
@[simp] theorem State.setCodes_fdp (s : State) (a b c : Bool) : (s.setCodes a b c).fdp = s.fdp := rfl
@[simp] theorem State.setCodes_fop (s : State) (a b c : Bool) : (s.setCodes a b c).fop = s.fop := rfl
@[simp] theorem State.setCodes_reg (s : State) (a b c : Bool) (k : Idx) : (s.setCodes a b c).reg k = s.reg k :=
  congrArg (fun r : Vector Ext 8 => r[k.toNat]) (s.setCodes_regs a b c)
@[simp] theorem State.setCodes_tag (s : State) (a b c : Bool) (k : Idx) : (s.setCodes a b c).tag k = s.tag k :=
  congrArg (tagAt · k) (s.setCodes_tw a b c)
@[simp] theorem State.setCodes_masked (s : State) (a b c : Bool) (y : Exc) : (s.setCodes a b c).masked y = s.masked y :=
  congrArg (maskedIn · y) (s.setCodes_cw a b c)
@[simp] theorem State.setCodes_top (s : State) (a b c : Bool) : (s.setCodes a b c).top = s.top := by
  unfold State.setCodes; repeat rw [State.putSw_top _ _ _ (by decide)]

/-! drawC03 -/

@[simp] theorem State.drawC03_beyondSw (s : State) : (s.drawC03).beyondSw = s.beyondSw := rfl
@[simp] theorem State.drawC03_regs (s : State) : (s.drawC03).regs = s.regs := rfl
@[simp] theorem State.drawC03_tw (s : State) : (s.drawC03).tw = s.tw := rfl
@[simp] theorem State.drawC03_cw (s : State) : (s.drawC03).cw = s.cw := rfl
@[simp] theorem State.drawC03_mem (s : State) : (s.drawC03).mem = s.mem := rfl
@[simp] theorem State.drawC03_params (s : State) : (s.drawC03).params = s.params := rfl
@[simp] theorem State.drawC03_draws (s : State) : (s.drawC03).draws = s.draws := rfl
@[simp] theorem State.drawC03_fip (s : State) : (s.drawC03).fip = s.fip := rfl
@[simp] theorem State.drawC03_fdp (s : State) : (s.drawC03).fdp = s.fdp := rfl
@[simp] theorem State.drawC03_fop (s : State) : (s.drawC03).fop = s.fop := rfl
@[simp] theorem State.drawC03_reg (s : State) (k : Idx) : (s.drawC03).reg k = s.reg k :=
  congrArg (fun r : Vector Ext 8 => r[k.toNat]) (s.drawC03_regs)
@[simp] theorem State.drawC03_tag (s : State) (k : Idx) : (s.drawC03).tag k = s.tag k :=
  congrArg (tagAt · k) (s.drawC03_tw)
@[simp] theorem State.drawC03_masked (s : State) (y : Exc) : (s.drawC03).masked y = s.masked y :=
  congrArg (maskedIn · y) (s.drawC03_cw)
@[simp] theorem State.drawC03_top (s : State) : (s.drawC03).top = s.top := by
  unfold State.drawC03; repeat rw [State.putSw_top _ _ _ (by decide)]

/-! drawCodes -/

@[simp] theorem State.drawCodes_beyondSw (s : State) : (s.drawCodes).beyondSw = s.beyondSw := rfl
@[simp] theorem State.drawCodes_regs (s : State) : (s.drawCodes).regs = s.regs := rfl
@[simp] theorem State.drawCodes_tw (s : State) : (s.drawCodes).tw = s.tw := rfl
@[simp] theorem State.drawCodes_cw (s : State) : (s.drawCodes).cw = s.cw := rfl
@[simp] theorem State.drawCodes_mem (s : State) : (s.drawCodes).mem = s.mem := rfl
@[simp] theorem State.drawCodes_params (s : State) : (s.drawCodes).params = s.params := rfl
@[simp] theorem State.drawCodes_draws (s : State) : (s.drawCodes).draws = s.draws := rfl
@[simp] theorem State.drawCodes_fip (s : State) : (s.drawCodes).fip = s.fip := rfl
@[simp] theorem State.drawCodes_fdp (s : State) : (s.drawCodes).fdp = s.fdp := rfl
@[simp] theorem State.drawCodes_fop (s : State) : (s.drawCodes).fop = s.fop := rfl
@[simp] theorem State.drawCodes_reg (s : State) (k : Idx) : (s.drawCodes).reg k = s.reg k :=
  congrArg (fun r : Vector Ext 8 => r[k.toNat]) (s.drawCodes_regs)
@[simp] theorem State.drawCodes_tag (s : State) (k : Idx) : (s.drawCodes).tag k = s.tag k :=
  congrArg (tagAt · k) (s.drawCodes_tw)
@[simp] theorem State.drawCodes_masked (s : State) (y : Exc) : (s.drawCodes).masked y = s.masked y :=
  congrArg (maskedIn · y) (s.drawCodes_cw)
@[simp] theorem State.drawCodes_top (s : State) : s.drawCodes.top = s.top := by
  rw [State.drawCodes, State.putSw_top _ _ _ (by decide), State.drawC03_top]

/-! drawC1 -/

@[simp] theorem State.drawC1_beyondSw (s : State) : (s.drawC1).beyondSw = s.beyondSw := rfl
@[simp] theorem State.drawC1_regs (s : State) : (s.drawC1).regs = s.regs := rfl
@[simp] theorem State.drawC1_tw (s : State) : (s.drawC1).tw = s.tw := rfl
@[simp] theorem State.drawC1_cw (s : State) : (s.drawC1).cw = s.cw := rfl
@[simp] theorem State.drawC1_mem (s : State) : (s.drawC1).mem = s.mem := rfl
@[simp] theorem State.drawC1_params (s : State) : (s.drawC1).params = s.params := rfl
@[simp] theorem State.drawC1_draws (s : State) : (s.drawC1).draws = s.draws := rfl
@[simp] theorem State.drawC1_fip (s : State) : (s.drawC1).fip = s.fip := rfl
@[simp] theorem State.drawC1_fdp (s : State) : (s.drawC1).fdp = s.fdp := rfl
@[simp] theorem State.drawC1_fop (s : State) : (s.drawC1).fop = s.fop := rfl
@[simp] theorem State.drawC1_reg (s : State) (k : Idx) : (s.drawC1).reg k = s.reg k :=
  congrArg (fun r : Vector Ext 8 => r[k.toNat]) (s.drawC1_regs)
@[simp] theorem State.drawC1_tag (s : State) (k : Idx) : (s.drawC1).tag k = s.tag k :=
  congrArg (tagAt · k) (s.drawC1_tw)
@[simp] theorem State.drawC1_masked (s : State) (y : Exc) : (s.drawC1).masked y = s.masked y :=
  congrArg (maskedIn · y) (s.drawC1_cw)
@[simp] theorem State.drawC1_top (s : State) : s.drawC1.top = s.top := s.putSw_top _ _ (by decide)

/-! drawAllCodes -/

@[simp] theorem State.drawAllCodes_beyondSw (s : State) : (s.drawAllCodes).beyondSw = s.beyondSw := rfl
@[simp] theorem State.drawAllCodes_regs (s : State) : (s.drawAllCodes).regs = s.regs := rfl
@[simp] theorem State.drawAllCodes_tw (s : State) : (s.drawAllCodes).tw = s.tw := rfl
@[simp] theorem State.drawAllCodes_cw (s : State) : (s.drawAllCodes).cw = s.cw := rfl
@[simp] theorem State.drawAllCodes_mem (s : State) : (s.drawAllCodes).mem = s.mem := rfl
@[simp] theorem State.drawAllCodes_params (s : State) : (s.drawAllCodes).params = s.params := rfl
@[simp] theorem State.drawAllCodes_draws (s : State) : (s.drawAllCodes).draws = s.draws := rfl
@[simp] theorem State.drawAllCodes_fip (s : State) : (s.drawAllCodes).fip = s.fip := rfl
@[simp] theorem State.drawAllCodes_fdp (s : State) : (s.drawAllCodes).fdp = s.fdp := rfl
@[simp] theorem State.drawAllCodes_fop (s : State) : (s.drawAllCodes).fop = s.fop := rfl
@[simp] theorem State.drawAllCodes_reg (s : State) (k : Idx) : (s.drawAllCodes).reg k = s.reg k :=
  congrArg (fun r : Vector Ext 8 => r[k.toNat]) (s.drawAllCodes_regs)
@[simp] theorem State.drawAllCodes_tag (s : State) (k : Idx) : (s.drawAllCodes).tag k = s.tag k :=
  congrArg (tagAt · k) (s.drawAllCodes_tw)
@[simp] theorem State.drawAllCodes_masked (s : State) (y : Exc) : (s.drawAllCodes).masked y = s.masked y :=
  congrArg (maskedIn · y) (s.drawAllCodes_cw)
@[simp] theorem State.drawAllCodes_top (s : State) : s.drawAllCodes.top = s.top := by
  rw [State.drawAllCodes, State.drawC1_top, State.drawCodes_top]

/-! resummarize -/

@[simp] theorem State.resummarize_beyondSw (s : State) : (s.resummarize).beyondSw = s.beyondSw := rfl
@[simp] theorem State.resummarize_regs (s : State) : (s.resummarize).regs = s.regs := rfl
@[simp] theorem State.resummarize_tw (s : State) : (s.resummarize).tw = s.tw := rfl
@[simp] theorem State.resummarize_cw (s : State) : (s.resummarize).cw = s.cw := rfl
@[simp] theorem State.resummarize_mem (s : State) : (s.resummarize).mem = s.mem := rfl
@[simp] theorem State.resummarize_params (s : State) : (s.resummarize).params = s.params := rfl
@[simp] theorem State.resummarize_draws (s : State) : (s.resummarize).draws = s.draws := rfl
@[simp] theorem State.resummarize_fip (s : State) : (s.resummarize).fip = s.fip := rfl
@[simp] theorem State.resummarize_fdp (s : State) : (s.resummarize).fdp = s.fdp := rfl
@[simp] theorem State.resummarize_fop (s : State) : (s.resummarize).fop = s.fop := rfl
@[simp] theorem State.resummarize_reg (s : State) (k : Idx) : (s.resummarize).reg k = s.reg k :=
  congrArg (fun r : Vector Ext 8 => r[k.toNat]) (s.resummarize_regs)
@[simp] theorem State.resummarize_tag (s : State) (k : Idx) : (s.resummarize).tag k = s.tag k :=
  congrArg (tagAt · k) (s.resummarize_tw)
@[simp] theorem State.resummarize_masked (s : State) (y : Exc) : (s.resummarize).masked y = s.masked y :=
  congrArg (maskedIn · y) (s.resummarize_cw)
@[simp] theorem State.resummarize_top (s : State) : s.resummarize.top = s.top := by
  exact ((s.putSw esBit _).putSw_top busyBit _ (by decide)).trans (s.putSw_top esBit _ (by decide))

/-! signal -/

@[simp] theorem State.signal_beyondSw (s : State) (x : Exc) : (s.signal x).beyondSw = s.beyondSw := by
  unfold State.signal; split <;> rfl
@[simp] theorem State.signal_regs (s : State) (x : Exc) : (s.signal x).regs = s.regs := by
  unfold State.signal; split <;> rfl
@[simp] theorem State.signal_tw (s : State) (x : Exc) : (s.signal x).tw = s.tw := by
  unfold State.signal; split <;> rfl
@[simp] theorem State.signal_cw (s : State) (x : Exc) : (s.signal x).cw = s.cw := by
  unfold State.signal; split <;> rfl
@[simp] theorem State.signal_mem (s : State) (x : Exc) : (s.signal x).mem = s.mem := by
  unfold State.signal; split <;> rfl
@[simp] theorem State.signal_params (s : State) (x : Exc) : (s.signal x).params = s.params := by
  unfold State.signal; split <;> rfl
@[simp] theorem State.signal_draws (s : State) (x : Exc) : (s.signal x).draws = s.draws := by
  unfold State.signal; split <;> rfl
@[simp] theorem State.signal_fip (s : State) (x : Exc) : (s.signal x).fip = s.fip := by
  unfold State.signal; split <;> rfl
@[simp] theorem State.signal_fdp (s : State) (x : Exc) : (s.signal x).fdp = s.fdp := by
  unfold State.signal; split <;> rfl
@[simp] theorem State.signal_fop (s : State) (x : Exc) : (s.signal x).fop = s.fop := by
  unfold State.signal; split <;> rfl
@[simp] theorem State.signal_reg (s : State) (x : Exc) (k : Idx) : (s.signal x).reg k = s.reg k :=
  congrArg (fun r : Vector Ext 8 => r[k.toNat]) (s.signal_regs x)
@[simp] theorem State.signal_tag (s : State) (x : Exc) (k : Idx) : (s.signal x).tag k = s.tag k :=
  congrArg (tagAt · k) (s.signal_tw x)
@[simp] theorem State.signal_masked (s : State) (x : Exc) (y : Exc) : (s.signal x).masked y = s.masked y :=
  congrArg (maskedIn · y) (s.signal_cw x)
@[simp] theorem State.signal_top (s : State) (x : Exc) : (s.signal x).top = s.top := by
  have hx := x.bit_lt
  unfold State.signal
  split
  · exact s.putSw_top _ _ (by omega)
  · rw [State.putSw_top _ _ _ (by decide), State.putSw_top _ _ _ (by decide), State.putSw_top _ _ _ (by omega)]

/-! signalAll -/

@[simp] theorem State.signalAll_nil (s : State) : s.signalAll [] = s := rfl

@[simp] theorem State.signalAll_cons (s : State) (x : Exc) (xs : List Exc) :
    s.signalAll (x :: xs) = (s.signal x).signalAll xs := rfl

@[simp] theorem State.signalAll_beyondSw (s : State) (xs : List Exc) : (s.signalAll xs).beyondSw = s.beyondSw := by
  induction xs generalizing s with
  | nil => rfl
  | cons x xs ih => simp [ih]
@[simp] theorem State.signalAll_regs (s : State) (xs : List Exc) : (s.signalAll xs).regs = s.regs := by
  induction xs generalizing s with
  | nil => rfl
  | cons x xs ih => simp [ih]
@[simp] theorem State.signalAll_tw (s : State) (xs : List Exc) : (s.signalAll xs).tw = s.tw := by
  induction xs generalizing s with
  | nil => rfl
  | cons x xs ih => simp [ih]
@[simp] theorem State.signalAll_cw (s : State) (xs : List Exc) : (s.signalAll xs).cw = s.cw := by
  induction xs generalizing s with
  | nil => rfl
  | cons x xs ih => simp [ih]
@[simp] theorem State.signalAll_mem (s : State) (xs : List Exc) : (s.signalAll xs).mem = s.mem := by
  induction xs generalizing s with
  | nil => rfl
  | cons x xs ih => simp [ih]
@[simp] theorem State.signalAll_params (s : State) (xs : List Exc) : (s.signalAll xs).params = s.params := by
  induction xs generalizing s with
  | nil => rfl
  | cons x xs ih => simp [ih]
@[simp] theorem State.signalAll_draws (s : State) (xs : List Exc) : (s.signalAll xs).draws = s.draws := by
  induction xs generalizing s with
  | nil => rfl
  | cons x xs ih => simp [ih]
@[simp] theorem State.signalAll_fip (s : State) (xs : List Exc) : (s.signalAll xs).fip = s.fip := by
  induction xs generalizing s with
  | nil => rfl
  | cons x xs ih => simp [ih]
@[simp] theorem State.signalAll_fdp (s : State) (xs : List Exc) : (s.signalAll xs).fdp = s.fdp := by
  induction xs generalizing s with
  | nil => rfl
  | cons x xs ih => simp [ih]
@[simp] theorem State.signalAll_fop (s : State) (xs : List Exc) : (s.signalAll xs).fop = s.fop := by
  induction xs generalizing s with
  | nil => rfl
  | cons x xs ih => simp [ih]
@[simp] theorem State.signalAll_reg (s : State) (xs : List Exc) (k : Idx) : (s.signalAll xs).reg k = s.reg k :=
  congrArg (fun r : Vector Ext 8 => r[k.toNat]) (s.signalAll_regs xs)
@[simp] theorem State.signalAll_tag (s : State) (xs : List Exc) (k : Idx) : (s.signalAll xs).tag k = s.tag k :=
  congrArg (tagAt · k) (s.signalAll_tw xs)
@[simp] theorem State.signalAll_masked (s : State) (xs : List Exc) (y : Exc) : (s.signalAll xs).masked y = s.masked y :=
  congrArg (maskedIn · y) (s.signalAll_cw xs)
@[simp] theorem State.signalAll_top (s : State) (xs : List Exc) : (s.signalAll xs).top = s.top := by
  induction xs generalizing s with
  | nil => rfl
  | cons x xs ih => simp [ih]

/-! stackFault -/

@[simp] theorem State.stackFault_beyondSw (s : State) (b : Bool) : (s.stackFault b).beyondSw = s.beyondSw := by
  simp [State.stackFault]
@[simp] theorem State.stackFault_regs (s : State) (b : Bool) : (s.stackFault b).regs = s.regs := by
  simp [State.stackFault]
@[simp] theorem State.stackFault_tw (s : State) (b : Bool) : (s.stackFault b).tw = s.tw := by
  simp [State.stackFault]
@[simp] theorem State.stackFault_cw (s : State) (b : Bool) : (s.stackFault b).cw = s.cw := by
  simp [State.stackFault]
@[simp] theorem State.stackFault_mem (s : State) (b : Bool) : (s.stackFault b).mem = s.mem := by
  simp [State.stackFault]
@[simp] theorem State.stackFault_params (s : State) (b : Bool) : (s.stackFault b).params = s.params := by
  simp [State.stackFault]
@[simp] theorem State.stackFault_draws (s : State) (b : Bool) : (s.stackFault b).draws = s.draws := by
  simp [State.stackFault]
@[simp] theorem State.stackFault_fip (s : State) (b : Bool) : (s.stackFault b).fip = s.fip := by
  simp [State.stackFault]
@[simp] theorem State.stackFault_fdp (s : State) (b : Bool) : (s.stackFault b).fdp = s.fdp := by
  simp [State.stackFault]
@[simp] theorem State.stackFault_fop (s : State) (b : Bool) : (s.stackFault b).fop = s.fop := by
  simp [State.stackFault]
@[simp] theorem State.stackFault_reg (s : State) (b : Bool) (k : Idx) : (s.stackFault b).reg k = s.reg k :=
  congrArg (fun r : Vector Ext 8 => r[k.toNat]) (s.stackFault_regs b)
@[simp] theorem State.stackFault_tag (s : State) (b : Bool) (k : Idx) : (s.stackFault b).tag k = s.tag k :=
  congrArg (tagAt · k) (s.stackFault_tw b)
@[simp] theorem State.stackFault_masked (s : State) (b : Bool) (y : Exc) : (s.stackFault b).masked y = s.masked y :=
  congrArg (maskedIn · y) (s.stackFault_cw b)
@[simp] theorem State.stackFault_top (s : State) (b : Bool) : (s.stackFault b).top = s.top := by
  rw [State.stackFault, State.setC1_top, State.putSw_top _ _ _ (by decide), State.signal_top]

/-! ### Bits of the status word -/

theorem State.putSw_bit (s : State) (k : Nat) (b : Bool) (n : Nat) :
    (s.putSw k b).sw.getLsbD n = if n = k ∧ n < 16 then b else s.sw.getLsbD n := getLsbD_putBit _ _ _ _

theorem State.setTop_bit (s : State) (t : Idx) (n : Nat) (h : n < 11 ∨ 14 ≤ n) :
    (s.setTop t).sw.getLsbD n = s.sw.getLsbD n := by
  have : ¬ (topBit ≤ n ∧ n < topBit + 3 ∧ n < 16) := by unfold topBit; omega
  simp [State.setTop, getLsbD_putField, this]

/-- Each bit of the status word after a signal (60_exceptions.md R522). -/
theorem State.signal_bit (s : State) (x : Exc) (n : Nat) :
    (s.signal x).sw.getLsbD n =
      (s.sw.getLsbD n || n == x.bit || ((n == esBit || n == busyBit) && !s.masked x)) := by
  have hx := x.bit_lt
  unfold State.signal
  by_cases hm : s.masked x
  · rw [if_pos hm, State.putSw_bit]
    by_cases h : n = x.bit
    · have : n < 16 := by omega
      simp [← h, this]
    · simp [h, hm]
  · rw [if_neg hm, State.putSw_bit, State.putSw_bit, State.putSw_bit]
    by_cases h1 : n = busyBit
    · simp [h1, hm, busyBit]
    · by_cases h2 : n = esBit
      · simp [h2, hm, esBit, busyBit]
      · by_cases h : n = x.bit
        · have : n < 16 := by omega
          simp [← h, this, h1, h2]
        · rw [Bool.eq_iff_iff]
          simp [h, h1, h2]

/-- Each bit of the status word after several signals. -/
theorem State.signalAll_bit (s : State) (xs : List Exc) (n : Nat) :
    (s.signalAll xs).sw.getLsbD n =
      (s.sw.getLsbD n || xs.any (fun x => n == x.bit) ||
        ((n == esBit || n == busyBit) && xs.any fun x => !s.masked x)) := by
  induction xs generalizing s with
  | nil => simp
  | cons x xs ih =>
    have hm : ∀ y, (s.signal x).masked y = s.masked y := fun y => by simp [State.masked]
    rw [State.signalAll_cons, ih, State.signal_bit]
    simp only [hm, List.any_cons]
    cases s.sw.getLsbD n <;> cases n == x.bit <;> cases (n == esBit || n == busyBit) <;> cases s.masked x <;>
      cases xs.any (fun x => n == x.bit) <;> simp

/-- The equation of ES, read as a proposition (10_state.md R46). -/
theorem summary_iff (sw cw : Word16) :
    summary sw cw = true ↔ ∃ x : Exc, sw.getLsbD x.bit = true ∧ maskedIn cw x = false := by
  simp only [summary, List.any_eq_true, Bool.and_eq_true, Bool.not_eq_true']
  exact ⟨fun ⟨x, _, h⟩ => ⟨x, h⟩, fun ⟨x, h⟩ => ⟨x, x.mem_all, h⟩⟩

/-- The equation of ES after a signal (10_state.md R46). -/
theorem summary_signal (s : State) (x : Exc) :
    summary (s.signal x).sw s.cw = (summary s.sw s.cw || !s.masked x) := by
  have h : ∀ y : Exc, (s.signal x).sw.getLsbD y.bit = (s.sw.getLsbD y.bit || y == x) := fun y => by
    have : ¬ (y.bit = esBit) := by have := y.bit_lt; unfold esBit; omega
    have : ¬ (y.bit = busyBit) := by have := y.bit_lt; unfold busyBit; omega
    have hb : (y.bit == x.bit) = (y == x) := by
      rw [Bool.eq_iff_iff]; simp [Exc.bit_inj]
    rw [State.signal_bit, hb]; simp [*]
  rw [Bool.eq_iff_iff, Bool.or_eq_true, summary_iff, summary_iff]
  constructor
  · rintro ⟨y, hy, hm⟩
    rw [h, Bool.or_eq_true] at hy
    rcases hy with hy | hy
    · exact .inl ⟨y, hy, hm⟩
    · rw [← beq_iff_eq.mp hy]
      exact .inr (by simp [State.masked, hm])
  · rintro (⟨y, hy, hm⟩ | hm)
    · exact ⟨y, by rw [h, hy, Bool.true_or], hm⟩
    · exact ⟨x, by rw [h, beq_self_eq_true, Bool.or_true], by simpa [State.masked] using hm⟩

/-- ES tells whether an unmasked exception is pending and B follows it (10_state.md R46, R47). -/
def State.Coherent (s : State) : Prop := s.SummaryTrue ∧ s.BusyTrue

/-- A write of a bit that is neither a flag nor ES nor B keeps them coherent. -/
theorem State.Coherent.of_bits {s t : State} (h : s.Coherent) (hc : t.cw = s.cw)
    (hb : ∀ n, n < 6 ∨ n = esBit ∨ n = busyBit → t.sw.getLsbD n = s.sw.getLsbD n) : t.Coherent := by
  have hs : summary t.sw t.cw = summary s.sw s.cw := by
    simp only [summary, hc, Exc.all, List.any_cons, List.any_nil,
      hb _ (.inl (Exc.bit_lt _))]
  refine ⟨?_, ?_⟩
  · rw [State.SummaryTrue, State.es, hs, hb _ (.inr (.inl rfl))]; exact h.1
  · rw [State.BusyTrue, State.es, hb _ (.inr (.inl rfl)), hb _ (.inr (.inr rfl))]; exact h.2

theorem State.Coherent.putSw {s : State} (h : s.Coherent) (n : Nat) (b : Bool)
    (hn : ¬ (n < 6 ∨ n = esBit ∨ n = busyBit)) : (s.putSw n b).Coherent :=
  h.of_bits (by simp) fun m hm => by
    rw [State.putSw_bit, if_neg]; rintro ⟨rfl, -⟩; exact hn hm

theorem State.Coherent.setTop {s : State} (h : s.Coherent) (t : Idx) : (s.setTop t).Coherent :=
  h.of_bits (by simp) fun m hm => s.setTop_bit t m (by unfold esBit busyBit at hm; omega)

theorem State.Coherent.signal {s : State} (h : s.Coherent) (x : Exc) : (s.signal x).Coherent := by
  have hne : (esBit == x.bit) = false := by cases x <;> decide
  have hnb : (busyBit == x.bit) = false := by cases x <;> decide
  refine ⟨?_, ?_⟩
  · rw [State.SummaryTrue, State.signal_cw, summary_signal, State.es, State.signal_bit]
    have := h.1; unfold State.SummaryTrue State.es at this
    simp [hne, this]
  · have := h.2; unfold State.BusyTrue State.es at this
    simp [State.BusyTrue, State.es, State.signal_bit, hne, hnb, this]

theorem State.Coherent.signalAll {s : State} (h : s.Coherent) (xs : List Exc) : (s.signalAll xs).Coherent := by
  induction xs generalizing s with
  | nil => exact h
  | cons x xs ih => exact ih (h.signal x)

theorem State.Coherent.setC1 {s : State} (h : s.Coherent) (b : Bool) : (s.setC1 b).Coherent :=
  h.putSw _ _ (by decide)

theorem State.Coherent.setCodes {s : State} (h : s.Coherent) (a b c : Bool) : (s.setCodes a b c).Coherent :=
  ((h.putSw _ _ (by decide)).putSw _ _ (by decide)).putSw _ _ (by decide)

theorem State.Coherent.drawC03 {s : State} (h : s.Coherent) : s.drawC03.Coherent :=
  (h.putSw _ _ (by decide)).putSw _ _ (by decide)

theorem State.Coherent.drawCodes {s : State} (h : s.Coherent) : s.drawCodes.Coherent :=
  h.drawC03.putSw _ _ (by decide)

theorem State.Coherent.drawC1 {s : State} (h : s.Coherent) : s.drawC1.Coherent := h.putSw _ _ (by decide)

theorem State.Coherent.drawAllCodes {s : State} (h : s.Coherent) : s.drawAllCodes.Coherent := h.drawCodes.drawC1

theorem State.Coherent.stackFault {s : State} (h : s.Coherent) (b : Bool) : (s.stackFault b).Coherent :=
  ((h.signal .i).putSw _ _ (by decide)).setC1 b

/-- Recomputing ES and B makes them coherent whatever they were (10_state.md R46, R47). -/
theorem State.coherent_resummarize (s : State) : s.resummarize.Coherent := by
  have hb : ∀ n, n < 6 → (withSummary s.sw s.cw).getLsbD n = s.sw.getLsbD n := fun n hn => by
    rw [withSummary, getLsbD_putBit, getLsbD_putBit, if_neg (by unfold busyBit; omega), if_neg (by unfold esBit; omega)]
  have hs : summary (withSummary s.sw s.cw) s.cw = summary s.sw s.cw := by
    simp only [summary, Exc.all, List.any_cons, List.any_nil, hb _ (Exc.bit_lt _)]
  have he : (withSummary s.sw s.cw).getLsbD esBit = summary s.sw s.cw := by
    rw [withSummary, getLsbD_putBit, if_neg (by decide), getLsbD_putBit, if_pos (by decide)]
  have hy : (withSummary s.sw s.cw).getLsbD busyBit = summary s.sw s.cw := by
    rw [withSummary, getLsbD_putBit, if_pos (by decide)]
  exact ⟨he.trans hs.symm, hy.trans he.symm⟩

end Sys2Proof.Machine
end

