-- ==== Sys2Proof/Laws/Stack.lean ====
section
/-! SUPPORT. The data registers and the stack: what a write, a push and a pop do to every register and tag. -/

namespace Sys2Proof.Machine

/-! ### One register -/

@[simp] theorem State.putReg_reg (s : State) (k j : Idx) (x : Ext) :
    (s.putReg k x).reg j = if j = k then x else s.reg j := by
  by_cases h : j = k
  · subst h
    rw [if_pos rfl]
    exact Vector.getElem_set_self _
  · rw [if_neg h]
    exact Vector.getElem_set_ne k.isLt j.isLt fun e => h (BitVec.eq_of_toNat_eq e).symm

@[simp] theorem State.putReg_sw (s : State) (k : Idx) (x : Ext) : (s.putReg k x).sw = s.sw := rfl
@[simp] theorem State.putReg_tag (s : State) (k j : Idx) (x : Ext) : (s.putReg k x).tag j = s.tag j := rfl
@[simp] theorem State.setTag_reg (s : State) (k j : Idx) (t : BitVec 2) : (s.setTag k t).reg j = s.reg j := rfl
@[simp] theorem State.setTag_sw (s : State) (k : Idx) (t : BitVec 2) : (s.setTag k t).sw = s.sw := rfl

/-- A register after a write with its tag (10_state.md R68). -/
@[simp] theorem State.load_reg (s : State) (k j : Idx) (x : Ext) :
    (s.load k x).reg j = if j = k then x else s.reg j := s.putReg_reg k j x

/-- A tag after a write of its register (10_state.md R70). -/
@[simp] theorem State.load_tag (s : State) (k j : Idx) (x : Ext) :
    (s.load k x).tag j = if j = k then tagOf x else s.tag j := (s.putReg k x).setTag_tag k j _

@[simp] theorem State.load_sw (s : State) (k : Idx) (x : Ext) : (s.load k x).sw = s.sw := rfl

@[simp] theorem State.load_top (s : State) (k : Idx) (x : Ext) : (s.load k x).top = s.top := rfl

/-! ### ST(i) -/

@[simp] theorem State.setST_sw (s : State) (i : Idx) (x : Ext) : (s.setST i x).sw = s.sw := rfl

@[simp] theorem State.setST_top (s : State) (i : Idx) (x : Ext) : (s.setST i x).top = s.top := rfl

@[simp] theorem State.setST_reg (s : State) (i j : Idx) (x : Ext) :
    (s.setST i x).reg j = if j = s.phys i then x else s.reg j := s.load_reg _ _ _

@[simp] theorem State.setST_tag (s : State) (i j : Idx) (x : Ext) :
    (s.setST i x).tag j = if j = s.phys i then tagOf x else s.tag j := s.load_tag _ _ _

theorem State.phys_inj (s : State) {i j : Idx} : s.phys i = s.phys j ↔ i = j := by
  unfold State.phys
  constructor
  · intro h; simpa using congrArg (fun x => x - s.top) h
  · rintro rfl; rfl

/-! ### Push and pop -/

@[simp] theorem State.push_top (s : State) (x : Ext) : (s.push x).top = s.top - 1 :=
  s.setTop_top _

@[simp] theorem State.push_reg (s : State) (x : Ext) (j : Idx) :
    (s.push x).reg j = if j = s.top - 1 then x else s.reg j := by
  rw [State.push, State.setST_reg, State.phys, State.setTop_top, State.setTop_reg]
  simp

@[simp] theorem State.push_tag (s : State) (x : Ext) (j : Idx) :
    (s.push x).tag j = if j = s.top - 1 then tagOf x else s.tag j := by
  rw [State.push, State.setST_tag, State.phys, State.setTop_top, State.setTop_tag]
  simp

/-- A push moves TOP and touches no other status bit. -/
theorem State.push_bit (s : State) (x : Ext) (n : Nat) (h : n < 11 ∨ 14 ≤ n) :
    (s.push x).sw.getLsbD n = s.sw.getLsbD n := s.setTop_bit _ n h

@[simp] theorem State.pop_top (s : State) : s.pop.top = s.top + 1 := State.setTop_top _ _

@[simp] theorem State.pop_reg (s : State) (j : Idx) : s.pop.reg j = s.reg j := rfl

@[simp] theorem State.pop_tag (s : State) (j : Idx) :
    s.pop.tag j = if j = s.top then emptyTag else s.tag j := s.setTag_tag s.top j _

/-- A pop moves TOP and touches no other status bit. -/
theorem State.pop_bit (s : State) (n : Nat) (h : n < 11 ∨ 14 ≤ n) :
    s.pop.sw.getLsbD n = s.sw.getLsbD n := State.setTop_bit _ _ n h

/-! ### What the stack operations leave alone -/

/-- Everything but the data registers, the status word and the tag word. -/
def State.beyondStack (s : State) : State := ((s.setSw 0).setTw 0).setRegs (Vector.replicate 8 0)

/-- What leaves all but the status word alone leaves all but the stack alone. -/
theorem State.beyondStack_of_beyondSw {s t : State} (h : t.beyondSw = s.beyondSw) :
    t.beyondStack = s.beyondStack := congrArg (fun u => (u.setTw 0).setRegs (Vector.replicate 8 0)) h

@[simp] theorem State.putReg_beyondStack (s : State) (k : Idx) (x : Ext) : (s.putReg k x).beyondStack = s.beyondStack := rfl
@[simp] theorem State.putReg_cw (s : State) (k : Idx) (x : Ext) : (s.putReg k x).cw = s.cw := rfl
@[simp] theorem State.putReg_mem (s : State) (k : Idx) (x : Ext) : (s.putReg k x).mem = s.mem := rfl
@[simp] theorem State.putReg_params (s : State) (k : Idx) (x : Ext) : (s.putReg k x).params = s.params := rfl
@[simp] theorem State.putReg_draws (s : State) (k : Idx) (x : Ext) : (s.putReg k x).draws = s.draws := rfl
@[simp] theorem State.putReg_fip (s : State) (k : Idx) (x : Ext) : (s.putReg k x).fip = s.fip := rfl
@[simp] theorem State.putReg_fdp (s : State) (k : Idx) (x : Ext) : (s.putReg k x).fdp = s.fdp := rfl
@[simp] theorem State.putReg_fop (s : State) (k : Idx) (x : Ext) : (s.putReg k x).fop = s.fop := rfl
@[simp] theorem State.putReg_masked (s : State) (k : Idx) (x : Ext) (y : Exc) : (s.putReg k x).masked y = s.masked y :=
  congrArg (maskedIn · y) (s.putReg_cw k x)

@[simp] theorem State.setTag_beyondStack (s : State) (k : Idx) (t : BitVec 2) : (s.setTag k t).beyondStack = s.beyondStack := rfl
@[simp] theorem State.setTag_cw (s : State) (k : Idx) (t : BitVec 2) : (s.setTag k t).cw = s.cw := rfl
@[simp] theorem State.setTag_mem (s : State) (k : Idx) (t : BitVec 2) : (s.setTag k t).mem = s.mem := rfl
@[simp] theorem State.setTag_params (s : State) (k : Idx) (t : BitVec 2) : (s.setTag k t).params = s.params := rfl
@[simp] theorem State.setTag_draws (s : State) (k : Idx) (t : BitVec 2) : (s.setTag k t).draws = s.draws := rfl
@[simp] theorem State.setTag_fip (s : State) (k : Idx) (t : BitVec 2) : (s.setTag k t).fip = s.fip := rfl
@[simp] theorem State.setTag_fdp (s : State) (k : Idx) (t : BitVec 2) : (s.setTag k t).fdp = s.fdp := rfl
@[simp] theorem State.setTag_fop (s : State) (k : Idx) (t : BitVec 2) : (s.setTag k t).fop = s.fop := rfl
@[simp] theorem State.setTag_masked (s : State) (k : Idx) (t : BitVec 2) (y : Exc) : (s.setTag k t).masked y = s.masked y :=
  congrArg (maskedIn · y) (s.setTag_cw k t)

@[simp] theorem State.load_beyondStack (s : State) (k : Idx) (x : Ext) : (s.load k x).beyondStack = s.beyondStack := rfl
@[simp] theorem State.load_cw (s : State) (k : Idx) (x : Ext) : (s.load k x).cw = s.cw := rfl
@[simp] theorem State.load_mem (s : State) (k : Idx) (x : Ext) : (s.load k x).mem = s.mem := rfl
@[simp] theorem State.load_params (s : State) (k : Idx) (x : Ext) : (s.load k x).params = s.params := rfl
@[simp] theorem State.load_draws (s : State) (k : Idx) (x : Ext) : (s.load k x).draws = s.draws := rfl
@[simp] theorem State.load_fip (s : State) (k : Idx) (x : Ext) : (s.load k x).fip = s.fip := rfl
@[simp] theorem State.load_fdp (s : State) (k : Idx) (x : Ext) : (s.load k x).fdp = s.fdp := rfl
@[simp] theorem State.load_fop (s : State) (k : Idx) (x : Ext) : (s.load k x).fop = s.fop := rfl
@[simp] theorem State.load_masked (s : State) (k : Idx) (x : Ext) (y : Exc) : (s.load k x).masked y = s.masked y :=
  congrArg (maskedIn · y) (s.load_cw k x)

@[simp] theorem State.setST_beyondStack (s : State) (i : Idx) (x : Ext) : (s.setST i x).beyondStack = s.beyondStack := rfl
@[simp] theorem State.setST_cw (s : State) (i : Idx) (x : Ext) : (s.setST i x).cw = s.cw := rfl
@[simp] theorem State.setST_mem (s : State) (i : Idx) (x : Ext) : (s.setST i x).mem = s.mem := rfl
@[simp] theorem State.setST_params (s : State) (i : Idx) (x : Ext) : (s.setST i x).params = s.params := rfl
@[simp] theorem State.setST_draws (s : State) (i : Idx) (x : Ext) : (s.setST i x).draws = s.draws := rfl
@[simp] theorem State.setST_fip (s : State) (i : Idx) (x : Ext) : (s.setST i x).fip = s.fip := rfl
@[simp] theorem State.setST_fdp (s : State) (i : Idx) (x : Ext) : (s.setST i x).fdp = s.fdp := rfl
@[simp] theorem State.setST_fop (s : State) (i : Idx) (x : Ext) : (s.setST i x).fop = s.fop := rfl
@[simp] theorem State.setST_masked (s : State) (i : Idx) (x : Ext) (y : Exc) : (s.setST i x).masked y = s.masked y :=
  congrArg (maskedIn · y) (s.setST_cw i x)

@[simp] theorem State.push_beyondStack (s : State) (x : Ext) : (s.push x).beyondStack = s.beyondStack := rfl
@[simp] theorem State.push_cw (s : State) (x : Ext) : (s.push x).cw = s.cw := rfl
@[simp] theorem State.push_mem (s : State) (x : Ext) : (s.push x).mem = s.mem := rfl
@[simp] theorem State.push_params (s : State) (x : Ext) : (s.push x).params = s.params := rfl
@[simp] theorem State.push_draws (s : State) (x : Ext) : (s.push x).draws = s.draws := rfl
@[simp] theorem State.push_fip (s : State) (x : Ext) : (s.push x).fip = s.fip := rfl
@[simp] theorem State.push_fdp (s : State) (x : Ext) : (s.push x).fdp = s.fdp := rfl
@[simp] theorem State.push_fop (s : State) (x : Ext) : (s.push x).fop = s.fop := rfl
@[simp] theorem State.push_masked (s : State) (x : Ext) (y : Exc) : (s.push x).masked y = s.masked y :=
  congrArg (maskedIn · y) (s.push_cw x)

@[simp] theorem State.pop_beyondStack (s : State) : s.pop.beyondStack = s.beyondStack := rfl
@[simp] theorem State.pop_cw (s : State) : s.pop.cw = s.cw := rfl
@[simp] theorem State.pop_mem (s : State) : s.pop.mem = s.mem := rfl
@[simp] theorem State.pop_params (s : State) : s.pop.params = s.params := rfl
@[simp] theorem State.pop_draws (s : State) : s.pop.draws = s.draws := rfl
@[simp] theorem State.pop_fip (s : State) : s.pop.fip = s.fip := rfl
@[simp] theorem State.pop_fdp (s : State) : s.pop.fdp = s.fdp := rfl
@[simp] theorem State.pop_fop (s : State) : s.pop.fop = s.fop := rfl
@[simp] theorem State.pop_masked (s : State) (y : Exc) : s.pop.masked y = s.masked y :=
  congrArg (maskedIn · y) (s.pop_cw)

@[simp] theorem State.popN_beyondStack (s : State) (n : Nat) : (s.popN n).beyondStack = s.beyondStack := by
  induction n generalizing s with
  | zero => rfl
  | succ n ih => exact ih s.pop
@[simp] theorem State.popN_cw (s : State) (n : Nat) : (s.popN n).cw = s.cw := by
  induction n generalizing s with
  | zero => rfl
  | succ n ih => exact ih s.pop
@[simp] theorem State.popN_mem (s : State) (n : Nat) : (s.popN n).mem = s.mem := by
  induction n generalizing s with
  | zero => rfl
  | succ n ih => exact ih s.pop
@[simp] theorem State.popN_params (s : State) (n : Nat) : (s.popN n).params = s.params := by
  induction n generalizing s with
  | zero => rfl
  | succ n ih => exact ih s.pop
@[simp] theorem State.popN_draws (s : State) (n : Nat) : (s.popN n).draws = s.draws := by
  induction n generalizing s with
  | zero => rfl
  | succ n ih => exact ih s.pop
@[simp] theorem State.popN_fip (s : State) (n : Nat) : (s.popN n).fip = s.fip := by
  induction n generalizing s with
  | zero => rfl
  | succ n ih => exact ih s.pop
@[simp] theorem State.popN_fdp (s : State) (n : Nat) : (s.popN n).fdp = s.fdp := by
  induction n generalizing s with
  | zero => rfl
  | succ n ih => exact ih s.pop
@[simp] theorem State.popN_fop (s : State) (n : Nat) : (s.popN n).fop = s.fop := by
  induction n generalizing s with
  | zero => rfl
  | succ n ih => exact ih s.pop
@[simp] theorem State.popN_masked (s : State) (n : Nat) (y : Exc) : (s.popN n).masked y = s.masked y :=
  congrArg (maskedIn · y) (s.popN_cw n)

@[simp] theorem State.popIf_beyondStack (s : State) (b : Bool) : (s.popIf b).beyondStack = s.beyondStack := by
  cases b <;> rfl
@[simp] theorem State.popIf_cw (s : State) (b : Bool) : (s.popIf b).cw = s.cw := by
  cases b <;> rfl
@[simp] theorem State.popIf_mem (s : State) (b : Bool) : (s.popIf b).mem = s.mem := by
  cases b <;> rfl
@[simp] theorem State.popIf_params (s : State) (b : Bool) : (s.popIf b).params = s.params := by
  cases b <;> rfl
@[simp] theorem State.popIf_draws (s : State) (b : Bool) : (s.popIf b).draws = s.draws := by
  cases b <;> rfl
@[simp] theorem State.popIf_fip (s : State) (b : Bool) : (s.popIf b).fip = s.fip := by
  cases b <;> rfl
@[simp] theorem State.popIf_fdp (s : State) (b : Bool) : (s.popIf b).fdp = s.fdp := by
  cases b <;> rfl
@[simp] theorem State.popIf_fop (s : State) (b : Bool) : (s.popIf b).fop = s.fop := by
  cases b <;> rfl
@[simp] theorem State.popIf_masked (s : State) (b : Bool) (y : Exc) : (s.popIf b).masked y = s.masked y :=
  congrArg (maskedIn · y) (s.popIf_cw b)

/-! ### The tag invariant (10_state.md R70) -/

theorem State.TagsTrue.of_eq {s t : State} (h : s.TagsTrue) (hr : ∀ k, t.reg k = s.reg k) (ht : ∀ k, t.tag k = s.tag k) :
    t.TagsTrue := fun k => by rw [hr, ht]; exact h k

theorem State.TagsTrue.load {s : State} (h : s.TagsTrue) (k : Idx) (x : Ext) : (s.load k x).TagsTrue := fun j => by
  rw [State.load_tag, State.load_reg]
  by_cases hj : j = k
  · rw [if_pos hj, if_pos hj]; exact .inr rfl
  · rw [if_neg hj, if_neg hj]; exact h j

theorem State.TagsTrue.setST {s : State} (h : s.TagsTrue) (i : Idx) (x : Ext) : (s.setST i x).TagsTrue := h.load _ x

theorem State.TagsTrue.setTop {s : State} (h : s.TagsTrue) (t : Idx) : (s.setTop t).TagsTrue :=
  h.of_eq (fun _ => rfl) fun _ => rfl

theorem State.TagsTrue.push {s : State} (h : s.TagsTrue) (x : Ext) : (s.push x).TagsTrue := (h.setTop _).setST 0 x

theorem State.TagsTrue.empty {s : State} (h : s.TagsTrue) (k : Idx) : (s.setTag k emptyTag).TagsTrue := fun j => by
  rw [State.setTag_tag, State.setTag_reg]
  by_cases hj : j = k
  · rw [if_pos hj]; exact .inl rfl
  · rw [if_neg hj]; exact h j

theorem State.TagsTrue.pop {s : State} (h : s.TagsTrue) : s.pop.TagsTrue := (h.empty _).setTop _

theorem State.TagsTrue.popN {s : State} (h : s.TagsTrue) (n : Nat) : (s.popN n).TagsTrue := by
  induction n generalizing s with
  | zero => exact h
  | succ n ih => exact ih h.pop

theorem State.TagsTrue.popIf {s : State} (h : s.TagsTrue) (b : Bool) : (s.popIf b).TagsTrue := by
  cases b
  · exact h
  · exact h.pop

/-! ### The pops keep ES and B coherent -/

theorem State.Coherent.pop {s : State} (h : s.Coherent) : s.pop.Coherent :=
  State.Coherent.setTop (h.of_bits (t := s.setTag s.top emptyTag) rfl fun _ _ => rfl) _

theorem State.Coherent.popN {s : State} (h : s.Coherent) (n : Nat) : (s.popN n).Coherent := by
  induction n generalizing s with
  | zero => exact h
  | succ n ih => exact ih h.pop

theorem State.Coherent.popIf {s : State} (h : s.Coherent) (b : Bool) : (s.popIf b).Coherent := by
  cases b
  · exact h
  · exact h.pop

theorem State.Coherent.setST {s : State} (h : s.Coherent) (i : Idx) (x : Ext) : (s.setST i x).Coherent :=
  h.of_bits rfl fun _ _ => rfl

theorem State.Coherent.push {s : State} (h : s.Coherent) (x : Ext) : (s.push x).Coherent :=
  (h.setTop _).setST 0 x

end Sys2Proof.Machine
end

