-- ==== Sys2Proof/Laws/Run.lean ====
section
/-! SUPPORT. The course of an instruction: the wait check, the pointer update, the operand check and the end. -/

namespace Sys2Proof.Machine

/-! ### The wait check -/

theorem State.waitCheck_proceed_iff (s : State) :
    s.waitCheck = .proceed ↔ s.es = false ∨ (s.ne = false ∧ s.ignne = true) := by
  unfold State.waitCheck
  cases s.es <;> cases s.ne <;> cases s.ignne <;> simp

theorem State.waitCheck_raise_iff (s : State) : s.waitCheck = .raise ↔ s.es = true ∧ s.ne = true := by
  unfold State.waitCheck
  cases s.es <;> cases s.ne <;> cases s.ignne <;> simp

theorem State.waitCheck_freeze_iff (s : State) :
    s.waitCheck = .freeze ↔ s.es = true ∧ s.ne = false ∧ s.ignne = false := by
  unfold State.waitCheck
  cases s.es <;> cases s.ne <;> cases s.ignne <;> simp

theorem afterWait_ready {s : State} (h : s.Ready) (r : Result) : afterWait s r = r := by
  rw [afterWait, show s.waitCheck = .proceed from h]

/-- What the wait check lets happen. -/
theorem afterWait_cases {s t : State} {r : Result} (h : afterWait s r = .next t) :
    (s.waitCheck = .raise ∧ t = s.raiseMF) ∨ (s.waitCheck = .freeze ∧ t = s.freeze) ∨
      (s.Ready ∧ r = .next t) := by
  unfold afterWait at h
  cases hw : s.waitCheck <;> rw [hw] at h
  · exact .inr (.inr ⟨hw, h⟩)
  · exact .inl ⟨rfl, by injection h with h; exact h.symm⟩
  · exact .inr (.inl ⟨rfl, by injection h with h; exact h.symm⟩)

theorem withOperand_free {s : State} {a : Word32} {n : Nat} (h : s.operandDenied a n = false) (r : Result) :
    withOperand s a n r = r := by simp [withOperand, h]

/-- What the operand check lets happen. -/
theorem withOperand_cases {s t : State} {a : Word32} {n : Nat} {r : Result} (h : withOperand s a n r = .next t) :
    (s.operandDenied a n = true ∧ t = s.raiseOperandFault) ∨ (s.operandDenied a n = false ∧ r = .next t) := by
  unfold withOperand at h
  cases hd : s.operandDenied a n <;> simp [hd] at h
  · exact .inr ⟨rfl, h⟩
  · exact .inl ⟨rfl, h.symm⟩

theorem complete_cases {i : Instr} {s t : State} {r : Except Refusal State} (h : complete i s r = .next t) :
    ∃ u, r = .ok u ∧ t = u.retire i.length s.es := by
  cases r with
  | ok u => exact ⟨u, rfl, by injection h with h; exact h.symm⟩
  | error e => injection h

theorem ifPresent_cases {b : Bool} {r : Result} {t : State} (h : ifPresent b r = .next t) :
    b = true ∧ r = .next t := by
  cases b
  · injection h
  · exact ⟨rfl, h⟩

/-! ### The end of an instruction -/

theorem State.settleFerr_eq (s : State) (e : Bool) :
    s.settleFerr e = s ∨ s.settleFerr e = s.setFerr false ∨ s.settleFerr e = s.setFerr true := by
  unfold State.settleFerr; split
  · exact .inr (.inl rfl)
  · split
    · exact .inr (.inr rfl)
    · exact .inl rfl

/-- FERR# stays asserted only for a pending exception (60_exceptions.md R554). -/
theorem State.settleFerr_ferr {s : State} {e : Bool} (h : (s.settleFerr e).ferr = true) : s.es = true := by
  cases hs : s.es with
  | true => rfl
  | false => simp [State.settleFerr, hs] at h

@[simp] theorem State.settleFerr_regs (s : State) (e : Bool) : (s.settleFerr e).regs = s.regs := by
  rcases s.settleFerr_eq e with h | h | h <;> simp [h]
@[simp] theorem State.settleFerr_sw (s : State) (e : Bool) : (s.settleFerr e).sw = s.sw := by
  rcases s.settleFerr_eq e with h | h | h <;> simp [h]
@[simp] theorem State.settleFerr_cw (s : State) (e : Bool) : (s.settleFerr e).cw = s.cw := by
  rcases s.settleFerr_eq e with h | h | h <;> simp [h]
@[simp] theorem State.settleFerr_tw (s : State) (e : Bool) : (s.settleFerr e).tw = s.tw := by
  rcases s.settleFerr_eq e with h | h | h <;> simp [h]
@[simp] theorem State.settleFerr_fip (s : State) (e : Bool) : (s.settleFerr e).fip = s.fip := by
  rcases s.settleFerr_eq e with h | h | h <;> simp [h]
@[simp] theorem State.settleFerr_fdp (s : State) (e : Bool) : (s.settleFerr e).fdp = s.fdp := by
  rcases s.settleFerr_eq e with h | h | h <;> simp [h]
@[simp] theorem State.settleFerr_fop (s : State) (e : Bool) : (s.settleFerr e).fop = s.fop := by
  rcases s.settleFerr_eq e with h | h | h <;> simp [h]
@[simp] theorem State.settleFerr_gprs (s : State) (e : Bool) : (s.settleFerr e).gprs = s.gprs := by
  rcases s.settleFerr_eq e with h | h | h <;> simp [h]
@[simp] theorem State.settleFerr_segs (s : State) (e : Bool) : (s.settleFerr e).segs = s.segs := by
  rcases s.settleFerr_eq e with h | h | h <;> simp [h]
@[simp] theorem State.settleFerr_zf (s : State) (e : Bool) : (s.settleFerr e).zf = s.zf := by
  rcases s.settleFerr_eq e with h | h | h <;> simp [h]
@[simp] theorem State.settleFerr_pf (s : State) (e : Bool) : (s.settleFerr e).pf = s.pf := by
  rcases s.settleFerr_eq e with h | h | h <;> simp [h]
@[simp] theorem State.settleFerr_cf (s : State) (e : Bool) : (s.settleFerr e).cf = s.cf := by
  rcases s.settleFerr_eq e with h | h | h <;> simp [h]
@[simp] theorem State.settleFerr_ne (s : State) (e : Bool) : (s.settleFerr e).ne = s.ne := by
  rcases s.settleFerr_eq e with h | h | h <;> simp [h]
@[simp] theorem State.settleFerr_ignne (s : State) (e : Bool) : (s.settleFerr e).ignne = s.ignne := by
  rcases s.settleFerr_eq e with h | h | h <;> simp [h]
@[simp] theorem State.settleFerr_mode (s : State) (e : Bool) : (s.settleFerr e).mode = s.mode := by
  rcases s.settleFerr_eq e with h | h | h <;> simp [h]
@[simp] theorem State.settleFerr_opSize32 (s : State) (e : Bool) : (s.settleFerr e).opSize32 = s.opSize32 := by
  rcases s.settleFerr_eq e with h | h | h <;> simp [h]
@[simp] theorem State.settleFerr_addrSize32 (s : State) (e : Bool) : (s.settleFerr e).addrSize32 = s.addrSize32 := by
  rcases s.settleFerr_eq e with h | h | h <;> simp [h]
@[simp] theorem State.settleFerr_intr (s : State) (e : Bool) : (s.settleFerr e).intr = s.intr := by
  rcases s.settleFerr_eq e with h | h | h <;> simp [h]
@[simp] theorem State.settleFerr_denied (s : State) (e : Bool) : (s.settleFerr e).denied = s.denied := by
  rcases s.settleFerr_eq e with h | h | h <;> simp [h]
@[simp] theorem State.settleFerr_frozen (s : State) (e : Bool) : (s.settleFerr e).frozen = s.frozen := by
  rcases s.settleFerr_eq e with h | h | h <;> simp [h]
@[simp] theorem State.settleFerr_mem (s : State) (e : Bool) : (s.settleFerr e).mem = s.mem := by
  rcases s.settleFerr_eq e with h | h | h <;> simp [h]
@[simp] theorem State.settleFerr_params (s : State) (e : Bool) : (s.settleFerr e).params = s.params := by
  rcases s.settleFerr_eq e with h | h | h <;> simp [h]
@[simp] theorem State.settleFerr_eip (s : State) (e : Bool) : (s.settleFerr e).eip = s.eip := by
  rcases s.settleFerr_eq e with h | h | h <;> simp [h]
@[simp] theorem State.settleFerr_draws (s : State) (e : Bool) : (s.settleFerr e).draws = s.draws := by
  rcases s.settleFerr_eq e with h | h | h <;> simp [h]

@[simp] theorem State.retire_regs (s : State) (n : Nat) (e : Bool) : (s.retire n e).regs = s.regs :=
  s.settleFerr_regs e
@[simp] theorem State.retire_sw (s : State) (n : Nat) (e : Bool) : (s.retire n e).sw = s.sw :=
  s.settleFerr_sw e
@[simp] theorem State.retire_cw (s : State) (n : Nat) (e : Bool) : (s.retire n e).cw = s.cw :=
  s.settleFerr_cw e
@[simp] theorem State.retire_tw (s : State) (n : Nat) (e : Bool) : (s.retire n e).tw = s.tw :=
  s.settleFerr_tw e
@[simp] theorem State.retire_fip (s : State) (n : Nat) (e : Bool) : (s.retire n e).fip = s.fip :=
  s.settleFerr_fip e
@[simp] theorem State.retire_fdp (s : State) (n : Nat) (e : Bool) : (s.retire n e).fdp = s.fdp :=
  s.settleFerr_fdp e
@[simp] theorem State.retire_fop (s : State) (n : Nat) (e : Bool) : (s.retire n e).fop = s.fop :=
  s.settleFerr_fop e
@[simp] theorem State.retire_gprs (s : State) (n : Nat) (e : Bool) : (s.retire n e).gprs = s.gprs :=
  s.settleFerr_gprs e
@[simp] theorem State.retire_segs (s : State) (n : Nat) (e : Bool) : (s.retire n e).segs = s.segs :=
  s.settleFerr_segs e
@[simp] theorem State.retire_zf (s : State) (n : Nat) (e : Bool) : (s.retire n e).zf = s.zf :=
  s.settleFerr_zf e
@[simp] theorem State.retire_pf (s : State) (n : Nat) (e : Bool) : (s.retire n e).pf = s.pf :=
  s.settleFerr_pf e
@[simp] theorem State.retire_cf (s : State) (n : Nat) (e : Bool) : (s.retire n e).cf = s.cf :=
  s.settleFerr_cf e
@[simp] theorem State.retire_ne (s : State) (n : Nat) (e : Bool) : (s.retire n e).ne = s.ne :=
  s.settleFerr_ne e
@[simp] theorem State.retire_ignne (s : State) (n : Nat) (e : Bool) : (s.retire n e).ignne = s.ignne :=
  s.settleFerr_ignne e
@[simp] theorem State.retire_mode (s : State) (n : Nat) (e : Bool) : (s.retire n e).mode = s.mode :=
  s.settleFerr_mode e
@[simp] theorem State.retire_opSize32 (s : State) (n : Nat) (e : Bool) : (s.retire n e).opSize32 = s.opSize32 :=
  s.settleFerr_opSize32 e
@[simp] theorem State.retire_addrSize32 (s : State) (n : Nat) (e : Bool) : (s.retire n e).addrSize32 = s.addrSize32 :=
  s.settleFerr_addrSize32 e
@[simp] theorem State.retire_intr (s : State) (n : Nat) (e : Bool) : (s.retire n e).intr = s.intr :=
  s.settleFerr_intr e
@[simp] theorem State.retire_denied (s : State) (n : Nat) (e : Bool) : (s.retire n e).denied = s.denied :=
  s.settleFerr_denied e
@[simp] theorem State.retire_frozen (s : State) (n : Nat) (e : Bool) : (s.retire n e).frozen = s.frozen :=
  s.settleFerr_frozen e
@[simp] theorem State.retire_mem (s : State) (n : Nat) (e : Bool) : (s.retire n e).mem = s.mem :=
  s.settleFerr_mem e
@[simp] theorem State.retire_params (s : State) (n : Nat) (e : Bool) : (s.retire n e).params = s.params :=
  s.settleFerr_params e

@[simp] theorem State.retire_eip (s : State) (n : Nat) (e : Bool) :
    (s.retire n e).eip = s.eip + BitVec.ofNat 32 n := rfl

@[simp] theorem State.retire_draws (s : State) (n : Nat) (e : Bool) : (s.retire n e).draws = s.draws + 1 :=
  congrArg (· + 1) (s.settleFerr_draws e)

@[simp] theorem State.retire_reg (s : State) (n : Nat) (e : Bool) (k : Idx) : (s.retire n e).reg k = s.reg k :=
  congrArg (fun r : Vector Ext 8 => r[k.toNat]) (s.retire_regs n e)

@[simp] theorem State.retire_tag (s : State) (n : Nat) (e : Bool) (k : Idx) : (s.retire n e).tag k = s.tag k :=
  congrArg (tagAt · k) (s.retire_tw n e)

@[simp] theorem State.retire_top (s : State) (n : Nat) (e : Bool) : (s.retire n e).top = s.top :=
  congrArg (fun w : Word16 => w.extractLsb' topBit 3) (s.retire_sw n e)

@[simp] theorem State.retire_es (s : State) (n : Nat) (e : Bool) : (s.retire n e).es = s.es :=
  congrArg (fun w : Word16 => w.getLsbD esBit) (s.retire_sw n e)

theorem State.retire_ferr {s : State} {n : Nat} {e : Bool} (h : (s.retire n e).ferr = true) : s.es = true :=
  State.settleFerr_ferr (e := e) h

/-! ### The pointer update -/

@[simp] theorem State.record_reg (s : State) (i : Instr) (d : Option FarPtr) (k : Idx) :
    (s.record i d).reg k = s.reg k := rfl
@[simp] theorem State.record_tag (s : State) (i : Instr) (d : Option FarPtr) (k : Idx) :
    (s.record i d).tag k = s.tag k := rfl
@[simp] theorem State.record_top (s : State) (i : Instr) (d : Option FarPtr) : (s.record i d).top = s.top := rfl
@[simp] theorem State.record_sw (s : State) (i : Instr) (d : Option FarPtr) : (s.record i d).sw = s.sw := rfl
@[simp] theorem State.record_cw (s : State) (i : Instr) (d : Option FarPtr) : (s.record i d).cw = s.cw := rfl
@[simp] theorem State.record_tw (s : State) (i : Instr) (d : Option FarPtr) : (s.record i d).tw = s.tw := rfl
@[simp] theorem State.record_regs (s : State) (i : Instr) (d : Option FarPtr) : (s.record i d).regs = s.regs := rfl
@[simp] theorem State.record_mem (s : State) (i : Instr) (d : Option FarPtr) : (s.record i d).mem = s.mem := rfl
@[simp] theorem State.record_params (s : State) (i : Instr) (d : Option FarPtr) : (s.record i d).params = s.params := rfl
@[simp] theorem State.record_draws (s : State) (i : Instr) (d : Option FarPtr) : (s.record i d).draws = s.draws := rfl
@[simp] theorem State.record_fip (s : State) (i : Instr) (d : Option FarPtr) : (s.record i d).fip = s.pc := rfl
@[simp] theorem State.record_fdp (s : State) (i : Instr) (d : Option FarPtr) :
    (s.record i d).fdp = d.getD (Config.undefFdp s.draws) := rfl
@[simp] theorem State.record_fop (s : State) (i : Instr) (d : Option FarPtr) : (s.record i d).fop = i.fop := rfl
@[simp] theorem State.record_isEmpty (s : State) (i : Instr) (d : Option FarPtr) (k : Idx) :
    (s.record i d).isEmpty k = s.isEmpty k := rfl
@[simp] theorem State.record_st (s : State) (i : Instr) (d : Option FarPtr) (k : Idx) :
    (s.record i d).st k = s.st k := rfl
@[simp] theorem State.record_masked (s : State) (i : Instr) (d : Option FarPtr) (x : Exc) :
    (s.record i d).masked x = s.masked x := rfl
@[simp] theorem State.record_read (s : State) (i : Instr) (d : Option FarPtr) (a : Word32) (n : Nat) :
    (s.record i d).read a n = s.read a n := rfl

/-! ### The forms -/

/-- A register form completes where nothing is pending and its operation does. -/
theorem runReg_next {i : Instr} {body : Body} {s u : State} (hr : s.Ready) (hb : body (s.record i none) = .ok u) :
    runReg i body s = .next (u.retire i.length s.es) := by
  rw [runReg, afterWait_ready hr, hb]; rfl

/-- A memory form completes where nothing is pending, the host allows the access and its operation completes. -/
theorem runMem_next {i : Instr} {p : Prefixes} {m : AddrMode} {n : Nat} {body : Word32 → Body} {s u : State}
    (hr : s.Ready) (hd : s.operandDenied (s.ea m) n = false)
    (hb : body (s.ea m) (s.record i (some (s.operandPtr p m))) = .ok u) :
    runMem i p m n body s = .next (u.retire i.length s.es) := by
  rw [runMem, afterWait_ready hr, withOperand_free hd, hb]; rfl

theorem runPlainControl_next (i : Instr) (body : State → State) (s : State) :
    runPlainControl i body s = .next ((body s).retire i.length s.es) := rfl

theorem runMemControl_next {i : Instr} {m : AddrMode} {n : Nat} (body : Word32 → State → State) {s : State}
    (hd : s.operandDenied (s.ea m) n = false) :
    runMemControl i m n body s = .next ((body (s.ea m) s).retire i.length s.es) := by
  rw [runMemControl, withOperand_free hd]; rfl

/-- Where a register form can lead. -/
theorem runReg_cases {i : Instr} {body : Body} {s t : State} (h : runReg i body s = .next t) :
    (s.waitCheck = .raise ∧ t = s.raiseMF) ∨ (s.waitCheck = .freeze ∧ t = s.freeze) ∨
      (s.Ready ∧ ∃ u, body (s.record i none) = .ok u ∧ t = u.retire i.length s.es) := by
  rcases afterWait_cases h with h | h | ⟨hr, h⟩
  · exact .inl h
  · exact .inr (.inl h)
  · exact .inr (.inr ⟨hr, complete_cases h⟩)

/-- Where a memory form can lead. -/
theorem runMem_cases {i : Instr} {p : Prefixes} {m : AddrMode} {n : Nat} {body : Word32 → Body} {s t : State}
    (h : runMem i p m n body s = .next t) :
    (s.waitCheck = .raise ∧ t = s.raiseMF) ∨ (s.waitCheck = .freeze ∧ t = s.freeze) ∨
      (s.Ready ∧ s.operandDenied (s.ea m) n = true ∧ t = s.raiseOperandFault) ∨
      (s.Ready ∧ s.operandDenied (s.ea m) n = false ∧
        ∃ u, body (s.ea m) (s.record i (some (s.operandPtr p m))) = .ok u ∧ t = u.retire i.length s.es) := by
  rcases afterWait_cases h with h | h | ⟨hr, h⟩
  · exact .inl h
  · exact .inr (.inl h)
  · rcases withOperand_cases h with ⟨hd, h⟩ | ⟨hd, h⟩
    · exact .inr (.inr (.inl ⟨hr, hd, h⟩))
    · exact .inr (.inr (.inr ⟨hr, hd, complete_cases h⟩))

/-- Where a control form with a memory operand can lead. -/
theorem runMemControl_cases {i : Instr} {m : AddrMode} {n : Nat} {body : Word32 → State → State} {s t : State}
    (h : runMemControl i m n body s = .next t) :
    (s.operandDenied (s.ea m) n = true ∧ t = s.raiseOperandFault) ∨
      (s.operandDenied (s.ea m) n = false ∧ t = (body (s.ea m) s).retire i.length s.es) := by
  rcases withOperand_cases h with h | ⟨hd, h⟩
  · exact .inl h
  · injection h with h
    exact .inr ⟨hd, h.symm⟩

end Sys2Proof.Machine
end

