-- ==== Sys2Proof/Laws/Bodies.lean ====
section
/-! SUPPORT. What the shared operations of the instructions change and what they keep: most of them touch only the data
registers, the status word and the tag word. -/

namespace Sys2Proof.Machine

/-- `t` differs from `s` in the data registers, the status word and the tag word only, and keeps the tag invariant and the
equations of ES and B. -/
structure OnStack (s t : State) : Prop where
  beyond : t.beyondStack = s.beyondStack
  tags : s.TagsTrue → t.TagsTrue
  coherent : s.Coherent → t.Coherent

namespace OnStack

variable {s t u : State}

theorem refl (s : State) : OnStack s s := ⟨rfl, id, id⟩

theorem trans (h : OnStack s t) (g : OnStack t u) : OnStack s u :=
  ⟨g.beyond.trans h.beyond, g.tags ∘ h.tags, g.coherent ∘ h.coherent⟩

/-- An operation on the status word alone. -/
theorem ofSw (hb : t.beyondSw = s.beyondSw) (hc : s.Coherent → t.Coherent) : OnStack s t :=
  ⟨State.beyondStack_of_beyondSw hb,
    fun h => h.of_eq (fun k => (congrArg (fun u : State => u.reg k) hb :)) fun k => (congrArg (fun u : State => u.tag k) hb :),
    hc⟩

theorem cw (h : OnStack s t) : t.cw = s.cw := (congrArg State.cw h.beyond :)
theorem mem (h : OnStack s t) : t.mem = s.mem := (congrArg State.mem h.beyond :)
theorem fip (h : OnStack s t) : t.fip = s.fip := (congrArg State.fip h.beyond :)
theorem fdp (h : OnStack s t) : t.fdp = s.fdp := (congrArg State.fdp h.beyond :)
theorem fop (h : OnStack s t) : t.fop = s.fop := (congrArg State.fop h.beyond :)
theorem draws (h : OnStack s t) : t.draws = s.draws := (congrArg State.draws h.beyond :)
theorem params (h : OnStack s t) : t.params = s.params := (congrArg State.params h.beyond :)
theorem eip (h : OnStack s t) : t.eip = s.eip := (congrArg State.eip h.beyond :)

theorem signal (s : State) (x : Exc) : OnStack s (s.signal x) := ofSw (s.signal_beyondSw x) fun h => h.signal x
theorem signalAll (s : State) (xs : List Exc) : OnStack s (s.signalAll xs) :=
  ofSw (s.signalAll_beyondSw xs) fun h => h.signalAll xs
theorem stackFault (s : State) (b : Bool) : OnStack s (s.stackFault b) :=
  ofSw (s.stackFault_beyondSw b) fun h => h.stackFault b
theorem setC1 (s : State) (b : Bool) : OnStack s (s.setC1 b) := ofSw rfl fun h => h.setC1 b
theorem setCodes (s : State) (a b c : Bool) : OnStack s (s.setCodes a b c) := ofSw rfl fun h => h.setCodes a b c
theorem drawC03 (s : State) : OnStack s s.drawC03 := ofSw rfl fun h => h.drawC03
theorem drawCodes (s : State) : OnStack s s.drawCodes := ofSw rfl fun h => h.drawCodes
theorem drawC1 (s : State) : OnStack s s.drawC1 := ofSw rfl fun h => h.drawC1
theorem drawAllCodes (s : State) : OnStack s s.drawAllCodes := ofSw rfl fun h => h.drawAllCodes
theorem putC2 (s : State) (b : Bool) : OnStack s (s.putSw c2Bit b) := ofSw rfl fun h => h.putSw _ _ (by decide)
theorem setTop (s : State) (k : Idx) : OnStack s (s.setTop k) := ofSw rfl fun h => h.setTop k
theorem setST (s : State) (i : Idx) (x : Ext) : OnStack s (s.setST i x) :=
  ⟨rfl, fun h => h.setST i x, fun h => h.setST i x⟩
theorem push (s : State) (x : Ext) : OnStack s (s.push x) := ⟨rfl, fun h => h.push x, fun h => h.push x⟩
theorem pop (s : State) : OnStack s s.pop := ⟨rfl, fun h => h.pop, fun h => h.pop⟩
theorem popN (s : State) (n : Nat) : OnStack s (s.popN n) :=
  ⟨s.popN_beyondStack n, fun h => h.popN n, fun h => h.popN n⟩
theorem popIf (s : State) (b : Bool) : OnStack s (s.popIf b) :=
  ⟨s.popIf_beyondStack b, fun h => h.popIf b, fun h => h.popIf b⟩
theorem empty (s : State) (k : Idx) : OnStack s (s.setTag k emptyTag) :=
  ⟨rfl, fun h => h.empty k, fun h => h.of_bits rfl fun _ _ => rfl⟩

/-- A stack fault keeps what its masked response keeps (60_exceptions.md R526). -/
theorem onStackFault (s : State) (b : Bool) {f : State → State} (h : ∀ u, OnStack u (f u)) :
    OnStack s (s.onStackFault b f) := by
  unfold State.onStackFault
  split
  · exact (stackFault s b).trans (h _)
  · exact stackFault s b

/-! ### Data transfer -/

theorem pushIndefinite (u : State) : OnStack u (u.push indef80).drawCodes := (push u _).trans (drawCodes _)

theorem loadReplied (r : Reply Ext) (s : State) : OnStack s (loadReplied r s) := by
  unfold Machine.loadReplied
  split
  · exact onStackFault s true pushIndefinite
  · split
    · exact signalAll s _
    · exact (((signalAll s _).trans (push _ _)).trans (setC1 _ _)).trans (drawCodes _)

theorem loadValue (x : Ext) (s : State) : OnStack s (loadValue x s) := loadReplied _ s

theorem loadReal (o : Operand) (s : State) : OnStack s (loadReal o s) := loadReplied _ s

theorem loadStack (i : Idx) (s : State) : OnStack s (loadStack i s) := by
  unfold Machine.loadStack
  split
  · exact onStackFault s false pushIndefinite
  · exact loadValue _ s

theorem storeStack (i : Idx) (b : Bool) (s : State) : OnStack s (storeStack i b s) := by
  unfold Machine.storeStack
  split
  · exact onStackFault s false fun u => ((setST u _ _).trans (drawCodes _)).trans (popIf _ _)
  · exact (((setST s _ _).trans (setC1 _ _)).trans (drawCodes _)).trans (popIf _ _)

theorem exchange (i : Idx) (x y : Ext) (s : State) : OnStack s (exchange i x y s) :=
  (setST s _ _).trans (setST _ _ _)

theorem exchangeTop (i : Idx) (s : State) : OnStack s (exchangeTop i s) := by
  unfold Machine.exchangeTop
  split
  · exact onStackFault s false fun u => (exchange i _ _ u).trans (drawCodes _)
  · exact ((exchange i _ _ s).trans (setC1 _ _)).trans (drawCodes _)

theorem moveIf (c : Bool) (i : Idx) (s : State) : OnStack s (moveIf c i s) := by
  unfold Machine.moveIf
  split
  · exact onStackFault s false fun u => (setST u _ _).trans (drawCodes _)
  · refine (OnStack.trans ?_ (setC1 _ _)).trans (drawCodes _)
    split
    · exact setST s _ _
    · exact refl s

/-! ### Arithmetic -/

theorem writeReplied (d : Idx) (b : Bool) (r : Reply Written) (s : State) : OnStack s (writeReplied d b r s) := by
  unfold Machine.writeReplied
  split
  · exact signalAll s _
  · exact ((((signalAll s _).trans (setST _ _ _)).trans (setC1 _ _)).trans (drawCodes _)).trans (popIf _ _)

theorem underflow (d : Idx) (b : Bool) (s : State) : OnStack s (underflow d b s) :=
  onStackFault s false fun u => ((setST u _ _).trans (drawCodes _)).trans (popIf _ _)

theorem arithInto {op : ArithOp} {q : Option Nat} {d : Idx} {b : Bool} {x y : Operand} {s u : State}
    (h : arithInto op q d b x y s = .ok u) : OnStack s u := by
  unfold Machine.arithInto at h
  cases hr : arith op s.cw q s.nanPick x y with
  | error e => rw [hr] at h; injection h
  | ok r => rw [hr] at h; injection h with h; rw [← h]; exact writeReplied d b r s

theorem arithOrdered {op : ArithOp} {rev : Bool} {q : Option Nat} {d : Idx} {b : Bool} {x y : Operand} {s u : State}
    (h : arithOrdered op rev q d b x y s = .ok u) : OnStack s u := by
  unfold Machine.arithOrdered at h
  split at h
  · exact arithInto h
  · exact arithInto h

theorem arithStack {op : ArithOp} {rev : Bool} {d o : Idx} {b : Bool} {s u : State}
    (h : arithStack op rev d o b s = .ok u) : OnStack s u := by
  unfold Machine.arithStack at h
  split at h
  · injection h with h; rw [← h]; exact underflow d b s
  · exact arithOrdered h

theorem arithMem {op : ArithOp} {rev : Bool} {q : Option Nat} {y : Operand} {s u : State}
    (h : arithMem op rev q y s = .ok u) : OnStack s u := by
  unfold Machine.arithMem at h
  split at h
  · injection h with h; rw [← h]; exact underflow 0 false s
  · exact arithOrdered h

theorem divideByInt {q : Option Nat} {y : Operand} {s u : State} (h : divideByInt q y s = .ok u) : OnStack s u := by
  unfold Machine.divideByInt at h
  split at h
  · injection h with h; rw [← h]; exact underflow 0 false s
  · cases hr : arith .div s.cw q s.nanPick (s.stOperand 0) y with
    | error e => rw [hr] at h; injection h
    | ok r => rw [hr] at h; injection h with h; rw [← h]; exact writeReplied 0 false _ s

theorem onTop (f : Ext → Reply Written) (s : State) : OnStack s (onTop f s) := by
  unfold Machine.onTop
  split
  · exact underflow 0 false s
  · exact writeReplied 0 false _ s

theorem editTop (f : Ext → Ext) (s : State) : OnStack s (editTop f s) := onTop _ s

theorem sqrtTop {s u : State} (h : sqrtTop s = .ok u) : OnStack s u := by
  unfold Machine.sqrtTop at h
  split at h
  · injection h with h; rw [← h]; exact underflow 0 false s
  · cases hr : sqrt s.cw (s.st 0) with
    | error e => rw [hr] at h; injection h
    | ok r => rw [hr] at h; injection h with h; rw [← h]; exact writeReplied 0 false r s

theorem remCodes (c : RemCodes) (s : State) : OnStack s (remCodes c s) := by
  cases c with
  | complete q => exact (setCodes s _ _ _).trans (setC1 _ _)
  | incomplete => exact ((drawC03 s).trans (putC2 _ _)).trans (drawC1 _)
  | invalid => exact ((drawC03 s).trans (putC2 _ _)).trans (setC1 _ _)
  | nan => exact (drawCodes s).trans (setC1 _ _)

theorem remReplied (r : Reply Remainder) (s : State) : OnStack s (remReplied r s) := by
  unfold Machine.remReplied
  split
  · exact signalAll s _
  · exact ((signalAll s _).trans (setST _ _ _)).trans (remCodes _ _)

theorem remTop (b : Bool) (s : State) : OnStack s (remTop b s) := by
  unfold Machine.remTop
  split
  · exact underflow 0 false s
  · exact remReplied _ s

theorem writePair (x y : Ext) (s : State) : OnStack s (writePair x y s) := (setST s _ _).trans (push _ _)

theorem pairFault (b : Bool) (s : State) : OnStack s (pairFault b s) :=
  onStackFault s b fun u => (writePair _ _ u).trans (drawCodes _)

theorem extractTop (s : State) : OnStack s (extractTop s) := by
  unfold Machine.extractTop
  split
  · exact pairFault false s
  · split
    · exact pairFault true s
    · split
      · exact signalAll s _
      · exact (((signalAll s _).trans (writePair _ _ _)).trans (setC1 _ _)).trans (drawCodes _)

/-! ### Comparison -/

theorem compareCodes (quiet testD : Bool) (n : Nat) (e : Bool) (x y : Operand) (s : State) :
    OnStack s (compareInto .codes quiet testD n e x y s) := by
  unfold Machine.compareInto
  split
  · exact onStackFault s false fun u => (setCodes u _ _ _).trans (popN _ _)
  · split
    · exact signalAll s _
    · exact (((signalAll s _).trans (setCodes _ _ _ _)).trans (setC1 _ _)).trans (popN _ _)

theorem examineTop (s : State) : OnStack s (examineTop s) := (setCodes s _ _ _).trans (setC1 _ _)

/-! ### Transcendental -/

theorem trigCodes (b : Bool) (s : State) : OnStack s (trigCodes b s) :=
  ((drawC03 s).trans (putC2 _ _)).trans (setC1 _ _)

theorem trigOutOfRange (s : State) : OnStack s (trigOutOfRange s) :=
  ((drawC03 s).trans (putC2 _ _)).trans (drawC1 _)

theorem trigFault (b : Bool) {w : State → State} (h : ∀ u, OnStack u (w u)) (s : State) :
    OnStack s (trigFault b w s) :=
  onStackFault s b fun u => ((h u).trans (drawC03 _)).trans (putC2 _ _)

theorem trigOne (f : Word16 → Ext → Delivered) (s : State) : OnStack s (trigOne f s) := by
  unfold Machine.trigOne
  split
  · exact trigFault false (fun u => setST u _ _) s
  · split
    · split
      · exact signalAll s _
      · exact ((signalAll s _).trans (setST _ _ _)).trans (trigCodes _ _)
    · exact trigOutOfRange s
    · exact signal s _
    · exact ((signalAll s _).trans (setST _ _ _)).trans (trigCodes _ _)

theorem trigTwo (f g : Word16 → Ext → Delivered) (c : Delivered → Delivered → Bool) (s : State) :
    OnStack s (trigTwo f g c s) := by
  unfold Machine.trigTwo
  split
  · exact trigFault false (writePair _ _) s
  · split
    · exact trigFault true (writePair _ _) s
    · split
      · split
        · exact signalAll s _
        · exact ((signalAll s _).trans (writePair _ _ _)).trans (trigCodes _ _)
      · exact trigOutOfRange s
      · exact signal s _
      · exact ((signalAll s _).trans (writePair _ _ _)).trans (trigCodes _ _)

theorem intoSecond (f : Ext → Ext → Reply Written) (s : State) : OnStack s (intoSecond f s) := by
  unfold Machine.intoSecond
  split
  · exact underflow 1 true s
  · exact writeReplied 1 true _ s

theorem domainReplied (d : Idx) (b : Bool) (r : DomainReply) (s : State) : OnStack s (domainReplied d b r s) := by
  cases r with
  | inside q => exact writeReplied d b q s
  | abandoned => exact signal s _
  | outside e => exact (((signalAll s _).trans (setST _ _ _)).trans (drawAllCodes _)).trans (popIf _ _)

theorem exp2m1Top (s : State) : OnStack s (exp2m1Top s) := by
  unfold Machine.exp2m1Top
  split
  · exact underflow 0 false s
  · exact domainReplied 0 false _ s

theorem yLog2xp1Top (s : State) : OnStack s (yLog2xp1Top s) := by
  unfold Machine.yLog2xp1Top
  split
  · exact underflow 1 true s
  · exact domainReplied 1 true _ s

theorem scaleTop (s : State) : OnStack s (scaleTop s) := by
  unfold Machine.scaleTop
  split
  · exact underflow 0 false s
  · exact writeReplied 0 false _ s

/-! ### Control -/

theorem rotate (k : Idx) (s : State) : OnStack s (rotate k s) := ((setTop s _).trans (setC1 _ _)).trans (drawCodes _)

theorem freeRegister (i : Idx) (s : State) : OnStack s (freeRegister i s) := (empty s _).trans (drawAllCodes _)

end OnStack

end Sys2Proof.Machine
end

