-- ==== Sys2Proof/Laws/PerInstr.lean ====
section
/-! SUPPORT. The family of statements about every instruction as syntax: the opcode tables of the decoder read back the
row that the encoder writes. -/

namespace Sys2Proof.Laws

/-- The decoder's opcode tables give the instruction of the row that its shape names, and the shape has the parts by which
it is judged well-formed (30_encoding.md R134, R135, R138). -/
def OpcodeRow.Statement (i : Instr) : Prop :=
  match i.shape with
  | .mem a r p m => memForm a r p m = some i ∧ i.parts = ⟨p, some m, 2⟩
  | .reg a r n p => regForm a r n p = some i ∧ i.parts = ⟨p, none, 2⟩
  | .wait p => i = .wait p ∧ i.parts = ⟨p, none, 1⟩
  | .waitMem a r p m => waitMemForm a r p m = some i ∧ i.parts = ⟨p, some m, 3⟩
  | .waitReg a r n p => waitRegForm a r n p = some i ∧ i.parts = ⟨p, none, 3⟩

theorem OpcodeRow.faddM32real (p : Prefixes) (m : AddrMode) : OpcodeRow.Statement (.faddM32real p m) := ⟨rfl, rfl⟩
theorem OpcodeRow.fmulM32real (p : Prefixes) (m : AddrMode) : OpcodeRow.Statement (.fmulM32real p m) := ⟨rfl, rfl⟩
theorem OpcodeRow.fcomM32real (p : Prefixes) (m : AddrMode) : OpcodeRow.Statement (.fcomM32real p m) := ⟨rfl, rfl⟩
theorem OpcodeRow.fcompM32real (p : Prefixes) (m : AddrMode) : OpcodeRow.Statement (.fcompM32real p m) := ⟨rfl, rfl⟩
theorem OpcodeRow.fsubM32real (p : Prefixes) (m : AddrMode) : OpcodeRow.Statement (.fsubM32real p m) := ⟨rfl, rfl⟩
theorem OpcodeRow.fsubrM32real (p : Prefixes) (m : AddrMode) : OpcodeRow.Statement (.fsubrM32real p m) := ⟨rfl, rfl⟩
theorem OpcodeRow.fdivM32real (p : Prefixes) (m : AddrMode) : OpcodeRow.Statement (.fdivM32real p m) := ⟨rfl, rfl⟩
theorem OpcodeRow.fdivrM32real (p : Prefixes) (m : AddrMode) : OpcodeRow.Statement (.fdivrM32real p m) := ⟨rfl, rfl⟩
theorem OpcodeRow.faddM64real (p : Prefixes) (m : AddrMode) : OpcodeRow.Statement (.faddM64real p m) := ⟨rfl, rfl⟩
theorem OpcodeRow.fmulM64real (p : Prefixes) (m : AddrMode) : OpcodeRow.Statement (.fmulM64real p m) := ⟨rfl, rfl⟩
theorem OpcodeRow.fcomM64real (p : Prefixes) (m : AddrMode) : OpcodeRow.Statement (.fcomM64real p m) := ⟨rfl, rfl⟩
theorem OpcodeRow.fcompM64real (p : Prefixes) (m : AddrMode) : OpcodeRow.Statement (.fcompM64real p m) := ⟨rfl, rfl⟩
theorem OpcodeRow.fsubM64real (p : Prefixes) (m : AddrMode) : OpcodeRow.Statement (.fsubM64real p m) := ⟨rfl, rfl⟩
theorem OpcodeRow.fsubrM64real (p : Prefixes) (m : AddrMode) : OpcodeRow.Statement (.fsubrM64real p m) := ⟨rfl, rfl⟩
theorem OpcodeRow.fdivM64real (p : Prefixes) (m : AddrMode) : OpcodeRow.Statement (.fdivM64real p m) := ⟨rfl, rfl⟩
theorem OpcodeRow.fdivrM64real (p : Prefixes) (m : AddrMode) : OpcodeRow.Statement (.fdivrM64real p m) := ⟨rfl, rfl⟩
theorem OpcodeRow.fiaddM32int (p : Prefixes) (m : AddrMode) : OpcodeRow.Statement (.fiaddM32int p m) := ⟨rfl, rfl⟩
theorem OpcodeRow.fimulM32int (p : Prefixes) (m : AddrMode) : OpcodeRow.Statement (.fimulM32int p m) := ⟨rfl, rfl⟩
theorem OpcodeRow.ficomM32int (p : Prefixes) (m : AddrMode) : OpcodeRow.Statement (.ficomM32int p m) := ⟨rfl, rfl⟩
theorem OpcodeRow.ficompM32int (p : Prefixes) (m : AddrMode) : OpcodeRow.Statement (.ficompM32int p m) := ⟨rfl, rfl⟩
theorem OpcodeRow.fisubM32int (p : Prefixes) (m : AddrMode) : OpcodeRow.Statement (.fisubM32int p m) := ⟨rfl, rfl⟩
theorem OpcodeRow.fisubrM32int (p : Prefixes) (m : AddrMode) : OpcodeRow.Statement (.fisubrM32int p m) := ⟨rfl, rfl⟩
theorem OpcodeRow.fidivM32int (p : Prefixes) (m : AddrMode) : OpcodeRow.Statement (.fidivM32int p m) := ⟨rfl, rfl⟩
theorem OpcodeRow.fidivrM32int (p : Prefixes) (m : AddrMode) : OpcodeRow.Statement (.fidivrM32int p m) := ⟨rfl, rfl⟩
theorem OpcodeRow.fiaddM16int (p : Prefixes) (m : AddrMode) : OpcodeRow.Statement (.fiaddM16int p m) := ⟨rfl, rfl⟩
theorem OpcodeRow.fimulM16int (p : Prefixes) (m : AddrMode) : OpcodeRow.Statement (.fimulM16int p m) := ⟨rfl, rfl⟩
theorem OpcodeRow.ficomM16int (p : Prefixes) (m : AddrMode) : OpcodeRow.Statement (.ficomM16int p m) := ⟨rfl, rfl⟩
theorem OpcodeRow.ficompM16int (p : Prefixes) (m : AddrMode) : OpcodeRow.Statement (.ficompM16int p m) := ⟨rfl, rfl⟩
theorem OpcodeRow.fisubM16int (p : Prefixes) (m : AddrMode) : OpcodeRow.Statement (.fisubM16int p m) := ⟨rfl, rfl⟩
theorem OpcodeRow.fisubrM16int (p : Prefixes) (m : AddrMode) : OpcodeRow.Statement (.fisubrM16int p m) := ⟨rfl, rfl⟩
theorem OpcodeRow.fidivM16int (p : Prefixes) (m : AddrMode) : OpcodeRow.Statement (.fidivM16int p m) := ⟨rfl, rfl⟩
theorem OpcodeRow.fidivrM16int (p : Prefixes) (m : AddrMode) : OpcodeRow.Statement (.fidivrM16int p m) := ⟨rfl, rfl⟩
theorem OpcodeRow.fldM32real (p : Prefixes) (m : AddrMode) : OpcodeRow.Statement (.fldM32real p m) := ⟨rfl, rfl⟩
theorem OpcodeRow.fstM32real (p : Prefixes) (m : AddrMode) : OpcodeRow.Statement (.fstM32real p m) := ⟨rfl, rfl⟩
theorem OpcodeRow.fstpM32real (p : Prefixes) (m : AddrMode) : OpcodeRow.Statement (.fstpM32real p m) := ⟨rfl, rfl⟩
theorem OpcodeRow.fldenv (p : Prefixes) (m : AddrMode) : OpcodeRow.Statement (.fldenv p m) := ⟨rfl, rfl⟩
theorem OpcodeRow.fldcw (p : Prefixes) (m : AddrMode) : OpcodeRow.Statement (.fldcw p m) := ⟨rfl, rfl⟩
theorem OpcodeRow.fnstenv (p : Prefixes) (m : AddrMode) : OpcodeRow.Statement (.fnstenv p m) := ⟨rfl, rfl⟩
theorem OpcodeRow.fnstcw (p : Prefixes) (m : AddrMode) : OpcodeRow.Statement (.fnstcw p m) := ⟨rfl, rfl⟩
theorem OpcodeRow.fildM32int (p : Prefixes) (m : AddrMode) : OpcodeRow.Statement (.fildM32int p m) := ⟨rfl, rfl⟩
theorem OpcodeRow.fistM32int (p : Prefixes) (m : AddrMode) : OpcodeRow.Statement (.fistM32int p m) := ⟨rfl, rfl⟩
theorem OpcodeRow.fistpM32int (p : Prefixes) (m : AddrMode) : OpcodeRow.Statement (.fistpM32int p m) := ⟨rfl, rfl⟩
theorem OpcodeRow.fldM80real (p : Prefixes) (m : AddrMode) : OpcodeRow.Statement (.fldM80real p m) := ⟨rfl, rfl⟩
theorem OpcodeRow.fstpM80real (p : Prefixes) (m : AddrMode) : OpcodeRow.Statement (.fstpM80real p m) := ⟨rfl, rfl⟩
theorem OpcodeRow.fldM64real (p : Prefixes) (m : AddrMode) : OpcodeRow.Statement (.fldM64real p m) := ⟨rfl, rfl⟩
theorem OpcodeRow.fstM64real (p : Prefixes) (m : AddrMode) : OpcodeRow.Statement (.fstM64real p m) := ⟨rfl, rfl⟩
theorem OpcodeRow.fstpM64real (p : Prefixes) (m : AddrMode) : OpcodeRow.Statement (.fstpM64real p m) := ⟨rfl, rfl⟩
theorem OpcodeRow.frstor (p : Prefixes) (m : AddrMode) : OpcodeRow.Statement (.frstor p m) := ⟨rfl, rfl⟩
theorem OpcodeRow.fnsave (p : Prefixes) (m : AddrMode) : OpcodeRow.Statement (.fnsave p m) := ⟨rfl, rfl⟩
theorem OpcodeRow.fnstswM2byte (p : Prefixes) (m : AddrMode) : OpcodeRow.Statement (.fnstswM2byte p m) := ⟨rfl, rfl⟩
theorem OpcodeRow.fildM16int (p : Prefixes) (m : AddrMode) : OpcodeRow.Statement (.fildM16int p m) := ⟨rfl, rfl⟩
theorem OpcodeRow.fistM16int (p : Prefixes) (m : AddrMode) : OpcodeRow.Statement (.fistM16int p m) := ⟨rfl, rfl⟩
theorem OpcodeRow.fistpM16int (p : Prefixes) (m : AddrMode) : OpcodeRow.Statement (.fistpM16int p m) := ⟨rfl, rfl⟩
theorem OpcodeRow.fbld (p : Prefixes) (m : AddrMode) : OpcodeRow.Statement (.fbld p m) := ⟨rfl, rfl⟩
theorem OpcodeRow.fildM64int (p : Prefixes) (m : AddrMode) : OpcodeRow.Statement (.fildM64int p m) := ⟨rfl, rfl⟩
theorem OpcodeRow.fbstp (p : Prefixes) (m : AddrMode) : OpcodeRow.Statement (.fbstp p m) := ⟨rfl, rfl⟩
theorem OpcodeRow.fistpM64int (p : Prefixes) (m : AddrMode) : OpcodeRow.Statement (.fistpM64int p m) := ⟨rfl, rfl⟩
theorem OpcodeRow.faddSt0Sti (p : Prefixes) (i : Idx) : OpcodeRow.Statement (.faddSt0Sti p i) := ⟨rfl, rfl⟩
theorem OpcodeRow.fmulSt0Sti (p : Prefixes) (i : Idx) : OpcodeRow.Statement (.fmulSt0Sti p i) := ⟨rfl, rfl⟩
theorem OpcodeRow.fcomSti (p : Prefixes) (i : Idx) : OpcodeRow.Statement (.fcomSti p i) := ⟨rfl, rfl⟩
theorem OpcodeRow.fcompSti (p : Prefixes) (i : Idx) : OpcodeRow.Statement (.fcompSti p i) := ⟨rfl, rfl⟩
theorem OpcodeRow.fsubSt0Sti (p : Prefixes) (i : Idx) : OpcodeRow.Statement (.fsubSt0Sti p i) := ⟨rfl, rfl⟩
theorem OpcodeRow.fsubrSt0Sti (p : Prefixes) (i : Idx) : OpcodeRow.Statement (.fsubrSt0Sti p i) := ⟨rfl, rfl⟩
theorem OpcodeRow.fdivSt0Sti (p : Prefixes) (i : Idx) : OpcodeRow.Statement (.fdivSt0Sti p i) := ⟨rfl, rfl⟩
theorem OpcodeRow.fdivrSt0Sti (p : Prefixes) (i : Idx) : OpcodeRow.Statement (.fdivrSt0Sti p i) := ⟨rfl, rfl⟩
theorem OpcodeRow.fldSti (p : Prefixes) (i : Idx) : OpcodeRow.Statement (.fldSti p i) := ⟨rfl, rfl⟩
theorem OpcodeRow.fxch (p : Prefixes) (i : Idx) : OpcodeRow.Statement (.fxch p i) := ⟨rfl, rfl⟩
theorem OpcodeRow.fnop (p : Prefixes) : OpcodeRow.Statement (.fnop p) := ⟨rfl, rfl⟩
theorem OpcodeRow.fchs (p : Prefixes) : OpcodeRow.Statement (.fchs p) := ⟨rfl, rfl⟩
theorem OpcodeRow.fabs (p : Prefixes) : OpcodeRow.Statement (.fabs p) := ⟨rfl, rfl⟩
theorem OpcodeRow.ftst (p : Prefixes) : OpcodeRow.Statement (.ftst p) := ⟨rfl, rfl⟩
theorem OpcodeRow.fxam (p : Prefixes) : OpcodeRow.Statement (.fxam p) := ⟨rfl, rfl⟩
theorem OpcodeRow.fld1 (p : Prefixes) : OpcodeRow.Statement (.fld1 p) := ⟨rfl, rfl⟩
theorem OpcodeRow.fldl2t (p : Prefixes) : OpcodeRow.Statement (.fldl2t p) := ⟨rfl, rfl⟩
theorem OpcodeRow.fldl2e (p : Prefixes) : OpcodeRow.Statement (.fldl2e p) := ⟨rfl, rfl⟩
theorem OpcodeRow.fldpi (p : Prefixes) : OpcodeRow.Statement (.fldpi p) := ⟨rfl, rfl⟩
theorem OpcodeRow.fldlg2 (p : Prefixes) : OpcodeRow.Statement (.fldlg2 p) := ⟨rfl, rfl⟩
theorem OpcodeRow.fldln2 (p : Prefixes) : OpcodeRow.Statement (.fldln2 p) := ⟨rfl, rfl⟩
theorem OpcodeRow.fldz (p : Prefixes) : OpcodeRow.Statement (.fldz p) := ⟨rfl, rfl⟩
theorem OpcodeRow.f2xm1 (p : Prefixes) : OpcodeRow.Statement (.f2xm1 p) := ⟨rfl, rfl⟩
theorem OpcodeRow.fyl2x (p : Prefixes) : OpcodeRow.Statement (.fyl2x p) := ⟨rfl, rfl⟩
theorem OpcodeRow.fptan (p : Prefixes) : OpcodeRow.Statement (.fptan p) := ⟨rfl, rfl⟩
theorem OpcodeRow.fpatan (p : Prefixes) : OpcodeRow.Statement (.fpatan p) := ⟨rfl, rfl⟩
theorem OpcodeRow.fxtract (p : Prefixes) : OpcodeRow.Statement (.fxtract p) := ⟨rfl, rfl⟩
theorem OpcodeRow.fprem1 (p : Prefixes) : OpcodeRow.Statement (.fprem1 p) := ⟨rfl, rfl⟩
theorem OpcodeRow.fdecstp (p : Prefixes) : OpcodeRow.Statement (.fdecstp p) := ⟨rfl, rfl⟩
theorem OpcodeRow.fincstp (p : Prefixes) : OpcodeRow.Statement (.fincstp p) := ⟨rfl, rfl⟩
theorem OpcodeRow.fprem (p : Prefixes) : OpcodeRow.Statement (.fprem p) := ⟨rfl, rfl⟩
theorem OpcodeRow.fyl2xp1 (p : Prefixes) : OpcodeRow.Statement (.fyl2xp1 p) := ⟨rfl, rfl⟩
theorem OpcodeRow.fsqrt (p : Prefixes) : OpcodeRow.Statement (.fsqrt p) := ⟨rfl, rfl⟩
theorem OpcodeRow.fsincos (p : Prefixes) : OpcodeRow.Statement (.fsincos p) := ⟨rfl, rfl⟩
theorem OpcodeRow.frndint (p : Prefixes) : OpcodeRow.Statement (.frndint p) := ⟨rfl, rfl⟩
theorem OpcodeRow.fscale (p : Prefixes) : OpcodeRow.Statement (.fscale p) := ⟨rfl, rfl⟩
theorem OpcodeRow.fsin (p : Prefixes) : OpcodeRow.Statement (.fsin p) := ⟨rfl, rfl⟩
theorem OpcodeRow.fcos (p : Prefixes) : OpcodeRow.Statement (.fcos p) := ⟨rfl, rfl⟩
theorem OpcodeRow.fcmovb (p : Prefixes) (i : Idx) : OpcodeRow.Statement (.fcmovb p i) := ⟨rfl, rfl⟩
theorem OpcodeRow.fcmove (p : Prefixes) (i : Idx) : OpcodeRow.Statement (.fcmove p i) := ⟨rfl, rfl⟩
theorem OpcodeRow.fcmovbe (p : Prefixes) (i : Idx) : OpcodeRow.Statement (.fcmovbe p i) := ⟨rfl, rfl⟩
theorem OpcodeRow.fcmovu (p : Prefixes) (i : Idx) : OpcodeRow.Statement (.fcmovu p i) := ⟨rfl, rfl⟩
theorem OpcodeRow.fucompp (p : Prefixes) : OpcodeRow.Statement (.fucompp p) := ⟨rfl, rfl⟩
theorem OpcodeRow.fcmovnb (p : Prefixes) (i : Idx) : OpcodeRow.Statement (.fcmovnb p i) := ⟨rfl, rfl⟩
theorem OpcodeRow.fcmovne (p : Prefixes) (i : Idx) : OpcodeRow.Statement (.fcmovne p i) := ⟨rfl, rfl⟩
theorem OpcodeRow.fcmovnbe (p : Prefixes) (i : Idx) : OpcodeRow.Statement (.fcmovnbe p i) := ⟨rfl, rfl⟩
theorem OpcodeRow.fcmovnu (p : Prefixes) (i : Idx) : OpcodeRow.Statement (.fcmovnu p i) := ⟨rfl, rfl⟩
theorem OpcodeRow.feni (p : Prefixes) : OpcodeRow.Statement (.feni p) := ⟨rfl, rfl⟩
theorem OpcodeRow.fdisi (p : Prefixes) : OpcodeRow.Statement (.fdisi p) := ⟨rfl, rfl⟩
theorem OpcodeRow.fnclex (p : Prefixes) : OpcodeRow.Statement (.fnclex p) := ⟨rfl, rfl⟩
theorem OpcodeRow.fninit (p : Prefixes) : OpcodeRow.Statement (.fninit p) := ⟨rfl, rfl⟩
theorem OpcodeRow.fsetpm (p : Prefixes) : OpcodeRow.Statement (.fsetpm p) := ⟨rfl, rfl⟩
theorem OpcodeRow.fucomi (p : Prefixes) (i : Idx) : OpcodeRow.Statement (.fucomi p i) := ⟨rfl, rfl⟩
theorem OpcodeRow.fcomi (p : Prefixes) (i : Idx) : OpcodeRow.Statement (.fcomi p i) := ⟨rfl, rfl⟩
theorem OpcodeRow.faddStiSt0 (p : Prefixes) (i : Idx) : OpcodeRow.Statement (.faddStiSt0 p i) := ⟨rfl, rfl⟩
theorem OpcodeRow.fmulStiSt0 (p : Prefixes) (i : Idx) : OpcodeRow.Statement (.fmulStiSt0 p i) := ⟨rfl, rfl⟩
theorem OpcodeRow.fsubrStiSt0 (p : Prefixes) (i : Idx) : OpcodeRow.Statement (.fsubrStiSt0 p i) := ⟨rfl, rfl⟩
theorem OpcodeRow.fsubStiSt0 (p : Prefixes) (i : Idx) : OpcodeRow.Statement (.fsubStiSt0 p i) := ⟨rfl, rfl⟩
theorem OpcodeRow.fdivrStiSt0 (p : Prefixes) (i : Idx) : OpcodeRow.Statement (.fdivrStiSt0 p i) := ⟨rfl, rfl⟩
theorem OpcodeRow.fdivStiSt0 (p : Prefixes) (i : Idx) : OpcodeRow.Statement (.fdivStiSt0 p i) := ⟨rfl, rfl⟩
theorem OpcodeRow.ffree (p : Prefixes) (i : Idx) : OpcodeRow.Statement (.ffree p i) := ⟨rfl, rfl⟩
theorem OpcodeRow.fstSti (p : Prefixes) (i : Idx) : OpcodeRow.Statement (.fstSti p i) := ⟨rfl, rfl⟩
theorem OpcodeRow.fstpSti (p : Prefixes) (i : Idx) : OpcodeRow.Statement (.fstpSti p i) := ⟨rfl, rfl⟩
theorem OpcodeRow.fucom (p : Prefixes) (i : Idx) : OpcodeRow.Statement (.fucom p i) := ⟨rfl, rfl⟩
theorem OpcodeRow.fucomp (p : Prefixes) (i : Idx) : OpcodeRow.Statement (.fucomp p i) := ⟨rfl, rfl⟩
theorem OpcodeRow.faddp (p : Prefixes) (i : Idx) : OpcodeRow.Statement (.faddp p i) := ⟨rfl, rfl⟩
theorem OpcodeRow.fmulp (p : Prefixes) (i : Idx) : OpcodeRow.Statement (.fmulp p i) := ⟨rfl, rfl⟩
theorem OpcodeRow.fcompp (p : Prefixes) : OpcodeRow.Statement (.fcompp p) := ⟨rfl, rfl⟩
theorem OpcodeRow.fsubrp (p : Prefixes) (i : Idx) : OpcodeRow.Statement (.fsubrp p i) := ⟨rfl, rfl⟩
theorem OpcodeRow.fsubp (p : Prefixes) (i : Idx) : OpcodeRow.Statement (.fsubp p i) := ⟨rfl, rfl⟩
theorem OpcodeRow.fdivrp (p : Prefixes) (i : Idx) : OpcodeRow.Statement (.fdivrp p i) := ⟨rfl, rfl⟩
theorem OpcodeRow.fdivp (p : Prefixes) (i : Idx) : OpcodeRow.Statement (.fdivp p i) := ⟨rfl, rfl⟩
theorem OpcodeRow.fnstswAx (p : Prefixes) : OpcodeRow.Statement (.fnstswAx p) := ⟨rfl, rfl⟩
theorem OpcodeRow.fucomip (p : Prefixes) (i : Idx) : OpcodeRow.Statement (.fucomip p i) := ⟨rfl, rfl⟩
theorem OpcodeRow.fcomip (p : Prefixes) (i : Idx) : OpcodeRow.Statement (.fcomip p i) := ⟨rfl, rfl⟩
theorem OpcodeRow.wait (p : Prefixes) : OpcodeRow.Statement (.wait p) := ⟨rfl, rfl⟩
theorem OpcodeRow.finit (p : Prefixes) : OpcodeRow.Statement (.finit p) := ⟨rfl, rfl⟩
theorem OpcodeRow.fclex (p : Prefixes) : OpcodeRow.Statement (.fclex p) := ⟨rfl, rfl⟩
theorem OpcodeRow.fstcw (p : Prefixes) (m : AddrMode) : OpcodeRow.Statement (.fstcw p m) := ⟨rfl, rfl⟩
theorem OpcodeRow.fstswM2byte (p : Prefixes) (m : AddrMode) : OpcodeRow.Statement (.fstswM2byte p m) := ⟨rfl, rfl⟩
theorem OpcodeRow.fstswAx (p : Prefixes) : OpcodeRow.Statement (.fstswAx p) := ⟨rfl, rfl⟩
theorem OpcodeRow.fstenv (p : Prefixes) (m : AddrMode) : OpcodeRow.Statement (.fstenv p m) := ⟨rfl, rfl⟩
theorem OpcodeRow.fsave (p : Prefixes) (m : AddrMode) : OpcodeRow.Statement (.fsave p m) := ⟨rfl, rfl⟩

end Sys2Proof.Laws
end

