-- ==== Sys2Proof/Laws/Decode.lean ====
section
/-! SUPPORT. Reading back what the encoder writes: prefixes, displacements, memory operands, and the length. -/

namespace Sys2Proof

/-! ### Fields of a byte -/

@[simp] theorem modOf_modRm (a : BitVec 2) (b c : BitVec 3) : modOf (modRm a b c) = a := by
  revert a b c; decide

@[simp] theorem regOf_modRm (a : BitVec 2) (b c : BitVec 3) : regOf (modRm a b c) = b := by
  revert a b c; decide

@[simp] theorem rmOf_modRm (a : BitVec 2) (b c : BitVec 3) : rmOf (modRm a b c) = c := by
  revert a b c; decide

@[simp] theorem rmOf_escByte (a : BitVec 3) : rmOf (escByte a) = a := by revert a; decide

@[simp] theorem isEsc_escByte (a : BitVec 3) : isEsc (escByte a) = true := by revert a; decide

@[simp] theorem Gpr.ofCode_code (r : Gpr) : Gpr.ofCode r.code = r := by cases r <;> rfl

@[simp] theorem Base16.ofCode_code (b : Base16) : Base16.ofCode b.code = b := by cases b <;> rfl

theorem Gpr.code_eq_four (r : Gpr) : r.code = 4 ↔ r = .esp := by cases r <;> decide

theorem Gpr.code_eq_five (r : Gpr) : r.code = 5 ↔ r = .ebp := by cases r <;> decide

theorem Base16.code_eq_six (b : Base16) : b.code = 6 ↔ b = .bp := by cases b <;> decide

theorem indexOf_indexCode {i : Option Gpr} (h : i ≠ some .esp) : indexOf (indexCode i) = i := by
  rcases i with _ | r
  · rfl
  · cases r <;> first | rfl | exact absurd rfl h

/-! ### Prefixes -/

@[simp] theorem Prefix.ofByte_byte (x : Prefix) : Prefix.ofByte x.byte = some x := by
  rcases x with _ | _ | r | _ | _
  · rfl
  · rfl
  · cases r <;> rfl
  · rfl
  · rfl

/-- A byte at which the prefixes end. -/
def endsPrefixes (b : Byte) : Bool := (Prefix.ofByte b).isNone && b != 0xF0

theorem endsPrefixes_escByte (a : BitVec 3) : endsPrefixes (escByte a) = true := by revert a; decide

theorem endsPrefixes_wait : endsPrefixes 0x9B = true := by decide

theorem takePrefixes_end {b : Byte} (h : endsPrefixes b = true) (r : List Byte) :
    takePrefixes (b :: r) = ⟨[], false, b :: r⟩ := by
  simp only [endsPrefixes, Bool.and_eq_true, Option.isNone_iff_eq_none, bne_iff_ne, ne_eq] at h
  rw [takePrefixes, h.1]
  exact if_neg h.2

/-- The prefixes are read back up to the first opcode byte (30_encoding.md R141). -/
theorem takePrefixes_encode (p : Prefixes) {b : Byte} (h : endsPrefixes b = true) (r : List Byte) :
    takePrefixes (p.encode ++ b :: r) = ⟨p, false, b :: r⟩ := by
  induction p with
  | nil => exact takePrefixes_end h r
  | cons x p ih =>
    have : Prefixes.encode (x :: p) = x.byte :: Prefixes.encode p := rfl
    rw [this, List.cons_append, takePrefixes, Prefix.ofByte_byte, ih]

/-! ### Displacements -/

theorem take16_bytes16 (d : Word16) (r : List Byte) : take16 (bytes16 d ++ r) = some (d, r) := by
  have : d.extractLsb' 8 8 ++ d.extractLsb' 0 8 = d := by
    apply BitVec.eq_of_getLsbD_eq
    intro n hn
    rw [BitVec.getLsbD_append]
    by_cases h : n < 8
    · simp [h]
    · have h' : n - 8 < 8 := by omega
      have h'' : 8 + (n - 8) = n := by omega
      simp [h, h', h'']
  show some (d.extractLsb' 8 8 ++ d.extractLsb' 0 8, r) = _
  rw [this]

theorem take32_bytes32 (d : Word32) (r : List Byte) : take32 (bytes32 d ++ r) = some (d, r) := by
  have : d.extractLsb' 24 8 ++ d.extractLsb' 16 8 ++ d.extractLsb' 8 8 ++ d.extractLsb' 0 8 = d := by
    apply BitVec.eq_of_getLsbD_eq
    intro n hn
    rw [BitVec.getLsbD_append, BitVec.getLsbD_append, BitVec.getLsbD_append]
    by_cases h : n < 8
    · simp [h]
    · by_cases h2 : n < 16
      · have h' : n - 8 < 8 := by omega
        have h'' : 8 + (n - 8) = n := by omega
        simp [h, h', h'']
      · by_cases h3 : n < 24
        · have h' : ¬ n - 8 < 8 := by omega
          have h4 : n - 8 - 8 < 8 := by omega
          have h'' : 16 + (n - 8 - 8) = n := by omega
          simp [h, h', h4, h'']
        · have h' : ¬ n - 8 < 8 := by omega
          have h4 : ¬ n - 8 - 8 < 8 := by omega
          have h5 : n - 8 - 8 - 8 < 8 := by omega
          have h'' : 24 + (n - 8 - 8 - 8) = n := by omega
          simp [h, h', h4, h5, h'']
  show some (d.extractLsb' 24 8 ++ d.extractLsb' 16 8 ++ d.extractLsb' 8 8 ++ d.extractLsb' 0 8, r) = _
  rw [this]

/-- A displacement is read back (30_encoding.md R136). -/
theorem takeDisp_encode {w : Nat} {take : List Byte → Option (BitVec w × List Byte)} {enc : BitVec w → List Byte}
    (h : ∀ d r, take (enc d ++ r) = some (d, r)) (d : Disp w) (r : List Byte) :
    takeDisp take d.mod (d.encode enc ++ r) = some (d, r) := by
  cases d with
  | none => rfl
  | short d => rfl
  | full d =>
    show (take (enc d ++ r)).map _ = _
    rw [h]; rfl

theorem Disp.mod_ne_three {w : Nat} (d : Disp w) : d.mod ≠ 3 := by cases d <;> simp [Disp.mod]

theorem Disp.mod_eq_zero {w : Nat} (d : Disp w) : d.mod = 0 ↔ d = .none := by cases d <;> simp [Disp.mod]

theorem AddrMode.mod_ne_three (m : AddrMode) : m.mod ≠ 3 := by
  cases m with
  | abs32 => exact (by decide : (0 : BitVec 2) ≠ 3)
  | reg32 b d => exact d.mod_ne_three
  | sib32 b i s d => exact d.mod_ne_three
  | sibAbs32 => exact (by decide : (0 : BitVec 2) ≠ 3)
  | abs16 => exact (by decide : (0 : BitVec 2) ≠ 3)
  | reg16 b d => exact d.mod_ne_three

/-! ### Memory operands -/

theorem takeAddr32_encode {m : AddrMode} (hw : m.wf = true) (h32 : m.is32 = true) (reg : BitVec 3) (r : List Byte) :
    takeAddr32 (modRm m.mod reg m.rm) (m.tail ++ r) = some (m, r) := by
  cases m with
  | abs32 d =>
    simp only [takeAddr32, AddrMode.mod, AddrMode.rm, AddrMode.tail, rmOf_modRm, modOf_modRm]
    rw [if_neg (by decide), if_pos (by decide), take32_bytes32]; rfl
  | reg32 b d =>
    simp only [AddrMode.wf, Bool.and_eq_true, bne_iff_ne, ne_eq, Bool.not_eq_true', Bool.and_eq_false_iff,
      beq_eq_false_iff_ne] at hw
    simp only [takeAddr32, AddrMode.mod, AddrMode.rm, AddrMode.tail, rmOf_modRm, modOf_modRm, Gpr.ofCode_code]
    rw [if_neg (fun h => hw.1 ((Gpr.code_eq_four b).mp h)), if_neg, takeDisp_encode take32_bytes32]
    · rfl
    · rw [Gpr.code_eq_five, Disp.mod_eq_zero]
      rintro ⟨h1, h2⟩
      rcases hw.2 with h | h
      · exact h h1
      · exact h h2
  | sib32 b i s d =>
    simp only [AddrMode.wf, Bool.and_eq_true, bne_iff_ne, ne_eq, Bool.not_eq_true', Bool.and_eq_false_iff,
      beq_eq_false_iff_ne] at hw
    simp only [takeAddr32, AddrMode.mod, AddrMode.rm, AddrMode.tail, rmOf_modRm, modOf_modRm, List.cons_append,
      regOf_modRm, Gpr.ofCode_code, if_true, indexOf_indexCode hw.1]
    rw [if_neg, takeDisp_encode take32_bytes32]
    · rfl
    · rw [Gpr.code_eq_five, Disp.mod_eq_zero]
      rintro ⟨h1, h2⟩
      rcases hw.2 with h | h
      · exact h h1
      · exact h h2
  | sibAbs32 i s d =>
    simp only [AddrMode.wf, bne_iff_ne, ne_eq] at hw
    simp only [takeAddr32, AddrMode.mod, AddrMode.rm, AddrMode.tail, rmOf_modRm, modOf_modRm, List.cons_append,
      regOf_modRm, if_true, indexOf_indexCode hw, and_self]
    rw [take32_bytes32]; rfl
  | abs16 d => cases h32
  | reg16 b d => cases h32

theorem takeAddr16_encode {m : AddrMode} (hw : m.wf = true) (h32 : m.is32 = false) (reg : BitVec 3) (r : List Byte) :
    takeAddr16 (modRm m.mod reg m.rm) (m.tail ++ r) = some (m, r) := by
  cases m with
  | abs16 d =>
    simp only [takeAddr16, AddrMode.mod, AddrMode.rm, AddrMode.tail, rmOf_modRm, modOf_modRm, and_self, if_true]
    rw [take16_bytes16]; rfl
  | reg16 b d =>
    simp only [AddrMode.wf, Bool.not_eq_true', Bool.and_eq_false_iff, beq_eq_false_iff_ne, ne_eq] at hw
    simp only [takeAddr16, AddrMode.mod, AddrMode.rm, AddrMode.tail, rmOf_modRm, modOf_modRm, Base16.ofCode_code]
    rw [if_neg, takeDisp_encode take16_bytes16]
    · rfl
    · rw [Base16.code_eq_six, Disp.mod_eq_zero]
      rintro ⟨h1, h2⟩
      rcases hw with h | h
      · exact h h1
      · exact h h2
  | abs32 => cases h32
  | reg32 => cases h32
  | sib32 => cases h32
  | sibAbs32 => cases h32

/-- A memory operand is read back (30_encoding.md R136). -/
theorem takeAddr_encode {m : AddrMode} (hw : m.wf = true) (reg : BitVec 3) (r : List Byte) :
    takeAddr m.is32 (modRm m.mod reg m.rm) (m.tail ++ r) = some (m, r) := by
  cases h : m.is32 with
  | true => exact takeAddr32_encode hw h reg r
  | false => exact takeAddr16_encode hw h reg r

/-! ### ESC instructions -/

/-- An ESC memory form is read back if the table has its row. -/
theorem decodeEsc_mem {mem : BitVec 3 → BitVec 3 → Prefixes → AddrMode → Option Instr}
    {reg : BitVec 3 → BitVec 3 → BitVec 3 → Prefixes → Option Instr} {a32 : Bool} {a r : BitVec 3} {p : Prefixes}
    {m : AddrMode} {i : Instr} (hm : mem a r p m = some i) (hw : m.wf = true) (hs : m.is32 = p.addr32 a32)
    (rest : List Byte) :
    decodeEsc mem reg a32 p (escByte a) (modRm m.mod r m.rm :: m.tail ++ rest) = .ok (i, rest) := by
  rw [List.cons_append, decodeEsc, modOf_modRm, if_neg m.mod_ne_three, ← hs, takeAddr_encode hw]
  simp [hm]

/-- An ESC register form is read back if the table has its row. -/
theorem decodeEsc_reg {mem : BitVec 3 → BitVec 3 → Prefixes → AddrMode → Option Instr}
    {reg : BitVec 3 → BitVec 3 → BitVec 3 → Prefixes → Option Instr} {a32 : Bool} {a r n : BitVec 3} {p : Prefixes}
    {i : Instr} (hr : reg a r n p = some i) (rest : List Byte) :
    decodeEsc mem reg a32 p (escByte a) (modRm 3 r n :: rest) = .ok (i, rest) := by
  simp [decodeEsc, hr]

/-! ### The length -/

@[simp] theorem Prefixes.encode_length (p : Prefixes) : p.encode.length = p.length := List.length_map _

theorem AddrMode.tail_length (m : AddrMode) : m.tail.length = m.extraBytes := by
  have h32 : ∀ d : Disp 32, (d.encode bytes32).length = d.bytes := fun d => by cases d <;> rfl
  have h16 : ∀ d : Disp 16, (d.encode bytes16).length = d.bytes := fun d => by cases d <;> rfl
  cases m with
  | abs32 => rfl
  | reg32 b d => exact h32 d
  | sib32 b i s d => simp [AddrMode.tail, AddrMode.extraBytes, h32, Nat.add_comm]
  | sibAbs32 => rfl
  | abs16 => rfl
  | reg16 b d => exact h16 d

end Sys2Proof
end

