-- ==== Sys2Proof/Laws/Keeps.lean ====
section
/-! SUPPORT. What the stores, the comparisons into EFLAGS and the control operations keep: the canonical form of memory,
the tag invariant, the equations of ES and B, and the host's part of the state. -/

namespace Sys2Proof.Machine

/-- The part of the invariant that every operation keeps on its own. -/
structure State.Sound (s : State) : Prop where
  memory : Memory.wf s.mem = true
  tags : s.TagsTrue
  coherent : s.Coherent

/-- The part of the state that no operation of an instruction touches. -/
def State.fixed (s : State) : State :=
  { (((((s.beyondStack.setCw 0).setPointers 0 0 0).setMem []).setHostFlags false false false)) with
    gprs := Vector.replicate 8 0 }

/-- `t` keeps what `s` has of the invariant, and the host's part of the state. -/
structure Keeps (s t : State) : Prop where
  fixed : t.fixed = s.fixed
  sound : s.Sound → t.Sound

theorem OnStack.keeps {s t : State} (h : OnStack s t) : Keeps s t :=
  ⟨congrArg (fun u : State =>
      { ((((u.setCw 0).setPointers 0 0 0).setMem []).setHostFlags false false false) with
        gprs := Vector.replicate 8 0 }) h.beyond,
    fun g => ⟨h.mem ▸ g.memory, h.tags g.tags, h.coherent g.coherent⟩⟩

namespace Keeps

variable {s t u : State}

theorem refl (s : State) : Keeps s s := ⟨rfl, id⟩

theorem trans (h : Keeps s t) (g : Keeps t u) : Keeps s u := ⟨g.fixed.trans h.fixed, g.sound ∘ h.sound⟩

theorem frozen (h : Keeps s t) : t.frozen = s.frozen := (congrArg State.frozen h.fixed :)
theorem ferr (h : Keeps s t) : t.ferr = s.ferr := (congrArg State.ferr h.fixed :)
theorem ne (h : Keeps s t) : t.ne = s.ne := (congrArg State.ne h.fixed :)
theorem ignne (h : Keeps s t) : t.ignne = s.ignne := (congrArg State.ignne h.fixed :)
theorem segs (h : Keeps s t) : t.segs = s.segs := (congrArg State.segs h.fixed :)
theorem eip (h : Keeps s t) : t.eip = s.eip := (congrArg State.eip h.fixed :)
theorem mode (h : Keeps s t) : t.mode = s.mode := (congrArg State.mode h.fixed :)
theorem opSize32 (h : Keeps s t) : t.opSize32 = s.opSize32 := (congrArg State.opSize32 h.fixed :)
theorem addrSize32 (h : Keeps s t) : t.addrSize32 = s.addrSize32 := (congrArg State.addrSize32 h.fixed :)
theorem intr (h : Keeps s t) : t.intr = s.intr := (congrArg State.intr h.fixed :)
theorem denied (h : Keeps s t) : t.denied = s.denied := (congrArg State.denied h.fixed :)
theorem events (h : Keeps s t) : t.events = s.events := (congrArg State.events h.fixed :)
theorem params (h : Keeps s t) : t.params = s.params := (congrArg State.params h.fixed :)
theorem draws (h : Keeps s t) : t.draws = s.draws := (congrArg State.draws h.fixed :)

theorem record (s : State) (i : Instr) (d : Option FarPtr) : Keeps s (s.record i d) :=
  ⟨rfl, fun h => ⟨h.memory, h.tags, h.coherent⟩⟩

/-- A replacement of memory by one in canonical form. -/
theorem setMem (s : State) {m : Memory} (h : Memory.wf s.mem = true → Memory.wf m = true) : Keeps s (s.setMem m) :=
  ⟨rfl, fun g => ⟨h g.memory, g.tags, g.coherent⟩⟩

theorem write (s : State) (a : Word32) (n v : Nat) : Keeps s (s.write a n v) :=
  setMem s fun h => wf_writeBytes h _ _

theorem writeImage (s : State) (a : Word32) (bs : List Byte) : Keeps s (s.writeImage a bs) :=
  setMem s fun h => wf_writeBytes h _ _

theorem onStackFault (s : State) (b : Bool) {f : State → State} (h : ∀ u, Keeps u (f u)) :
    Keeps s (s.onStackFault b f) := by
  unfold State.onStackFault
  split
  · exact (OnStack.stackFault s b).keeps.trans (h _)
  · exact (OnStack.stackFault s b).keeps

/-! ### Stores of ST(0) -/

theorem storeReplied (a : Word32) (n : Nat) (b : Bool) (r : StoreReply) (s : State) :
    Keeps s (storeReplied a n b r s) := by
  unfold Machine.storeReplied
  split
  · exact ((OnStack.signalAll s _).keeps.trans (write _ _ _ _)).trans
      (((OnStack.setC1 _ _).trans (OnStack.drawCodes _)).trans (OnStack.popIf _ _)).keeps
  · exact (OnStack.signalAll s _).keeps
  · exact ((OnStack.signalAll s _).trans (OnStack.drawCodes _)).keeps

theorem storeTop (a : Word32) (n : Nat) (b : Bool) (e : Nat) (f : Ext → StoreReply) (s : State) :
    Keeps s (storeTop a n b e f s) := by
  unfold Machine.storeTop
  split
  · exact onStackFault s false fun u =>
      (write u _ _ _).trans ((OnStack.drawCodes _).trans (OnStack.popIf _ _)).keeps
  · exact storeReplied a n b _ s

/-! ### Comparisons into EFLAGS -/

theorem setHostFlags (s : State) (a b c : Bool) : Keeps s (s.setHostFlags a b c) :=
  ⟨rfl, fun h => ⟨h.memory, h.tags, h.coherent⟩⟩

theorem writeRelation (d : CompareDest) (r : Relation) (s : State) : Keeps s (writeRelation d r s) := by
  cases d with
  | codes => exact (OnStack.setCodes s _ _ _).keeps
  | eflags => exact (setHostFlags s _ _ _).trans (OnStack.drawCodes _).keeps

theorem compareInto (d : CompareDest) (quiet testD : Bool) (n : Nat) (e : Bool) (x y : Operand) (s : State) :
    Keeps s (compareInto d quiet testD n e x y s) := by
  unfold Machine.compareInto
  split
  · exact onStackFault s false fun u => (writeRelation d _ u).trans (OnStack.popN _ _).keeps
  · split
    · exact (OnStack.signalAll s _).keeps
    · exact ((OnStack.signalAll s _).keeps.trans (writeRelation d _ _)).trans
        ((OnStack.setC1 _ _).trans (OnStack.popN _ _)).keeps

/-! ### Control -/

theorem initialized (s : State) : Keeps s s.initialized :=
  ⟨rfl, fun h => ⟨h.memory, fun k => .inl (by
      have : ∀ k : Idx, tagAt 0xFFFF k = emptyTag := by decide
      exact this k),
    (by decide : (0 : Word16).getLsbD esBit = summary 0 0x037F),
    (by decide : (0 : Word16).getLsbD busyBit = (0 : Word16).getLsbD esBit)⟩⟩

theorem resummarize_of {s t : State} (hf : t.fixed = s.fixed) (hm : Memory.wf s.mem = true → Memory.wf t.mem = true)
    (ht : s.TagsTrue → t.TagsTrue) : Keeps s t.resummarize :=
  ⟨hf, fun h => ⟨hm h.memory, (ht h.tags).of_eq (fun _ => rfl) fun _ => rfl, t.coherent_resummarize⟩⟩

/-- A new control word, with ES recomputed (46_control.md R464). -/
theorem setControl (s : State) (w : Word16) : Keeps s (s.setCw w).resummarize :=
  resummarize_of (s := s) (t := s.setCw w) rfl id fun h => h.of_eq (fun _ => rfl) fun _ => rfl

theorem loadControl (a : Word32) (s : State) : Keeps s (loadControl a s) :=
  (setControl s _).trans (OnStack.drawAllCodes _).keeps

/-- Clearing the flags leaves nothing pending (46_control.md R470). -/
theorem coherent_cleared (w cw : Word16) :
    (w &&& 0x7F00).getLsbD esBit = summary (w &&& 0x7F00) cw ∧
      (w &&& 0x7F00).getLsbD busyBit = (w &&& 0x7F00).getLsbD esBit := by
  simp [summary, Exc.all, Exc.bit, esBit, busyBit, BitVec.getLsbD_and]

theorem clearExceptions (s : State) : Keeps s (clearExceptions s) :=
  (⟨rfl, fun h => ⟨h.memory, h.tags, coherent_cleared s.sw s.cw⟩⟩ : Keeps s (s.setSw (s.sw &&& 0x7F00))).trans
    (OnStack.drawAllCodes _).keeps

theorem storeControl (a : Word32) (s : State) : Keeps s (storeControl a s) := write s _ _ _

theorem storeStatus (a : Word32) (s : State) : Keeps s (storeStatus a s) := write s _ _ _

theorem statusToAx (s : State) : Keeps s (statusToAx s) := ⟨rfl, fun h => ⟨h.memory, h.tags, h.coherent⟩⟩

theorem saveEnvironment (f : ImageFormat) (a : Word32) (s : State) : Keeps s (saveEnvironment f a s) :=
  ((writeImage s a (storedImage f .environment s)).trans (setControl _ (s.cw ||| 0x3F))).trans (OnStack.drawAllCodes _).keeps

theorem saveState (f : ImageFormat) (a : Word32) (s : State) : Keeps s (saveState f a s) :=
  (writeImage s _ _).trans (initialized _)

/-- The tags of a tag word put together from eight. -/
theorem tagAt_tagWord (f : Idx → BitVec 2) (k : Idx) : tagAt (tagWord f) k = f k := by
  have hk : k = 0 ∨ k = 1 ∨ k = 2 ∨ k = 3 ∨ k = 4 ∨ k = 5 ∨ k = 6 ∨ k = 7 := by revert k; decide
  apply BitVec.eq_of_getLsbD_eq
  intro n hn
  have hn : n = 0 ∨ n = 1 := by omega
  rw [getLsbD_tagAt]
  rcases hk with rfl | rfl | rfl | rfl | rfl | rfl | rfl | rfl <;> rcases hn with rfl | rfl <;>
    simp only [tagWord, BitVec.getLsbD_append] <;> rfl

/-- A load of the environment makes the tags true whatever the image says (10_state.md R69, R70). -/
theorem loadEnvironment_of {s t : State} (e : Environment) (hf : t.fixed = s.fixed) (hm : t.mem = s.mem) :
    Keeps s (loadEnvironment e t) :=
  resummarize_of (t := (((t.setCw e.cw).setSw e.sw).setTw (tagWord (loadedTag e.tw t.regs))).setPointers _ _ _) hf
    (fun h => by simpa [hm] using h) fun _ k => by
      show tagAt (tagWord (loadedTag e.tw t.regs)) k = emptyTag ∨
        tagAt (tagWord (loadedTag e.tw t.regs)) k = tagOf (t.reg k)
      rw [tagAt_tagWord, loadedTag]
      split
      · exact .inl rfl
      · exact .inr rfl

theorem restoreEnvironment (f : ImageFormat) (a : Word32) (s : State) : Keeps s (restoreEnvironment f a s) :=
  loadEnvironment_of _ rfl rfl

theorem restoreState (f : ImageFormat) (a : Word32) (s : State) : Keeps s (restoreState f a s) :=
  loadEnvironment_of _ rfl rfl

end Keeps

end Sys2Proof.Machine
end

