-- ==== Sys2Proof/Laws/Effects.lean ====
section
/-! SUPPORT. What each shared operation does to the stack and the status word: one lemma per operation, in the terms of
Sys2Proof/Safety.lean. -/

namespace Sys2Proof.Machine

/-! ### The status word under the operations that write codes, TOP or nothing of it -/

/-- The exception flags, SF, ES and B are as before. -/
def State.SameFlags (s t : State) : Prop := ∀ n, n < 8 ∨ n = 15 → t.sw.getLsbD n = s.sw.getLsbD n

namespace State.SameFlags

variable {s t u : State}

theorem refl (s : State) : s.SameFlags s := fun _ _ => rfl

theorem trans (h : s.SameFlags t) (g : t.SameFlags u) : s.SameFlags u := fun n hn => (g n hn).trans (h n hn)

theorem of_sw (h : t.sw = s.sw) : s.SameFlags t := fun _ _ => by rw [h]

theorem putSw (s : State) (k : Nat) (b : Bool) (hk : ¬ (k < 8 ∨ k = 15)) : s.SameFlags (s.putSw k b) := fun n hn => by
  rw [State.putSw_bit, if_neg]; rintro ⟨rfl, -⟩; exact hk hn

theorem setTop (s : State) (k : Idx) : s.SameFlags (s.setTop k) := fun n hn => s.setTop_bit k n (by omega)

theorem setC1 (s : State) (b : Bool) : s.SameFlags (s.setC1 b) := putSw s _ _ (by decide)

theorem setCodes (s : State) (a b c : Bool) : s.SameFlags (s.setCodes a b c) :=
  ((putSw s _ _ (by decide)).trans (putSw _ _ _ (by decide))).trans (putSw _ _ _ (by decide))

theorem drawC03 (s : State) : s.SameFlags s.drawC03 :=
  (putSw s _ _ (by decide)).trans (putSw _ _ _ (by decide))

theorem drawCodes (s : State) : s.SameFlags s.drawCodes := (drawC03 s).trans (putSw _ _ _ (by decide))

theorem drawC1 (s : State) : s.SameFlags s.drawC1 := putSw s _ _ (by decide)

theorem drawAllCodes (s : State) : s.SameFlags s.drawAllCodes := (drawCodes s).trans (drawC1 _)

theorem setST (s : State) (i : Idx) (x : Ext) : s.SameFlags (s.setST i x) := of_sw rfl

theorem push (s : State) (x : Ext) : s.SameFlags (s.push x) := setTop s _

theorem pop (s : State) : s.SameFlags s.pop := fun n hn => s.pop_bit n (by omega)

theorem popN (s : State) (n : Nat) : s.SameFlags (s.popN n) := by
  induction n generalizing s with
  | zero => exact refl s
  | succ n ih => exact (pop s).trans (ih s.pop)

theorem popIf (s : State) (b : Bool) : s.SameFlags (s.popIf b) := by
  cases b
  · exact refl s
  · exact pop s

end State.SameFlags

/-! ### C1 -/

@[simp] theorem State.setC1_c1 (s : State) (b : Bool) : (s.setC1 b).c1 = b :=
  (State.putSw_bit s c1Bit b c1Bit).trans (if_pos (by decide))

theorem State.putSw_c1 (s : State) (k : Nat) (b : Bool) (h : c1Bit ≠ k) : (s.putSw k b).c1 = s.c1 :=
  (State.putSw_bit s k b c1Bit).trans (if_neg fun e => h e.1)

@[simp] theorem State.drawC03_c1 (s : State) : s.drawC03.c1 = s.c1 :=
  (State.putSw_c1 _ _ _ (by decide)).trans (State.putSw_c1 _ _ _ (by decide))

@[simp] theorem State.drawCodes_c1 (s : State) : s.drawCodes.c1 = s.c1 :=
  (State.putSw_c1 _ _ _ (by decide)).trans s.drawC03_c1

@[simp] theorem State.setCodes_c1 (s : State) (a b c : Bool) : (s.setCodes a b c).c1 = s.c1 :=
  (State.putSw_c1 _ _ _ (by decide)).trans ((State.putSw_c1 _ _ _ (by decide)).trans (State.putSw_c1 _ _ _ (by decide)))

@[simp] theorem State.setTop_c1 (s : State) (k : Idx) : (s.setTop k).c1 = s.c1 := s.setTop_bit k c1Bit (by decide)

@[simp] theorem State.setST_c1 (s : State) (i : Idx) (x : Ext) : (s.setST i x).c1 = s.c1 := rfl

@[simp] theorem State.push_c1 (s : State) (x : Ext) : (s.push x).c1 = s.c1 := s.setTop_c1 _

@[simp] theorem State.pop_c1 (s : State) : s.pop.c1 = s.c1 := s.pop_bit c1Bit (by decide)

@[simp] theorem State.popN_c1 (s : State) (n : Nat) : (s.popN n).c1 = s.c1 := by
  induction n generalizing s with
  | zero => rfl
  | succ n ih => exact (ih s.pop).trans s.pop_c1

@[simp] theorem State.popIf_c1 (s : State) (b : Bool) : (s.popIf b).c1 = s.c1 := by
  cases b
  · rfl
  · exact s.pop_c1

@[simp] theorem State.signalAll_c1 (s : State) (xs : List Exc) : (s.signalAll xs).c1 = s.c1 := by
  have h : (xs.any fun x => c1Bit == x.bit) = false := by
    rw [List.any_eq_false]
    intro x _ hx
    have := x.bit_lt
    have := beq_iff_eq.mp hx
    unfold c1Bit at this
    omega
  rw [State.c1, State.signalAll_bit, h]
  simp [State.c1, esBit, busyBit, c1Bit]

@[simp] theorem State.write_c1 (s : State) (a : Word32) (n v : Nat) : (s.write a n v).c1 = s.c1 := rfl

/-! ### Signals -/

theorem any_bit (xs : List Exc) (x : Exc) : xs.any (fun y => x.bit == y.bit) = xs.contains x := by
  induction xs with
  | nil => rfl
  | cons y ys ih =>
    have : (x.bit == y.bit) = (x == y) := by
      rw [Bool.eq_iff_iff, beq_iff_eq, beq_iff_eq, Exc.bit_inj]
    rw [List.any_cons, List.contains_cons, this, ih]

theorem any_bit_above (xs : List Exc) {n : Nat} (h : 6 ≤ n) : xs.any (fun y => n == y.bit) = false := by
  rw [List.any_eq_false]
  intro x _ hx
  have := x.bit_lt
  have := beq_iff_eq.mp hx
  omega

/-- An operation that signals and afterwards leaves the flags alone. -/
theorem State.Signals.intro {s t : State} {xs : List Exc} {c : Bool} (h : (s.signalAll xs).SameFlags t) (hc : t.c1 = c) :
    s.Signals t xs c := by
  refine ⟨fun x => ?_, ?_, ?_, ?_, hc⟩
  · have h1 : (x.bit == esBit) = false := by cases x <;> decide
    have h2 : (x.bit == busyBit) = false := by cases x <;> decide
    rw [State.flag, h _ (by have := x.bit_lt; omega), State.signalAll_bit, any_bit]
    simp [h1, h2, State.flag]
  · rw [State.es, h _ (by decide), State.signalAll_bit, any_bit_above _ (by decide)]
    simp [State.es]
  · rw [State.busy, h _ (by decide), State.signalAll_bit, any_bit_above _ (by decide)]
    simp [State.busy]
  · rw [State.sf, h _ (by decide), State.signalAll_bit, any_bit_above _ (by decide)]
    simp [State.sf, sfBit, esBit, busyBit]

/-- An operation that signals nothing. -/
theorem State.Signals.none {s t : State} {c : Bool} (h : s.SameFlags t) (hc : t.c1 = c) : s.Signals t [] c :=
  .intro h hc

/-- Signalling and nothing else. -/
theorem State.signals_signalAll (s : State) (xs : List Exc) : s.Signals (s.signalAll xs) xs s.c1 :=
  .intro (.refl _) (s.signalAll_c1 xs)

/-- A stack fault whose response leaves the flags and C1 alone. -/
theorem State.StackFaulted.intro {s t : State} {b : Bool} (h : (s.stackFault b).SameFlags t) (hc : t.c1 = b) :
    s.StackFaulted t b := by
  have hb : ∀ n, n < 8 ∨ n = 15 → t.sw.getLsbD n =
      if n = sfBit then true
      else (s.sw.getLsbD n || n == Exc.i.bit || ((n == esBit || n == busyBit) && !s.masked .i)) := fun n hn => by
    rw [h n hn, State.stackFault, State.setC1, State.putSw_bit, if_neg (by unfold c1Bit; omega), State.putSw_bit,
      State.signal_bit]
    by_cases h6 : n = sfBit
    · rw [if_pos ⟨h6, by omega⟩, if_pos h6]
    · rw [if_neg (fun e => h6 e.1), if_neg h6]
  refine ⟨fun x => ?_, ?_, ?_, ?_, hc⟩
  · have h0 : ¬ (x.bit = sfBit) := by cases x <;> decide
    have h1 : (x.bit == esBit) = false := by cases x <;> decide
    have h2 : (x.bit == busyBit) = false := by cases x <;> decide
    have h3 : (x.bit == Exc.i.bit) = (x == .i) := by cases x <;> decide
    rw [State.flag, hb _ (by have := x.bit_lt; omega), if_neg h0, h1, h2, h3]
    simp [State.flag]
  · rw [State.es, hb _ (by decide), if_neg (by decide)]
    simp [State.es, esBit, Exc.bit]
  · rw [State.busy, hb _ (by decide), if_neg (by decide)]
    simp [State.busy, busyBit, Exc.bit]
  · rw [State.sf, hb _ (by decide), if_pos rfl]

/-- What a stack fault does: the fault is signalled, and the masked response follows if #I is masked. -/
theorem State.onStackFault_eq (s : State) (b : Bool) (f : State → State) :
    s.onStackFault b f = if s.masked .i then f (s.stackFault b) else s.stackFault b := by
  simp [State.onStackFault]

@[simp] theorem State.stackFault_c1 (s : State) (b : Bool) : (s.stackFault b).c1 = b := State.setC1_c1 _ b

theorem State.stackFaulted_stackFault (s : State) (b : Bool) : s.StackFaulted (s.stackFault b) b :=
  .intro (.refl _) (s.stackFault_c1 b)

/-! ### The stack -/

theorem State.Popped.zero {s t : State} (ht : t.top = s.top) (hr : ∀ k, t.reg k = s.reg k)
    (hg : ∀ k, t.tag k = s.tag k) : s.Popped t 0 :=
  ⟨by simp [ht], hr, fun k => by simp [hg]⟩

theorem State.popped_popN (s : State) (n : Nat) (hn : n ≤ 2) : s.Popped (s.popN n) n := by
  have h3 : ∀ k t : Idx, (k - t).toNat < 0 ↔ False := by simp
  have h1 : ∀ k t : Idx, (k - t).toNat < 1 ↔ k = t := by decide
  have h2 : ∀ k t : Idx, (k - t).toNat < 2 ↔ (k = t + 1 ∨ k = t) := by decide
  match n, hn with
  | 0, _ => exact .zero rfl (fun _ => rfl) fun _ => rfl
  | 1, _ =>
    refine ⟨s.pop_top, fun _ => rfl, fun k => ?_⟩
    rw [State.popN, State.popN, State.pop_tag]
    simp only [h1]
  | 2, _ =>
    refine ⟨?_, fun _ => rfl, fun k => ?_⟩
    · show s.pop.pop.top = _
      rw [State.pop_top, State.pop_top]
      generalize s.top = t
      revert t; decide
    · rw [State.popN, State.popN, State.popN, State.pop_tag, State.pop_tag, State.pop_top]
      simp only [h2]
      by_cases ha : k = s.top + 1#3 <;> simp [ha]

/-- The stack part of `Pushed`, through operations that leave registers, tags and TOP alone. -/
theorem State.Pushed.of_eq {s t u : State} {x : Ext} (h : s.Pushed t x) (ht : u.top = t.top)
    (hr : ∀ k, u.reg k = t.reg k) (hg : ∀ k, u.tag k = t.tag k) : s.Pushed u x :=
  ⟨ht.trans h.top, fun k => (hr k).trans (h.value k), fun k => (hg k).trans (h.tag k)⟩

theorem State.Wrote.of_eq {s t u : State} {d : Idx} {b : Bool} {x : Ext} (h : s.Wrote t d b x) (ht : u.top = t.top)
    (hr : ∀ k, u.reg k = t.reg k) (hg : ∀ k, u.tag k = t.tag k) : s.Wrote u d b x :=
  ⟨ht.trans h.top, fun k => (hr k).trans (h.value k), fun k => (hg k).trans (h.tag k)⟩

theorem State.Popped.of_eq {s t u : State} {n : Nat} (h : s.Popped t n) (ht : u.top = t.top)
    (hr : ∀ k, u.reg k = t.reg k) (hg : ∀ k, u.tag k = t.tag k) : s.Popped u n :=
  ⟨ht.trans h.top, fun k => (hr k).trans (h.value k), fun k => (hg k).trans (h.tag k)⟩

theorem State.popped_self (s : State) : s.Popped s 0 := .zero rfl (fun _ => rfl) fun _ => rfl

/-- A write to ST(d) and a pop, after operations that leave registers, tags and TOP alone. -/
theorem State.wrote_of_setST {s t u : State} {d : Idx} {b : Bool} {x : Ext} (ht : t.top = s.top)
    (hr : ∀ k, t.reg k = s.reg k) (hg : ∀ k, t.tag k = s.tag k) (hu : u.top = t.top)
    (hur : ∀ k, u.reg k = (t.setST d x).reg k) (hug : ∀ k, u.tag k = (t.setST d x).tag k) :
    s.Wrote (u.popIf b) d b x := by
  have hp : t.phys d = s.phys d := by rw [State.phys, State.phys, ht]
  cases b with
  | false =>
    refine ⟨hu.trans ht, fun k => ?_, fun k => ?_⟩
    · rw [State.popIf, if_neg (by simp), hur, State.setST_reg, hp, hr]
    · rw [State.popIf, if_neg (by simp), hug, State.setST_tag, hp, hg]; simp
  | true =>
    refine ⟨?_, fun k => ?_, fun k => ?_⟩
    · simp [State.popIf, hu, ht]
    · rw [State.popIf, if_pos rfl, State.pop_reg, hur, State.setST_reg, hp, hr]
    · rw [State.popIf, if_pos rfl, State.pop_tag, hug, State.setST_tag, hp, hg, hu, ht]; simp

/-! ### Loads -/

/-- A push of what a load answers. -/
theorem loadReplied_room {s : State} (h : s.Room) (r : Reply Ext) :
    match r.value with
    | some x => s.Pushed (loadReplied r s) x ∧ s.Signals (loadReplied r s) r.flags false
    | none => s.Popped (loadReplied r s) 0 ∧ s.Signals (loadReplied r s) r.flags s.c1 := by
  rw [loadReplied, if_neg (by rw [show s.pushFull = false from h]; simp)]
  cases r.value with
  | none => exact ⟨.zero (by simp) (by simp) (by simp), s.signals_signalAll _⟩
  | some x =>
    exact ⟨⟨by simp, fun k => by simp, fun k => by simp⟩,
      .intro (((State.SameFlags.push _ _).trans (.setC1 _ _)).trans (.drawCodes _)) (by simp)⟩

/-- A push of an indefinite after a stack fault. -/
theorem pushFault (s : State) (b : Bool) :
    s.StackFaulted (s.onStackFault b fun t => (t.push indef80).drawCodes) b ∧
      if s.masked .i = true then s.Pushed (s.onStackFault b fun t => (t.push indef80).drawCodes) indef80
      else s.Popped (s.onStackFault b fun t => (t.push indef80).drawCodes) 0 := by
  rw [State.onStackFault_eq]
  split
  · exact ⟨.intro ((State.SameFlags.push _ _).trans (.drawCodes _)) (by simp),
      ⟨by simp, fun k => by simp, fun k => by simp⟩⟩
  · exact ⟨s.stackFaulted_stackFault b, .zero (by simp) (by simp) (by simp)⟩

/-- A push onto a full register (40_numerics.md R240). -/
theorem loadReplied_full {s : State} (h : s.pushFull = true) (r : Reply Ext) :
    s.StackFaulted (loadReplied r s) true ∧
      if s.masked .i = true then s.Pushed (loadReplied r s) indef80 else s.Popped (loadReplied r s) 0 := by
  rw [loadReplied, if_pos h]
  exact pushFault s true

/-! ### Writes of a result -/

/-- What a computing instruction does with the answer of its operation. -/
theorem writeReplied_outcome (d : Idx) (pop : Bool) (r : Reply Written) (s : State) :
    s.Outcome (writeReplied d pop r s) d pop r := by
  unfold State.Outcome writeReplied
  cases r.value with
  | none => exact ⟨.zero (by simp) (by simp) (by simp), s.signals_signalAll _⟩
  | some w =>
    exact ⟨State.wrote_of_setST (t := s.signalAll r.flags) (by simp) (by simp) (by simp) (by simp) (by simp) (by simp),
      .intro ((((State.SameFlags.setST _ _ _).trans (.setC1 _ _)).trans (.drawCodes _)).trans (.popIf _ _)) (by simp)⟩

/-- A stack underflow of a computing instruction (60_exceptions.md R526). -/
theorem underflow_faulted (d : Idx) (pop : Bool) (s : State) :
    s.StackFaulted (underflow d pop s) false ∧
      if s.masked .i = true then s.Wrote (underflow d pop s) d pop indef80 else s.Popped (underflow d pop s) 0 := by
  rw [underflow, State.onStackFault_eq]
  split
  · exact ⟨.intro (((State.SameFlags.setST _ _ _).trans (.drawCodes _)).trans (.popIf _ _)) (by simp),
      State.wrote_of_setST (t := s.stackFault false) (by simp) (by simp) (by simp) (by simp) (by simp) (by simp)⟩
  · exact ⟨s.stackFaulted_stackFault false, .zero (by simp) (by simp) (by simp)⟩

/-- A pop if asked, after operations that leave registers, tags and TOP alone. -/
theorem State.popped_popIf {s t : State} (ht : t.top = s.top) (hr : ∀ k, t.reg k = s.reg k)
    (hg : ∀ k, t.tag k = s.tag k) (b : Bool) : s.Popped (t.popIf b) (if b then 1 else 0) := by
  cases b with
  | false => exact .zero ht hr hg
  | true =>
    have h := t.popped_popN 1 (by decide)
    refine ⟨?_, fun k => ?_, fun k => ?_⟩
    · exact h.top.trans (by rw [ht]; rfl)
    · exact (h.value k).trans (hr k)
    · exact (h.tag k).trans (by rw [ht, hg]; rfl)

/-! ### Stores and moves -/

@[simp] theorem State.write_sw (s : State) (a : Word32) (n v : Nat) : (s.write a n v).sw = s.sw := rfl
@[simp] theorem State.write_cw (s : State) (a : Word32) (n v : Nat) : (s.write a n v).cw = s.cw := rfl
@[simp] theorem State.write_tw (s : State) (a : Word32) (n v : Nat) : (s.write a n v).tw = s.tw := rfl
@[simp] theorem State.write_regs (s : State) (a : Word32) (n v : Nat) : (s.write a n v).regs = s.regs := rfl
@[simp] theorem State.write_top (s : State) (a : Word32) (n v : Nat) : (s.write a n v).top = s.top := rfl
@[simp] theorem State.write_reg (s : State) (a : Word32) (n v : Nat) (k : Idx) : (s.write a n v).reg k = s.reg k := rfl
@[simp] theorem State.write_tag (s : State) (a : Word32) (n v : Nat) (k : Idx) : (s.write a n v).tag k = s.tag k := rfl
@[simp] theorem State.write_masked (s : State) (a : Word32) (n v : Nat) (x : Exc) :
    (s.write a n v).masked x = s.masked x := rfl

/-- Carrying out a conversion to memory (40_numerics.md R225 to R230). -/
theorem storeReplied_effect (a : Word32) {n : Nat} (hn : n ≤ 2 ^ 32) (pop : Bool) (r : StoreReply) (s : State) :
    s.SameMemoryBut (storeReplied a n pop r s) a n ∧
      match r.action with
      | .store v c => (storeReplied a n pop r s).read a n = v % 256 ^ n ∧
          s.Popped (storeReplied a n pop r s) (if pop then 1 else 0) ∧
          s.Signals (storeReplied a n pop r s) r.flags c
      | .abandonBefore => s.SameMemory (storeReplied a n pop r s) ∧ s.Popped (storeReplied a n pop r s) 0 ∧
          s.Signals (storeReplied a n pop r s) r.flags s.c1
      | .abandonAfter => s.SameMemory (storeReplied a n pop r s) ∧ s.Popped (storeReplied a n pop r s) 0 ∧
          s.Signals (storeReplied a n pop r s) r.flags s.c1 := by
  unfold storeReplied
  cases r.action with
  | store v c =>
    have hm : ((((((s.signalAll r.flags).write a n v).setC1 c).drawCodes).popIf pop)).mem =
        ((s.signalAll r.flags).write a n v).mem := by simp
    refine ⟨fun b hb => ?_, ?_, ?_, ?_⟩
    · rw [hm, write_outside _ _ _ _ _ hb, State.signalAll_mem]
    · rw [← read_write (s.signalAll r.flags) a n v hn, State.read, State.read, hm]
    · exact State.popped_popIf (by simp) (by simp) (by simp) pop
    · exact .intro ((((State.SameFlags.of_sw (t := (s.signalAll r.flags).write a n v) rfl).trans (.setC1 _ _)).trans
        (.drawCodes _)).trans (.popIf _ _)) (by simp)
  | abandonBefore =>
    exact ⟨fun b _ => by simp, fun b => by simp, .zero (by simp) (by simp) (by simp), s.signals_signalAll _⟩
  | abandonAfter =>
    exact ⟨fun b _ => by simp, fun b => by simp, .zero (by simp) (by simp) (by simp),
      .intro (.drawCodes _) (by simp)⟩

/-- A store of ST(0) that holds a value. -/
theorem storeTop_full (a : Word32) (n : Nat) (pop : Bool) (e : Nat) (f : Ext → StoreReply) {s : State} (h : s.Full 0) :
    storeTop a n pop e f s = storeReplied a n pop (f (s.st 0)) s := by
  rw [storeTop, if_neg (by rw [show s.isEmpty 0 = false from h]; simp)]

/-- A store of an empty ST(0) (40_numerics.md R231). -/
theorem storeTop_empty (a : Word32) {n : Nat} (hn : n ≤ 2 ^ 32) (pop : Bool) (e : Nat) (f : Ext → StoreReply) {s : State}
    (h : s.isEmpty 0 = true) :
    s.SameMemoryBut (storeTop a n pop e f s) a n ∧ s.StackFaulted (storeTop a n pop e f s) false ∧
      if s.masked .i = true then
        (storeTop a n pop e f s).read a n = e % 256 ^ n ∧ s.Popped (storeTop a n pop e f s) (if pop then 1 else 0)
      else s.SameMemory (storeTop a n pop e f s) ∧ s.Popped (storeTop a n pop e f s) 0 := by
  rw [storeTop, if_pos h, State.onStackFault_eq]
  split
  · have hm : ((((s.stackFault false).write a n e).drawCodes).popIf pop).mem =
        ((s.stackFault false).write a n e).mem := by simp
    refine ⟨fun b hb => ?_, ?_, ?_, ?_⟩
    · rw [hm, write_outside _ _ _ _ _ hb, State.stackFault_mem]
    · exact .intro (((State.SameFlags.of_sw (t := (s.stackFault false).write a n e) rfl).trans (.drawCodes _)).trans
        (.popIf _ _)) (by simp)
    · rw [← read_write (s.stackFault false) a n e hn, State.read, State.read, hm]
    · exact State.popped_popIf (by simp) (by simp) (by simp) pop
  · exact ⟨fun b _ => by simp, s.stackFaulted_stackFault false, fun b => by simp,
      .zero (by simp) (by simp) (by simp)⟩

/-- FST ST(i) and FSTP ST(i). -/
theorem storeStack_full (i : Idx) (pop : Bool) {s : State} (h : s.Full 0) :
    s.Wrote (storeStack i pop s) i pop (s.st 0) ∧ s.Signals (storeStack i pop s) [] false := by
  rw [storeStack, if_neg (by rw [show s.isEmpty 0 = false from h]; simp)]
  exact ⟨State.wrote_of_setST (t := s) rfl (fun _ => rfl) (fun _ => rfl) (by simp) (by simp) (by simp),
    .none ((((State.SameFlags.setST _ _ _).trans (.setC1 _ _)).trans (.drawCodes _)).trans (.popIf _ _)) (by simp)⟩

/-- FST ST(i) and FSTP ST(i) of an empty ST(0). -/
theorem storeStack_empty (i : Idx) (pop : Bool) {s : State} (h : s.isEmpty 0 = true) :
    s.StackFaulted (storeStack i pop s) false ∧
      if s.masked .i = true then s.Wrote (storeStack i pop s) i pop indef80 else s.Popped (storeStack i pop s) 0 := by
  rw [storeStack, if_pos h]
  exact underflow_faulted i pop s

theorem exchange_reg (s : State) (i k : Idx) (a b : Ext) :
    (exchange i a b s).reg k = if k = s.phys i then a else if k = s.phys 0 then b else s.reg k := by
  rw [exchange, State.setST_reg, State.setST_reg]; rfl

theorem exchange_tag (s : State) (i k : Idx) (a b : Ext) :
    (exchange i a b s).tag k = if k = s.phys i then tagOf a else if k = s.phys 0 then tagOf b else s.tag k := by
  rw [exchange, State.setST_tag, State.setST_tag]; rfl

@[simp] theorem exchange_top (s : State) (i : Idx) (a b : Ext) : (exchange i a b s).top = s.top := rfl

@[simp] theorem exchange_c1 (s : State) (i : Idx) (a b : Ext) : (exchange i a b s).c1 = s.c1 := rfl

/-- FXCH of two registers that hold values (41_data_transfer.md R274). -/
theorem exchangeTop_full (i : Idx) {s : State} (h0 : s.Full 0) (hi : s.Full i) :
    s.Signals (exchangeTop i s) [] false ∧ (exchangeTop i s).top = s.top ∧
      ∀ k, (exchangeTop i s).reg k = (if k = s.phys i then s.st 0 else if k = s.phys 0 then s.st i else s.reg k) ∧
        (exchangeTop i s).tag k =
          (if k = s.phys i then tagOf (s.st 0) else if k = s.phys 0 then tagOf (s.st i) else s.tag k) := by
  rw [exchangeTop, if_neg (by rw [show s.isEmpty 0 = false from h0, show s.isEmpty i = false from hi]; simp)]
  refine ⟨.none (((State.SameFlags.of_sw (t := exchange i (s.st 0) (s.st i) s) rfl).trans (.setC1 _ _)).trans
    (.drawCodes _)) (by simp), by simp, fun k => ⟨?_, ?_⟩⟩
  · simp [exchange_reg]
  · simp [exchange_tag]

/-- FXCH with an empty register (41_data_transfer.md R274). -/
theorem exchangeTop_empty (i : Idx) {s : State} (h : s.isEmpty 0 = true ∨ s.isEmpty i = true) :
    s.StackFaulted (exchangeTop i s) false ∧ (exchangeTop i s).top = s.top ∧
      if s.masked .i = true then
        ∀ k, (exchangeTop i s).reg k =
            (if k = s.phys i then exchangeValue s 0 else if k = s.phys 0 then exchangeValue s i else s.reg k) ∧
          (exchangeTop i s).tag k =
            (if k = s.phys i then tagOf (exchangeValue s 0) else if k = s.phys 0 then tagOf (exchangeValue s i)
            else s.tag k)
      else s.Popped (exchangeTop i s) 0 := by
  rw [exchangeTop, if_pos (by rw [Bool.or_eq_true]; exact h), State.onStackFault_eq]
  split
  · refine ⟨.intro ((State.SameFlags.of_sw (t := exchange i (exchangeValue s 0) (exchangeValue s i) (s.stackFault false))
      rfl).trans (.drawCodes _)) (by simp), by simp, fun k => ⟨?_, ?_⟩⟩
    · simp [exchange_reg, State.phys]
    · simp [exchange_tag, State.phys]
  · exact ⟨s.stackFaulted_stackFault false, by simp, .zero (by simp) (by simp) (by simp)⟩

/-- FCMOVcc of two registers that hold values (41_data_transfer.md R275). -/
theorem moveIf_full (c : Bool) (i : Idx) {s : State} (h0 : s.Full 0) (hi : s.Full i) :
    s.Signals (moveIf c i s) [] false ∧
      if c = true then s.Wrote (moveIf c i s) 0 false (s.st i) else s.Popped (moveIf c i s) 0 := by
  rw [moveIf, if_neg (by rw [show s.isEmpty 0 = false from h0, show s.isEmpty i = false from hi]; simp)]
  cases c with
  | false =>
    exact ⟨.none (((State.SameFlags.refl s).trans (.setC1 _ _)).trans (.drawCodes _)) (by simp),
      .zero (by simp) (by simp) (by simp)⟩
  | true =>
    exact ⟨.none (((State.SameFlags.setST _ _ _).trans (.setC1 _ _)).trans (.drawCodes _)) (by simp),
      State.wrote_of_setST (b := false) (t := s) (u := ((s.setST 0 (s.st i)).setC1 false).drawCodes) rfl (fun _ => rfl)
        (fun _ => rfl) (by simp) (by simp) (by simp)⟩

/-- FCMOVcc with an empty register (41_data_transfer.md R275). -/
theorem moveIf_empty (c : Bool) (i : Idx) {s : State} (h : s.isEmpty 0 = true ∨ s.isEmpty i = true) :
    s.StackFaulted (moveIf c i s) false ∧
      if s.masked .i = true then s.Wrote (moveIf c i s) 0 false indef80 else s.Popped (moveIf c i s) 0 := by
  rw [moveIf, if_pos (by rw [Bool.or_eq_true]; exact h)]
  exact underflow_faulted 0 false s

/-! ### Condition codes -/

/-- The bits of the status word outside TOP, C1 and a set of codes decide the condition codes. -/
theorem State.codes_of_bits {s t : State} (h : ∀ n, n = c0Bit ∨ n = c2Bit ∨ n = c3Bit → t.sw.getLsbD n = s.sw.getLsbD n) :
    t.codes = s.codes := by
  simp only [State.codes, State.c3, State.c2, State.c0, h c3Bit (by simp), h c2Bit (by simp), h c0Bit (by simp)]

@[simp] theorem State.setCodes_codes (s : State) (a b c : Bool) : (s.setCodes a b c).codes = (a, b, c) := by
  simp only [State.codes, State.c3, State.c2, State.c0, State.setCodes, State.putSw_bit]
  simp [c0Bit, c2Bit, c3Bit]

@[simp] theorem State.setC1_codes (s : State) (b : Bool) : (s.setC1 b).codes = s.codes :=
  State.codes_of_bits fun n hn => by
    rw [State.setC1, State.putSw_bit, if_neg]; rintro ⟨rfl, -⟩; revert hn; decide

@[simp] theorem State.pop_codes (s : State) : s.pop.codes = s.codes :=
  State.codes_of_bits fun n hn => s.pop_bit n (by unfold c0Bit c2Bit c3Bit at hn; omega)

@[simp] theorem State.popN_codes (s : State) (n : Nat) : (s.popN n).codes = s.codes := by
  induction n generalizing s with
  | zero => rfl
  | succ n ih => exact (ih s.pop).trans s.pop_codes

@[simp] theorem State.signalAll_codes (s : State) (xs : List Exc) : (s.signalAll xs).codes = s.codes :=
  State.codes_of_bits fun n hn => by
    unfold c0Bit c2Bit c3Bit at hn
    rw [State.signalAll_bit, any_bit_above _ (by omega)]
    have h1 : (n == esBit) = false := by rw [beq_eq_false_iff_ne]; unfold esBit; omega
    have h2 : (n == busyBit) = false := by rw [beq_eq_false_iff_ne]; unfold busyBit; omega
    simp [h1, h2]

@[simp] theorem State.stackFault_codes (s : State) (b : Bool) : (s.stackFault b).codes = s.codes := by
  rw [State.stackFault, State.setC1_codes]
  refine (State.codes_of_bits fun n hn => ?_).trans (s.signalAll_codes [.i])
  rw [State.putSw_bit, if_neg]
  · rfl
  · rintro ⟨rfl, -⟩; revert hn; decide

/-- Several pops, after operations that leave registers, tags and TOP alone. -/
theorem State.popped_popN_of {s t : State} (ht : t.top = s.top) (hr : ∀ k, t.reg k = s.reg k)
    (hg : ∀ k, t.tag k = s.tag k) {n : Nat} (hn : n ≤ 2) : s.Popped (t.popN n) n := by
  have h := t.popped_popN n hn
  exact ⟨h.top.trans (by rw [ht]), fun k => (h.value k).trans (hr k), fun k => (h.tag k).trans (by rw [ht, hg])⟩

/-! ### Comparisons -/

/-- A comparison into the condition codes, its operands not empty (44_comparison.md R383). -/
theorem compareInto_codes (quiet testD : Bool) {n : Nat} (hn : n ≤ 2) (a b : Operand) (s : State) :
    match (compare s.cw quiet testD a b).value with
    | some r => (compareInto .codes quiet testD n false a b s).codes = r.codes ∧
        s.Popped (compareInto .codes quiet testD n false a b s) n ∧
        s.Signals (compareInto .codes quiet testD n false a b s) (compare s.cw quiet testD a b).flags false
    | none => (compareInto .codes quiet testD n false a b s).codes = s.codes ∧
        s.Popped (compareInto .codes quiet testD n false a b s) 0 ∧
        s.Signals (compareInto .codes quiet testD n false a b s) (compare s.cw quiet testD a b).flags s.c1 := by
  unfold compareInto
  rw [if_neg (by simp)]
  cases (compare s.cw quiet testD a b).value with
  | none => exact ⟨by simp, .zero (by simp) (by simp) (by simp), s.signals_signalAll _⟩
  | some r =>
    refine ⟨?_, ?_, ?_⟩
    · simp only [State.popN_codes, State.setC1_codes, writeRelation, State.setCodes_codes]
    · exact State.popped_popN_of (by simp [writeRelation]) (by simp [writeRelation]) (by simp [writeRelation]) hn
    · exact .intro (((State.SameFlags.setCodes _ _ _ _).trans (.setC1 _ _)).trans (.popN _ _)) (by simp)

/-- A comparison into the condition codes with an empty operand (44_comparison.md R383 step 1). -/
theorem compareInto_codes_empty (quiet testD : Bool) {n : Nat} (hn : n ≤ 2) (a b : Operand) (s : State) :
    s.StackFaulted (compareInto .codes quiet testD n true a b s) false ∧
      if s.masked .i = true then (compareInto .codes quiet testD n true a b s).codes = (true, true, true) ∧
        s.Popped (compareInto .codes quiet testD n true a b s) n
      else (compareInto .codes quiet testD n true a b s).codes = s.codes ∧
        s.Popped (compareInto .codes quiet testD n true a b s) 0 := by
  unfold compareInto
  rw [if_pos rfl, State.onStackFault_eq]
  split
  · refine ⟨.intro ((State.SameFlags.setCodes _ _ _ _).trans (.popN _ _)) (by simp [writeRelation]), ?_, ?_⟩
    · simp only [State.popN_codes, writeRelation, State.setCodes_codes]; rfl
    · exact State.popped_popN_of (by simp [writeRelation]) (by simp [writeRelation]) (by simp [writeRelation]) hn
  · exact ⟨s.stackFaulted_stackFault false, by simp, .zero (by simp) (by simp) (by simp)⟩

@[simp] theorem State.setHostFlags_top (s : State) (a b c : Bool) : (s.setHostFlags a b c).top = s.top := rfl
@[simp] theorem State.setHostFlags_reg (s : State) (a b c : Bool) (k : Idx) : (s.setHostFlags a b c).reg k = s.reg k := rfl
@[simp] theorem State.setHostFlags_c1 (s : State) (a b c : Bool) : (s.setHostFlags a b c).c1 = s.c1 := rfl
@[simp] theorem State.setHostFlags_tag (s : State) (a b c : Bool) (k : Idx) : (s.setHostFlags a b c).tag k = s.tag k := rfl

/-- What stays beyond the stack keeps the host's flags. -/
theorem State.hostFlags_of_beyondStack {s t : State} (h : t.beyondStack = s.beyondStack) :
    (t.zf, t.pf, t.cf) = (s.zf, s.pf, s.cf) :=
  (congrArg (fun u : State => (u.zf, u.pf, u.cf)) h :)

/-- A comparison into EFLAGS, its operands not empty (44_comparison.md R383). -/
theorem compareInto_eflags (quiet testD : Bool) {n : Nat} (hn : n ≤ 2) (a b : Operand) (s : State) :
    match (compare s.cw quiet testD a b).value with
    | some r => ((compareInto .eflags quiet testD n false a b s).zf, (compareInto .eflags quiet testD n false a b s).pf,
          (compareInto .eflags quiet testD n false a b s).cf) = r.codes ∧
        s.Popped (compareInto .eflags quiet testD n false a b s) n ∧
        s.Signals (compareInto .eflags quiet testD n false a b s) (compare s.cw quiet testD a b).flags false
    | none => ((compareInto .eflags quiet testD n false a b s).zf, (compareInto .eflags quiet testD n false a b s).pf,
          (compareInto .eflags quiet testD n false a b s).cf) = (s.zf, s.pf, s.cf) ∧
        s.Popped (compareInto .eflags quiet testD n false a b s) 0 ∧
        s.Signals (compareInto .eflags quiet testD n false a b s) (compare s.cw quiet testD a b).flags s.c1 := by
  unfold compareInto
  rw [if_neg (by simp)]
  cases (compare s.cw quiet testD a b).value with
  | none =>
    exact ⟨State.hostFlags_of_beyondStack (OnStack.signalAll s _).beyond, .zero (by simp) (by simp) (by simp),
      s.signals_signalAll _⟩
  | some r =>
    refine ⟨?_, ?_, ?_⟩
    · exact State.hostFlags_of_beyondStack (s := (s.signalAll _).setHostFlags r.codes.1 r.codes.2.1 r.codes.2.2)
        (((OnStack.drawCodes _).trans (OnStack.setC1 _ _)).trans (OnStack.popN _ _)).beyond
    · exact State.popped_popN_of (by simp [writeRelation]) (by simp [writeRelation]) (by simp [writeRelation]) hn
    · exact .intro ((((State.SameFlags.of_sw (t := (s.signalAll _).setHostFlags _ _ _) rfl).trans (.drawCodes _)).trans
        (.setC1 _ _)).trans (.popN _ _)) (by simp)

/-- A comparison into EFLAGS with an empty operand (44_comparison.md R383 step 1). -/
theorem compareInto_eflags_empty (quiet testD : Bool) {n : Nat} (hn : n ≤ 2) (a b : Operand) (s : State) :
    s.StackFaulted (compareInto .eflags quiet testD n true a b s) false ∧
      if s.masked .i = true then ((compareInto .eflags quiet testD n true a b s).zf,
          (compareInto .eflags quiet testD n true a b s).pf, (compareInto .eflags quiet testD n true a b s).cf) =
            (true, true, true) ∧ s.Popped (compareInto .eflags quiet testD n true a b s) n
      else ((compareInto .eflags quiet testD n true a b s).zf, (compareInto .eflags quiet testD n true a b s).pf,
          (compareInto .eflags quiet testD n true a b s).cf) = (s.zf, s.pf, s.cf) ∧
        s.Popped (compareInto .eflags quiet testD n true a b s) 0 := by
  unfold compareInto
  rw [if_pos rfl, State.onStackFault_eq]
  split
  · refine ⟨.intro (((State.SameFlags.of_sw (t := (s.stackFault _).setHostFlags _ _ _) rfl).trans (.drawCodes _)).trans
      (.popN _ _)) (by simp [writeRelation]), ?_, ?_⟩
    · exact State.hostFlags_of_beyondStack (s := (s.stackFault _).setHostFlags true true true)
        ((OnStack.drawCodes _).trans (OnStack.popN _ _)).beyond
    · exact State.popped_popN_of (by simp [writeRelation]) (by simp [writeRelation]) (by simp [writeRelation]) hn
  · exact ⟨s.stackFaulted_stackFault false, State.hostFlags_of_beyondStack (OnStack.stackFault s _).beyond,
      .zero (by simp) (by simp) (by simp)⟩

/-- FXAM (44_comparison.md R397). -/
theorem examineTop_effect (s : State) :
    (examineTop s).codes = (if s.isEmpty 0 then (true, false, true) else examineCodes (s.st 0)) ∧
      (examineTop s).c1 = signOf (s.st 0) ∧ s.SameFlags (examineTop s) ∧ s.SameRegisters (examineTop s) ∧
      (examineTop s).top = s.top := by
  unfold examineTop
  refine ⟨by simp only [State.setC1_codes, State.setCodes_codes], State.setC1_c1 _ _,
    (State.SameFlags.setCodes _ _ _ _).trans (.setC1 _ _), ⟨fun k => by simp, fun k => by simp⟩, by simp⟩

/-! ### Remainder, extract, trigonometry -/

@[simp] theorem State.setC1_c2 (s : State) (b : Bool) : (s.setC1 b).c2 = s.c2 :=
  (State.putSw_bit s c1Bit b c2Bit).trans (if_neg (by decide))

@[simp] theorem State.drawC1_c2 (s : State) : s.drawC1.c2 = s.c2 :=
  (State.putSw_bit s c1Bit _ c2Bit).trans (if_neg (by decide))

@[simp] theorem State.putSw_c2 (s : State) (b : Bool) : (s.putSw c2Bit b).c2 = b :=
  (State.putSw_bit s c2Bit b c2Bit).trans (if_pos (by decide))

theorem remCodes_same (c : RemCodes) (s : State) :
    s.SameFlags (remCodes c s) ∧ s.SameRegisters (remCodes c s) ∧ (remCodes c s).top = s.top := by
  cases c with
  | complete q =>
    exact ⟨(State.SameFlags.setCodes _ _ _ _).trans (.setC1 _ _), ⟨by simp [remCodes], by simp [remCodes]⟩, by simp [remCodes]⟩
  | incomplete =>
    exact ⟨((State.SameFlags.drawC03 _).trans (.putSw _ _ _ (by decide))).trans (.drawC1 _),
      ⟨by simp [remCodes], by simp [remCodes]⟩, (State.drawC1_top _).trans ((State.putSw_top _ _ _ (by decide)).trans (by simp))⟩
  | invalid =>
    exact ⟨((State.SameFlags.drawC03 _).trans (.putSw _ _ _ (by decide))).trans (.setC1 _ _),
      ⟨by simp [remCodes], by simp [remCodes]⟩, (State.setC1_top _ _).trans ((State.putSw_top _ _ _ (by decide)).trans (by simp))⟩
  | nan =>
    exact ⟨(State.SameFlags.drawCodes _).trans (.setC1 _ _), ⟨by simp [remCodes], by simp [remCodes]⟩, by simp [remCodes]⟩

/-- The codes of a complete remainder (43_basic_arithmetic.md R360). -/
theorem remCodes_complete (q : Nat) (s : State) :
    (remCodes (.complete q) s).codes = (q.testBit 1, false, q.testBit 2) ∧ (remCodes (.complete q) s).c1 = q.testBit 0 :=
  ⟨by simp only [remCodes, State.setC1_codes, State.setCodes_codes], State.setC1_c1 _ _⟩

/-- The codes of an invalid remainder (log 18). -/
theorem remCodes_invalid (s : State) : (remCodes .invalid s).c2 = false ∧ (remCodes .invalid s).c1 = false :=
  ⟨by rw [remCodes, State.setC1_c2, State.putSw_c2], State.setC1_c1 _ _⟩

/-- What FPREM and FPREM1 do with the answer of the remainder. -/
theorem remReplied_effect (r : Reply Remainder) (s : State) :
    match r.value with
    | some w => s.Wrote (remReplied r s) 0 false w.value ∧
        s.Signals (remReplied r s) r.flags (remReplied r s).c1 ∧
        remReplied r s = remCodes w.codes ((s.signalAll r.flags).setST 0 w.value)
    | none => s.Popped (remReplied r s) 0 ∧ s.Signals (remReplied r s) r.flags s.c1 := by
  unfold remReplied
  cases r.value with
  | none => exact ⟨.zero (by simp) (by simp) (by simp), s.signals_signalAll _⟩
  | some w =>
    obtain ⟨hf, hr, ht⟩ := remCodes_same w.codes ((s.signalAll r.flags).setST 0 w.value)
    exact ⟨State.wrote_of_setST (b := false) (t := s.signalAll r.flags)
      (u := remCodes w.codes ((s.signalAll r.flags).setST 0 w.value)) (by simp) (by simp) (by simp) ht
      hr.value hr.tag, .intro hf rfl, rfl⟩

theorem writePair_top (x y : Ext) (s : State) : (writePair x y s).top = s.top - 1 := by simp [writePair]

/-- The registers after a pair of results: the second is the new ST(0), the first ST(1). -/
theorem writePair_reg (x y : Ext) (s : State) (k : Idx) :
    (writePair x y s).reg k = if k = s.top - 1 then y else if k = s.top then x else s.reg k := by
  simp [writePair, State.phys]

theorem writePair_tag (x y : Ext) (s : State) (k : Idx) :
    (writePair x y s).tag k = if k = s.top - 1 then tagOf y else if k = s.top then tagOf x else s.tag k := by
  simp [writePair, State.phys]

theorem writePair_same (x y : Ext) (s : State) : s.SameFlags (writePair x y s) :=
  (State.SameFlags.setST _ _ _).trans (.push _ _)

theorem State.wrotePair_of {s t u : State} {x y : Ext} (ht : t.top = s.top) (hr : ∀ k, t.reg k = s.reg k)
    (hg : ∀ k, t.tag k = s.tag k) (hu : u.top = (writePair x y t).top) (hur : ∀ k, u.reg k = (writePair x y t).reg k)
    (hug : ∀ k, u.tag k = (writePair x y t).tag k) : s.WrotePair u x y :=
  ⟨by rw [hu, writePair_top, ht], fun k => by rw [hur, writePair_reg, ht, hr],
    fun k => by rw [hug, writePair_tag, ht, hg]⟩

/-- The stack fault of an instruction that writes ST(0) and pushes: `f` may only leave condition codes besides. -/
theorem pairFaulted (overflow : Bool) (f : State → State) (s : State)
    (hf : ∀ t, t.SameFlags (f t) ∧ (f t).c1 = t.c1 ∧ (f t).top = t.top ∧ (∀ k, (f t).reg k = t.reg k) ∧
      ∀ k, (f t).tag k = t.tag k) :
    s.StackFaulted (s.onStackFault overflow fun t => f (writePair indef80 indef80 t)) overflow ∧
      if s.masked .i = true then
        s.WrotePair (s.onStackFault overflow fun t => f (writePair indef80 indef80 t)) indef80 indef80
      else s.Popped (s.onStackFault overflow fun t => f (writePair indef80 indef80 t)) 0 := by
  rw [State.onStackFault_eq]
  split
  · obtain ⟨h1, h2, h3, h4, h5⟩ := hf (writePair indef80 indef80 (s.stackFault overflow))
    exact ⟨.intro ((writePair_same _ _ _).trans h1) (by rw [h2]; simp [writePair]),
      State.wrotePair_of (t := s.stackFault overflow) (by simp) (by simp) (by simp) h3 h4 h5⟩
  · exact ⟨s.stackFaulted_stackFault overflow, .zero (by simp) (by simp) (by simp)⟩

/-- The stack fault of FXTRACT (43_basic_arithmetic.md R366). -/
theorem pairFault_effect (overflow : Bool) (s : State) :
    s.StackFaulted (pairFault overflow s) overflow ∧
      if s.masked .i = true then s.WrotePair (pairFault overflow s) indef80 indef80
      else s.Popped (pairFault overflow s) 0 :=
  pairFaulted overflow State.drawCodes s fun t => ⟨.drawCodes t, by simp, by simp, by simp, by simp⟩

/-- The stack fault of FSINCOS and FPTAN (45_transcendental.md R432, R433). -/
theorem trigFault_pair (overflow : Bool) (s : State) :
    s.StackFaulted (trigFault overflow (writePair indef80 indef80) s) overflow ∧
      if s.masked .i = true then s.WrotePair (trigFault overflow (writePair indef80 indef80) s) indef80 indef80
      else s.Popped (trigFault overflow (writePair indef80 indef80) s) 0 :=
  pairFaulted overflow (fun u => u.drawC03.putSw c2Bit false) s fun t =>
    ⟨(State.SameFlags.drawC03 t).trans (.putSw _ _ _ (by decide)),
      (State.putSw_c1 _ _ _ (by decide)).trans t.drawC03_c1, (State.putSw_top _ _ _ (by decide)).trans t.drawC03_top,
      by simp, by simp⟩

/-- The stack underflow of FSIN and FCOS (45_transcendental.md R424 step 1). -/
theorem trigFault_top (s : State) :
    s.StackFaulted (trigFault false (fun t => t.setST 0 indef80) s) false ∧
      if s.masked .i = true then s.Wrote (trigFault false (fun t => t.setST 0 indef80) s) 0 false indef80
      else s.Popped (trigFault false (fun t => t.setST 0 indef80) s) 0 := by
  unfold trigFault
  rw [State.onStackFault_eq]
  split
  · refine ⟨.intro ((State.SameFlags.setST _ _ _).trans ((State.SameFlags.drawC03 _).trans (.putSw _ _ _ (by decide))))
      ((State.putSw_c1 _ _ _ (by decide)).trans (by simp)), ?_⟩
    exact State.wrote_of_setST (b := false) (t := s.stackFault false)
      (u := (((s.stackFault false).setST 0 indef80).drawC03.putSw c2Bit false)) (by simp) (by simp) (by simp)
      ((State.putSw_top _ _ _ (by decide)).trans (by simp)) (by simp) (by simp)
  · exact ⟨s.stackFaulted_stackFault false, .zero (by simp) (by simp) (by simp)⟩

/-- FXTRACT of a register that holds a value, with room for the push (43_basic_arithmetic.md R366). -/
theorem extractTop_effect {s : State} (h : s.Full 0) (hp : s.Room) :
    match (extract s.cw (s.st 0)).value with
    | some w => s.WrotePair (extractTop s) w.1 w.2 ∧ s.Signals (extractTop s) (extract s.cw (s.st 0)).flags false
    | none => s.Popped (extractTop s) 0 ∧ s.Signals (extractTop s) (extract s.cw (s.st 0)).flags s.c1 := by
  unfold extractTop
  rw [if_neg (by rw [show s.isEmpty 0 = false from h]; simp), if_neg (by rw [show s.pushFull = false from hp]; simp)]
  cases (extract s.cw (s.st 0)).value with
  | none => exact ⟨.zero (by simp) (by simp) (by simp), s.signals_signalAll _⟩
  | some w =>
    exact ⟨⟨by simp [writePair_top], fun k => by simp [writePair_reg], fun k => by simp [writePair_tag]⟩,
      .intro (((writePair_same _ _ _).trans (.setC1 _ _)).trans (.drawCodes _)) (by simp)⟩

/-- The codes of a trigonometric instruction that completes. -/
theorem trigCodes_same (b : Bool) (s : State) :
    s.SameFlags (trigCodes b s) ∧ s.SameRegisters (trigCodes b s) ∧ (trigCodes b s).top = s.top ∧
      (trigCodes b s).c2 = false ∧ (trigCodes b s).c1 = b :=
  ⟨((State.SameFlags.drawC03 _).trans (.putSw _ _ _ (by decide))).trans (.setC1 _ _),
    ⟨by simp [trigCodes], by simp [trigCodes]⟩, (State.setC1_top _ _).trans ((State.putSw_top _ _ _ (by decide)).trans (by simp)),
    by rw [trigCodes, State.setC1_c2, State.putSw_c2], State.setC1_c1 _ _⟩

/-- An operand out of range: C2 alone (45_transcendental.md R424 step 4). -/
theorem trigOutOfRange_effect (s : State) :
    s.SameRegisters (trigOutOfRange s) ∧ (trigOutOfRange s).c2 = true ∧ s.SameStatusBut (trigOutOfRange s) codeBits := by
  refine ⟨⟨by simp [trigOutOfRange], by simp [trigOutOfRange]⟩, by rw [trigOutOfRange, State.drawC1_c2, State.putSw_c2],
    fun n hn => ?_⟩
  simp only [codeBits, List.mem_cons, List.not_mem_nil, or_false, not_or] at hn
  simp [trigOutOfRange, State.drawC1, State.drawC03, State.putSw_bit, hn]

/-- FSIN and FCOS of an operand in range. -/
theorem trigOne_go (f : Word16 → Ext → Delivered) {s : State} (h : s.Full 0) {b : Bool}
    (hg : trigFront s.cw (s.st 0) = .go b) :
    s.Wrote (trigOne f s) 0 false (f s.cw (s.st 0)).value ∧ (trigOne f s).c2 = false ∧
      s.Signals (trigOne f s) (denormalFlag b ++ (f s.cw (s.st 0)).flags) (f s.cw (s.st 0)).c1 := by
  unfold trigOne
  rw [if_neg (by rw [show s.isEmpty 0 = false from h]; simp), hg]
  obtain ⟨hf, hr, ht, h2, h1⟩ := trigCodes_same (f s.cw (s.st 0)).c1
    ((s.signalAll (denormalFlag b ++ (f s.cw (s.st 0)).flags)).setST 0 (f s.cw (s.st 0)).value)
  exact ⟨State.wrote_of_setST (b := false) (t := s.signalAll (denormalFlag b ++ (f s.cw (s.st 0)).flags))
    (by simp) (by simp) (by simp) ht hr.value hr.tag, h2, .intro hf h1⟩

/-- FSINCOS and FPTAN of an operand in range. -/
theorem trigTwo_go (f g : Word16 → Ext → Delivered) (c : Delivered → Delivered → Bool) {s : State} (h : s.Full 0)
    (hp : s.Room) {b : Bool} (hg : trigFront s.cw (s.st 0) = .go b) :
    (trigTwo f g c s).top = s.top - 1 ∧
      (∀ k, (trigTwo f g c s).reg k = if k = s.top - 1 then (g s.cw (s.st 0)).value
        else if k = s.top then (f s.cw (s.st 0)).value else s.reg k) ∧
      (∀ k, (trigTwo f g c s).tag k = if k = s.top - 1 then tagOf (g s.cw (s.st 0)).value
        else if k = s.top then tagOf (f s.cw (s.st 0)).value else s.tag k) ∧
      (trigTwo f g c s).c2 = false ∧
      s.Signals (trigTwo f g c s) (denormalFlag b ++ ((f s.cw (s.st 0)).flags ++ (g s.cw (s.st 0)).flags))
        (c (f s.cw (s.st 0)) (g s.cw (s.st 0))) := by
  unfold trigTwo
  rw [if_neg (by rw [show s.isEmpty 0 = false from h]; simp), if_neg (by rw [show s.pushFull = false from hp]; simp), hg]
  obtain ⟨hf, hr, ht, h2, h1⟩ := trigCodes_same (c (f s.cw (s.st 0)) (g s.cw (s.st 0)))
    (writePair (f s.cw (s.st 0)).value (g s.cw (s.st 0)).value
      (s.signalAll (denormalFlag b ++ ((f s.cw (s.st 0)).flags ++ (g s.cw (s.st 0)).flags))))
  refine ⟨by rw [ht, writePair_top]; simp, fun k => ?_, fun k => ?_, h2, .intro ((writePair_same _ _ _).trans hf) h1⟩
  · rw [hr.value, writePair_reg]; simp
  · rw [hr.tag, writePair_tag]; simp

/-- What F2XM1 and FYL2XP1 do with the answer of their operation. -/
theorem domainReplied_effect (d : Idx) (pop : Bool) (r : DomainReply) (s : State) :
    match r with
    | .inside q => s.Outcome (domainReplied d pop r s) d pop q
    | .abandoned => s.Popped (domainReplied d pop r s) 0 ∧ s.Signals (domainReplied d pop r s) [.d] s.c1
    | .outside b => s.Wrote (domainReplied d pop r s) d pop (Config.undefResult s.draws) ∧
        s.Signals (domainReplied d pop r s) (denormalFlag b) (domainReplied d pop r s).c1 := by
  cases r with
  | inside q => exact writeReplied_outcome d pop q s
  | abandoned => exact ⟨.zero (by simp [domainReplied]) (by simp [domainReplied]) (by simp [domainReplied]), s.signals_signalAll [.d]⟩
  | outside b =>
    exact ⟨State.wrote_of_setST (t := s.signalAll (denormalFlag b)) (by simp) (by simp) (by simp)
      (by simp) (by simp) (by simp),
      .intro (((State.SameFlags.setST _ _ _).trans (.drawAllCodes _)).trans (.popIf _ _)) rfl⟩

/-! ### Control operations on the stack -/

/-- FINCSTP and FDECSTP. -/
theorem rotate_effect (k : Idx) (s : State) :
    (rotate k s).top = s.top + k ∧ s.SameRegisters (rotate k s) ∧ s.Signals (rotate k s) [] false :=
  ⟨by simp [rotate], ⟨by simp [rotate], by simp [rotate]⟩,
    .none (((State.SameFlags.setTop _ _).trans (.setC1 _ _)).trans (.drawCodes _)) (by simp [rotate])⟩

theorem drawAllCodes_sameStatusBut (s : State) : s.SameStatusBut s.drawAllCodes codeBits := fun n hn => by
  simp only [codeBits, List.mem_cons, List.not_mem_nil, or_false, not_or] at hn
  simp [State.drawAllCodes, State.drawCodes, State.drawC1, State.drawC03, State.putSw_bit, hn]

/-- FFREE. -/
theorem freeRegister_effect (i : Idx) (s : State) :
    s.SameStatusBut (freeRegister i s) codeBits ∧ (∀ k, (freeRegister i s).reg k = s.reg k) ∧
      ∀ k, (freeRegister i s).tag k = if k = s.phys i then emptyTag else s.tag k :=
  ⟨drawAllCodes_sameStatusBut (s.setTag (s.phys i) emptyTag), by simp [freeRegister], by simp [freeRegister]⟩

end Sys2Proof.Machine
end

