-- ==== Sys2Proof/Laws/Frames.lean ====
section
/-! SUPPORT. From what an operation does to what its instruction does: the frames of Sys2Proof/Safety.lean. -/

namespace Sys2Proof.Machine

/-- A choice between two propositions, carried over branch by branch. -/
theorem ite_map {c d a b a' b' : Prop} [Decidable c] [Decidable d] (hc : c ↔ d) (ha : a → a') (hb : b → b')
    (h : if c then a else b) : if d then a' else b' := by
  by_cases hd : d
  · rw [if_pos hd]; rw [if_pos (hc.mpr hd)] at h; exact ha h
  · rw [if_neg hd]; rw [if_neg (fun e => hd (hc.mp e))] at h; exact hb h

/-! ### The end of an instruction shows what its operation did -/

variable {s u : State} {n : Nat} {e : Bool}

theorem State.retire_flag (u : State) (n : Nat) (e : Bool) (x : Exc) : (u.retire n e).flag x = u.flag x :=
  congrArg (fun w : Word16 => w.getLsbD x.bit) (u.retire_sw n e)

theorem State.retire_sf (u : State) (n : Nat) (e : Bool) : (u.retire n e).sf = u.sf :=
  congrArg (fun w : Word16 => w.getLsbD sfBit) (u.retire_sw n e)

theorem State.retire_busy (u : State) (n : Nat) (e : Bool) : (u.retire n e).busy = u.busy :=
  congrArg (fun w : Word16 => w.getLsbD busyBit) (u.retire_sw n e)

@[simp] theorem State.retire_c1 (u : State) (n : Nat) (e : Bool) : (u.retire n e).c1 = u.c1 :=
  congrArg (fun w : Word16 => w.getLsbD c1Bit) (u.retire_sw n e)

@[simp] theorem State.retire_c2 (u : State) (n : Nat) (e : Bool) : (u.retire n e).c2 = u.c2 :=
  congrArg (fun w : Word16 => w.getLsbD c2Bit) (u.retire_sw n e)

@[simp] theorem State.retire_c0 (u : State) (n : Nat) (e : Bool) : (u.retire n e).c0 = u.c0 :=
  congrArg (fun w : Word16 => w.getLsbD c0Bit) (u.retire_sw n e)

@[simp] theorem State.retire_c3 (u : State) (n : Nat) (e : Bool) : (u.retire n e).c3 = u.c3 :=
  congrArg (fun w : Word16 => w.getLsbD c3Bit) (u.retire_sw n e)

@[simp] theorem State.retire_codes (u : State) (n : Nat) (e : Bool) : (u.retire n e).codes = u.codes := by
  simp [State.codes]

@[simp] theorem State.retire_read (u : State) (n : Nat) (e : Bool) (a : Word32) (k : Nat) :
    (u.retire n e).read a k = u.read a k := by
  simp [State.read]

theorem State.Pushed.retire {x : Ext} (h : s.Pushed u x) : s.Pushed (u.retire n e) x :=
  h.of_eq (by simp) (by simp) (by simp)

theorem State.Wrote.retire {d : Idx} {b : Bool} {x : Ext} (h : s.Wrote u d b x) : s.Wrote (u.retire n e) d b x :=
  h.of_eq (by simp) (by simp) (by simp)

theorem State.WrotePair.retire {x y : Ext} (h : s.WrotePair u x y) : s.WrotePair (u.retire n e) x y :=
  ⟨(u.retire_top n e).trans h.top, fun k => (u.retire_reg n e k).trans (h.value k),
    fun k => (u.retire_tag n e k).trans (h.tag k)⟩

theorem State.Popped.retire {k : Nat} (h : s.Popped u k) : s.Popped (u.retire n e) k :=
  h.of_eq (by simp) (by simp) (by simp)

theorem State.Signals.retire {xs : List Exc} {c : Bool} (h : s.Signals u xs c) : s.Signals (u.retire n e) xs c :=
  ⟨fun x => (u.retire_flag n e x).trans (h.flag x), (u.retire_es n e).trans h.es, (u.retire_busy n e).trans h.busy,
    (u.retire_sf n e).trans h.sf, (u.retire_c1 n e).trans h.c1⟩

theorem State.StackFaulted.retire {b : Bool} (h : s.StackFaulted u b) : s.StackFaulted (u.retire n e) b :=
  ⟨fun x => (u.retire_flag n e x).trans (h.flag x), (u.retire_es n e).trans h.es, (u.retire_busy n e).trans h.busy,
    (u.retire_sf n e).trans h.sf, (u.retire_c1 n e).trans h.c1⟩

theorem State.Outcome.retire {d : Idx} {b : Bool} {r : Reply Written} (h : s.Outcome u d b r) :
    s.Outcome (u.retire n e) d b r := by
  unfold State.Outcome at h ⊢
  cases hv : r.value with
  | none => rw [hv] at h; exact ⟨h.1.retire, h.2.retire⟩
  | some w => rw [hv] at h; exact ⟨h.1.retire, h.2.retire⟩

theorem State.SameRegisters.retire (h : s.SameRegisters u) : s.SameRegisters (u.retire n e) :=
  ⟨fun k => (u.retire_reg n e k).trans (h.value k), fun k => (u.retire_tag n e k).trans (h.tag k)⟩

theorem State.SameStatusBut.retire {b : List Nat} (h : s.SameStatusBut u b) : s.SameStatusBut (u.retire n e) b :=
  fun k hk => by rw [State.retire_sw]; exact h k hk

theorem State.SameMemory.retire (h : s.SameMemory u) : s.SameMemory (u.retire n e) :=
  fun a => by rw [State.retire_mem]; exact h a

theorem State.SameMemoryBut.retire {a : Word32} {k : Nat} (h : s.SameMemoryBut u a k) :
    s.SameMemoryBut (u.retire n e) a k := fun b hb => by rw [State.retire_mem]; exact h b hb

theorem State.SamePointers.retire (h : s.SamePointers u) : s.SamePointers (u.retire n e) :=
  ⟨(u.retire_fip n e).trans h.fip, (u.retire_fdp n e).trans h.fdp, (u.retire_fop n e).trans h.fop⟩

theorem State.SameHost.retire (h : s.SameHost u) : s.SameHost (u.retire n e) :=
  ⟨(u.retire_gprs n e).trans h.gprs, (u.retire_segs n e).trans h.segs, (u.retire_zf n e).trans h.zf,
    (u.retire_pf n e).trans h.pf, (u.retire_cf n e).trans h.cf, (u.retire_ne n e).trans h.ne,
    (u.retire_ignne n e).trans h.ignne, (u.retire_mode n e).trans h.mode, (u.retire_opSize32 n e).trans h.opSize32,
    (u.retire_addrSize32 n e).trans h.addrSize32, (u.retire_intr n e).trans h.intr, (u.retire_denied n e).trans h.denied,
    (u.retire_frozen n e).trans h.frozen, (u.retire_params n e).trans h.params⟩

/-! ### The pointer update shows in the pointer registers alone -/

theorem State.SameHost.of_record {i : Instr} {d : Option FarPtr} (h : (s.record i d).SameHost u) : s.SameHost u :=
  ⟨h.gprs, h.segs, h.zf, h.pf, h.cf, h.ne, h.ignne, h.mode, h.opSize32, h.addrSize32, h.intr, h.denied, h.frozen, h.params⟩

theorem State.Pushed.of_record {i : Instr} {d : Option FarPtr} {x : Ext} (h : (s.record i d).Pushed u x) : s.Pushed u x :=
  ⟨h.top, h.value, h.tag⟩

theorem State.Wrote.of_record {i : Instr} {d : Option FarPtr} {k : Idx} {b : Bool} {x : Ext}
    (h : (s.record i d).Wrote u k b x) : s.Wrote u k b x := ⟨h.top, h.value, h.tag⟩

theorem State.WrotePair.of_record {i : Instr} {d : Option FarPtr} {x y : Ext} (h : (s.record i d).WrotePair u x y) :
    s.WrotePair u x y := ⟨h.top, h.value, h.tag⟩

theorem State.Popped.of_record {i : Instr} {d : Option FarPtr} {k : Nat} (h : (s.record i d).Popped u k) : s.Popped u k :=
  ⟨h.top, h.value, h.tag⟩

theorem State.Signals.of_record {i : Instr} {d : Option FarPtr} {xs : List Exc} {c : Bool}
    (h : (s.record i d).Signals u xs c) : s.Signals u xs c := ⟨h.flag, h.es, h.busy, h.sf, h.c1⟩

theorem State.StackFaulted.of_record {i : Instr} {d : Option FarPtr} {b : Bool} (h : (s.record i d).StackFaulted u b) :
    s.StackFaulted u b := ⟨h.flag, h.es, h.busy, h.sf, h.c1⟩

theorem State.Outcome.of_record {i : Instr} {d : Option FarPtr} {k : Idx} {b : Bool} {r : Reply Written}
    (h : (s.record i d).Outcome u k b r) : s.Outcome u k b r := by
  unfold State.Outcome at h ⊢
  cases hv : r.value with
  | none => rw [hv] at h; exact ⟨h.1.of_record, h.2.of_record⟩
  | some w => rw [hv] at h; exact ⟨h.1.of_record, h.2.of_record⟩

theorem State.SameRegisters.of_record {i : Instr} {d : Option FarPtr} (h : (s.record i d).SameRegisters u) :
    s.SameRegisters u := ⟨h.value, h.tag⟩

/-- What is not on the stack is the host's, and the pc. -/
theorem OnStack.sameHost {t : State} (h : OnStack s t) : s.SameHost t :=
  ⟨(congrArg State.gprs h.beyond :), (congrArg State.segs h.beyond :), (congrArg State.zf h.beyond :),
    (congrArg State.pf h.beyond :), (congrArg State.cf h.beyond :), (congrArg State.ne h.beyond :),
    (congrArg State.ignne h.beyond :), (congrArg State.mode h.beyond :), (congrArg State.opSize32 h.beyond :),
    (congrArg State.addrSize32 h.beyond :), (congrArg State.intr h.beyond :), (congrArg State.denied h.beyond :),
    (congrArg State.frozen h.beyond :), (congrArg State.params h.beyond :)⟩

/-- The frame of an instruction whose operation touches the stack only. -/
theorem OnStack.ran {i : Instr} {d : Option FarPtr} (h : OnStack (s.record i d) u) :
    s.Ran (u.retire i.length s.es) i d := by
  have hh : s.SameHost u := h.sameHost.of_record
  refine ⟨hh.retire, fun a => by rw [State.retire_mem, h.mem]; rfl, by rw [State.retire_cw, h.cw]; rfl, ⟨?_, ?_, ?_⟩, ?_⟩
  · rw [State.retire_fip, h.fip]; rfl
  · rw [State.retire_fop, h.fop]; rfl
  · rintro q rfl; rw [State.retire_fdp, h.fdp]; rfl
  · rw [State.PastInstr, State.retire_eip, h.eip]; rfl

/-- A register form whose operation touches the stack only. -/
theorem runReg_ran {i : Instr} {body : Body} (hr : s.Ready) (hb : body (s.record i none) = .ok u)
    (ho : OnStack (s.record i none) u) :
    runReg i body s = .next (u.retire i.length s.es) ∧ s.Ran (u.retire i.length s.es) i none :=
  ⟨runReg_next hr hb, ho.ran⟩

/-- A memory form whose operation touches the stack only. -/
theorem runMem_ran {i : Instr} {p : Prefixes} {m : AddrMode} {k : Nat} {body : Word32 → Body} (hr : s.Ready)
    (hd : s.Allows (s.ea m) k) (hb : body (s.ea m) (s.record i (some (s.operandPtr p m))) = .ok u)
    (ho : OnStack (s.record i (some (s.operandPtr p m))) u) :
    runMem i p m k body s = .next (u.retire i.length s.es) ∧
      s.Ran (u.retire i.length s.es) i (some (s.operandPtr p m)) :=
  ⟨runMem_next hr hd hb, ho.ran⟩

/-! ### Stores -/

/-- `t` differs from `s` in the stack, the status word and memory only. -/
def State.StackAndMemory (s t : State) : Prop := t.beyondStack.setMem [] = s.beyondStack.setMem []

theorem OnStack.stackAndMemory {t : State} (h : OnStack s t) : s.StackAndMemory t :=
  congrArg (fun v : State => v.setMem []) h.beyond

theorem State.StackAndMemory.trans {t v : State} (h : s.StackAndMemory t) (g : t.StackAndMemory v) :
    s.StackAndMemory v := Eq.trans g h

theorem State.stackAndMemory_write (s : State) (a : Word32) (k v : Nat) : s.StackAndMemory (s.write a k v) := rfl

theorem storeReplied_beyond (a : Word32) (k : Nat) (b : Bool) (r : StoreReply) (s : State) :
    s.StackAndMemory (storeReplied a k b r s) := by
  unfold storeReplied
  split
  · exact ((OnStack.signalAll s _).stackAndMemory.trans (State.stackAndMemory_write _ _ _ _)).trans
      (((OnStack.setC1 _ _).trans (OnStack.drawCodes _)).trans (OnStack.popIf _ _)).stackAndMemory
  · exact (OnStack.signalAll s _).stackAndMemory
  · exact ((OnStack.signalAll s _).trans (OnStack.drawCodes _)).stackAndMemory

theorem storeTop_beyond (a : Word32) (k : Nat) (b : Bool) (z : Nat) (f : Ext → StoreReply) (s : State) :
    s.StackAndMemory (storeTop a k b z f s) := by
  unfold storeTop
  split
  · rw [State.onStackFault_eq]
    split
    · exact ((OnStack.stackFault s _).stackAndMemory.trans (State.stackAndMemory_write _ _ _ _)).trans
        ((OnStack.drawCodes _).trans (OnStack.popIf _ _)).stackAndMemory
    · exact (OnStack.stackFault s _).stackAndMemory
  · exact storeReplied_beyond _ _ _ _ _

/-- The frame of a store, given which bytes it leaves alone. -/
theorem State.StackAndMemory.ranStoring {i : Instr} {q : FarPtr} {a : Word32} {k : Nat}
    (h : (s.record i (some q)).StackAndMemory u) (hm : (s.record i (some q)).SameMemoryBut u a k) :
    s.RanStoring (u.retire i.length s.es) i q a k := by
  have hh : s.SameHost u :=
    ⟨(congrArg State.gprs h :), (congrArg State.segs h :), (congrArg State.zf h :),
      (congrArg State.pf h :), (congrArg State.cf h :), (congrArg State.ne h :),
      (congrArg State.ignne h :), (congrArg State.mode h :), (congrArg State.opSize32 h :),
      (congrArg State.addrSize32 h :), (congrArg State.intr h :), (congrArg State.denied h :),
      (congrArg State.frozen h :), (congrArg State.params h :)⟩
  have hc : u.cw = s.cw := (congrArg State.cw h :)
  have h1 : u.fip = s.pc := (congrArg State.fip h :)
  have h2 : u.fop = i.fop := (congrArg State.fop h :)
  have h3 : u.fdp = q := (congrArg State.fdp h :)
  have h4 : u.eip = s.eip := (congrArg State.eip h :)
  refine ⟨hh.retire, State.SameMemoryBut.retire hm, by rw [State.retire_cw, hc], ⟨?_, ?_, ?_⟩, ?_⟩
  · rw [State.retire_fip, h1]
  · rw [State.retire_fop, h2]
  · intro q' hq; rw [State.retire_fdp, h3]; injection hq
  · rw [State.PastInstr, State.retire_eip, h4]

end Sys2Proof.Machine
end

