-- ==== Sys2Proof/Laws/Image.lean ====
section
/-! SUPPORT. The images that the control instructions store, read back. -/

namespace Sys2Proof.Machine

/-! ### Parts of a block of memory -/

theorem readBytes_add (m : Memory) (a : Word32) (j n : Nat) :
    readBytes m a (j + n) = readBytes m a j ++ readBytes m (a + BitVec.ofNat 32 j) n := by
  induction j generalizing a with
  | zero => simp [readBytes]
  | succ j ih =>
    rw [show j + 1 + n = (j + n) + 1 by omega, readBytes, readBytes, ih (a + 1), List.cons_append]
    congr 3
    rw [BitVec.add_assoc]; congr 1
    apply BitVec.eq_of_toNat_eq; simp [Nat.add_comm]

theorem readBytes_slice (m : Memory) (a : Word32) {j n k : Nat} (h : j + n ≤ k) :
    readBytes m (a + BitVec.ofNat 32 j) n = ((readBytes m a k).drop j).take n := by
  obtain ⟨r, rfl⟩ := Nat.exists_eq_add_of_le h
  rw [readBytes_add, readBytes_add, List.append_assoc, List.drop_append_of_le_length (by simp),
    List.drop_of_length_le (by simp), List.nil_append, List.take_append_of_le_length (by simp),
    List.take_of_length_le (by simp)]

/-- A part of a block that was stored. -/
theorem readBytes_writeBytes_slice (m : Memory) (a : Word32) (bs : List Byte) {j n : Nat} (h : j + n ≤ bs.length)
    (hl : bs.length ≤ 2 ^ 32) :
    readBytes (writeBytes m a bs) (a + BitVec.ofNat 32 j) n = (bs.drop j).take n := by
  rw [readBytes_slice _ _ h, readBytes_writeBytes m a bs hl]

theorem fromBytes_append (l r : List Byte) : fromBytes (l ++ r) = fromBytes l + 256 ^ l.length * fromBytes r := by
  induction l with
  | nil => simp [fromBytes]
  | cons b l ih => simp only [List.cons_append, fromBytes, ih, List.length_cons, pow_succ]; ring

/-- A part of a block of memory, as a number. -/
theorem State.read_slice (s : State) (a : Word32) {j n k : Nat} (h : j + n ≤ k) :
    s.read (a + BitVec.ofNat 32 j) n = s.read a k / 256 ^ j % 256 ^ n := by
  obtain ⟨r, rfl⟩ := Nat.exists_eq_add_of_le h
  simp only [State.read]
  rw [readBytes_add, readBytes_add, List.append_assoc, fromBytes_append, readBytes_length, fromBytes_append,
    readBytes_length, Nat.add_mul_div_left _ _ (by positivity), Nat.div_eq_of_lt, Nat.zero_add, Nat.add_mul_mod_self_left,
    Nat.mod_eq_of_lt]
  · simpa using fromBytes_lt (readBytes s.mem (a + BitVec.ofNat 32 j) n)
  · simpa using fromBytes_lt (readBytes s.mem a j)

/-! ### Sizes -/

@[simp] theorem storedImage_length (f : ImageFormat) (k : ImageKind) (s : State) :
    (storedImage f k s).length = f.bytes k := by
  simp [storedImage]

theorem ImageFormat.bytes_le (f : ImageFormat) (k : ImageKind) : f.bytes k ≤ 108 := by cases f <;> cases k <;> decide

/-! ### What an image holds -/

theorem totalWidth_append (l r : List EnvPiece) : totalWidth (l ++ r) = totalWidth l + totalWidth r := by
  induction l with
  | nil => simp [totalWidth]
  | cons p l ih => simp only [List.cons_append, totalWidth, ih]; ring

theorem storedPieces_append (s : State) (l r : List EnvPiece) :
    storedPieces s (l ++ r) = storedPieces s l + 2 ^ totalWidth l * storedPieces s r := by
  induction l with
  | nil => simp [storedPieces, totalWidth]
  | cons p l ih => simp only [List.cons_append, storedPieces, totalWidth, ih, pow_add]; ring

theorem storedPieces_lt (s : State) (l : List EnvPiece) : storedPieces s l < 2 ^ totalWidth l := by
  induction l with
  | nil => simp [storedPieces, totalWidth]
  | cons p l ih =>
    have h : s.envField p.field / 2 ^ p.low % 2 ^ p.width < 2 ^ p.width := Nat.mod_lt _ (by positivity)
    have := Nat.mul_le_mul_left (2 ^ p.width) ih
    simp only [storedPieces, totalWidth, pow_add]
    rw [Nat.mul_succ] at this
    omega

/-- The bits of a field that an image holds read as they were stored. -/
theorem loadedPieces_storedPieces (s : State) (x : EnvField) (l : List EnvPiece) :
    loadedPieces (storedPieces s l) x l = s.envField x &&& fieldMask l x := by
  induction l with
  | nil => simp [loadedPieces, fieldMask]
  | cons p l ih =>
    have hw : 0 < 2 ^ p.width := by positivity
    have h : s.envField p.field / 2 ^ p.low % 2 ^ p.width < 2 ^ p.width := Nat.mod_lt _ hw
    rw [storedPieces, loadedPieces, Nat.add_mul_mod_self_left, Nat.mod_eq_of_lt h, Nat.add_mul_div_left _ _ hw,
      Nat.div_eq_of_lt h, Nat.zero_add, ih, fieldMask]
    split
    · rename_i hx
      rw [hx, Nat.and_or_distrib_left]
      congr 1
      apply Nat.eq_of_testBit_eq
      intro n
      simp only [Nat.testBit_shiftLeft, Nat.testBit_mod_two_pow, Nat.testBit_div_two_pow, Nat.testBit_and,
        Nat.testBit_two_pow_sub_one]
      by_cases hn : p.low ≤ n
      · rw [show n - p.low + p.low = n by omega]
        simp only [ge_iff_le, hn, decide_true, Bool.true_and]
        exact Bool.and_comm _ _
      · simp [hn]
    · simp

/-- A bit of a field that is loaded from an image. -/
theorem loadedField_stored {w : Nat} {l : List EnvPiece} {s : State} {x : EnvField} {n : Nat} (free : BitVec w)
    (hn : n < w) (h : (fieldMask l x).testBit n = true) :
    (loadedField l (storedPieces s l) x free).getLsbD n = (s.envField x).testBit n := by
  rw [loadedField, loadedPieces_storedPieces, BitVec.getLsbD_or, BitVec.getLsbD_and, BitVec.getLsbD_not,
    BitVec.getLsbD_ofNat, BitVec.getLsbD_ofNat, Nat.testBit_and, h]
  simp [hn]

/-- What `injective` says of one image (92_eei_decisions.md section 5). -/
theorem EnvLayout.injective_iff (l : EnvLayout) : l.injective = true ↔ ∀ f k, l.injectiveIn f k = true := by
  simp only [EnvLayout.injective, List.all_cons, List.all_nil, Bool.and_true, Bool.and_eq_true]
  exact ⟨fun h f k => by cases f <;> cases k <;> simp only [h], fun h => by simp only [h, and_self]⟩

theorem EnvLayout.injectiveIn_spec {l : EnvLayout} {f : ImageFormat} {k : ImageKind} (h : l.injectiveIn f k = true) :
    totalWidth (l.pieces f k) = 8 * f.bytes k ∧
      ∀ x ∈ EnvField.contents, fieldMask (l.pieces f k) x = fieldMask (f.carries k) x := by
  simpa only [EnvLayout.injectiveIn, Bool.and_eq_true, beq_iff_eq, List.all_eq_true] using h

/-- The default layout is injective. -/
theorem EnvLayout.standard_injective : EnvLayout.standard.injective = true := by decide

/-- A bit that the format carries reads as it was stored. -/
theorem loadedField_bit {w : Nat} {f : ImageFormat} {k : ImageKind} {s : State} {x : EnvField} {n : Nat}
    (free : BitVec w) (hi : s.params.envLayout.injectiveIn f k = true) (hx : x ∈ EnvField.contents) (hn : n < w)
    (hc : (fieldMask (f.carries k) x).testBit n = true) :
    (loadedField (s.params.envLayout.pieces f k) (imageNumber f k s) x free).getLsbD n = (s.envField x).testBit n :=
  loadedField_stored free hn (by rw [(EnvLayout.injectiveIn_spec hi).2 x hx]; exact hc)

/-- A field that a format carries whole reads as it was stored. -/
theorem loadedField_carried {w : Nat} {f : ImageFormat} {k : ImageKind} {s : State} {x : EnvField} (free v : BitVec w)
    (hi : s.params.envLayout.injectiveIn f k = true) (hx : x ∈ EnvField.contents)
    (hc : fieldMask (f.carries k) x = 2 ^ w - 1) (hv : s.envField x = v.toNat) :
    loadedField (s.params.envLayout.pieces f k) (imageNumber f k s) x free = v := by
  apply BitVec.eq_of_getLsbD_eq
  intro n hn
  rw [loadedField_bit free hi hx hn (by rw [hc, Nat.testBit_two_pow_sub_one]; exact decide_eq_true hn), hv,
    BitVec.testBit_toNat]

/-! ### Reading an image back -/

/-- The number that an image reads as. -/
theorem read_image {s t : State} {f : ImageFormat} {k : ImageKind} {a : Word32} {m : Memory}
    (hm : t.mem = writeBytes m a (storedImage f k s)) (hi : s.params.envLayout.injectiveIn f k = true) :
    t.read a (f.bytes k) = imageNumber f k s := by
  have hb := f.bytes_le k
  have h := readBytes_writeBytes m a (storedImage f k s) (by rw [storedImage_length]; omega)
  rw [storedImage_length] at h
  rw [State.read, hm, h, storedImage, fromBytes_toBytes]
  apply Nat.mod_eq_of_lt
  have := storedPieces_lt s (s.params.envLayout.pieces f k)
  rwa [(EnvLayout.injectiveIn_spec hi).1, pow_mul] at this

/-- A register of a state image, read back (20_memory.md R117). -/
theorem readRegister_image {s t : State} {f : ImageFormat} {a : Word32} {m : Memory}
    (hm : t.mem = writeBytes m a (storedImage f .state s)) (hi : s.params.envLayout.injective = true)
    (hp : t.params = s.params) (j : Idx) : readRegister f a j t = s.st j := by
  have hf := s.params.envLayout.injective_iff.mp hi f .state
  have hn := read_image hm hf
  have hj : EnvField.register j ∈ EnvField.contents ∧ fieldMask (f.carries .state) (.register j) = 2 ^ 80 - 1 := by
    revert j; cases f <;> decide
  unfold readRegister
  rw [hp, show t.read a f.stateBytes = _ from hn]
  exact loadedField_carried _ _ hf hj.1 hj.2 rfl

/-- A linear address is kept by the pointer that a real-address image loads (20_memory.md R118). -/
theorem linear_pointerTo (free : FarPtr) (lin : Word32) : linear (pointerTo free lin) = lin := by
  have h1 : (pointerTo free lin).extractLsb' 32 16 = free.extractLsb' 32 16 := by
    apply BitVec.eq_of_getLsbD_eq
    intro n hn
    have h : ¬ 32 + n < 32 := by omega
    simp only [pointerTo, BitVec.getLsbD_extractLsb', BitVec.getLsbD_append, hn, decide_true, Bool.true_and, h, if_false,
      Nat.add_sub_cancel_left]
  have h2 : (pointerTo free lin).extractLsb' 0 32 = lin - ((free.extractLsb' 32 16).setWidth 32 <<< 4) := by
    apply BitVec.eq_of_getLsbD_eq
    intro n hn
    simp only [pointerTo, BitVec.getLsbD_extractLsb', BitVec.getLsbD_append, hn, decide_true, Bool.true_and,
      Nat.zero_add, if_true]
  rw [linear, h1, h2, BitVec.add_comm, BitVec.sub_add_cancel]

/-- What an image holds when it is read back: the whole of every field that the format carries (20_memory.md R112 to
R118). -/
theorem readEnvironment_image {s t : State} {f : ImageFormat} {k : ImageKind} {a : Word32} {m : Memory}
    (hm : t.mem = writeBytes m a (storedImage f k s)) (hi : s.params.envLayout.injective = true) (hp : t.params = s.params) :
    (readEnvironment f k a t).cw = s.cw ∧ (readEnvironment f k a t).sw = s.storedSw ∧
      (readEnvironment f k a t).tw = s.tw ∧
      (f = .p32 → (readEnvironment f k a t).fip = s.fip ∧ (readEnvironment f k a t).fdp = s.fdp) ∧
      (f = .p16 → ∀ n, n < 16 ∨ 32 ≤ n → (readEnvironment f k a t).fip.getLsbD n = s.fip.getLsbD n ∧
        (readEnvironment f k a t).fdp.getLsbD n = s.fdp.getLsbD n) ∧
      (f = .r32 → linear (readEnvironment f k a t).fip = linear s.fip ∧
        linear (readEnvironment f k a t).fdp = linear s.fdp) ∧
      (f = .r16 → ∀ n < 20, (linear (readEnvironment f k a t).fip).getLsbD n = (linear s.fip).getLsbD n ∧
        (linear (readEnvironment f k a t).fdp).getLsbD n = (linear s.fdp).getLsbD n) ∧
      (f ≠ .p16 → (readEnvironment f k a t).fop = s.fop) := by
  have hf := s.params.envLayout.injective_iff.mp hi f k
  have hn := read_image hm hf
  unfold readEnvironment
  rw [hp, hn]
  refine ⟨loadedField_carried _ _ hf (by decide) (by cases f <;> cases k <;> rfl) rfl,
    loadedField_carried _ _ hf (by decide) (by cases f <;> cases k <;> rfl) rfl,
    loadedField_carried _ _ hf (by decide) (by cases f <;> cases k <;> rfl) rfl, ?_, ?_, ?_, ?_, ?_⟩
  · rintro rfl
    exact ⟨loadedField_carried _ _ hf (by decide) (by cases k <;> rfl) rfl,
      loadedField_carried _ _ hf (by decide) (by cases k <;> rfl) rfl⟩
  · rintro rfl n h
    by_cases h48 : n < 48
    · have hm : ∀ x ∈ [EnvField.fip, .fdp], (fieldMask (ImageFormat.p16.carries k) x).testBit n = true := by
        have hw : ∀ x ∈ [EnvField.fip, .fdp], fieldMask (ImageFormat.p16.carries k) x = 0xFFFF0000FFFF := by
          cases k <;> decide
        have hn : ∀ n < 48, (n < 16 ∨ 32 ≤ n) → Nat.testBit 0xFFFF0000FFFF n = true := by decide
        exact fun x hx => by rw [hw x hx]; exact hn n h48 h
      exact ⟨(loadedField_bit _ hf (by decide) h48 (hm _ (by simp))).trans (BitVec.testBit_toNat _),
        (loadedField_bit _ hf (by decide) h48 (hm _ (by simp))).trans (BitVec.testBit_toNat _)⟩
    · simp [BitVec.getLsbD_of_ge _ _ (Nat.le_of_not_lt h48)]
  · rintro rfl
    exact ⟨(linear_pointerTo _ _).trans (loadedField_carried _ _ hf (by decide) (by cases k <;> rfl) rfl),
      (linear_pointerTo _ _).trans (loadedField_carried _ _ hf (by decide) (by cases k <;> rfl) rfl)⟩
  · rintro rfl n h
    have hb : ∀ x ∈ [EnvField.ipLinear, .opLinear], (fieldMask (ImageFormat.r16.carries k) x).testBit n = true := by
      have hw : ∀ x ∈ [EnvField.ipLinear, .opLinear], fieldMask (ImageFormat.r16.carries k) x = 2 ^ 20 - 1 := by
        cases k <;> decide
      exact fun x hx => by rw [hw x hx, Nat.testBit_two_pow_sub_one]; exact decide_eq_true h
    refine ⟨?_, ?_⟩
    · show (linear (pointerTo _ _)).getLsbD n = _
      rw [linear_pointerTo, loadedField_bit _ hf (by decide) (by omega) (hb _ (by simp))]
      exact BitVec.testBit_toNat _
    · show (linear (pointerTo _ _)).getLsbD n = _
      rw [linear_pointerTo, loadedField_bit _ hf (by decide) (by omega) (hb _ (by simp))]
      exact BitVec.testBit_toNat _
  · intro h
    exact loadedField_carried _ _ hf (by decide) (by cases f <;> cases k <;> first | rfl | exact absurd rfl h) rfl

/-! ### The places of the fields in the default layout -/

/-- Some consecutive pieces of an image, as a number. -/
theorem storedPieces_slice (s : State) (l m r : List EnvPiece) :
    storedPieces s (l ++ (m ++ r)) / 2 ^ totalWidth l % 2 ^ totalWidth m = storedPieces s m := by
  rw [storedPieces_append, Nat.add_mul_div_left _ _ (by positivity), Nat.div_eq_of_lt (storedPieces_lt s l), Nat.zero_add,
    storedPieces_append, Nat.add_mul_mod_self_left, Nat.mod_eq_of_lt (storedPieces_lt s m)]

/-- What stands at the offset of some consecutive pieces of an image. -/
theorem read_pieces {s t : State} {f : ImageFormat} {k : ImageKind} {a : Word32}
    (hn : t.read a (f.bytes k) = imageNumber f k s) (l m r : List EnvPiece) {j n : Nat}
    (hp : s.params.envLayout.pieces f k = l ++ (m ++ r)) (hl : totalWidth l = 8 * j) (hm : totalWidth m = 8 * n)
    (hb : j + n ≤ f.bytes k) : t.read (a + BitVec.ofNat 32 j) n = storedPieces s m := by
  rw [State.read_slice _ _ hb, hn, imageNumber, hp, show 256 = 2 ^ 8 from rfl, ← pow_mul, ← pow_mul, ← hl, ← hm]
  exact storedPieces_slice s l m r

/-- The pieces of the environment in the default layout. -/
abbrev standardPieces (f : ImageFormat) : List EnvPiece := EnvLayout.standard.pieces f .environment

/-- In the default layout both images begin with the environment (20_memory.md R117). -/
theorem standard_pieces (f : ImageFormat) (k : ImageKind) :
    EnvLayout.standard.pieces f k = standardPieces f ++ (if k = .state then registerPieces else []) := by
  cases f <;> cases k <;> rfl

/-- What stands at the offset of some consecutive pieces of the environment in the default layout. -/
theorem read_slot {s t : State} {f : ImageFormat} {k : ImageKind} {a : Word32}
    (hs : s.params.envLayout = EnvLayout.standard) (hn : t.read a (f.bytes k) = imageNumber f k s) {i m j n v : Nat}
    (hl : totalWidth ((standardPieces f).take i) = 8 * j)
    (hm : totalWidth (((standardPieces f).drop i).take m) = 8 * n) (hb : j + n ≤ f.envBytes)
    (hv : storedPieces s (((standardPieces f).drop i).take m) = v) :
    t.read (a + BitVec.ofNat 32 j) n = v :=
  (read_pieces hn ((standardPieces f).take i) (((standardPieces f).drop i).take m)
    (((standardPieces f).drop i).drop m ++ if k = .state then registerPieces else [])
    (by rw [← List.append_assoc, ← List.append_assoc, List.append_assoc ((standardPieces f).take i), List.take_append_drop,
      List.take_append_drop, hs, standard_pieces]) hl hm
    (hb.trans (by cases k <;> simp [ImageFormat.bytes, ImageFormat.stateBytes]))).trans hv

/-- The place of a register in the default layout (20_memory.md R117). -/
theorem read_register {s t : State} {f : ImageFormat} {a : Word32} (hs : s.params.envLayout = EnvLayout.standard)
    (hn : t.read a (f.bytes .state) = imageNumber f .state s) (j : Idx) :
    t.read (a + BitVec.ofNat 32 (f.envBytes + 10 * j.toNat)) 10 = (s.st j).toNat := by
  have h : registerPieces = registerPieces.take j.toNat ++ ([⟨.register j, 0, 80⟩] ++ registerPieces.drop (j.toNat + 1)) := by
    revert j; decide
  have hw : totalWidth (registerPieces.take j.toNat) = 80 * j.toNat := by revert j; decide
  have he : totalWidth (standardPieces f) = 8 * f.envBytes := by cases f <;> rfl
  have hj := j.isLt
  rw [read_pieces hn (standardPieces f ++ registerPieces.take j.toNat) [⟨.register j, 0, 80⟩]
    (registerPieces.drop (j.toNat + 1))
    (by rw [hs, standard_pieces, if_pos rfl, List.append_assoc, ← h]) (by rw [totalWidth_append, he, hw]; ring) rfl
    (by simp only [ImageFormat.bytes, ImageFormat.stateBytes]; omega)]
  have := (s.st j).isLt
  simp [storedPieces, State.envField, Nat.mod_eq_of_lt this]

theorem linear_toNat (p : FarPtr) : (linear p).toNat = (p.toNat / 2 ^ 32 * 16 + p.toNat % 2 ^ 32) % 2 ^ 32 := by
  have h : p.toNat / 2 ^ 32 < 2 ^ 16 := by have := p.isLt; omega
  simp only [linear, BitVec.toNat_add, BitVec.toNat_shiftLeft, BitVec.toNat_setWidth, BitVec.extractLsb'_toNat,
    Nat.shiftRight_eq_div_pow, Nat.shiftLeft_eq, Nat.pow_zero, Nat.div_one]
  rw [Nat.mod_eq_of_lt h]
  generalize p.toNat / 2 ^ 32 = a at *
  omega

theorem storedSw_parts (s : State) : (BitVec.ofBool s.es ++ s.sw.extractLsb' 0 15).toNat = s.storedSw.toNat := by
  congr 1
  apply BitVec.eq_of_getLsbD_eq
  intro n hn
  rw [BitVec.getLsbD_append]
  show _ = (putBit s.sw busyBit _).getLsbD n
  rw [getLsbD_putBit]
  by_cases h : n < 15
  · rw [if_pos h, if_neg (by unfold busyBit; omega)]; simp [h]
  · obtain rfl : n = 15 := by omega
    rw [if_neg h, if_pos (by decide)]; simp [State.es]

/-- Every field of an image in the default layout stands at its place (20_memory.md R113 to R116). -/
theorem read_imageFields {s t : State} {f : ImageFormat} {k : ImageKind} {a : Word32}
    (hs : s.params.envLayout = EnvLayout.standard) (hn : t.read a (f.bytes k) = imageNumber f k s) :
    ∀ r ∈ s.imageFields f, t.read (a + BitVec.ofNat 32 r.1) r.2.1 = r.2.2 := by
  have slot : ∀ {i m j n v : Nat}, totalWidth ((standardPieces f).take i) = 8 * j →
      totalWidth (((standardPieces f).drop i).take m) = 8 * n → j + n ≤ f.envBytes →
      storedPieces s (((standardPieces f).drop i).take m) = v → t.read (a + BitVec.ofNat 32 j) n = v :=
    fun h1 h2 h3 h4 => read_slot hs hn h1 h2 h3 h4
  have h1 := s.cw.isLt
  have h2 := s.storedSw.isLt
  have h3 := s.tw.isLt
  have h4 := s.fip.isLt
  have h5 := s.fdp.isLt
  have h6 := s.fop.isLt
  have h7 := (linear s.fip).isLt
  have h8 := (linear s.fdp).isLt
  have e32 : ∀ {i : Nat}, i ≤ 28 → i ≤ ImageFormat.envBytes .p32 := id
  have e16 : ∀ {i : Nat}, i ≤ 14 → i ≤ ImageFormat.envBytes .p16 := id
  cases f <;>
    simp only [State.imageFields, storedSw_parts, ← linear_toNat, List.forall_mem_cons]
  · refine ⟨slot (i := 0) (m := 1) rfl rfl (e32 (by simp)) ?_, slot (i := 2) (m := 1) rfl rfl (e32 (by simp)) ?_,
      slot (i := 4) (m := 1) rfl rfl (e32 (by simp)) ?_, slot (i := 6) (m := 1) rfl rfl (e32 (by simp)) ?_,
      slot (i := 7) (m := 1) rfl rfl (e32 (by simp)) ?_, slot (i := 8) (m := 2) rfl rfl (e32 (by simp)) ?_,
      slot (i := 10) (m := 1) rfl rfl (e32 (by simp)) ?_, slot (i := 11) (m := 1) rfl rfl (e32 (by simp)) ?_, by simp⟩ <;>
      simp [standardPieces, EnvLayout.pieces, EnvLayout.format, EnvLayout.standard, FormatLayout.ofEnvironment, storedPieces,
        State.envField] <;> omega
  · refine ⟨slot (i := 0) (m := 1) rfl rfl (e32 (by simp)) ?_, slot (i := 2) (m := 1) rfl rfl (e32 (by simp)) ?_,
      slot (i := 4) (m := 1) rfl rfl (e32 (by simp)) ?_, slot (i := 6) (m := 1) rfl rfl (e32 (by simp)) ?_,
      slot (i := 8) (m := 4) rfl rfl (e32 (by simp)) ?_, slot (i := 12) (m := 1) rfl rfl (e32 (by simp)) ?_,
      slot (i := 14) (m := 3) rfl rfl (e32 (by simp)) ?_, by simp⟩ <;>
      simp [standardPieces, EnvLayout.pieces, EnvLayout.format, EnvLayout.standard, FormatLayout.ofEnvironment, storedPieces,
        State.envField] <;> omega
  · refine ⟨slot (i := 0) (m := 1) rfl rfl (e16 (by simp)) ?_, slot (i := 1) (m := 1) rfl rfl (e16 (by simp)) ?_,
      slot (i := 2) (m := 1) rfl rfl (e16 (by simp)) ?_, slot (i := 3) (m := 1) rfl rfl (e16 (by simp)) ?_,
      slot (i := 4) (m := 1) rfl rfl (e16 (by simp)) ?_, slot (i := 5) (m := 1) rfl rfl (e16 (by simp)) ?_,
      slot (i := 6) (m := 1) rfl rfl (e16 (by simp)) ?_, by simp⟩ <;>
      simp [standardPieces, EnvLayout.pieces, EnvLayout.format, EnvLayout.standard, FormatLayout.ofEnvironment, storedPieces,
        State.envField] <;> omega
  · refine ⟨slot (i := 0) (m := 1) rfl rfl (e16 (by simp)) ?_, slot (i := 1) (m := 1) rfl rfl (e16 (by simp)) ?_,
      slot (i := 2) (m := 1) rfl rfl (e16 (by simp)) ?_, slot (i := 3) (m := 1) rfl rfl (e16 (by simp)) ?_,
      slot (i := 4) (m := 3) rfl rfl (e16 (by simp)) ?_, slot (i := 7) (m := 1) rfl rfl (e16 (by simp)) ?_,
      slot (i := 8) (m := 2) rfl rfl (e16 (by simp)) ?_, by simp⟩ <;>
      simp [standardPieces, EnvLayout.pieces, EnvLayout.format, EnvLayout.standard, FormatLayout.ofEnvironment, storedPieces,
        State.envField] <;> omega

/-- The environment of `s` stands in the memory of a state that stored an image of it there. -/
theorem State.environmentStored_of {s t : State} {f : ImageFormat} {k : ImageKind} {a : Word32} {m : Memory}
    (hm : t.mem = writeBytes m a (storedImage f k s)) (hp : t.params = s.params) : s.EnvironmentStored t f k a where
  fields hs := read_imageFields hs
    (read_image hm ((EnvLayout.injective_iff _).mp (by rw [hs]; exact EnvLayout.standard_injective) f k))
  control hi := (readEnvironment_image hm hi hp).1
  status hi := by
    rw [(readEnvironment_image hm hi hp).2.1]
    refine ⟨fun n hn => ?_, ?_⟩
    · show (putBit s.sw busyBit _).getLsbD n = _
      rw [getLsbD_putBit, if_neg (by unfold busyBit; omega)]
    · show (putBit s.sw busyBit _).getLsbD 15 = _
      rw [getLsbD_putBit, if_pos (by decide)]; rfl
  tags hi := (readEnvironment_image hm hi hp).2.2.1
  pointers hi h :=
    have e := (readEnvironment_image hm hi hp).2.2.2
    ⟨(e.1 h).1, (e.1 h).2, e.2.2.2.2 (by rw [h]; decide)⟩
  linears hi h :=
    have e := (readEnvironment_image hm hi hp).2.2.2
    ⟨(e.2.2.1 h).1, (e.2.2.1 h).2, e.2.2.2.2 (by rw [h]; decide)⟩

/-- The environment and the registers of `s` stand in the memory of a state that stored its state image there. -/
theorem State.stateStored_of {s t : State} {f : ImageFormat} {a : Word32} {m : Memory}
    (hm : t.mem = writeBytes m a (storedImage f .state s)) (hp : t.params = s.params) : s.StateStored t f a where
  environment := State.environmentStored_of hm hp
  places hs := read_register hs
    (read_image hm ((EnvLayout.injective_iff _).mp (by rw [hs]; exact EnvLayout.standard_injective) f .state))
  registers hi := readRegister_image hm hi hp

end Sys2Proof.Machine
end

