-- ==== Sys2Proof/Laws/Exec.lean ====
section
/-! SUPPORT. Where an instruction can lead, once for all instructions: `led` says it, the lemmas after it what follows for
the parts of the state. -/

namespace Sys2Proof.Machine

/-- What a control instruction does before its end. -/
def State.controlled (s : State) : Instr → State
  | .fninit _ => s.initialized
  | .finit _ => s.initialized
  | .fldcw _ m => loadControl (s.ea m) s
  | .fnstcw _ m => storeControl (s.ea m) s
  | .fstcw _ m => storeControl (s.ea m) s
  | .fnstswM2byte _ m => storeStatus (s.ea m) s
  | .fstswM2byte _ m => storeStatus (s.ea m) s
  | .fnstswAx _ => statusToAx s
  | .fstswAx _ => statusToAx s
  | .fnclex _ => clearExceptions s
  | .fclex _ => clearExceptions s
  | .fnstenv p m => saveEnvironment (s.imageFormat p) (s.ea m) s
  | .fstenv p m => saveEnvironment (s.imageFormat p) (s.ea m) s
  | .fldenv p m => restoreEnvironment (s.imageFormat p) (s.ea m) s
  | .fnsave p m => saveState (s.imageFormat p) (s.ea m) s
  | .fsave p m => saveState (s.imageFormat p) (s.ea m) s
  | .frstor p m => restoreState (s.imageFormat p) (s.ea m) s
  | _ => s

/-- A store of `n` bytes at `a` and changes of the stack. -/
structure StoresAt (s u : State) (a : Word32) (n : Nat) : Prop where
  beyond : s.StackAndMemory u
  memory : s.SameMemoryBut u a n
  keeps : Keeps s u

/-- Changes of the stack and of the host's ZF, PF and CF. -/
structure FlagsOnly (s u : State) : Prop where
  beyond : u.beyondStack.setHostFlags false false false = s.beyondStack.setHostFlags false false false
  keeps : Keeps s u

/-- The next states of an instruction. -/
inductive Led (i : Instr) (s : State) : State → Prop
  /-- `#MF` instead of a waiting instruction. -/
  | raised (hn : i.nonWaiting = false) (hw : s.waitCheck = .raise) : Led i s s.raiseMF
  /-- The freeze instead of a waiting instruction. -/
  | froze (hn : i.nonWaiting = false) (hw : s.waitCheck = .freeze) : Led i s s.freeze
  /-- A host fault instead of an instruction with a memory operand. -/
  | denied (hr : i.nonWaiting = true ∨ s.Ready) (hg : ¬ s.Grants i) : Led i s s.raiseOperandFault
  /-- A non-control instruction that touches the stack only. -/
  | stack {u : State} (hr : s.Ready) (hg : s.Grants i) (hc : i.isControl = false) (hs : s.storedRange i = none)
    (h : OnStack (s.record i (s.dataPointer i)) u) : Led i s (u.retire i.length s.es)
  /-- A store of ST(0). -/
  | stored {a : Word32} {n : Nat} {u : State} (hr : s.Ready) (hg : s.Grants i) (hc : i.isControl = false)
    (hs : s.storedRange i = some (a, n)) (h : StoresAt (s.record i (s.dataPointer i)) u a n) : Led i s (u.retire i.length s.es)
  /-- A comparison into EFLAGS. -/
  | flagged {u : State} (hr : s.Ready) (hg : s.Grants i) (hc : i.isControl = false) (hf : i.writesHostFlags = true)
    (hs : s.storedRange i = none) (h : FlagsOnly (s.record i (s.dataPointer i)) u) : Led i s (u.retire i.length s.es)
  /-- A control instruction. -/
  | controlled (hr : i.nonWaiting = true ∨ s.Ready) (hg : s.Grants i) (hc : i.isControl = true) :
    Led i s ((s.controlled i).retire i.length s.es)

/-! ### One lemma per form -/

theorem okStack {f : State → State} (h : ∀ v, OnStack v (f v)) :
    ∀ v u, (Except.ok (f v) : Except Refusal State) = .ok u → OnStack v u := fun v u e => by
  injection e with e; exact e ▸ h v

theorem okStore {f : State → State} {a : Word32} {n : Nat} (h : ∀ v, StoresAt v (f v) a n) :
    ∀ v u, (Except.ok (f v) : Except Refusal State) = .ok u → StoresAt v u a n := fun v u e => by
  injection e with e; exact e ▸ h v

theorem okFlags {f : State → State} (h : ∀ v, FlagsOnly v (f v)) :
    ∀ v u, (Except.ok (f v) : Except Refusal State) = .ok u → FlagsOnly v u := fun v u e => by
  injection e with e; exact e ▸ h v

theorem storeTop_storesAt (a : Word32) {n : Nat} (hn : n ≤ 2 ^ 32) (b : Bool) (e : Nat) (f : Ext → StoreReply)
    (s : State) : StoresAt s (storeTop a n b e f s) a n where
  beyond := storeTop_beyond a n b e f s
  keeps := Keeps.storeTop a n b e f s
  memory := by
    cases h : s.isEmpty 0 with
    | true => exact (storeTop_empty a hn b e f h).1
    | false => rw [storeTop_full a n b e f h]; exact (storeReplied_effect a hn b _ s).1

theorem flagsOnly_compare (quiet testD : Bool) (n : Nat) (i : Idx) (s : State) :
    FlagsOnly s (compareStack .eflags quiet testD n i s) where
  keeps := Keeps.compareInto _ _ _ _ _ _ _ _
  beyond := by
    have e : ∀ (u : State) (a b c : Bool), (u.setHostFlags a b c).beyondStack.setHostFlags false false false =
      u.beyondStack.setHostFlags false false false := fun _ _ _ _ => rfl
    unfold compareStack compareInto
    split
    · rw [State.onStackFault_eq]
      split
      · rw [(OnStack.popN _ _).beyond]
        simp only [writeRelation]
        rw [(OnStack.drawCodes _).beyond, e, (OnStack.stackFault _ _).beyond]
      · rw [(OnStack.stackFault _ _).beyond]
    · split
      · rw [(OnStack.signalAll _ _).beyond]
      · rw [(OnStack.popN _ _).beyond, (OnStack.setC1 _ _).beyond]
        simp only [writeRelation]
        rw [(OnStack.drawCodes _).beyond, e, (OnStack.signalAll _ _).beyond]

namespace Led

variable {i : Instr} {s t : State} {p : Prefixes} {m : AddrMode} {n : Nat}

theorem grants_none (ho : i.parts.operand = none) : s.Grants i := fun m h => by rw [ho] at h; cases h

theorem grants (ho : i.parts.operand = some m) (hn : s.operandBytes i = n) (h : s.operandDenied (s.ea m) n = false) :
    s.Grants i := fun m' e => by
  rw [ho] at e
  injection e with e
  rw [← e, hn]; exact h

theorem not_grants (ho : i.parts.operand = some m) (hn : s.operandBytes i = n)
    (h : s.operandDenied (s.ea m) n = true) : ¬ s.Grants i := fun g => by
  have g := g m ho
  rw [hn, State.Allows, h] at g
  cases g

theorem pointer_none (ho : i.parts.operand = none) : s.dataPointer i = none := by rw [State.dataPointer, ho]; rfl

theorem pointer {k : Nat} (ho : i.parts = ⟨p, some m, k⟩) : s.dataPointer i = some (s.operandPtr p m) := by
  rw [State.dataPointer, ho]; rfl

theorem reg {body : Body} (h : runReg i body s = .next t) (hn : i.nonWaiting = false) (hc : i.isControl = false)
    (ho : i.parts.operand = none) (hs : s.storedRange i = none) (hb : ∀ v u, body v = .ok u → OnStack v u) :
    Led i s t := by
  rcases runReg_cases h with ⟨hw, rfl⟩ | ⟨hw, rfl⟩ | ⟨hr, u, hu, rfl⟩
  · exact .raised hn hw
  · exact .froze hn hw
  · exact .stack hr (grants_none ho) hc hs (pointer_none (s := s) ho ▸ hb _ _ hu)

theorem mem {body : Word32 → Body} {k : Nat} (h : runMem i p m n body s = .next t) (hn : i.nonWaiting = false)
    (hc : i.isControl = false) (ho : i.parts = ⟨p, some m, k⟩) (hk : s.operandBytes i = n) (hs : s.storedRange i = none)
    (hb : ∀ v u, body (s.ea m) v = .ok u → OnStack v u) : Led i s t := by
  have ho' : i.parts.operand = some m := congrArg Parts.operand ho
  rcases runMem_cases h with ⟨hw, rfl⟩ | ⟨hw, rfl⟩ | ⟨hr, hd, rfl⟩ | ⟨hr, hd, u, hu, rfl⟩
  · exact .raised hn hw
  · exact .froze hn hw
  · exact .denied (.inr hr) (not_grants ho' hk hd)
  · exact .stack hr (grants ho' hk hd) hc hs (pointer (s := s) ho ▸ hb _ _ hu)

theorem store {body : Word32 → Body} {k : Nat} (h : runMem i p m n body s = .next t) (hn : i.nonWaiting = false)
    (hc : i.isControl = false) (ho : i.parts = ⟨p, some m, k⟩) (hk : s.operandBytes i = n)
    (hs : s.storedRange i = some (s.ea m, n)) (hb : ∀ v u, body (s.ea m) v = .ok u → StoresAt v u (s.ea m) n) :
    Led i s t := by
  have ho' : i.parts.operand = some m := congrArg Parts.operand ho
  rcases runMem_cases h with ⟨hw, rfl⟩ | ⟨hw, rfl⟩ | ⟨hr, hd, rfl⟩ | ⟨hr, hd, u, hu, rfl⟩
  · exact .raised hn hw
  · exact .froze hn hw
  · exact .denied (.inr hr) (not_grants ho' hk hd)
  · exact .stored hr (grants ho' hk hd) hc hs (pointer (s := s) ho ▸ hb _ _ hu)

theorem eflags {body : Body} (h : runReg i body s = .next t) (hn : i.nonWaiting = false) (hc : i.isControl = false)
    (ho : i.parts.operand = none) (hf : i.writesHostFlags = true) (hs : s.storedRange i = none)
    (hb : ∀ v u, body v = .ok u → FlagsOnly v u) : Led i s t := by
  rcases runReg_cases h with ⟨hw, rfl⟩ | ⟨hw, rfl⟩ | ⟨hr, u, hu, rfl⟩
  · exact .raised hn hw
  · exact .froze hn hw
  · exact .flagged hr (grants_none ho) hc hf hs (pointer_none (s := s) ho ▸ hb _ _ hu)

theorem plain {body : State → State} (h : runPlainControl i body s = .next t) (hr : i.nonWaiting = true ∨ s.Ready)
    (hc : i.isControl = true) (ho : i.parts.operand = none) (hb : body s = s.controlled i) : Led i s t := by
  rw [runPlainControl_next] at h
  injection h with h
  rw [← h, hb]; exact .controlled hr (grants_none ho) hc

theorem waitPlain {body : State → State} (h : afterWait s (runPlainControl i body s) = .next t)
    (hn : i.nonWaiting = false) (hc : i.isControl = true) (ho : i.parts.operand = none)
    (hb : body s = s.controlled i) : Led i s t := by
  rcases afterWait_cases h with ⟨hw, rfl⟩ | ⟨hw, rfl⟩ | ⟨hr, h⟩
  · exact .raised hn hw
  · exact .froze hn hw
  · exact .plain h (.inr hr) hc ho hb

theorem memControl {body : Word32 → State → State} (h : runMemControl i m n body s = .next t)
    (hr : i.nonWaiting = true ∨ s.Ready) (ho : i.parts.operand = some m) (hk : s.operandBytes i = n)
    (hc : i.isControl = true) (hb : body (s.ea m) s = s.controlled i) : Led i s t := by
  rcases runMemControl_cases h with ⟨hd, rfl⟩ | ⟨hd, rfl⟩
  · exact .denied hr (not_grants ho hk hd)
  · rw [hb]; exact .controlled hr (grants ho hk hd) hc

theorem waitMemControl {body : Word32 → State → State} (h : afterWait s (runMemControl i m n body s) = .next t)
    (hn : i.nonWaiting = false) (ho : i.parts.operand = some m) (hk : s.operandBytes i = n) (hc : i.isControl = true)
    (hb : body (s.ea m) s = s.controlled i) : Led i s t := by
  rcases afterWait_cases h with ⟨hw, rfl⟩ | ⟨hw, rfl⟩ | ⟨hr, h⟩
  · exact .raised hn hw
  · exact .froze hn hw
  · exact .memControl h (.inr hr) ho hk hc hb

end Led

/-! ### All instructions -/

/-- Where any instruction can lead. -/
theorem led {s t : State} : ∀ i : Instr, exec i s = .next t → Led i s t
  | .faddM32real p m, h =>
    .mem (show execFaddM32real p m s = .next t from h) rfl rfl rfl rfl rfl fun _ _ => OnStack.arithMem
  | .fmulM32real p m, h =>
    .mem (show execFmulM32real p m s = .next t from h) rfl rfl rfl rfl rfl fun _ _ => OnStack.arithMem
  | .fcomM32real p m, h =>
    .mem (show execFcomM32real p m s = .next t from h) rfl rfl rfl rfl rfl (okStack fun _ => OnStack.compareCodes _ _ _ _ _ _ _)
  | .fcompM32real p m, h =>
    .mem (show execFcompM32real p m s = .next t from h) rfl rfl rfl rfl rfl (okStack fun _ => OnStack.compareCodes _ _ _ _ _ _ _)
  | .fsubM32real p m, h =>
    .mem (show execFsubM32real p m s = .next t from h) rfl rfl rfl rfl rfl fun _ _ => OnStack.arithMem
  | .fsubrM32real p m, h =>
    .mem (show execFsubrM32real p m s = .next t from h) rfl rfl rfl rfl rfl fun _ _ => OnStack.arithMem
  | .fdivM32real p m, h =>
    .mem (show execFdivM32real p m s = .next t from h) rfl rfl rfl rfl rfl fun _ _ => OnStack.arithMem
  | .fdivrM32real p m, h =>
    .mem (show execFdivrM32real p m s = .next t from h) rfl rfl rfl rfl rfl fun _ _ => OnStack.arithMem
  | .faddM64real p m, h =>
    .mem (show execFaddM64real p m s = .next t from h) rfl rfl rfl rfl rfl fun _ _ => OnStack.arithMem
  | .fmulM64real p m, h =>
    .mem (show execFmulM64real p m s = .next t from h) rfl rfl rfl rfl rfl fun _ _ => OnStack.arithMem
  | .fcomM64real p m, h =>
    .mem (show execFcomM64real p m s = .next t from h) rfl rfl rfl rfl rfl (okStack fun _ => OnStack.compareCodes _ _ _ _ _ _ _)
  | .fcompM64real p m, h =>
    .mem (show execFcompM64real p m s = .next t from h) rfl rfl rfl rfl rfl (okStack fun _ => OnStack.compareCodes _ _ _ _ _ _ _)
  | .fsubM64real p m, h =>
    .mem (show execFsubM64real p m s = .next t from h) rfl rfl rfl rfl rfl fun _ _ => OnStack.arithMem
  | .fsubrM64real p m, h =>
    .mem (show execFsubrM64real p m s = .next t from h) rfl rfl rfl rfl rfl fun _ _ => OnStack.arithMem
  | .fdivM64real p m, h =>
    .mem (show execFdivM64real p m s = .next t from h) rfl rfl rfl rfl rfl fun _ _ => OnStack.arithMem
  | .fdivrM64real p m, h =>
    .mem (show execFdivrM64real p m s = .next t from h) rfl rfl rfl rfl rfl fun _ _ => OnStack.arithMem
  | .fiaddM32int p m, h =>
    .mem (show execFiaddM32int p m s = .next t from h) rfl rfl rfl rfl rfl fun _ _ => OnStack.arithMem
  | .fimulM32int p m, h =>
    .mem (show execFimulM32int p m s = .next t from h) rfl rfl rfl rfl rfl fun _ _ => OnStack.arithMem
  | .ficomM32int p m, h =>
    .mem (show execFicomM32int p m s = .next t from h) rfl rfl rfl rfl rfl (okStack fun _ => OnStack.compareCodes _ _ _ _ _ _ _)
  | .ficompM32int p m, h =>
    .mem (show execFicompM32int p m s = .next t from h) rfl rfl rfl rfl rfl (okStack fun _ => OnStack.compareCodes _ _ _ _ _ _ _)
  | .fisubM32int p m, h =>
    .mem (show execFisubM32int p m s = .next t from h) rfl rfl rfl rfl rfl fun _ _ => OnStack.arithMem
  | .fisubrM32int p m, h =>
    .mem (show execFisubrM32int p m s = .next t from h) rfl rfl rfl rfl rfl fun _ _ => OnStack.arithMem
  | .fidivM32int p m, h =>
    .mem (show execFidivM32int p m s = .next t from h) rfl rfl rfl rfl rfl fun _ _ => OnStack.divideByInt
  | .fidivrM32int p m, h =>
    .mem (show execFidivrM32int p m s = .next t from h) rfl rfl rfl rfl rfl fun _ _ => OnStack.arithMem
  | .fiaddM16int p m, h =>
    .mem (show execFiaddM16int p m s = .next t from h) rfl rfl rfl rfl rfl fun _ _ => OnStack.arithMem
  | .fimulM16int p m, h =>
    .mem (show execFimulM16int p m s = .next t from h) rfl rfl rfl rfl rfl fun _ _ => OnStack.arithMem
  | .ficomM16int p m, h =>
    .mem (show execFicomM16int p m s = .next t from h) rfl rfl rfl rfl rfl (okStack fun _ => OnStack.compareCodes _ _ _ _ _ _ _)
  | .ficompM16int p m, h =>
    .mem (show execFicompM16int p m s = .next t from h) rfl rfl rfl rfl rfl (okStack fun _ => OnStack.compareCodes _ _ _ _ _ _ _)
  | .fisubM16int p m, h =>
    .mem (show execFisubM16int p m s = .next t from h) rfl rfl rfl rfl rfl fun _ _ => OnStack.arithMem
  | .fisubrM16int p m, h =>
    .mem (show execFisubrM16int p m s = .next t from h) rfl rfl rfl rfl rfl fun _ _ => OnStack.arithMem
  | .fidivM16int p m, h =>
    .mem (show execFidivM16int p m s = .next t from h) rfl rfl rfl rfl rfl fun _ _ => OnStack.divideByInt
  | .fidivrM16int p m, h =>
    .mem (show execFidivrM16int p m s = .next t from h) rfl rfl rfl rfl rfl fun _ _ => OnStack.arithMem
  | .fldM32real p m, h =>
    .mem (show execFldM32real p m s = .next t from h) rfl rfl rfl rfl rfl (okStack fun _ => OnStack.loadReal _ _)
  | .fstM32real p m, h =>
    .store (show execFstM32real p m s = .next t from h) rfl rfl rfl rfl rfl (okStore fun _ => storeTop_storesAt _ (by decide) _ _ _ _)
  | .fstpM32real p m, h =>
    .store (show execFstpM32real p m s = .next t from h) rfl rfl rfl rfl rfl (okStore fun _ => storeTop_storesAt _ (by decide) _ _ _ _)
  | .fldenv p m, h => .waitMemControl (show execFldenv p m s = .next t from h) rfl rfl rfl rfl rfl
  | .fldcw p m, h => .waitMemControl (show execFldcw p m s = .next t from h) rfl rfl rfl rfl rfl
  | .fnstenv p m, h => .memControl (show execFnstenv p m s = .next t from h) (.inl rfl) rfl rfl rfl rfl
  | .fnstcw p m, h => .memControl (show execFnstcw p m s = .next t from h) (.inl rfl) rfl rfl rfl rfl
  | .fildM32int p m, h =>
    .mem (show execFildM32int p m s = .next t from h) rfl rfl rfl rfl rfl (okStack fun _ => OnStack.loadValue _ _)
  | .fistM32int p m, h =>
    .store (show execFistM32int p m s = .next t from h) rfl rfl rfl rfl rfl (okStore fun _ => storeTop_storesAt _ (by decide) _ _ _ _)
  | .fistpM32int p m, h =>
    .store (show execFistpM32int p m s = .next t from h) rfl rfl rfl rfl rfl (okStore fun _ => storeTop_storesAt _ (by decide) _ _ _ _)
  | .fldM80real p m, h =>
    .mem (show execFldM80real p m s = .next t from h) rfl rfl rfl rfl rfl (okStack fun _ => OnStack.loadValue _ _)
  | .fstpM80real p m, h =>
    .store (show execFstpM80real p m s = .next t from h) rfl rfl rfl rfl rfl (okStore fun _ => storeTop_storesAt _ (by decide) _ _ _ _)
  | .fldM64real p m, h =>
    .mem (show execFldM64real p m s = .next t from h) rfl rfl rfl rfl rfl (okStack fun _ => OnStack.loadReal _ _)
  | .fstM64real p m, h =>
    .store (show execFstM64real p m s = .next t from h) rfl rfl rfl rfl rfl (okStore fun _ => storeTop_storesAt _ (by decide) _ _ _ _)
  | .fstpM64real p m, h =>
    .store (show execFstpM64real p m s = .next t from h) rfl rfl rfl rfl rfl (okStore fun _ => storeTop_storesAt _ (by decide) _ _ _ _)
  | .frstor p m, h => .waitMemControl (show execFrstor p m s = .next t from h) rfl rfl rfl rfl rfl
  | .fnsave p m, h => .memControl (show execFnsave p m s = .next t from h) (.inl rfl) rfl rfl rfl rfl
  | .fnstswM2byte p m, h => .memControl (show execFnstswM2byte p m s = .next t from h) (.inl rfl) rfl rfl rfl rfl
  | .fildM16int p m, h =>
    .mem (show execFildM16int p m s = .next t from h) rfl rfl rfl rfl rfl (okStack fun _ => OnStack.loadValue _ _)
  | .fistM16int p m, h =>
    .store (show execFistM16int p m s = .next t from h) rfl rfl rfl rfl rfl (okStore fun _ => storeTop_storesAt _ (by decide) _ _ _ _)
  | .fistpM16int p m, h =>
    .store (show execFistpM16int p m s = .next t from h) rfl rfl rfl rfl rfl (okStore fun _ => storeTop_storesAt _ (by decide) _ _ _ _)
  | .fbld p m, h => .mem (show execFbld p m s = .next t from h) rfl rfl rfl rfl rfl (okStack fun _ => OnStack.loadValue _ _)
  | .fildM64int p m, h =>
    .mem (show execFildM64int p m s = .next t from h) rfl rfl rfl rfl rfl (okStack fun _ => OnStack.loadValue _ _)
  | .fbstp p m, h =>
    .store (show execFbstp p m s = .next t from h) rfl rfl rfl rfl rfl (okStore fun _ => storeTop_storesAt _ (by decide) _ _ _ _)
  | .fistpM64int p m, h =>
    .store (show execFistpM64int p m s = .next t from h) rfl rfl rfl rfl rfl (okStore fun _ => storeTop_storesAt _ (by decide) _ _ _ _)
  | .faddSt0Sti p k, h => .reg (show execFaddSt0Sti p k s = .next t from h) rfl rfl rfl rfl fun _ _ => OnStack.arithStack
  | .fmulSt0Sti p k, h => .reg (show execFmulSt0Sti p k s = .next t from h) rfl rfl rfl rfl fun _ _ => OnStack.arithStack
  | .fcomSti p k, h =>
    .reg (show execFcomSti p k s = .next t from h) rfl rfl rfl rfl (okStack fun _ => OnStack.compareCodes _ _ _ _ _ _ _)
  | .fcompSti p k, h =>
    .reg (show execFcompSti p k s = .next t from h) rfl rfl rfl rfl (okStack fun _ => OnStack.compareCodes _ _ _ _ _ _ _)
  | .fsubSt0Sti p k, h => .reg (show execFsubSt0Sti p k s = .next t from h) rfl rfl rfl rfl fun _ _ => OnStack.arithStack
  | .fsubrSt0Sti p k, h => .reg (show execFsubrSt0Sti p k s = .next t from h) rfl rfl rfl rfl fun _ _ => OnStack.arithStack
  | .fdivSt0Sti p k, h => .reg (show execFdivSt0Sti p k s = .next t from h) rfl rfl rfl rfl fun _ _ => OnStack.arithStack
  | .fdivrSt0Sti p k, h => .reg (show execFdivrSt0Sti p k s = .next t from h) rfl rfl rfl rfl fun _ _ => OnStack.arithStack
  | .fldSti p k, h => .reg (show execFldSti p k s = .next t from h) rfl rfl rfl rfl (okStack fun _ => OnStack.loadStack _ _)
  | .fxch p k, h => .reg (show execFxch p k s = .next t from h) rfl rfl rfl rfl (okStack fun _ => OnStack.exchangeTop _ _)
  | .fnop p, h => .reg (show execFnop p s = .next t from h) rfl rfl rfl rfl (okStack fun _ => OnStack.drawAllCodes _)
  | .fchs p, h => .reg (show execFchs p s = .next t from h) rfl rfl rfl rfl (okStack fun _ => OnStack.editTop _ _)
  | .fabs p, h => .reg (show execFabs p s = .next t from h) rfl rfl rfl rfl (okStack fun _ => OnStack.editTop _ _)
  | .ftst p, h =>
    .reg (show execFtst p s = .next t from h) rfl rfl rfl rfl (okStack fun _ => OnStack.compareCodes _ _ _ _ _ _ _)
  | .fxam p, h => .reg (show execFxam p s = .next t from h) rfl rfl rfl rfl (okStack fun _ => OnStack.examineTop _)
  | .fld1 p, h => .reg (show execFld1 p s = .next t from h) rfl rfl rfl rfl (okStack fun _ => OnStack.loadValue _ _)
  | .fldl2t p, h => .reg (show execFldl2t p s = .next t from h) rfl rfl rfl rfl (okStack fun _ => OnStack.loadValue _ _)
  | .fldl2e p, h => .reg (show execFldl2e p s = .next t from h) rfl rfl rfl rfl (okStack fun _ => OnStack.loadValue _ _)
  | .fldpi p, h => .reg (show execFldpi p s = .next t from h) rfl rfl rfl rfl (okStack fun _ => OnStack.loadValue _ _)
  | .fldlg2 p, h => .reg (show execFldlg2 p s = .next t from h) rfl rfl rfl rfl (okStack fun _ => OnStack.loadValue _ _)
  | .fldln2 p, h => .reg (show execFldln2 p s = .next t from h) rfl rfl rfl rfl (okStack fun _ => OnStack.loadValue _ _)
  | .fldz p, h => .reg (show execFldz p s = .next t from h) rfl rfl rfl rfl (okStack fun _ => OnStack.loadValue _ _)
  | .f2xm1 p, h => .reg (show execF2xm1 p s = .next t from h) rfl rfl rfl rfl (okStack fun _ => OnStack.exp2m1Top _)
  | .fyl2x p, h => .reg (show execFyl2x p s = .next t from h) rfl rfl rfl rfl (okStack fun _ => OnStack.intoSecond _ _)
  | .fptan p, h => .reg (show execFptan p s = .next t from h) rfl rfl rfl rfl (okStack fun _ => OnStack.trigTwo _ _ _ _)
  | .fpatan p, h => .reg (show execFpatan p s = .next t from h) rfl rfl rfl rfl (okStack fun _ => OnStack.intoSecond _ _)
  | .fxtract p, h => .reg (show execFxtract p s = .next t from h) rfl rfl rfl rfl (okStack fun _ => OnStack.extractTop _)
  | .fprem1 p, h => .reg (show execFprem1 p s = .next t from h) rfl rfl rfl rfl (okStack fun _ => OnStack.remTop _ _)
  | .fdecstp p, h => .reg (show execFdecstp p s = .next t from h) rfl rfl rfl rfl (okStack fun _ => OnStack.rotate _ _)
  | .fincstp p, h => .reg (show execFincstp p s = .next t from h) rfl rfl rfl rfl (okStack fun _ => OnStack.rotate _ _)
  | .fprem p, h => .reg (show execFprem p s = .next t from h) rfl rfl rfl rfl (okStack fun _ => OnStack.remTop _ _)
  | .fyl2xp1 p, h => .reg (show execFyl2xp1 p s = .next t from h) rfl rfl rfl rfl (okStack fun _ => OnStack.yLog2xp1Top _)
  | .fsqrt p, h => .reg (show execFsqrt p s = .next t from h) rfl rfl rfl rfl fun _ _ => OnStack.sqrtTop
  | .fsincos p, h => .reg (show execFsincos p s = .next t from h) rfl rfl rfl rfl (okStack fun _ => OnStack.trigTwo _ _ _ _)
  | .frndint p, h => .reg (show execFrndint p s = .next t from h) rfl rfl rfl rfl (okStack fun _ => OnStack.onTop _ _)
  | .fscale p, h => .reg (show execFscale p s = .next t from h) rfl rfl rfl rfl (okStack fun _ => OnStack.scaleTop _)
  | .fsin p, h => .reg (show execFsin p s = .next t from h) rfl rfl rfl rfl (okStack fun _ => OnStack.trigOne _ _)
  | .fcos p, h => .reg (show execFcos p s = .next t from h) rfl rfl rfl rfl (okStack fun _ => OnStack.trigOne _ _)
  | .fcmovb p k, h =>
    .reg (ifPresent_cases (show execFcmovb p k s = .next t from h)).2 rfl rfl rfl rfl (okStack fun _ => OnStack.moveIf _ _ _)
  | .fcmove p k, h =>
    .reg (ifPresent_cases (show execFcmove p k s = .next t from h)).2 rfl rfl rfl rfl (okStack fun _ => OnStack.moveIf _ _ _)
  | .fcmovbe p k, h =>
    .reg (ifPresent_cases (show execFcmovbe p k s = .next t from h)).2 rfl rfl rfl rfl (okStack fun _ => OnStack.moveIf _ _ _)
  | .fcmovu p k, h =>
    .reg (ifPresent_cases (show execFcmovu p k s = .next t from h)).2 rfl rfl rfl rfl (okStack fun _ => OnStack.moveIf _ _ _)
  | .fucompp p, h =>
    .reg (show execFucompp p s = .next t from h) rfl rfl rfl rfl (okStack fun _ => OnStack.compareCodes _ _ _ _ _ _ _)
  | .fcmovnb p k, h =>
    .reg (ifPresent_cases (show execFcmovnb p k s = .next t from h)).2 rfl rfl rfl rfl (okStack fun _ => OnStack.moveIf _ _ _)
  | .fcmovne p k, h =>
    .reg (ifPresent_cases (show execFcmovne p k s = .next t from h)).2 rfl rfl rfl rfl (okStack fun _ => OnStack.moveIf _ _ _)
  | .fcmovnbe p k, h =>
    .reg (ifPresent_cases (show execFcmovnbe p k s = .next t from h)).2 rfl rfl rfl rfl (okStack fun _ => OnStack.moveIf _ _ _)
  | .fcmovnu p k, h =>
    .reg (ifPresent_cases (show execFcmovnu p k s = .next t from h)).2 rfl rfl rfl rfl (okStack fun _ => OnStack.moveIf _ _ _)
  | .feni p, h => .plain (show execFeni p s = .next t from h) (.inl rfl) rfl rfl rfl
  | .fdisi p, h => .plain (show execFdisi p s = .next t from h) (.inl rfl) rfl rfl rfl
  | .fnclex p, h => .plain (show execFnclex p s = .next t from h) (.inl rfl) rfl rfl rfl
  | .fninit p, h => .plain (show execFninit p s = .next t from h) (.inl rfl) rfl rfl rfl
  | .fsetpm p, h => .plain (show execFsetpm p s = .next t from h) (.inl rfl) rfl rfl rfl
  | .fucomi p k, h =>
    .eflags (ifPresent_cases (show execFucomi p k s = .next t from h)).2 rfl rfl rfl rfl rfl (okFlags fun _ => flagsOnly_compare _ _ _ _ _)
  | .fcomi p k, h =>
    .eflags (ifPresent_cases (show execFcomi p k s = .next t from h)).2 rfl rfl rfl rfl rfl (okFlags fun _ => flagsOnly_compare _ _ _ _ _)
  | .faddStiSt0 p k, h => .reg (show execFaddStiSt0 p k s = .next t from h) rfl rfl rfl rfl fun _ _ => OnStack.arithStack
  | .fmulStiSt0 p k, h => .reg (show execFmulStiSt0 p k s = .next t from h) rfl rfl rfl rfl fun _ _ => OnStack.arithStack
  | .fsubrStiSt0 p k, h => .reg (show execFsubrStiSt0 p k s = .next t from h) rfl rfl rfl rfl fun _ _ => OnStack.arithStack
  | .fsubStiSt0 p k, h => .reg (show execFsubStiSt0 p k s = .next t from h) rfl rfl rfl rfl fun _ _ => OnStack.arithStack
  | .fdivrStiSt0 p k, h => .reg (show execFdivrStiSt0 p k s = .next t from h) rfl rfl rfl rfl fun _ _ => OnStack.arithStack
  | .fdivStiSt0 p k, h => .reg (show execFdivStiSt0 p k s = .next t from h) rfl rfl rfl rfl fun _ _ => OnStack.arithStack
  | .ffree p k, h =>
    .reg (show execFfree p k s = .next t from h) rfl rfl rfl rfl (okStack fun _ => OnStack.freeRegister _ _)
  | .fstSti p k, h =>
    .reg (show execFstSti p k s = .next t from h) rfl rfl rfl rfl (okStack fun _ => OnStack.storeStack _ _ _)
  | .fstpSti p k, h =>
    .reg (show execFstpSti p k s = .next t from h) rfl rfl rfl rfl (okStack fun _ => OnStack.storeStack _ _ _)
  | .fucom p k, h =>
    .reg (show execFucom p k s = .next t from h) rfl rfl rfl rfl (okStack fun _ => OnStack.compareCodes _ _ _ _ _ _ _)
  | .fucomp p k, h =>
    .reg (show execFucomp p k s = .next t from h) rfl rfl rfl rfl (okStack fun _ => OnStack.compareCodes _ _ _ _ _ _ _)
  | .faddp p k, h => .reg (show execFaddp p k s = .next t from h) rfl rfl rfl rfl fun _ _ => OnStack.arithStack
  | .fmulp p k, h => .reg (show execFmulp p k s = .next t from h) rfl rfl rfl rfl fun _ _ => OnStack.arithStack
  | .fcompp p, h =>
    .reg (show execFcompp p s = .next t from h) rfl rfl rfl rfl (okStack fun _ => OnStack.compareCodes _ _ _ _ _ _ _)
  | .fsubrp p k, h => .reg (show execFsubrp p k s = .next t from h) rfl rfl rfl rfl fun _ _ => OnStack.arithStack
  | .fsubp p k, h => .reg (show execFsubp p k s = .next t from h) rfl rfl rfl rfl fun _ _ => OnStack.arithStack
  | .fdivrp p k, h => .reg (show execFdivrp p k s = .next t from h) rfl rfl rfl rfl fun _ _ => OnStack.arithStack
  | .fdivp p k, h => .reg (show execFdivp p k s = .next t from h) rfl rfl rfl rfl fun _ _ => OnStack.arithStack
  | .fnstswAx p, h => .plain (show execFnstswAx p s = .next t from h) (.inl rfl) rfl rfl rfl
  | .fucomip p k, h =>
    .eflags (ifPresent_cases (show execFucomip p k s = .next t from h)).2 rfl rfl rfl rfl rfl (okFlags fun _ => flagsOnly_compare _ _ _ _ _)
  | .fcomip p k, h =>
    .eflags (ifPresent_cases (show execFcomip p k s = .next t from h)).2 rfl rfl rfl rfl rfl (okFlags fun _ => flagsOnly_compare _ _ _ _ _)
  | .wait p, h => .waitPlain (show execWait p s = .next t from h) rfl rfl rfl rfl
  | .finit p, h => .waitPlain (show execFinit p s = .next t from h) rfl rfl rfl rfl
  | .fclex p, h => .waitPlain (show execFclex p s = .next t from h) rfl rfl rfl rfl
  | .fstcw p m, h => .waitMemControl (show execFstcw p m s = .next t from h) rfl rfl rfl rfl rfl
  | .fstswM2byte p m, h => .waitMemControl (show execFstswM2byte p m s = .next t from h) rfl rfl rfl rfl rfl
  | .fstswAx p, h => .waitPlain (show execFstswAx p s = .next t from h) rfl rfl rfl rfl
  | .fstenv p m, h => .waitMemControl (show execFstenv p m s = .next t from h) rfl rfl rfl rfl rfl
  | .fsave p m, h => .waitMemControl (show execFsave p m s = .next t from h) rfl rfl rfl rfl rfl

/-! ### Control instructions and the freeze -/

/-- What a control instruction does keeps memory, tags, summary and the host's inputs sound. -/
theorem Keeps.controlled (s : State) (i : Instr) : Keeps s (s.controlled i) := by
  unfold State.controlled
  split
  · exact Keeps.initialized s
  · exact Keeps.initialized s
  · exact Keeps.loadControl _ s
  · exact Keeps.storeControl _ s
  · exact Keeps.storeControl _ s
  · exact Keeps.storeStatus _ s
  · exact Keeps.storeStatus _ s
  · exact Keeps.statusToAx s
  · exact Keeps.statusToAx s
  · exact Keeps.clearExceptions s
  · exact Keeps.clearExceptions s
  · exact Keeps.saveEnvironment _ _ s
  · exact Keeps.saveEnvironment _ _ s
  · exact Keeps.restoreEnvironment _ _ s
  · exact Keeps.saveState _ _ s
  · exact Keeps.saveState _ _ s
  · exact Keeps.restoreState _ _ s
  · exact Keeps.refl s

/-- Loading an environment changes none of the host's registers. -/
@[simp] theorem loadEnvironment_zf (e : Environment) (s : State) : (loadEnvironment e s).zf = s.zf := rfl
@[simp] theorem loadEnvironment_pf (e : Environment) (s : State) : (loadEnvironment e s).pf = s.pf := rfl
@[simp] theorem loadEnvironment_cf (e : Environment) (s : State) : (loadEnvironment e s).cf = s.cf := rfl
@[simp] theorem loadEnvironment_gprs (e : Environment) (s : State) : (loadEnvironment e s).gprs = s.gprs := rfl

/-- No control instruction changes the host's flags. -/
theorem State.controlled_flags (s : State) (i : Instr) :
    (s.controlled i).zf = s.zf ∧ (s.controlled i).pf = s.pf ∧ (s.controlled i).cf = s.cf := by
  unfold State.controlled
  split <;> first
    | (simp only [restoreEnvironment, restoreState, loadEnvironment_zf, loadEnvironment_pf, loadEnvironment_cf]
       exact ⟨rfl, rfl, rfl⟩)
    | (simp only [restoreEnvironment, loadEnvironment_zf, loadEnvironment_pf, loadEnvironment_cf, and_self]; done)
    | exact ⟨rfl, rfl, rfl⟩

/-- Only the stores of the status word to AX change a general register. -/
theorem State.controlled_gprs (s : State) (i : Instr) (h : i.writesAx = false) : (s.controlled i).gprs = s.gprs := by
  unfold State.controlled
  split <;> first
    | (simp only [restoreEnvironment, restoreState, loadEnvironment_gprs]; done)
    | (simp only [restoreState, loadEnvironment_gprs]; rfl)
    | rfl
    | (exact absurd h (by simp [Instr.writesAx]))

/-- The freeze changes only FERR#, the freeze itself and the events. -/
theorem State.freeze_fields (s : State) :
    ∃ e, s.freeze = { s with ferr := true, frozen := true, events := e } := by
  unfold State.freeze State.setFerr
  split
  · rename_i h; exact ⟨_, by rw [show (true = s.ferr) from h.symm]; rfl⟩
  · exact ⟨_, rfl⟩

end Sys2Proof.Machine
end

