-- ==== Sys2Proof/Laws/Fetch.lean ====
section
/-! SUPPORT. The fetch window holds the whole of any instruction that stands at the pc: prefixes are bytes that memory
lists, and what follows them is at most 8 bytes long. -/

namespace Sys2Proof.Machine

theorem readBytes_getElem (m : Memory) (a : Word32) (n k : Nat) (hk : k < (readBytes m a n).length) :
    (readBytes m a n)[k] = readByte m (a + BitVec.ofNat 32 k).toNat := by
  induction n generalizing a k with
  | zero => simp [readBytes] at hk
  | succ n ih =>
    cases k with
    | zero => simp [readBytes]
    | succ k =>
      simp only [readBytes, List.getElem_cons_succ]
      rw [ih]
      congr 2
      rw [BitVec.add_assoc]; congr 1
      apply BitVec.eq_of_toNat_eq; simp [Nat.add_comm]

/-- A byte that does not read as the unlisted one is listed. -/
theorem listed_of_readByte {m : Memory} {a : Nat} (h : readByte m a ≠ unlistedByte) : a ∈ m.map Prod.fst := by
  induction m with
  | nil => exact absurd rfl h
  | cons e r ih =>
    obtain ⟨k, b⟩ := e
    by_cases hk : k = a
    · simp [hk]
    · rw [readByte, if_neg hk] at h
      exact List.mem_cons_of_mem _ (ih h)

theorem Prefix.byte_ne (x : Prefix) : x.byte ≠ unlistedByte := by
  rcases x with _ | _ | r | _ | _
  · decide
  · decide
  · cases r <;> decide
  · decide
  · decide

/-- Memory lists at least as many bytes as prefixes stand before an opcode byte. -/
theorem prefixes_le {m : Memory} {a : Word32} {p : Prefixes} {b : Byte} (hb : endsPrefixes b = true)
    (hp : ∀ (k : Nat) (hk : k < p.length), readByte m (a + BitVec.ofNat 32 k).toNat = p[k].byte)
    (he : readByte m (a + BitVec.ofNat 32 p.length).toNat = b) : p.length ≤ m.length := by
  have hlt : p.length < 2 ^ 32 := by
    by_contra hge
    have hk : p.length - 2 ^ 32 < p.length := by omega
    have h := hp _ hk
    rw [show BitVec.ofNat 32 (p.length - 2 ^ 32) = BitVec.ofNat 32 p.length by
      apply BitVec.eq_of_toNat_eq; simp only [BitVec.toNat_ofNat]; omega, he] at h
    rw [h, endsPrefixes, Prefix.ofByte_byte] at hb
    exact absurd hb (by simp)
  have hn : ((List.range p.length).map fun k => (a + BitVec.ofNat 32 k).toNat).Nodup := by
    refine List.Nodup.map_on (fun x hx y hy hxy => ?_) List.nodup_range
    rw [List.mem_range] at hx hy
    have := congrArg BitVec.toNat (add_left_cancel (BitVec.eq_of_toNat_eq hxy))
    simp only [BitVec.toNat_ofNat] at this
    omega
  have hs : ((List.range p.length).map fun k => (a + BitVec.ofNat 32 k).toNat) ⊆ m.map Prod.fst := by
    intro x hx
    obtain ⟨k, hk, rfl⟩ := List.mem_map.mp hx
    rw [List.mem_range] at hk
    exact listed_of_readByte (by rw [hp k hk]; exact Prefix.byte_ne _)
  simpa using (hn.subperm hs).length_le

/-- The bytes of prefixes and an opcode byte, followed by any others. -/
theorem prefixes_le_of_read {m : Memory} {a : Word32} {p : Prefixes} {b : Byte} {r : List Byte} {n : Nat}
    (hb : endsPrefixes b = true) (h : readBytes m a n = p.encode ++ b :: r) : p.length ≤ m.length := by
  have hl : n = p.length + (r.length + 1) := by simpa using congrArg List.length h
  have hg : ∀ k (hk : k < n), readByte m (a + BitVec.ofNat 32 k).toNat = (p.encode ++ b :: r)[k]'(by simp; omega) := by
    intro k hk
    rw [← readBytes_getElem m a n k (by simpa using hk)]
    simp only [h]
  refine prefixes_le (a := a) hb (fun k hk => ?_) ?_
  · rw [hg k (by omega), List.getElem_append_left (by simpa using hk)]
    simp [Prefixes.encode]
  · rw [hg _ (by omega), List.getElem_append_right (by simp)]
    simp

theorem AddrMode.extraBytes_le (m : AddrMode) : m.extraBytes ≤ 5 := by
  have h : ∀ {w : Nat}, w ≤ 32 → ∀ d : Disp w, d.bytes ≤ 4 := fun hw d => by cases d <;> simp [Disp.bytes] <;> omega
  have h32 := fun d => h (le_refl 32) d
  have h16 := fun d => h (by decide : 16 ≤ 32) d
  cases m with
  | abs32 => simp [AddrMode.extraBytes]
  | reg32 b d => exact (h32 d).trans (by decide)
  | sib32 b i sc d => have := h32 d; simp only [AddrMode.extraBytes]; omega
  | sibAbs32 => simp [AddrMode.extraBytes]
  | abs16 => simp [AddrMode.extraBytes]
  | reg16 b d => exact (h16 d).trans (by decide)

/-- An instruction that stands at the pc is no longer than the window. -/
theorem length_le_window {s : State} {i : Instr} (h : readBytes s.mem s.eip i.length = encode i) :
    i.length ≤ s.mem.length + 16 := by
  have hw : ∀ {r : List Byte}, readBytes s.mem s.eip i.length = 0x9B :: r →
      readBytes s.mem (s.eip + 1) (i.length - 1) = r := by
    intro r hr
    have hl : i.length = r.length + 1 := by simpa using congrArg List.length hr
    rw [hl, readBytes] at hr
    rw [hl]; exact (List.cons.inj hr).2
  have hlen : i.length = (encode i).length := rfl
  rw [encode] at h hlen
  cases hs : i.shape with
  | mem o r p m =>
    rw [hs, Shape.encode] at h hlen
    have := prefixes_le_of_read (endsPrefixes_escByte o) h
    have := AddrMode.extraBytes_le m
    simp only [List.length_append, List.length_cons, Prefixes.encode_length, AddrMode.tail_length] at hlen
    omega
  | reg o r n p =>
    rw [hs, Shape.encode] at h hlen
    have := prefixes_le_of_read (endsPrefixes_escByte o) h
    simp at hlen
    omega
  | wait p =>
    rw [hs, Shape.encode] at h hlen
    have := prefixes_le_of_read endsPrefixes_wait h
    simp at hlen
    omega
  | waitMem o r p m =>
    rw [hs, Shape.encode] at h hlen
    have := prefixes_le_of_read (endsPrefixes_escByte o) (hw h)
    have := AddrMode.extraBytes_le m
    simp only [List.length_append, List.length_cons, Prefixes.encode_length, AddrMode.tail_length] at hlen
    omega
  | waitReg o r n p =>
    rw [hs, Shape.encode] at h hlen
    have := prefixes_le_of_read (endsPrefixes_escByte o) (hw h)
    simp at hlen
    omega

/-- The window begins with the bytes of the instruction that stands at the pc. -/
theorem fetchWindow_of_read {s : State} {i : Instr} (h : readBytes s.mem s.eip i.length = encode i) :
    ∃ rest, s.fetchWindow = encode i ++ rest := by
  obtain ⟨k, hk⟩ := Nat.exists_eq_add_of_le (length_le_window h)
  exact ⟨_, by rw [State.fetchWindow, hk, readBytes_add, h]⟩

end Sys2Proof.Machine
end

