-- ==== Sys2Proof/Laws/Remainders.lean ====
section
/-! SUPPORT. Everything that rounding to an integer, scaling by a power of two and the remainder answer for finite operands
(43_basic_arithmetic.md R360 to R365, 45_transcendental.md R438). -/

namespace Sys2Proof.Machine

/-! ### Rounding to an integer -/

/-- A multiple of the quantum is not rounded. -/
theorem roundAt_exact (rm : RoundMode) (v : Exact) (hd : v.mag.den ≠ 0) (q : ℤ) (n : ℕ)
    (h : v.mag.toRat = n * (2 : ℚ) ^ q) : roundAt rm v q = ⟨n, q, false, false⟩ := by
  obtain ⟨lo, rem, d, dp, hr, hv, hh⟩ := roundAt_cases rm v hd q
  have two : (0 : ℚ) < (2 : ℚ) ^ q := by positivity
  have dq : (0 : ℚ) < d := by exact_mod_cast dp
  rw [h] at hv
  have : (n : ℚ) = lo + rem / d := mul_right_cancel₀ two.ne' hv
  have h2 : (n : ℚ) * d = lo * d + rem := by rw [this]; field_simp
  have h3 : n * d = lo * d + rem := by exact_mod_cast h2
  have h4 : rem = 0 := by
    have : rem % d = 0 := by
      have := congrArg (· % d) h3
      simpa [Nat.mul_mod_left] using this.symm
    rwa [Nat.mod_eq_of_lt hr] at this
  subst h4
  have : n = lo := Nat.eq_of_mul_eq_mul_right dp (by simpa using h3)
  rw [hh, if_pos rfl, this]

/-- The integer that a finite value is rounded to (43_basic_arithmetic.md R365). -/
theorem roundInt_spec (rm : RoundMode) (x : Ext) :
    ∃ k : ℤ, RoundedTo rm 1 (realOf x) k ∧ k.natAbs = (roundInt rm (valOf x)).mant ∧
      (k = if signOf x then -((roundInt rm (valOf x)).mant : ℤ) else (roundInt rm (valOf x)).mant) ∧
      ((roundInt rm (valOf x)).inexact = true ↔ (k : ℚ) ≠ realOf x) ∧
      ((roundInt rm (valOf x)).up = decide (|realOf x| < |(k : ℚ)|)) := by
  have hd : (valOf x).mag.den ≠ 0 := one_ne_zero
  have h := roundAt_roundedTo rm (valOf x) hd 0
  have hi := roundAt_inexact rm (valOf x) hd 0
  have hu := roundAt_up rm (valOf x) hd 0
  have hm : (roundAt rm (valOf x) 0).toMag.toRat = (roundAt rm (valOf x) 0).mant := by
    rw [Rounded.toMag_toRat, roundAt_quantum]; simp
  rw [hm] at hi hu
  rw [zpow_zero] at h
  unfold Exact.toRat at h
  simp only [hm] at h
  have hab : (valOf x).mag.toRat = |realOf x| := (abs_realOf x).symm
  rw [hab] at hi hu
  refine ⟨if signOf x then -((roundInt rm (valOf x)).mant : ℤ) else (roundInt rm (valOf x)).mant, ?_, ?_, rfl, ?_, ?_⟩
  · have e : ((if signOf x then -((roundInt rm (valOf x)).mant : ℤ) else ((roundInt rm (valOf x)).mant : ℤ) : ℤ) : ℚ) =
        if (valOf x).neg = true then -((roundAt rm (valOf x) 0).mant : ℚ) else ((roundAt rm (valOf x) 0).mant : ℚ) := by
      show _ = if signOf x = true then _ else _
      unfold roundInt
      split <;> push_cast <;> rfl
    rw [e]; exact h
  · split <;> simp
  · show (roundAt rm (valOf x) 0).inexact = true ↔ _
    rw [hi]
    have hx : realOf x = if signOf x then -|realOf x| else |realOf x| := by
      rw [abs_realOf]; rfl
    unfold roundInt
    constructor
    · intro hne heq
      apply hne
      rw [← heq]; split <;> simp
    · intro hne heq
      apply hne
      rw [hx, ← heq]; split <;> push_cast <;> rfl
  · rw [Bool.eq_iff_iff]
    show (roundAt rm (valOf x) 0).up = true ↔ _
    rw [hu, decide_eq_true_iff]
    unfold roundInt
    split <;> simp

theorem realOf_signed (x : Ext) : realOf x = if signOf x then -|realOf x| else |realOf x| := by rw [abs_realOf]; rfl

/-- The rounded integer has an encoding. -/
theorem roundInt_enc (rm : RoundMode) {x : Ext} (hf : isFinite x = true) (neg : Bool) :
    isFinite (enc80 neg (roundInt rm (valOf x)).mant 0) = true ∧ signOf (enc80 neg (roundInt rm (valOf x)).mant 0) = neg ∧
    |realOf (enc80 neg (roundInt rm (valOf x)).mant 0)| = (roundInt rm (valOf x)).mant := by
  have hx := abs_realOf_lt hf
  have hn : (magOf x).num < 2 ^ 64 := sigOf_lt x
  by_cases he : 1 ≤ (magOf x).exp
  · obtain ⟨k, hk⟩ := Int.eq_ofNat_of_zero_le (by omega : 0 ≤ (magOf x).exp)
    have hv : (magOf x).toRat = (((magOf x).num * 2 ^ k : ℕ) : ℚ) * (2 : ℚ) ^ (0 : ℤ) := by
      unfold Mag.toRat; rw [hk]; simp [magOf]
    have hr : roundInt rm (valOf x) = ⟨(magOf x).num * 2 ^ k, 0, false, false⟩ := roundAt_exact rm (valOf x) one_ne_zero 0 _ hv
    rw [hr, abs_realOf]
    simp only
    by_cases h0 : (magOf x).num = 0
    · have := enc80_grid neg (m := 0) (q := 0) (by norm_num) (by norm_num) (by norm_num)
      rw [h0, Nat.zero_mul, ← abs_realOf]; simpa using this
    · have hl : ((magOf x).num * 2 ^ k).log2 = (magOf x).num.log2 + k := by
        rw [Nat.log2_eq_iff (by positivity)]
        constructor
        · rw [pow_add]; exact Nat.mul_le_mul_right _ (Nat.log2_self_le h0)
        · rw [show (magOf x).num.log2 + k + 1 = ((magOf x).num.log2 + 1) + k by ring, pow_add]
          exact Nat.mul_lt_mul_of_pos_right Nat.lt_log2_self (by positivity)
      have hl6 : (magOf x).num.log2 < 64 := (Nat.log2_lt h0).mpr hn
      have := enc80_spec neg ((magOf x).num * 2 ^ k) 0 (by positivity) (by
          rw [hl]; exact (pow_dvd_pow 2 (by omega)).trans (Dvd.intro_left _ rfl)) (by norm_num) (by
          rw [abs_realOf, hv, zpow_zero, mul_one] at hx
          have h1 : (2 : ℚ) ^ (((magOf x).num * 2 ^ k).log2 : ℤ) ≤ (((magOf x).num * 2 ^ k : ℕ) : ℚ) := by
            rw [zpow_natCast]; exact_mod_cast Nat.log2_self_le (by positivity)
          have := (zpow_lt_zpow_iff_right₀ (one_lt_two : (1 : ℚ) < 2)).mp (h1.trans_lt hx)
          omega)
      simpa using this
  · have hm : (roundInt rm (valOf x)).mant < 2 ^ 64 := by
      clear hx
      refine lt_of_le_of_lt ?_ hn
      obtain ⟨lo, rem, d, dp, hr, hv, hh⟩ := roundAt_cases rm (valOf x) one_ne_zero 0
      have dq : (0 : ℚ) < d := by exact_mod_cast dp
      have hle : (valOf x).mag.toRat ≤ (magOf x).num := by
        show (magOf x).toRat ≤ _
        unfold Mag.toRat
        rw [show ((magOf x).den : ℚ) = 1 by simp [magOf], div_one]
        exact mul_le_of_le_one_right (by positivity) (zpow_le_one_of_nonpos₀ one_le_two (by omega))
      rw [hv, zpow_zero, mul_one] at hle
      unfold roundInt
      rw [hh]
      split
      · rename_i h0; subst h0; simp at hle ⊢; exact_mod_cast hle
      · rename_i h0
        have : (0 : ℚ) < rem / d := div_pos (by exact_mod_cast Nat.pos_of_ne_zero h0) dq
        have : (lo : ℚ) < (magOf x).num := by linarith
        have : lo < (magOf x).num := by exact_mod_cast this
        simp only; split <;> omega
    have := enc80_grid neg hm (q := 0) (by norm_num) (by
      have : ((roundInt rm (valOf x)).mant : ℚ) < (2 : ℚ) ^ 64 := by exact_mod_cast hm
      rw [zpow_zero, mul_one]
      exact this.trans (by rw [← zpow_natCast]; exact zpow_lt_zpow_right₀ one_lt_two (by norm_num)))
    simpa using this

/-- Everything FRNDINT answers for a finite operand (43_basic_arithmetic.md R365). -/
theorem rndint_finite {cw : Word16} {x : Ext} (hf : isFinite x = true) (hd : isDenormal x = false ∨ maskedIn cw .d = true) :
    ∃ v c fl, rndint cw x = ⟨(if isDenormal x then [.d] else []) ++ fl, some ⟨v, c⟩⟩ ∧ isFinite v = true ∧ (∃ k : ℤ,
        realOf v = k) ∧
      RoundedTo (roundMode cw) 1 (realOf x) (realOf v) ∧ signOf v = signOf x ∧ fl = (if realOf v = realOf x then [] else [.p]) ∧
      c = decide (|realOf x| < |realOf v|) := by
  unfold rndint
  rw [nanCheck1_ordered (isOrdered_of_isFinite hf)]
  by_cases hz : classOf x = .zero
  · have h0 : realOf x = 0 := (realOf_eq_zero_iff_zero hf).mpr hz
    simp only [hz, or_true, if_true, isDenormal_eq_false (.inl hz)]
    refine ⟨x, false, [], rfl, hf, ⟨0, by rw [h0]; simp⟩, ?_, rfl, by simp, by simp⟩
    rw [h0]
    unfold RoundedTo
    split <;> norm_num
  · obtain ⟨k, k1, k2, k3, k4, k5⟩ := roundInt_spec (roundMode cw) x
    simp only [hz, (isFinite_classes hf).2.2.2, or_self, if_false]
    rw [Reply.afterDenormal_masked _ hd]
    have hq : (roundInt (roundMode cw) (valOf x)).quantum = 0 := roundAt_quantum _ _ _
    obtain ⟨e1, e2, e3⟩ := roundInt_enc (roundMode cw) hf (signOf x)
    rw [hq]
    have hv : realOf (enc80 (signOf x) (roundInt (roundMode cw) (valOf x)).mant 0) = k := by
      rw [realOf_signed, e2, e3, k3]; split <;> push_cast <;> rfl
    refine ⟨_, _, _, rfl, e1, ⟨k, hv⟩, by rw [hv]; exact k1, e2, ?_, by rw [hv]; exact k5⟩
    rw [hv]
    unfold inexactFlag
    by_cases hk : (k : ℚ) = realOf x
    · rw [if_pos hk, if_neg (by rw [k4]; exact not_not.mpr hk)]
    · rw [if_neg hk, if_pos (k4.mpr hk)]

/-! ### Delivering a representable value -/

/-- The statement's clause. -/
def DeliversExact (cw : Word16) (neg : Bool) (L : ℤ) (v : ℚ) (flags : List Exc) (w : Written) : Prop :=
  if 16384 ≤ L then
    if maskedIn cw .o = true then
      flags = [.o, .p] ∧
      if OverflowsToInfinity (roundMode cw) v then w = ⟨inf80 neg, true⟩
      else isFinite w.value = true ∧ signOf w.value = neg ∧ w.c1 = false ∧
        |realOf w.value| = (2 : ℚ) ^ (16384 : ℤ) - (2 : ℚ) ^ (16320 : ℤ)
    else flags = [.o] ∧ w.c1 = false ∧
      if 16384 ≤ L - 24576 then w.value = inf80 neg
      else isFinite w.value = true ∧ realOf w.value = v * (2 : ℚ) ^ (-24576 : ℤ)
  else if L < -16382 then
    if maskedIn cw .u = true then
      isFinite w.value = true ∧ signOf w.value = neg ∧
      RoundedTo (roundMode cw) ((2 : ℚ) ^ (-16445 : ℤ)) v (realOf w.value) ∧
      flags = (if realOf w.value = v then [] else [.u, .p]) ∧ (w.c1 = true ↔ |v| < |realOf w.value|)
    else flags = [.u] ∧ w.c1 = false ∧
      if L + 24576 < -16382 then w.value = zero80 neg
      else isFinite w.value = true ∧ realOf w.value = v * (2 : ℚ) ^ (24576 : ℤ)
  else isFinite w.value = true ∧ realOf w.value = v ∧ flags = [] ∧ w.c1 = false

theorem exact_neg {v : Exact} (hn : v.mag.num ≠ 0) (hd : v.mag.den ≠ 0) : v.neg = true ↔ v.toRat < 0 := by
  have := Mag.toRat_pos hn hd
  unfold Exact.toRat; cases v.neg <;> simp <;> linarith

/-- Everything the delivery of a value with at most 64 significant bits answers (40_numerics.md R210 to R214). -/
theorem deliver_representable (cw : Word16) (v : Exact) (hn : v.mag.num ≠ 0) (hd : v.mag.den ≠ 0) (n : ℕ)
    (h : v.mag.toRat = n * (2 : ℚ) ^ (v.mag.log2 - 63)) :
    DeliversExact cw v.neg v.mag.log2 v.toRat (deliver cw 64 v).flags ⟨(deliver cw 64 v).value, (deliver cw 64 v).c1⟩ := by
  have hr : roundTo (roundMode cw) v 64 = ⟨n, v.mag.log2 - 63, false, false⟩ := by
    unfold roundTo
    rw [show v.mag.log2 - (64:ℕ) + 1 = v.mag.log2 - 63 by push_cast; ring]
    exact roundAt_exact _ _ hd _ _ h
  have hs := Mag.log2_spec hn hd
  have hlog : (roundTo (roundMode cw) v 64).log2 = v.mag.log2 := by
    obtain ⟨m1, m2⟩ := roundTo_mant (roundMode cw) v hn hd (p := 64) (by norm_num)
    rw [hr] at m1 m2
    simp only at m1 m2
    rw [hr, Rounded.log2]
    have m3 : n < 2 ^ 64 := by
      have : v.mag.toRat < (2:ℚ)^64 * (2 : ℚ) ^ (v.mag.log2 - 63) := by
        refine hs.2.trans_le (le_of_eq ?_)
        rw [← zpow_natCast, ← zpow_add₀ two_ne_zero]; congr 1; push_cast; ring
      rw [h] at this
      have := lt_of_mul_lt_mul_right this (by positivity)
      exact_mod_cast this
    have : n.log2 = 63 := by
      rw [Nat.log2_eq_iff (by omega)]; exact ⟨m1, m3⟩
    simp [this]
  have hsc := fun b a1 a2 => enc80_scaled (roundMode cw) v hn hd (p := 64) (by norm_num) le_rfl (b := b) a1 a2
  have hval : Exact.toRat ⟨v.neg, (roundTo (roundMode cw) v 64).toMag⟩ = v.toRat := by
    have : (roundTo (roundMode cw) v 64).toMag.toRat = v.mag.toRat := by rw [Rounded.toMag_toRat, hr, h]
    unfold Exact.toRat; simp only [this]
  rw [hlog, hval] at hsc
  have hneg := exact_neg hn hd
  have hne : v.toRat ≠ 0 := by
    have := Mag.toRat_pos hn hd
    unfold Exact.toRat; split <;> linarith
  have hdef : deliver cw 64 v = if 16384 ≤ v.mag.log2 then deliverOverflow cw 64 v.neg (roundTo (roundMode cw) v 64)
    else if v.mag.log2 < -16382 then deliverTiny cw v (roundTo (roundMode cw) v 64) else
      ⟨enc80 v.neg (roundTo (roundMode cw) v 64).mant (roundTo (roundMode cw) v 64).quantum,
          (roundTo (roundMode cw) v 64).up, inexactFlag (roundTo (roundMode cw) v 64).inexact⟩ := by
    rw [← hlog]; rfl
  unfold DeliversExact
  generalize hL : v.mag.log2 = L at *
  by_cases o : 16384 ≤ L
  · rw [if_pos o, hdef, if_pos o]
    unfold deliverOverflow
    by_cases mo : maskedIn cw .o = true
    · rw [if_pos mo, if_pos mo]
      have hov : overflowsToInf (roundMode cw) v.neg = true ↔ OverflowsToInfinity (roundMode cw) v.toRat := by
        unfold overflowsToInf OverflowsToInfinity
        cases roundMode cw <;> simp [hneg]
        · constructor
          · intro h
            have : ¬ v.toRat < 0 := fun hh => by rw [hneg.mpr hh] at h; cases h
            exact lt_of_le_of_ne (not_lt.mp this) hne.symm
          · intro h; by_contra hc; have := hneg.mp (by simpa using hc); linarith
      by_cases hi : overflowsToInf (roundMode cw) v.neg = true
      · rw [if_pos hi, if_pos (hov.mp hi)]; exact ⟨rfl, rfl⟩
      · rw [if_neg hi, if_neg (mt hov.mpr hi)]
        obtain ⟨f1, f2, -, f4⟩ := maxFinite80_spec v.neg (p := 64) (by norm_num) le_rfl
        exact ⟨rfl, f1, f2, rfl, by rw [f4]; norm_num⟩
    · rw [if_neg mo, if_neg mo]
      rw [hlog]
      refine ⟨by rw [hr]; rfl, by rw [hr], ?_⟩
      by_cases mm : 16384 ≤ L - 24576
      · rw [if_pos mm, if_pos mm]
      · rw [if_neg mm, if_neg mm]
        obtain ⟨g1, g2⟩ := hsc (-24576) (by omega) (by omega)
        exact ⟨g1, g2⟩
  · rw [if_neg o]
    by_cases tn : L < -16382
    · rw [if_pos tn]
      by_cases mu : maskedIn cw .u = true
      · rw [if_pos mu]
        obtain ⟨t1, t2, t3, t4, t5,
            t6⟩ := Machine.deliver_tiny cw v hn hd (by norm_num : 1 ≤ 64) le_rfl mu (by rw [hlog]; exact tn)
        rw [hL] at t3
        have hmax : max ((2 : ℚ) ^ (L - (64 : ℕ) + 1)) ((2 : ℚ) ^ (-16445 : ℤ)) = (2 : ℚ) ^ (-16445 : ℤ) :=
          max_eq_right (zpow_le_zpow_right₀ one_le_two (by push_cast; omega))
        rw [hmax] at t3
        have hab : |v.toRat| = v.mag.toRat := by
          have := Mag.toRat_nonneg v.mag
          unfold Exact.toRat; split <;> simp [abs_of_nonneg this]
        refine ⟨t1, t2, t3, ?_, by rw [hab, abs_realOf]; exact t6⟩
        rw [t5]
        have : (magOf (deliver cw 64 v).value).toRat = v.mag.toRat ↔ realOf (deliver cw 64 v).value = v.toRat := by
          rw [realOf_signed, abs_realOf, t2]; unfold Exact.toRat; cases v.neg <;> simp
        simp only [this]
      · rw [if_neg mu, hdef, if_neg o, if_pos tn]
        unfold deliverTiny
        rw [if_neg mu]
        rw [hlog]
        refine ⟨by rw [hr]; rfl, by rw [hr], ?_⟩
        by_cases mm : L + 24576 < -16382
        · rw [if_pos mm, if_pos mm]
        · rw [if_neg mm, if_neg mm]
          obtain ⟨g1, g2⟩ := hsc 24576 (by omega) (by omega)
          exact ⟨g1, g2⟩
    · rw [if_neg tn, hdef, if_neg o, if_neg tn]
      obtain ⟨g1, g2⟩ := hsc 0 (by omega) (by omega)
      rw [add_zero, zpow_zero, mul_one] at *
      exact ⟨g1, g2, by rw [hr]; rfl, by rw [hr]⟩

/-- Two tiny values of one sign, below half the quantum, round alike. -/
theorem rounded_alike {rm : RoundMode} {u v v' r : ℚ} (hu : 0 < u) (hr : ∃ k : ℤ, r = k * u) (h : RoundedTo rm u v' r)
    (h1 : |v'| < u / 2) (h2 : |v| < u / 2) (hs : v' < 0 ↔ v < 0) (h0 : v ≠ 0) (h0' : v' ≠ 0) : RoundedTo rm u v r ∧ r ≠ v ∧
        r ≠ v' ∧ (|v| < |r| ↔ |v'| < |r|) := by
  obtain ⟨k, rfl⟩ := hr
  obtain ⟨a1, a2⟩ := abs_lt.mp h1
  obtain ⟨b1, b2⟩ := abs_lt.mp h2
  have key : ∀ w : ℚ, |w| < u / 2 → w ≠ 0 → (k : ℚ) * u ≠ w := by
    intro w hw hw0 he
    rcases eq_or_ne k 0 with rfl | hk
    · simp at he; exact hw0 he.symm
    · have : (1 : ℚ) ≤ |(k : ℚ)| := by rw [← Int.cast_abs]; exact_mod_cast Int.one_le_abs hk
      rw [← he, abs_mul, abs_of_pos hu] at hw
      nlinarith
  have cmp : ∀ w : ℚ, |w| < u / 2 → (|w| < |(k : ℚ) * u| ↔ k ≠ 0) := by
    intro w hw
    rcases eq_or_ne k 0 with rfl | hk
    · simp
    · have : (1 : ℚ) ≤ |(k : ℚ)| := by rw [← Int.cast_abs]; exact_mod_cast Int.one_le_abs hk
      refine iff_of_true ?_ hk
      rw [abs_mul, abs_of_pos hu]; nlinarith
  refine ⟨?_, key v h2 h0, key v' h1 h0', by rw [cmp v h2, cmp v' h1]⟩
  have kz : ∀ {a b : ℤ}, (a : ℚ) * u < k * u → (k : ℚ) * u < b * u → a < k ∧ k < b := fun ha hb =>
    ⟨by exact_mod_cast lt_of_mul_lt_mul_right ha hu.le, by exact_mod_cast lt_of_mul_lt_mul_right hb hu.le⟩
  have hsgn : 0 < v' ↔ 0 < v := by
    constructor
    · intro h; rcases lt_trichotomy v 0 with g | g | g
      · exact absurd (hs.mpr g) (by linarith)
      · exact absurd g h0
      · exact g
    · intro h; rcases lt_trichotomy v' 0 with g | g | g
      · exact absurd (hs.mp g) (by linarith)
      · exact absurd g h0'
      · exact g
  cases rm with
  | nearest =>
    obtain ⟨h, -⟩ := h
    obtain ⟨c1, c2⟩ := abs_le.mp h
    obtain ⟨d1, d2⟩ := kz (a := -1) (b := 1) (by push_cast; linarith) (by push_cast; linarith)
    have : k = 0 := by omega
    subst this
    have e : |(((0 : ℤ) : ℚ) * u) - v| = |v| := by simp
    exact ⟨by rw [e]; exact h2.le, fun hh => by rw [e] at hh; linarith⟩
  | down =>
    obtain ⟨c1, c2⟩ := h
    rcases lt_or_gt_of_ne h0' with hv | hv
    · have := hs.mp hv
      obtain ⟨d1, d2⟩ := kz (a := -2) (b := 0) (by push_cast; linarith) (by push_cast; linarith)
      have : k = -1 := by omega
      subst this; push_cast; exact ⟨by linarith, by linarith⟩
    · have := hsgn.mp hv
      obtain ⟨d1, d2⟩ := kz (a := -1) (b := 1) (by push_cast; linarith) (by push_cast; linarith)
      have : k = 0 := by omega
      subst this; push_cast; exact ⟨by linarith, by linarith⟩
  | up =>
    obtain ⟨c1, c2⟩ := h
    rcases lt_or_gt_of_ne h0' with hv | hv
    · have := hs.mp hv
      obtain ⟨d1, d2⟩ := kz (a := -1) (b := 1) (by push_cast; linarith) (by push_cast; linarith)
      have : k = 0 := by omega
      subst this; push_cast; exact ⟨by linarith, by linarith⟩
    · have := hsgn.mp hv
      obtain ⟨d1, d2⟩ := kz (a := 0) (b := 2) (by push_cast; linarith) (by push_cast; linarith)
      have : k = 1 := by omega
      subst this; push_cast; exact ⟨by linarith, by linarith⟩
  | zero =>
    obtain ⟨c1, c2, c3⟩ := h
    have : k = 0 := by
      by_contra hk
      have := (cmp v' h1).mpr hk
      linarith
    subst this
    have : |v| < u := h2.trans (by linarith)
    exact ⟨by simp, by simp, by simpa using this⟩

/-! ### Scaling -/

/-- The product of FSCALE, exactly. -/
theorem scale_facts {x : Ext} {n e : ℤ} (hx : realOf x ≠ 0) (e1 : (2 : ℚ) ^ e ≤ |realOf x|)
    (e2 : |realOf x| < (2 : ℚ) ^ (e + 1)) :
    ((magOf x).scale n).num ≠ 0 ∧ ((magOf x).scale n).den ≠ 0 ∧ ((magOf x).scale n).log2 = e + n ∧
    (Exact.toRat ⟨signOf x, (magOf x).scale n⟩ = realOf x * (2 : ℚ) ^ n) ∧
    ∃ k : ℕ, ((magOf x).scale n).toRat = k * (2 : ℚ) ^ (((magOf x).scale n).log2 - 63) := by
  have hnum : (magOf x).num ≠ 0 := sigOf_ne_of hx
  have hv : ((magOf x).scale n).toRat = (magOf x).toRat * (2:ℚ)^n := by
    unfold Mag.scale Mag.toRat
    simp only
    rw [zpow_add₀ two_ne_zero]; ring
  have hvn : ((magOf x).scale n).num ≠ 0 := hnum
  have hvd : ((magOf x).scale n).den ≠ 0 := one_ne_zero
  have hvl : ((magOf x).scale n).log2 = e + n := by
    refine Mag.log2_unique hvn hvd ?_ ?_
    · rw [hv, zpow_add₀ two_ne_zero, ← abs_realOf]; exact mul_le_mul_of_nonneg_right e1 (by positivity)
    · rw [hv, show e + n + 1 = (e + 1) + n by ring, zpow_add₀ two_ne_zero, ← abs_realOf]
      exact mul_lt_mul_of_pos_right e2 (by positivity)
  refine ⟨hvn, hvd, hvl, ?_, ?_⟩
  · rw [realOf_signed, abs_realOf]; unfold Exact.toRat; simp only [hv]; split <;> ring
  · rw [hvl, hv, magOf_toRat]
    have hE : e - 63 ≤ ((max (expOf x) 1 : ℕ) - 16446 : ℤ) := by
      have h := e1
      rw [abs_realOf, magOf_toRat] at h
      have hs : (sigOf x : ℚ) < (2:ℚ)^(64:ℤ) := by rw [show ((2:ℚ)^(64:ℤ)) = ((2^64 : ℕ) : ℚ) by norm_num]; exact_mod_cast sigOf_lt _
      have := h.trans_lt (mul_lt_mul_of_pos_right hs (by positivity))
      rw [← zpow_add₀ two_ne_zero] at this
      have := (zpow_lt_zpow_iff_right₀ (one_lt_two : (1 : ℚ) < 2)).mp this
      omega
    refine ⟨sigOf x * 2 ^ (((max (expOf x) 1 : ℕ) - 16446 : ℤ) - (e - 63)).toNat, ?_⟩
    push_cast
    rw [← zpow_natCast, Int.toNat_of_nonneg (by push_cast at hE ⊢; linarith)]
    rw [mul_assoc, mul_assoc, ← zpow_add₀ two_ne_zero, ← zpow_add₀ two_ne_zero]
    congr 2
    ring

/-- The truncated scale, kept within 65536 of 0 (45_transcendental.md R438). -/
theorem scaleCount_clamped {x : Ext} {n : ℤ} (h1 : |(n : ℚ)| ≤ |realOf x|) (h2 : |realOf x| < |(n : ℚ)| + 1)
   (h3 : 0 ≤ (n : ℚ) * realOf x) : scaleCount x = if 65536 < n then 65536 else if n < -65536 then -65536 else n := by
  obtain ⟨lo, rem, d, dp, hr, hv, hh⟩ := roundAt_cases .zero (valOf x) (by simp [valOf, magOf]) 0
  have dq : (0 : ℚ) < d := by exact_mod_cast dp
  have hm : |realOf x| = (lo : ℚ) + rem / d := by rw [abs_realOf]; simpa [valOf] using hv
  have hf : (0 : ℚ) ≤ rem / d ∧ (rem : ℚ) / d < 1 := ⟨by positivity, by rw [div_lt_one dq]; exact_mod_cast hr⟩
  have habs : |(n : ℚ)| = (n.natAbs : ℚ) := by rw [← Int.cast_abs, Int.abs_eq_natAbs]; rfl
  have hlo : lo = n.natAbs := by
    have a : (n.natAbs : ℚ) < lo + 1 := by rw [← habs]; linarith
    have b : (lo : ℚ) < n.natAbs + 1 := by rw [← habs]; linarith
    have a' : n.natAbs < lo + 1 := by exact_mod_cast a
    have b' : lo < n.natAbs + 1 := by exact_mod_cast b
    omega
  have hmant : (roundInt .zero (valOf x)).mant = lo := by
    unfold roundInt; rw [hh]; split
    · rfl
    · simp [choosesUp]
  unfold scaleCount
  rw [hmant, hlo]
  simp only
  by_cases h0 : n = 0
  · subst h0; simp
  · have hx : realOf x ≠ 0 := by
      intro h; rw [h] at h1; simp at h1; exact h0 h1
    cases hs : signOf x
    · have : ¬ realOf x < 0 := fun h => by rw [(realOf_neg_iff hx).mp h] at hs; cases hs
      have hp : 0 < realOf x := lt_of_le_of_ne (not_lt.mp this) hx.symm
      have : (0 : ℚ) ≤ n := nonneg_of_mul_nonneg_left h3 hp
      have : 0 ≤ n := by exact_mod_cast this
      simp only [Bool.false_eq_true, if_false]
      split <;> [skip; split] <;> omega
    · have hp : realOf x < 0 := (realOf_neg_iff hx).mpr hs
      have : (n : ℚ) ≤ 0 := by
        by_contra h
        exact absurd h3 (not_le.mpr (mul_neg_of_pos_of_neg (not_le.mp h) hp))
      have : n ≤ 0 := by exact_mod_cast this
      rw [if_pos rfl]
      split <;> [skip; split] <;> omega

/-- Beyond the massive overflow and underflow every scale is delivered alike. -/
theorem DeliversExact.of_clamped {cw neg L L' v v' fl w} (h : DeliversExact cw neg L' v' fl w) (h0 : v ≠ 0) (h0' : v' ≠ 0)
    (hs : v' < 0 ↔ v < 0)
    (hb : |v| < (2 : ℚ) ^ (L + 1)) (hb' : |v'| < (2 : ℚ) ^ (L' + 1))
    (hL : (40960 ≤ L ∧ 40960 ≤ L') ∨ (L < -40958 ∧ L' < -40958)) : DeliversExact cw neg L v fl w := by
  have hs' : 0 < v' ↔ 0 < v := by
    have a := lt_trichotomy v 0
    have b := lt_trichotomy v' 0
    constructor <;> intro h
    · rcases a with a | a | a
      · have := hs.mpr a; linarith
      · exact absurd a h0
      · exact a
    · rcases b with b | b | b
      · have := hs.mp b; linarith
      · exact absurd b h0'
      · exact b
  unfold DeliversExact at *
  rcases hL with ⟨a, b⟩ | ⟨a, b⟩
  · rw [if_pos (by omega)] at h ⊢
    rw [if_pos (by omega : 16384 ≤ L' - 24576)] at h
    rw [if_pos (by omega : 16384 ≤ L - 24576)]
    have : OverflowsToInfinity (roundMode cw) v' ↔ OverflowsToInfinity (roundMode cw) v := by
      unfold OverflowsToInfinity; rw [hs, hs']
    simp only [this] at h
    exact h
  · rw [if_neg (by omega), if_pos (by omega)] at h ⊢
    rw [if_pos (by omega : L' + 24576 < -16382)] at h
    rw [if_pos (by omega : L + 24576 < -16382)]
    split at h
    · rename_i hm
      rw [if_pos hm]
      obtain ⟨a1, a2, a3, a4, a5⟩ := h
      have half : (2 : ℚ) ^ (-16446 : ℤ) = (2 : ℚ) ^ (-16445 : ℤ) / 2 := by
        rw [show (-16446 : ℤ) = -16445 - 1 by norm_num, zpow_sub₀ two_ne_zero, zpow_one]
      have hu : (0 : ℚ) < (2 : ℚ) ^ (-16445 : ℤ) := by positivity
      have lt1 : |v'| < (2 : ℚ) ^ (-16445 : ℤ) / 2 := by rw [← half]; exact hb'.trans_le (zpow_le_zpow_right₀ one_le_two (by omega))
      have lt2 : |v| < (2 : ℚ) ^ (-16445 : ℤ) / 2 := by rw [← half]; exact hb.trans_le (zpow_le_zpow_right₀ one_le_two (by omega))
      obtain ⟨k, hk⟩ := realOf_multiple w.value
      obtain ⟨b1, b2, b3, b4⟩ := rounded_alike hu ⟨k, hk⟩ a3 lt1 lt2 hs h0 h0'
      refine ⟨a1, a2, b1, ?_, a5.trans b4.symm⟩
      rw [a4, if_neg b2, if_neg b3]
    · rename_i hm
      rw [if_neg hm]
      exact h

/-! ### The remainder -/

/-- A multiple of the quantum rounds to itself. -/
theorem rounded_exact {rm : RoundMode} {u v r : ℚ} (hu : 0 < u) (hv : ∃ k : ℤ, v = k * u) (hr : ∃ k : ℤ, r = k * u)
    (h : RoundedTo rm u v r) : r = v := by
  obtain ⟨a, rfl⟩ := hv
  obtain ⟨b, rfl⟩ := hr
  have key : ∀ {a b : ℤ}, (a : ℚ) * u < b * u → a < b := fun h => by exact_mod_cast lt_of_mul_lt_mul_right h hu.le
  have key' : ∀ {a b : ℤ}, (a : ℚ) * u ≤ b * u → a ≤ b := fun h => by exact_mod_cast le_of_mul_le_mul_right h hu
  have : b = a := by
    cases rm with
    | nearest =>
      obtain ⟨c1, c2⟩ := abs_le.mp h.1
      have := key (a := a - 1) (b := b) (by push_cast; linarith)
      have := key (a := b) (b := a + 1) (by push_cast; linarith)
      omega
    | down =>
      have := key' h.1
      have := key (a := a) (b := b + 1) (by push_cast; linarith [h.2])
      omega
    | up =>
      have := key' h.1
      have := key (a := b) (b := a + 1) (by push_cast; linarith [h.2])
      omega
    | zero =>
      obtain ⟨h1, h2, h3⟩ := h
      rw [abs_mul, abs_mul, abs_of_pos hu, ← Int.cast_abs, ← Int.cast_abs] at h2 h3
      have a1 := key' h2
      have a2 := key (a := |a|) (b := |b| + 1) (by push_cast; push_cast at h3; linarith)
      have a3 : 0 ≤ b * a := by
        have h4 : (0 : ℚ) ≤ ((b * a : ℤ) : ℚ) * (u * u) := by push_cast; linarith
        exact_mod_cast nonneg_of_mul_nonneg_left h4 (by positivity)
      have a4 : |a| = |b| := by omega
      rcases abs_eq_abs.mp a4 with h | h
      · exact h.symm
      · rcases eq_or_ne b 0 with rfl | h0
        · simpa using h.symm
        · subst h
          have := mul_self_pos.mpr h0
          nlinarith
  rw [this]

/-- A multiple of a power of two by 64 bits is representable. -/
theorem representable_of_small {r : ℕ} (h0 : r ≠ 0) (h : ∃ j w : ℕ, r = w * 2 ^ j ∧ w < 2 ^ 64) (e : ℤ) :
    ∃ k : ℕ, Mag.toRat ⟨r, 1, e⟩ = k * (2 : ℚ) ^ ((⟨r, 1, e⟩ : Mag).log2 - 63) := by
  obtain ⟨j, w, rfl, hw⟩ := h
  have hw0 : w ≠ 0 := by rintro rfl; simp at h0
  have hl : w.log2 < 64 := (Nat.log2_lt hw0).mpr hw
  have hlog : (⟨w * 2 ^ j, 1, e⟩ : Mag).log2 = w.log2 + j + e := by
    have p : (0 : ℚ) < (2 : ℚ) ^ ((j : ℤ) + e) := by positivity
    have e1 : Mag.toRat ⟨w * 2 ^ j, 1, e⟩ = w * (2 : ℚ) ^ ((j : ℤ) + e) := by
      unfold Mag.toRat; push_cast; rw [zpow_add₀ two_ne_zero, zpow_natCast]; ring
    refine Mag.log2_unique h0 one_ne_zero ?_ ?_
    · rw [e1, add_assoc, zpow_add₀ two_ne_zero]
      refine mul_le_mul_of_nonneg_right ?_ p.le
      rw [zpow_natCast]; exact_mod_cast Nat.log2_self_le hw0
    · rw [e1, show (w.log2 : ℤ) + j + e + 1 = ((w.log2 : ℤ) + 1) + (j + e) by ring, zpow_add₀ two_ne_zero ((w.log2 : ℤ) + 1)]
      refine mul_lt_mul_of_pos_right ?_ p
      exact_mod_cast Nat.lt_log2_self
  refine ⟨w * 2 ^ (63 - w.log2), ?_⟩
  rw [hlog]
  unfold Mag.toRat
  push_cast
  rw [div_one, ← zpow_natCast, ← zpow_natCast, mul_assoc, mul_assoc, ← zpow_add₀ two_ne_zero, ← zpow_add₀ two_ne_zero]
  congr 2
  omega

/-- What the remainder needs of the reduction. -/
theorem remWrite_spec (cw : Word16) (x : Ext) {r e : ℤ} (c : Option ℕ) (hrep : ∃ j w : ℕ, r.natAbs = w * 2 ^ j ∧ w < 2 ^ 64)
    (he : -16445 ≤ e) {v : ℚ} (hv : v = if signOf x = true then -((r : ℚ) * (2 : ℚ) ^ e) else (r : ℚ) * (2 : ℚ) ^ e) (hlt : |v| < (2 : ℚ) ^ (16384 : ℤ)) :
    ∃ z fl, remWrite cw x (r, e, c) = ⟨fl, some ⟨z, .ofQuotient c⟩⟩ ∧ isFinite z = true ∧ (v = 0 → signOf z = signOf x) ∧
      (if v ≠ 0 ∧ |v| < (2 : ℚ) ^ (-16382 : ℤ) ∧ maskedIn cw .u = false then realOf z = v * (2 : ℚ) ^ (24576 : ℤ) ∧ fl = [.u]
       else realOf z = v ∧ fl = []) := by
  have pe : (0 : ℚ) < (2 : ℚ) ^ e := by positivity
  unfold remWrite
  by_cases h0 : r = 0
  · subst h0
    have v0 : v = 0 := by rw [hv]; simp
    rw [if_pos rfl]
    have hf : isFinite (zero80 (signOf x)) = true := by cases signOf x <;> decide
    have hz : classOf (zero80 (signOf x)) = .zero := by cases signOf x <;> decide
    refine ⟨_, [], rfl, hf, fun _ => signOf_pack _ _ _, ?_⟩
    rw [if_neg (by simp [v0])]
    exact ⟨((realOf_eq_zero_iff_zero hf).mpr hz).trans v0.symm, rfl⟩
  · rw [if_neg h0]
    simp only
    have hn : r.natAbs ≠ 0 := Int.natAbs_ne_zero.mpr h0
    obtain ⟨k, hk⟩ := representable_of_small hn hrep e
    have hd := deliver_representable cw ⟨signOf x != decide (r < 0), ⟨r.natAbs, 1, e⟩⟩ hn one_ne_zero k hk
    have hex : Exact.toRat ⟨signOf x != decide (r < 0), ⟨r.natAbs, 1, e⟩⟩ = v := by
      rw [hv]
      unfold Exact.toRat Mag.toRat
      have : (r.natAbs : ℚ) = if r < 0 then -(r : ℚ) else r := by
        have h1 : (r.natAbs : ℚ) = |(r : ℚ)| := by rw [← Int.cast_abs, Int.abs_eq_natAbs]; rfl
        rw [h1]
        split
        · exact abs_of_neg (by exact_mod_cast ‹r < 0›)
        · exact abs_of_nonneg (by exact_mod_cast not_lt.mp ‹¬ r < 0›)
      simp only [this]
      by_cases hr : r < 0 <;> cases signOf x <;> simp [hr]
    rw [hex] at hd
    have hv0 : v ≠ 0 := by
      rw [hv]
      have : (r : ℚ) * (2 : ℚ) ^ e ≠ 0 := mul_ne_zero (by exact_mod_cast h0) pe.ne'
      split
      · exact neg_ne_zero.mpr this
      · exact this
    have hs := Mag.log2_spec (m := ⟨r.natAbs, 1, e⟩) hn one_ne_zero
    have hm : Mag.toRat ⟨r.natAbs, 1, e⟩ = |v| := by
      rw [← hex]; unfold Exact.toRat
      have := Mag.toRat_nonneg ⟨r.natAbs, 1, e⟩
      simp only; split <;> simp [abs_of_nonneg this]
    rw [hm] at hs
    have hL : (⟨r.natAbs, 1, e⟩ : Mag).log2 < 16384 := (zpow_lt_zpow_iff_right₀ (one_lt_two : (1 : ℚ) < 2)).mp (hs.1.trans_lt hlt)
    have hlow : -16446 < (⟨r.natAbs, 1, e⟩ : Mag).log2 := by
      have h1 : (2 : ℚ) ^ (-16445 : ℤ) ≤ |v| := by
        rw [← hm]; unfold Mag.toRat
        simp only [Nat.cast_one, div_one]
        have : (1 : ℚ) ≤ r.natAbs := by exact_mod_cast Nat.one_le_iff_ne_zero.mpr hn
        exact (zpow_le_zpow_right₀ one_le_two he).trans (le_mul_of_one_le_left pe.le this)
      have := (zpow_lt_zpow_iff_right₀ (one_lt_two : (1 : ℚ) < 2)).mp (h1.trans_lt hs.2)
      omega
    have htiny : |v| < (2 : ℚ) ^ (-16382 : ℤ) ↔ (⟨r.natAbs, 1, e⟩ : Mag).log2 < -16382 := by
      constructor
      · intro h; exact (zpow_lt_zpow_iff_right₀ (one_lt_two : (1 : ℚ) < 2)).mp (hs.1.trans_lt h)
      · intro h; exact hs.2.trans_le (zpow_le_zpow_right₀ one_le_two (by omega))
    unfold DeliversExact at hd
    rw [if_neg (by show ¬ (16384 ≤ (⟨r.natAbs, 1, e⟩ : Mag).log2); omega)] at hd
    refine ⟨_, _, rfl, ?_⟩
    by_cases ht : (⟨r.natAbs, 1, e⟩ : Mag).log2 < -16382
    · rw [if_pos ht] at hd
      by_cases mu : maskedIn cw .u = true
      · rw [if_pos mu] at hd
        obtain ⟨a1, a2, a3, a4, a5⟩ := hd
        have hmul : ∃ k : ℤ, v = k * (2 : ℚ) ^ (-16445 : ℤ) := by
          refine ⟨(if signOf x = true then -r else r) * 2 ^ (e + 16445).toNat, ?_⟩
          rw [hv]
          push_cast
          rw [← zpow_natCast, Int.toNat_of_nonneg (by omega), mul_assoc, ← zpow_add₀ two_ne_zero, add_neg_cancel_right]
          split <;> ring
        have := rounded_exact (by positivity) hmul (realOf_multiple _) a3
        refine ⟨a1, fun h => absurd h hv0, ?_⟩
        rw [if_neg (by rw [mu]; simp)]
        refine ⟨this, ?_⟩
        rw [a4, if_pos this]
      · rw [if_neg mu, if_neg (by show ¬ ((⟨r.natAbs, 1, e⟩ : Mag).log2 + 24576 < -16382); omega)] at hd
        obtain ⟨a1, a2, a3, a4⟩ := hd
        refine ⟨a3, fun h => absurd h hv0, ?_⟩
        rw [if_pos ⟨hv0, htiny.mpr ht, by simpa using mu⟩]
        exact ⟨a4, a1⟩
    · rw [if_neg ht] at hd
      refine ⟨hd.1, fun h => absurd h hv0, ?_⟩
      rw [if_neg (fun h => ht (htiny.mp h.2.1))]
      exact ⟨hd.2.1, hd.2.2.1⟩

/-- The quotient of a complete reduction: toward zero for FPREM, to nearest even for FPREM1. -/
theorem remQuotient_spec (ieee : Bool) {n m : ℕ} (hm : 0 < m) :
    let q := remQuotient ieee n m
    let r : ℤ := (n : ℤ) - q * m
    (if ieee then 2 * |r| ≤ m ∧ (2 * |r| = m → q % 2 = 0) else 0 ≤ r ∧ r < m) ∧ r.natAbs ≤ n ∧ r.natAbs ≤ m := by
  have hdm := Nat.div_add_mod n m
  have hlt := Nat.mod_lt n hm
  simp only
  unfold remQuotient
  generalize n / m = lo at *
  generalize n % m = rem at *
  have e1 : ((n : ℕ) : ℤ) = m * lo + rem := by exact_mod_cast hdm.symm
  cases ieee
  · simp only [Bool.false_and, Bool.false_eq_true, if_false]
    have : (n : ℤ) - lo * m = rem := by rw [e1]; ring
    rw [this]
    have : rem ≤ n := by rw [← hdm]; omega
    omega
  · simp only [Bool.true_and, if_true]
    unfold choosesUp
    simp only [Bool.or_eq_true, decide_eq_true_eq, Bool.and_eq_true, beq_iff_eq]
    by_cases hu : m < 2 * rem ∨ (2 * rem = m ∧ lo % 2 = 1)
    · rw [if_pos hu]
      have : (n : ℤ) - ((lo + 1 : ℕ) : ℤ) * m = rem - m := by rw [e1]; push_cast; ring
      rw [this]
      have hab : |(rem : ℤ) - m| = m - rem := by rw [abs_of_nonpos (by omega)]; ring
      rw [hab]
      have hn : rem ≤ n := by rw [← hdm]; omega
      refine ⟨⟨by omega, fun h => by omega⟩, ?_, ?_⟩ <;> omega
    · rw [if_neg hu]
      have : (n : ℤ) - (lo : ℤ) * m = rem := by rw [e1]; ring
      rw [this]
      have hab : |(rem : ℤ)| = rem := abs_of_nonneg (by omega)
      rw [hab]
      have hn : rem ≤ n := by rw [← hdm]; omega
      refine ⟨⟨by omega, fun h => by omega⟩, ?_, ?_⟩ <;> omega

theorem premStep_range : 32 ≤ premStep ∧ premStep ≤ 63 := by
  unfold premStep
  have := Config.premStepOffset.isLt
  omega

/-- The partial reduction. -/
theorem partial_spec {n m a b j k : ℕ} (hn : n = a * 2 ^ j) (ha : a < 2 ^ 64) (ha0 : a ≠ 0) (hm : m = b) (hb : b < 2 ^ 64)
    (hb0 : b ≠ 0)
    (hk : k + b.log2 + 1 ≤ a.log2 + j) :
    let Q := n / m / 2 ^ k * 2 ^ k
    Q * m ≤ n ∧ 0 < Q ∧ ∃ i w : ℕ, n - Q * m = w * 2 ^ i ∧ w < 2 ^ 64 := by
  subst hm
  have hmp : 0 < m := Nat.pos_of_ne_zero hb0
  simp only
  have h1 : n / m / 2 ^ k = n / (m * 2 ^ k) := Nat.div_div_eq_div_mul _ _ _
  rw [h1]
  have hp : 0 < m * 2 ^ k := by positivity
  have hdm := Nat.div_add_mod n (m * 2 ^ k)
  have hlt := Nat.mod_lt n hp
  have hle : m * 2 ^ k ≤ n := by
    have b1 : m < 2 ^ (m.log2 + 1) := Nat.lt_log2_self
    have a1 := Nat.log2_self_le ha0
    calc m * 2 ^ k ≤ 2 ^ (m.log2 + 1) * 2 ^ k := Nat.mul_le_mul_right _ b1.le
      _ = 2 ^ (k + m.log2 + 1) := by rw [← pow_add]; congr 1; ring
      _ ≤ 2 ^ (a.log2 + j) := Nat.pow_le_pow_right (by decide) hk
      _ = 2 ^ a.log2 * 2 ^ j := pow_add _ _ _
      _ ≤ n := by rw [hn]; exact Nat.mul_le_mul_right _ a1
  have hq : 0 < n / (m * 2 ^ k) := Nat.div_pos hle hp
  have hr : n - n / (m * 2 ^ k) * 2 ^ k * m = n % (m * 2 ^ k) := by
    have : n / (m * 2 ^ k) * 2 ^ k * m = (m * 2 ^ k) * (n / (m * 2 ^ k)) := by ring
    rw [this]; omega
  refine ⟨?_, Nat.mul_pos hq (by positivity), ?_⟩
  · have : n / (m * 2 ^ k) * 2 ^ k * m = (m * 2 ^ k) * (n / (m * 2 ^ k)) := by ring
    rw [this]; omega
  · rw [hr]
    have hrn : n % (m * 2 ^ k) ≤ n := Nat.mod_le _ _
    rcases le_total k j with h | h
    · have hd : 2 ^ k ∣ n % (m * 2 ^ k) :=
        (Nat.dvd_mod_iff (Dvd.intro_left _ rfl)).mpr (by rw [hn]; exact (pow_dvd_pow 2 h).trans (Dvd.intro_left _ rfl))
      obtain ⟨w, hw⟩ := hd
      refine ⟨k, w, by rw [hw, Nat.mul_comm], ?_⟩
      rw [hw] at hlt
      have : w < m := by
        by_contra hc
        have : m * 2 ^ k ≤ 2 ^ k * w := by rw [Nat.mul_comm]; exact Nat.mul_le_mul_left _ (not_lt.mp hc)
        omega
      omega
    · have hd : 2 ^ j ∣ n % (m * 2 ^ k) :=
        (Nat.dvd_mod_iff ((pow_dvd_pow 2 h).trans (Dvd.intro_left _ rfl))).mpr (by rw [hn]; exact Dvd.intro_left _ rfl)
      obtain ⟨w, hw⟩ := hd
      refine ⟨j, w, by rw [hw, Nat.mul_comm], ?_⟩
      rw [hw, hn] at hrn
      have : w ≤ a := by
        by_contra hc
        have : a * 2 ^ j < 2 ^ j * w := by rw [Nat.mul_comm]; exact Nat.mul_lt_mul_of_pos_left (not_le.mp hc) (by positivity)
        omega
      omega

theorem abs_realOf_shifted (x : Ext) {e : ℤ} (h : e ≤ (magOf x).exp) : |realOf x| =
    (((magOf x).num <<< ((magOf x).exp - e).toNat : ℕ) : ℚ) * (2 : ℚ) ^ e := by
  rw [abs_realOf]
  have := shift_toRat (m := magOf x) rfl h
  rw [this, mul_assoc, ← zpow_add₀ two_ne_zero, neg_add_cancel, zpow_zero, mul_one]

theorem magOf_log2 {x : Ext} (h : realOf x ≠ 0) : (magOf x).log2 = (magOf x).num.log2 + (magOf x).exp := by
  have h0 := sigOf_ne_of h
  have p : (0 : ℚ) < (2 : ℚ) ^ (magOf x).exp := by positivity
  have e1 : (magOf x).toRat = (magOf x).num * (2 : ℚ) ^ (magOf x).exp := by unfold Mag.toRat; simp [magOf]
  refine Mag.log2_unique h0 (magOf_den x) ?_ ?_
  · rw [e1, zpow_add₀ two_ne_zero, zpow_natCast]
    exact mul_le_mul_of_nonneg_right (by exact_mod_cast Nat.log2_self_le h0) p.le
  · rw [e1, show ((magOf x).num.log2 : ℤ) + (magOf x).exp + 1 = ((magOf x).num.log2 + 1) + (magOf x).exp by ring,
      zpow_add₀ two_ne_zero ((magOf x).num.log2 + 1 : ℤ)]
    exact mul_lt_mul_of_pos_right (by exact_mod_cast Nat.lt_log2_self) p

/-- The remainder of operands brought to one exponent, where the reduction is complete (43_basic_arithmetic.md R360). -/
theorem remExact_complete {ieee step x y} {e : ℤ} {X Y : ℕ} (he : e = min (magOf x).exp (magOf y).exp)
    (hX : X = (magOf x).num <<< ((magOf x).exp - e).toNat) (hY : Y = (magOf y).num <<< ((magOf y).exp - e).toNat)
    (h : (magOf x).log2 - (magOf y).log2 < 64) :
    remExact ieee step x y = ((X : ℤ) - remQuotient ieee X Y * Y, e, some (remQuotient ieee X Y)) := by
  subst he hX hY
  unfold remExact
  simp only
  rw [if_pos h]

/-- The same, where it is partial. -/
theorem remExact_partial {ieee step x y} {e k : ℤ} {X Y : ℕ} (he : e = min (magOf x).exp (magOf y).exp)
    (hX : X = (magOf x).num <<< ((magOf x).exp - e).toNat) (hY : Y = (magOf y).num <<< ((magOf y).exp - e).toNat)
    (hk : k = (magOf x).log2 - (magOf y).log2) (h : ¬ k < 64) :
    remExact ieee step x y = ((X : ℤ) - ((X / Y / 2 ^ (k - step).toNat * 2 ^ (k - step).toNat : ℕ) : ℤ) * Y, e, none) := by
  subst he hX hY hk
  unfold remExact
  simp only
  rw [if_neg h, Nat.cast_mul]

theorem sub_shifted {x y : Ext} {n m q : ℕ} {e : ℤ} (hx : |realOf x| = n * (2 : ℚ) ^ e) (hy : |realOf y| = m * (2 : ℚ) ^ e) :
    realOf x - (if signOf x = signOf y then (q : ℚ) else -q) * realOf y =
      if signOf x = true then -((((n : ℤ) - q * m : ℤ) : ℚ) * (2 : ℚ) ^ e) else (((n : ℤ) - q * m : ℤ) : ℚ) * (2 : ℚ) ^ e := by
  rw [realOf_signed x, realOf_signed y, hx, hy]
  push_cast
  cases signOf x <;> cases signOf y <;> simp <;> ring

end Sys2Proof.Machine
end

