-- ==== Sys2Proof/Tests/Slice0.lean ====
section
/-! SUPPORT. Small tests with expected results from the spec (the encoding tables of 30_encoding.md, the vectors of
95_test_vectors.md), and for every statement with hypotheses a state and operands that meet them. -/

namespace Sys2Proof.Tests

open Sys2Proof Sys2Proof.Machine

/-! ### Decoding: one word of every row of the tables of 30_encoding.md R134, R135, R138 -/

/-- Every sequence of bytes decodes to its instruction, with nothing left. -/
def reads (a32 : Bool) (rows : List (List Byte × Instr)) : Bool :=
  rows.all fun r => decide ((decode a32 r.1).toOption = some (r.2, []))

theorem test_decode_memory_d8 :
    reads true
      [([0xD8, 0x05, 0x78, 0x56, 0x34, 0x12], .faddM32real [] (.abs32 0x12345678)),
        ([0xD8, 0x0D, 0x78, 0x56, 0x34, 0x12], .fmulM32real [] (.abs32 0x12345678)),
        ([0xD8, 0x15, 0x78, 0x56, 0x34, 0x12], .fcomM32real [] (.abs32 0x12345678)),
        ([0xD8, 0x1D, 0x78, 0x56, 0x34, 0x12], .fcompM32real [] (.abs32 0x12345678)),
        ([0xD8, 0x25, 0x78, 0x56, 0x34, 0x12], .fsubM32real [] (.abs32 0x12345678)),
        ([0xD8, 0x2D, 0x78, 0x56, 0x34, 0x12], .fsubrM32real [] (.abs32 0x12345678)),
        ([0xD8, 0x35, 0x78, 0x56, 0x34, 0x12], .fdivM32real [] (.abs32 0x12345678)),
        ([0xD8, 0x3D, 0x78, 0x56, 0x34, 0x12], .fdivrM32real [] (.abs32 0x12345678))] = true := by decide

theorem test_decode_memory_d9 :
    reads true
      [([0xD9, 0x05, 0x78, 0x56, 0x34, 0x12], .fldM32real [] (.abs32 0x12345678)),
        ([0xD9, 0x15, 0x78, 0x56, 0x34, 0x12], .fstM32real [] (.abs32 0x12345678)),
        ([0xD9, 0x1D, 0x78, 0x56, 0x34, 0x12], .fstpM32real [] (.abs32 0x12345678)),
        ([0xD9, 0x25, 0x78, 0x56, 0x34, 0x12], .fldenv [] (.abs32 0x12345678)),
        ([0xD9, 0x2D, 0x78, 0x56, 0x34, 0x12], .fldcw [] (.abs32 0x12345678)),
        ([0xD9, 0x35, 0x78, 0x56, 0x34, 0x12], .fnstenv [] (.abs32 0x12345678)),
        ([0xD9, 0x3D, 0x78, 0x56, 0x34, 0x12], .fnstcw [] (.abs32 0x12345678))] = true := by decide

theorem test_decode_memory_da :
    reads true
      [([0xDA, 0x05, 0x78, 0x56, 0x34, 0x12], .fiaddM32int [] (.abs32 0x12345678)),
        ([0xDA, 0x0D, 0x78, 0x56, 0x34, 0x12], .fimulM32int [] (.abs32 0x12345678)),
        ([0xDA, 0x15, 0x78, 0x56, 0x34, 0x12], .ficomM32int [] (.abs32 0x12345678)),
        ([0xDA, 0x1D, 0x78, 0x56, 0x34, 0x12], .ficompM32int [] (.abs32 0x12345678)),
        ([0xDA, 0x25, 0x78, 0x56, 0x34, 0x12], .fisubM32int [] (.abs32 0x12345678)),
        ([0xDA, 0x2D, 0x78, 0x56, 0x34, 0x12], .fisubrM32int [] (.abs32 0x12345678)),
        ([0xDA, 0x35, 0x78, 0x56, 0x34, 0x12], .fidivM32int [] (.abs32 0x12345678)),
        ([0xDA, 0x3D, 0x78, 0x56, 0x34, 0x12], .fidivrM32int [] (.abs32 0x12345678))] = true := by decide

theorem test_decode_memory_db :
    reads true
      [([0xDB, 0x05, 0x78, 0x56, 0x34, 0x12], .fildM32int [] (.abs32 0x12345678)),
        ([0xDB, 0x15, 0x78, 0x56, 0x34, 0x12], .fistM32int [] (.abs32 0x12345678)),
        ([0xDB, 0x1D, 0x78, 0x56, 0x34, 0x12], .fistpM32int [] (.abs32 0x12345678)),
        ([0xDB, 0x2D, 0x78, 0x56, 0x34, 0x12], .fldM80real [] (.abs32 0x12345678)),
        ([0xDB, 0x3D, 0x78, 0x56, 0x34, 0x12], .fstpM80real [] (.abs32 0x12345678))] = true := by decide

theorem test_decode_memory_dc :
    reads true
      [([0xDC, 0x05, 0x78, 0x56, 0x34, 0x12], .faddM64real [] (.abs32 0x12345678)),
        ([0xDC, 0x0D, 0x78, 0x56, 0x34, 0x12], .fmulM64real [] (.abs32 0x12345678)),
        ([0xDC, 0x15, 0x78, 0x56, 0x34, 0x12], .fcomM64real [] (.abs32 0x12345678)),
        ([0xDC, 0x1D, 0x78, 0x56, 0x34, 0x12], .fcompM64real [] (.abs32 0x12345678)),
        ([0xDC, 0x25, 0x78, 0x56, 0x34, 0x12], .fsubM64real [] (.abs32 0x12345678)),
        ([0xDC, 0x2D, 0x78, 0x56, 0x34, 0x12], .fsubrM64real [] (.abs32 0x12345678)),
        ([0xDC, 0x35, 0x78, 0x56, 0x34, 0x12], .fdivM64real [] (.abs32 0x12345678)),
        ([0xDC, 0x3D, 0x78, 0x56, 0x34, 0x12], .fdivrM64real [] (.abs32 0x12345678))] = true := by decide

theorem test_decode_memory_dd :
    reads true
      [([0xDD, 0x05, 0x78, 0x56, 0x34, 0x12], .fldM64real [] (.abs32 0x12345678)),
        ([0xDD, 0x15, 0x78, 0x56, 0x34, 0x12], .fstM64real [] (.abs32 0x12345678)),
        ([0xDD, 0x1D, 0x78, 0x56, 0x34, 0x12], .fstpM64real [] (.abs32 0x12345678)),
        ([0xDD, 0x25, 0x78, 0x56, 0x34, 0x12], .frstor [] (.abs32 0x12345678)),
        ([0xDD, 0x35, 0x78, 0x56, 0x34, 0x12], .fnsave [] (.abs32 0x12345678)),
        ([0xDD, 0x3D, 0x78, 0x56, 0x34, 0x12], .fnstswM2byte [] (.abs32 0x12345678))] = true := by decide

theorem test_decode_memory_de :
    reads true
      [([0xDE, 0x05, 0x78, 0x56, 0x34, 0x12], .fiaddM16int [] (.abs32 0x12345678)),
        ([0xDE, 0x0D, 0x78, 0x56, 0x34, 0x12], .fimulM16int [] (.abs32 0x12345678)),
        ([0xDE, 0x15, 0x78, 0x56, 0x34, 0x12], .ficomM16int [] (.abs32 0x12345678)),
        ([0xDE, 0x1D, 0x78, 0x56, 0x34, 0x12], .ficompM16int [] (.abs32 0x12345678)),
        ([0xDE, 0x25, 0x78, 0x56, 0x34, 0x12], .fisubM16int [] (.abs32 0x12345678)),
        ([0xDE, 0x2D, 0x78, 0x56, 0x34, 0x12], .fisubrM16int [] (.abs32 0x12345678)),
        ([0xDE, 0x35, 0x78, 0x56, 0x34, 0x12], .fidivM16int [] (.abs32 0x12345678)),
        ([0xDE, 0x3D, 0x78, 0x56, 0x34, 0x12], .fidivrM16int [] (.abs32 0x12345678))] = true := by decide

theorem test_decode_memory_df :
    reads true
      [([0xDF, 0x05, 0x78, 0x56, 0x34, 0x12], .fildM16int [] (.abs32 0x12345678)),
        ([0xDF, 0x15, 0x78, 0x56, 0x34, 0x12], .fistM16int [] (.abs32 0x12345678)),
        ([0xDF, 0x1D, 0x78, 0x56, 0x34, 0x12], .fistpM16int [] (.abs32 0x12345678)),
        ([0xDF, 0x25, 0x78, 0x56, 0x34, 0x12], .fbld [] (.abs32 0x12345678)),
        ([0xDF, 0x2D, 0x78, 0x56, 0x34, 0x12], .fildM64int [] (.abs32 0x12345678)),
        ([0xDF, 0x35, 0x78, 0x56, 0x34, 0x12], .fbstp [] (.abs32 0x12345678)),
        ([0xDF, 0x3D, 0x78, 0x56, 0x34, 0x12], .fistpM64int [] (.abs32 0x12345678))] = true := by decide

theorem test_decode_register_d8 :
    reads true
      [([0xD8, 0xC3], .faddSt0Sti [] 3),
        ([0xD8, 0xCB], .fmulSt0Sti [] 3),
        ([0xD8, 0xD3], .fcomSti [] 3),
        ([0xD8, 0xDB], .fcompSti [] 3),
        ([0xD8, 0xE3], .fsubSt0Sti [] 3),
        ([0xD8, 0xEB], .fsubrSt0Sti [] 3),
        ([0xD8, 0xF3], .fdivSt0Sti [] 3),
        ([0xD8, 0xFB], .fdivrSt0Sti [] 3)] = true := by decide

theorem test_decode_register_d9 :
    reads true
      [([0xD9, 0xC3], .fldSti [] 3),
        ([0xD9, 0xCB], .fxch [] 3),
        ([0xD9, 0xD0], .fnop []),
        ([0xD9, 0xE0], .fchs []),
        ([0xD9, 0xE1], .fabs []),
        ([0xD9, 0xE4], .ftst []),
        ([0xD9, 0xE5], .fxam []),
        ([0xD9, 0xE8], .fld1 []),
        ([0xD9, 0xE9], .fldl2t []),
        ([0xD9, 0xEA], .fldl2e []),
        ([0xD9, 0xEB], .fldpi []),
        ([0xD9, 0xEC], .fldlg2 []),
        ([0xD9, 0xED], .fldln2 []),
        ([0xD9, 0xEE], .fldz []),
        ([0xD9, 0xF0], .f2xm1 []),
        ([0xD9, 0xF1], .fyl2x []),
        ([0xD9, 0xF2], .fptan []),
        ([0xD9, 0xF3], .fpatan []),
        ([0xD9, 0xF4], .fxtract []),
        ([0xD9, 0xF5], .fprem1 []),
        ([0xD9, 0xF6], .fdecstp []),
        ([0xD9, 0xF7], .fincstp []),
        ([0xD9, 0xF8], .fprem []),
        ([0xD9, 0xF9], .fyl2xp1 []),
        ([0xD9, 0xFA], .fsqrt []),
        ([0xD9, 0xFB], .fsincos []),
        ([0xD9, 0xFC], .frndint []),
        ([0xD9, 0xFD], .fscale []),
        ([0xD9, 0xFE], .fsin []),
        ([0xD9, 0xFF], .fcos [])] = true := by decide

theorem test_decode_register_da :
    reads true
      [([0xDA, 0xC3], .fcmovb [] 3),
        ([0xDA, 0xCB], .fcmove [] 3),
        ([0xDA, 0xD3], .fcmovbe [] 3),
        ([0xDA, 0xDB], .fcmovu [] 3),
        ([0xDA, 0xE9], .fucompp [])] = true := by decide

theorem test_decode_register_db :
    reads true
      [([0xDB, 0xC3], .fcmovnb [] 3),
        ([0xDB, 0xCB], .fcmovne [] 3),
        ([0xDB, 0xD3], .fcmovnbe [] 3),
        ([0xDB, 0xDB], .fcmovnu [] 3),
        ([0xDB, 0xE0], .feni []),
        ([0xDB, 0xE1], .fdisi []),
        ([0xDB, 0xE2], .fnclex []),
        ([0xDB, 0xE3], .fninit []),
        ([0xDB, 0xE4], .fsetpm []),
        ([0xDB, 0xEB], .fucomi [] 3),
        ([0xDB, 0xF3], .fcomi [] 3)] = true := by decide

theorem test_decode_register_dc :
    reads true
      [([0xDC, 0xC3], .faddStiSt0 [] 3),
        ([0xDC, 0xCB], .fmulStiSt0 [] 3),
        ([0xDC, 0xE3], .fsubrStiSt0 [] 3),
        ([0xDC, 0xEB], .fsubStiSt0 [] 3),
        ([0xDC, 0xF3], .fdivrStiSt0 [] 3),
        ([0xDC, 0xFB], .fdivStiSt0 [] 3)] = true := by decide

theorem test_decode_register_dd :
    reads true
      [([0xDD, 0xC3], .ffree [] 3),
        ([0xDD, 0xD3], .fstSti [] 3),
        ([0xDD, 0xDB], .fstpSti [] 3),
        ([0xDD, 0xE3], .fucom [] 3),
        ([0xDD, 0xEB], .fucomp [] 3)] = true := by decide

theorem test_decode_register_de :
    reads true
      [([0xDE, 0xC3], .faddp [] 3),
        ([0xDE, 0xCB], .fmulp [] 3),
        ([0xDE, 0xD9], .fcompp []),
        ([0xDE, 0xE3], .fsubrp [] 3),
        ([0xDE, 0xEB], .fsubp [] 3),
        ([0xDE, 0xF3], .fdivrp [] 3),
        ([0xDE, 0xFB], .fdivp [] 3)] = true := by decide

theorem test_decode_register_df :
    reads true
      [([0xDF, 0xE0], .fnstswAx []),
        ([0xDF, 0xEB], .fucomip [] 3),
        ([0xDF, 0xF3], .fcomip [] 3)] = true := by decide

theorem test_decode_waiting :
    reads true
      [([0x9B], .wait []),
        ([0x9B, 0xDB, 0xE3], .finit []),
        ([0x9B, 0xDB, 0xE2], .fclex []),
        ([0x9B, 0xD9, 0x3D, 0x78, 0x56, 0x34, 0x12], .fstcw [] (.abs32 0x12345678)),
        ([0x9B, 0xDD, 0x3D, 0x78, 0x56, 0x34, 0x12], .fstswM2byte [] (.abs32 0x12345678)),
        ([0x9B, 0xDF, 0xE0], .fstswAx []),
        ([0x9B, 0xD9, 0x35, 0x78, 0x56, 0x34, 0x12], .fstenv [] (.abs32 0x12345678)),
        ([0x9B, 0xDD, 0x35, 0x78, 0x56, 0x34, 0x12], .fsave [] (.abs32 0x12345678))] = true := by decide

/-- The addressing modes of R136 with 32-bit addressing. -/
theorem test_decode_addressing32 :
    reads true
      [([0xD9, 0x00], .fldM32real [] (.reg32 .eax .none)),
        ([0xD9, 0x45, 0xF8], .fldM32real [] (.reg32 .ebp (.short 0xF8))),
        ([0xD9, 0x86, 0x04, 0x03, 0x02, 0x01], .fldM32real [] (.reg32 .esi (.full 0x01020304))),
        ([0xD9, 0x04, 0x24], .fldM32real [] (.sib32 .esp none 0 .none)),
        ([0xD9, 0x44, 0xD8, 0x10], .fldM32real [] (.sib32 .eax (some .ebx) 3 (.short 0x10))),
        ([0xD9, 0x04, 0x8D, 0x44, 0x33, 0x22, 0x11], .fldM32real [] (.sibAbs32 (some .ecx) 2 0x11223344))] = true := by
  decide

/-- The addressing modes of R136 with 16-bit addressing, by the attribute or by the prefix 67H. -/
theorem test_decode_addressing16 :
    reads false
        [([0xDD, 0x00], .fldM64real [] (.reg16 .bxsi .none)), ([0xDD, 0x46, 0xFE], .fldM64real [] (.reg16 .bp (.short 0xFE))),
          ([0xDD, 0x06, 0x34, 0x12], .fldM64real [] (.abs16 0x1234)),
          ([0xDD, 0x85, 0x34, 0x12], .fldM64real [] (.reg16 .di (.full 0x1234)))] = true ∧
      reads true [([0x67, 0xDD, 0x07], .fldM64real [.addrSize] (.reg16 .bx .none))] = true := by decide

/-- Prefixes stand before the first opcode byte (R140). -/
theorem test_decode_prefixes :
    reads true
      [([0x65, 0x66, 0xDD, 0x30], .fnsave [.seg .gs, .opSize] (.reg32 .eax .none)),
        ([0x9B, 0x2E, 0xD9, 0x30], .fstenv [.seg .cs] (.reg32 .eax .none)), ([0x36, 0xD9, 0xE8], .fld1 [.seg .ss])] = true := by
  decide

/-- 9BH is no prefix of an instruction without a waiting form (R140). -/
theorem test_decode_wait_alone : (decode true [0x9B, 0xD9, 0xEE]).toOption = some (.wait [], [0xD9, 0xEE]) := by decide

/-- The least significant bits of a table word are its last byte (R147). -/
theorem test_table_word : decodeTableWord 16 0xD8C1 = some (.faddSt0Sti [] 1) := by decide

/-! ### Well-formedness: a term that each check refuses -/

theorem test_wf_accepts : Instr.wf true (.fldM32real [] (.reg32 .eax (.short 4))) = true := by decide

/-- ESP is no base without a SIB byte (R136). -/
theorem test_wf_esp_base : Instr.wf true (.fldM32real [] (.reg32 .esp .none)) = false := by decide

/-- EBP without displacement is disp32 alone (R136). -/
theorem test_wf_ebp_base : Instr.wf true (.fldM32real [] (.reg32 .ebp .none)) = false := by decide

/-- ESP is no index (R136). -/
theorem test_wf_esp_index : Instr.wf true (.fldM32real [] (.sib32 .eax (some .esp) 0 .none)) = false := by decide

/-- A SIB byte with base EBP and no displacement has no base (R136). -/
theorem test_wf_sib_ebp : Instr.wf true (.fldM32real [] (.sib32 .ebp none 0 .none)) = false := by decide

/-- ESP is no index of a displacement alone (R136). -/
theorem test_wf_sib_index : Instr.wf true (.fldM32real [] (.sibAbs32 (some .esp) 0 0)) = false := by decide

/-- BP without displacement is disp16 alone (R136). -/
theorem test_wf_bp : Instr.wf false (.fldM32real [] (.reg16 .bp .none)) = false := by decide

/-- The mode must be of the address size in effect (R136, R140). -/
theorem test_wf_size : Instr.wf false (.fldM32real [] (.reg32 .eax .none)) = false := by decide

/-- F2H and F3H do not stand before an ESC instruction; before WAIT they do (R140). -/
theorem test_wf_repeat : Instr.wf true (.fld1 [.rep]) = false ∧ Instr.wf true (.wait [.rep]) = true := by decide

/-! ### Values: vectors of 95_test_vectors.md -/

/-- 1.0, 2.0 and 3.0. -/
def one : Ext := 0x3FFF8000000000000000
def two : Ext := 0x40008000000000000000
def three : Ext := 0x4000C000000000000000

/-- The reply of an operation with every exception masked, for the control word `cw`. -/
def reply (op : ArithOp) (cw : Word16) (a b : Ext) : Option (Reply Written) :=
  (arith op cw (pcBits cw) true (.of a) (.of b)).toOption

/-- V160: 2^-64 + 1.0, to nearest and up. -/
theorem test_add_inexact :
    reply .add 0x037F 0x3FBF8000000000000000 one = some ⟨[.p], some ⟨one, false⟩⟩ ∧
      reply .add 0x0B7F 0x3FBF8000000000000000 one = some ⟨[.p], some ⟨0x3FFF8000000000000001, true⟩⟩ := by decide

/-- V161: 1.0 / 3.0 to 64 and to 24 bits. -/
theorem test_div_precision :
    reply .div 0x037F one three = some ⟨[.p], some ⟨0x3FFDAAAAAAAAAAAAAAAB, true⟩⟩ ∧
      reply .div 0x007F one three = some ⟨[.p], some ⟨0x3FFDAAAAAB0000000000, true⟩⟩ := by decide

/-- V163, V164: overflow, masked and unmasked. -/
theorem test_mul_overflow :
    reply .mul 0x037F 0x7FFEFFFFFFFFFFFFFFFF two = some ⟨[.o, .p], some ⟨inf80 false, true⟩⟩ ∧
      reply .mul 0x0377 0x7FFEFFFFFFFFFFFFFFFF two = some ⟨[.o], some ⟨0x1FFFFFFFFFFFFFFFFFFF, false⟩⟩ := by decide

/-- V165: underflow, masked and unmasked. -/
theorem test_mul_underflow :
    reply .mul 0x037F 0x00018000000000000000 0x00018000000000000000 = some ⟨[.u, .p], some ⟨0, false⟩⟩ ∧
      reply .mul 0x036F 0x00018000000000000000 0x00018000000000000000 =
        some ⟨[.u], some ⟨0x20038000000000000000, false⟩⟩ := by decide

/-- V166, V167: divide by zero; an exact zero sum rounded down. -/
theorem test_zero_results :
    reply .div 0x037F one 0 = some ⟨[.z], some ⟨inf80 false, false⟩⟩ ∧
      reply .add 0x077F one 0xBFFF8000000000000000 = some ⟨[], some ⟨zero80 true, false⟩⟩ := by decide

/-- V168: the larger significand of an SNaN and a QNaN. -/
theorem test_nan_operands :
    reply .add 0x037F 0x7FFF8000000000000001 0x7FFFC000000000000005 =
      some ⟨[.i], some ⟨0x7FFFC000000000000005, false⟩⟩ := by decide

/-- 6 - 2, and the unmasked denormal operand of V169. -/
theorem test_sub_and_denormal :
    reply .sub 0x037F 0x4001C000000000000000 two = some ⟨[], some ⟨0x40018000000000000000, false⟩⟩ ∧
      reply .mul 0x037D 1 one = some ⟨[.d], none⟩ := by decide

/-- V162: the square root of 2 to 64 and to 24 bits. -/
theorem test_sqrt :
    (sqrt 0x037F two).toOption = some ⟨[.p], some ⟨0x3FFFB504F333F9DE6484, false⟩⟩ ∧
      (sqrt 0x007F two).toOption = some ⟨[.p], some ⟨0x3FFFB504F30000000000, false⟩⟩ := by
  decide +kernel

/-- V172: 17 mod 5 is 2 with quotient 3; 18 mod 5 to nearest is -2 with quotient 4. -/
theorem test_remainder :
    (remainder 0x037F false 63 true (fromInt 17) (fromInt 5)).value = some ⟨fromInt 2, .complete 3⟩ ∧
      (remainder 0x037F true 63 true (fromInt 18) (fromInt 5)).value = some ⟨fromInt (-2), .complete 4⟩ := by decide

/-- V173: -2.5 rounded down is -3, away in magnitude. -/
theorem test_rndint :
    rndint 0x077F 0xC000A000000000000000 = ⟨[.p], some ⟨0xC000C000000000000000, true⟩⟩ := by decide

/-- V174: 10 is 1.25 times 2^3; the exponent of zero. -/
theorem test_extract :
    extract 0x037F (fromInt 10) = ⟨[], some (fromInt 3, 0x3FFFA000000000000000)⟩ ∧
      extract 0x037F (zero80 true) = ⟨[.z], some (inf80 true, zero80 true)⟩ := by decide

/-- V208: 1.5 scaled by trunc 3.7. -/
theorem test_scale :
    scale 0x037F true 0x3FFFC000000000000000 0x4000ECCCCCCCCCCCCCCD = ⟨[], some ⟨fromInt 12, false⟩⟩ := by decide

/-- V180, V184, V185, V186: relations; a quiet comparison of a QNaN signals nothing. -/
theorem test_compare :
    compare 0x037F false true (.of one) (.of two) = ⟨[], some .less⟩ ∧
      compare 0x037F false true (.of (inf80 true)) (.of 0xFFFEFFFFFFFFFFFFFFFF) = ⟨[], some .less⟩ ∧
      compare 0x037F false true (.of indef80) (.of one) = ⟨[.i], some .unordered⟩ ∧
      compare 0x037F true true (.of indef80) (.of one) = ⟨[], some .unordered⟩ := by decide

/-! ### Conversions: vectors of 95_test_vectors.md -/

/-- V110, V111: 178.125 and the smallest denormal single. -/
theorem test_from_single :
    fromReal single 0x43322000 = ⟨0x4006B220000000000000, false⟩ ∧
      fromReal single 1 = ⟨0x3F6A8000000000000000, true⟩ := by decide

/-- V112: a signalling double. -/
theorem test_from_double : fromReal double 0x7FF0000000000001 = ⟨0x7FFF8000000000000800, false⟩ := by decide

/-- V117, V120, V121: a rounded store, an overflow and an underflow. -/
theorem test_store_single :
    storeReal 0x037F true single 0x3FFBCCCCCCCCCCCCCCCD = ⟨[.p], .store 0x3DCCCCCD true⟩ ∧
      storeReal 0x0377 true single 0x407F8000000000000000 = ⟨[.o], .abandonAfter⟩ ∧
      storeReal 0x0B7F true single 0x3F698000000000000000 = ⟨[.u, .p], .store 1 true⟩ := by decide

/-- V128, V130: an integer that rounds out of range. -/
theorem test_store_int :
    storeInt 0x037F 16 0x400DFFFF000000000000 = ⟨[.i], .store 0x8000 false⟩ ∧
      storeInt 0x037E 64 0x403E8000000000000000 = ⟨[.i], .abandonBefore⟩ := by decide

/-- V135, V136: packed decimals. -/
theorem test_bcd :
    fromBcd 0x80000000000000000125 = some 0xC005FA00000000000000 ∧
      storeBcd 0x037F 0 (fromInt 123456789) = ⟨[], .store 0x123456789 false⟩ := by decide

/-- 42_load_constants.md R305: pi rounded down and to nearest. -/
theorem test_pi : constPi .down = 0x4000C90FDAA22168C234 ∧ constPi .nearest = 0x4000C90FDAA22168C235 := by
  decide

/-! ### Steps -/

/-- A state with ST(0) = a and ST(1) = b, every other register empty, TOP = 0, CR0.NE = 1 and the control word `cw`. -/
def stack2 (cw : Word16) (a b : Ext) : State :=
  { State.reset with
    regs := #v[a, b, 0, 0, 0, 0, 0, 0], cw := cw, tw := 0xFFF0, ne := true, addrSize32 := true, eip := 0x1000 }

/-- A state whose every register is full. -/
def stack8 (cw : Word16) : State := { stack2 cw one one with regs := Vector.replicate 8 one, tw := 0 }

/-- A state with an empty stack. -/
def stack0 (cw : Word16) : State := { stack2 cw 0 0 with tw := 0xFFFF }

/-- A part of the next state of an instruction. -/
def next {α : Type} (i : Instr) (s : State) (f : State → α) : Option α :=
  match exec i s with
  | .next t => some (f t)
  | _ => none

/-- A part of the state that the end of an instruction does not touch, after a register form. -/
theorem next_reg {α : Type} {i : Instr} {body : Body} {s : State} {f : State → α} (h : exec i s = runReg i body s)
    (hr : s.waitCheck = .proceed) (hf : ∀ u : State, f (u.retire i.length s.es) = f u) :
    next i s f = ((body (s.record i none)).toOption).map f := by
  cases hb : body (s.record i none) with
  | ok u => rw [next, h, runReg_next hr hb]; exact congrArg some (hf u)
  | error e => rw [next, h, runReg, afterWait_ready hr, hb]; rfl

/-- The same, after a memory form. -/
theorem next_mem {α : Type} {i : Instr} {p : Prefixes} {m : AddrMode} {n : Nat} {body : Word32 → Body} {s : State}
    {f : State → α} (h : exec i s = runMem i p m n body s) (hr : s.waitCheck = .proceed) (hd : s.operandDenied (s.ea m) n = false)
    (hf : ∀ u : State, f (u.retire i.length s.es) = f u) :
    next i s f = ((body (s.ea m) (s.record i (some (s.operandPtr p m)))).toOption).map f := by
  cases hb : body (s.ea m) (s.record i (some (s.operandPtr p m))) with
  | ok u => rw [next, h, runMem_next hr hd hb]; exact congrArg some (hf u)
  | error e => rw [next, h, runMem, afterWait_ready hr, withOperand_free hd, hb]; rfl

/-- V171: FSUBP leaves ST(1) - ST(0). -/
theorem test_fsubp : next (.fsubp [] 1) (stack2 0x037F (fromInt 6) two) (·.reg 1) = some (fromInt (-4)) :=
  (next_reg (by dsimp only [exec]; rfl) (by rfl) fun u => u.retire_reg _ _ _).trans (by decide)

/-- FSUBRP leaves ST(0) - ST(1). -/
theorem test_fsubrp : next (.fsubrp [] 1) (stack2 0x037F (fromInt 6) two) (·.reg 1) = some (fromInt 4) :=
  (next_reg (by dsimp only [exec]; rfl) (by rfl) fun u => u.retire_reg _ _ _).trans (by decide)

/-- V171: FDIVP leaves ST(1) / ST(0). -/
theorem test_fdivp : next (.fdivp [] 1) (stack2 0x037F two (fromInt 6)) (·.reg 1) = some three :=
  (next_reg (by dsimp only [exec]; rfl) (by rfl) fun u => u.retire_reg _ _ _).trans (by decide)

/-- FDIVR ST(i), ST(0) leaves ST(0) / ST(i) in ST(i). -/
theorem test_fdivr : next (.fdivrStiSt0 [] 1) (stack2 0x037F (fromInt 6) two) (·.reg 1) = some three :=
  (next_reg (by dsimp only [exec]; rfl) (by rfl) fun u => u.retire_reg _ _ _).trans (by decide)

/-- V170: a memory integer divided by ST(0). -/
theorem test_fidivr :
    next (.fidivrM32int [] (.abs32 0x2000)) ((stack2 0x037F (fromInt 6) 0).write 0x2000 4 3) (·.reg 0) =
      some 0x3FFE8000000000000000 :=
  (next_mem (by dsimp only [exec]; rfl) (by rfl) (by rfl) fun u => u.retire_reg _ _ _).trans (by decide)

/-- V114: FLD ST(0) pushes a copy. -/
theorem test_fld_copies : next (.fldSti [] 0) (stack2 0x037F three one) (·.reg 7) = some three :=
  (next_reg (by dsimp only [exec]; rfl) (by rfl) fun u => u.retire_reg _ _ _).trans (by decide)

/-- V132: FILD of a negative word. -/
theorem test_fild :
    next (.fildM16int [] (.abs32 0x2000)) ((stack0 0x037F).write 0x2000 2 0xFFFF) (·.reg 7) =
      some 0xBFFF8000000000000000 :=
  (next_mem (by dsimp only [exec]; rfl) (by rfl) (by rfl) fun u => u.retire_reg _ _ _).trans (by decide)

/-- V140: FXCH. -/
theorem test_fxch : next (.fxch [] 1) (stack2 0x037F one two) (fun t => (t.reg 0, t.reg 1)) = some (two, one) :=
  (next_reg (by dsimp only [exec]; rfl) (by rfl) fun u => by simp).trans (by decide)

/-- V180: FCOM of 1.0 and 2.0. -/
theorem test_fcom : next (.fcomSti [] 1) (stack2 0x037F one two) (·.sw) = some 0x0100 := by decide

/-- V182: FCOMPP of equal values pops both. -/
theorem test_fcompp :
    next (.fcompp []) (stack2 0x037F two two) (fun t => (t.sw, t.tw)) = some (0x5000, 0xFFFF) := by decide

/-- 43_basic_arithmetic.md R360: FPREM of 1.5 * 2^-16382 by 2^-16382 with #U unmasked stores 2^24576 times 2^-16383. -/
theorem test_fprem_tiny :
    next (.fprem []) (stack2 0x036F 0x0001C000000000000000 0x00018000000000000000) (·.reg 0) =
      some 0x60008000000000000000 :=
  (next_reg (by dsimp only [exec]; rfl) (by rfl) fun u => u.retire_reg _ _ _).trans (by decide)

/-- V196: FCOMI of 1.0 and 2.0 sets CF alone. -/
theorem test_fcomi :
    (fun t : State => (t.zf, t.pf, t.cf)) (compareStack .eflags false false 0 1 (stack2 0x037F one two)) =
      (false, false, true) := by decide

/-- V192: FXAM of -2.0. -/
theorem test_fxam : next (.fxam []) (stack2 0x037F 0xC0008000000000000000 0) (·.sw) = some 0x0600 := by decide

/-- V126: FSTP m80real. -/
theorem test_fstp80 :
    next (.fstpM80real [] (.abs32 0x3000)) (stack2 0x037F three 0) (·.read 0x3000 10) = some three.toNat :=
  (next_mem (by dsimp only [exec]; rfl) (by rfl) (by rfl) fun u => by simp).trans (by decide)

/-- 46_control.md R462. -/
theorem test_fninit :
    next (.fninit []) (stack2 0x0000 one two) (fun t => (t.cw, t.sw, t.tw, t.eip)) = some (0x037F, 0, 0xFFFF, 0x1002) := by
  decide

/-- V215: FNSTENV masks everything. -/
theorem test_fnstenv : (saveEnvironment .p32 0x3000 (stack2 0x0340 one two)).cw = 0x037F := by decide

/-- 20_memory.md R115, R116: the words of the 16-bit images, for FIP = 1234H:5678H, FDP = 0 and FOP = 5E9H. -/
theorem test_environment_images :
    (storedImage .p16 .environment { stack2 0x037F one two with fip := 0x123400005678, fop := 0x5E9 } =
      [0x7F, 0x03, 0, 0, 0xF0, 0xFF, 0x78, 0x56, 0x34, 0x12, 0, 0, 0, 0]) ∧
      storedImage .r16 .environment { stack2 0x037F one two with fip := 0x123400005678, fop := 0x5E9 } =
        [0x7F, 0x03, 0, 0, 0xF0, 0xFF, 0xB8, 0x79, 0xE9, 0x15, 0, 0, 0, 0] := by decide +kernel

/-- 20_memory.md R117: in the state image ST(1) stands 10 bytes after ST(0), which follows the environment. -/
theorem test_state_image :
    ((storedImage .p16 .state (stack2 0x037F one two)).drop 14).take 20 =
      [0, 0, 0, 0, 0, 0, 0, 0x80, 0xFF, 0x3F, 0, 0, 0, 0, 0, 0, 0, 0x80, 0x00, 0x40] := by decide +kernel

/-- 43_basic_arithmetic.md R344, R327: FIDIV signals #P and no #O where its quotient rounds up to 2^16384. -/
theorem test_fidiv_no_overflow :
    (arith .div 0x007F (some 24) true (.of 0x7FFEFFFFFFFFFFFFFFFF) (.of one)).toOption =
        some ⟨[.o, .p], some ⟨inf80 false, true⟩⟩ ∧
      Reply.withoutOverflow two ⟨[.o, .p], some ⟨inf80 false, true⟩⟩ = ⟨[.p], some ⟨two, true⟩⟩ ∧
      Reply.withoutOverflow two ⟨[.d, .p], some ⟨one, true⟩⟩ = ⟨[.d, .p], some ⟨one, true⟩⟩ := by decide

/-- 45_transcendental.md R421 a: of the values within 1 ulp of the tangent of 2^-16382 only the extended-real ones. -/
theorem test_tangent_choices :
    extendedCandidates .nearest (trueTan ⟨false, ⟨1, 1, -16382⟩⟩) = [(2 ^ 63 + 1, -16445), (2 ^ 63, -16445)] := by
  decide +kernel

/-- 40_numerics.md R246 step 7: a denormal operand is #D before an exact result. -/
theorem test_denormal_before_exact :
    scale 0x037F true 1 (inf80 false) = ⟨[.d], some ⟨inf80 false, false⟩⟩ ∧ scale 0x037D true 1 (inf80 false) = ⟨[.d], none⟩ ∧
      yLog2x 0x037F true one 1 = ⟨[.d], some ⟨0, false⟩⟩ := by decide

/-- 30_encoding.md R144: LOCK before FCMOVB is invalid-opcode where FCMOVcc is present, else before a reserved encoding. -/
theorem test_lock_before_absent :
    (match step ((stack2 0x037F one two).writeImage 0x1000 [0xF0, 0xDA, 0xC1]) with
      | .next t => t.events == [.invalidOpcode 0xF00000001000]
      | _ => false) = true ∧
      (match step { (stack2 0x037F one two).writeImage 0x1000 [0xF0, 0xDA, 0xC1] with
          params := { State.reset.params with hasFcmov := false } } with
        | .refused r => r == .optionalAbsent
        | _ => false) = true := by decide

/-- 60_exceptions.md R552: a pending exception is `#MF` before a waiting instruction. -/
theorem test_mf :
    next (.fld1 []) { stack2 0x037E one two with sw := 0x8081 } (·.events) = some [.mf 0xF00000001000] := by decide

/-! ### Witnesses: for every statement with hypotheses, a state and operands that meet them together -/

/-- The value of an encoding, from its sign and magnitude. -/
theorem realOf_of {x : Ext} {v : Exact} {r : ℚ} (h : valOf x = v) (hr : v.toRat = r) : realOf x = r := by
  rw [realOf, h, hr]

/-- The operand at the absolute address 3000H. -/
def at3000 : AddrMode := .abs32 0x3000

/-- A state with `bytes` at its pc. -/
def fetching (bytes : List Byte) : State := (stack2 0x037F one two).writeImage 0x1000 bytes

theorem witness_DecodeInvertsEncode :
    (Instr.fsave [.seg .es, .opSize] (.sib32 .ebx (some .ecx) 2 (.full 5))).wf true = true ∧
      (Instr.fstcw [.addrSize] (.reg16 .bp (.short 0))).wf true = true ∧ (Instr.wait []).wf false = true := by decide

theorem witness_WaitStandsAlone : (Instr.fld1 [.opSize]).wf true = true ∧ (Instr.fld1 [.opSize]).hasWaitingForm = false := by
  decide

/-- Prefixes with LOCK among them, an address-size prefix, and the last byte of a run of unlisted ones; and a state that
fetches a reserved encoding. -/
theorem witness_ReservedEncodingsAreRefused :
    (∀ x ∈ ([0xF0, 0x67, 0xF3] : List Byte), x ∈ prefixBytes) ∧ at3000.wf = true ∧
      at3000.is32 = (false != ([0xF0, 0x67, 0xF3] : List Byte).contains 0x67) ∧ (5, 5) ∈ reservedMemoryForms ∧
      isEsc 0xD9 = true ∧ listedRegisterForm 0xD9 0xD1 = false ∧ listedRegisterForm 0xD9 0xDF = false ∧
      listedRegisterForm 0xDF 0xFF = false ∧ listedRegisterForm 0xDF 0xF7 = true ∧
      (fetching [0xF0, 0xD9, 0x0D, 0, 0, 0, 0]).frozen = false ∧
      decode (fetching [0xF0, 0xD9, 0x0D, 0, 0, 0, 0]).addrSize32 (fetching [0xF0, 0xD9, 0x0D, 0, 0, 0, 0]).fetchWindow =
        .error .reserved :=
  ⟨by decide, by decide, by decide, by decide, by decide, by decide, by decide, by decide, by decide, by decide, by rfl⟩

theorem witness_StepRunsDecodedInstruction :
    (fetching [0xD9, 0xC9]).frozen = false ∧
      (decode (fetching [0xD9, 0xC9]).addrSize32 (fetching [0xD9, 0xC9]).fetchWindow).toOption =
        some (.fxch [] 1, List.replicate 16 0) ∧
      (Instr.fxch [] 1).wf (fetching [0xD9, 0xC9]).addrSize32 = true ∧
      readBytes (fetching [0xD9, 0xC9]).mem (fetching [0xD9, 0xC9]).eip (Instr.fxch [] 1).length =
        encode (.fxch [] 1) := by decide

theorem inv_fetching : (fetching [0x9B]).Inv where
  memory := by decide
  tags := by unfold State.TagsTrue; decide
  summary := by unfold State.SummaryTrue; decide
  busy := by unfold State.BusyTrue; decide
  ferr := by decide
  frozen := by decide

theorem witness_StepKeepsInvariant : (fetching [0x9B]).Inv ∧ ∃ t, step (fetching [0x9B]) = .next t :=
  ⟨inv_fetching, _, rfl⟩

theorem witness_MemoryReadsWhatWasWritten :
    10 ≤ 2 ^ 32 ∧ Memory.wf [(3, 1), (4, 2)] = true ∧ Memory.wf (writeByte [(3, 1)] 4 2) = true ∧
      ∀ a, readByte [(3, 1), (4, 2)] a = readByte (writeByte [(3, 1)] 4 2) a :=
  ⟨by decide, by decide, by decide, fun _ => rfl⟩

theorem witness_HostFrame :
    (∃ t, exec (.fnstswAx []) (stack2 0x037F one two) = .next t) ∧
      (Instr.fnstcw [] at3000).writesHostFlags = false ∧ (Instr.fnstcw [] at3000).writesAx = false ∧
      ∃ t, exec (.fnstcw [] at3000) (stack2 0x037F one two) = .next t :=
  ⟨⟨_, rfl⟩, rfl, rfl, _, rfl⟩

theorem witness_MemoryFrame :
    (stack2 0x037F one two).storedRange (.fnstcw [] at3000) = some (0x3000, 2) ∧
      (∃ t, exec (.fnstcw [] at3000) (stack2 0x037F one two) = .next t) ∧
      (stack2 0x037F one two).storedRange (.fxch [] 1) = none ∧
      ∃ t, exec (.fxch [] 1) (stack2 0x037F one two) = .next t :=
  ⟨rfl, ⟨_, rfl⟩, rfl, _, rfl⟩

/-- A state with a pending unmasked exception. -/
def pending (ne : Bool) : State := { stack2 0x037E one two with sw := 0x8081, ne := ne }

/-- A control instruction, one that moves TOP, one that records itself, and one that a pending exception replaces. -/
theorem witness_ControlAndPointerFrame :
    (∃ t, exec (.fnstcw [] at3000) (stack2 0x037F one two) = .next t) ∧
      (Instr.fnstcw [] at3000).isControl = true ∧ (Instr.fnstcw [] at3000).replacesPointers = false ∧
      (∃ t, exec (.fincstp []) (stack2 0x037F one two) = .next t) ∧ (Instr.fincstp []).movesTop = true ∧
      (∃ t, exec (.fxch [] 1) (stack2 0x037F one two) = .next t) ∧ (Instr.fxch [] 1).isControl = false ∧
      (stack2 0x037F one two).Ready ∧ (stack2 0x037F one two).Grants (.fxch [] 1) ∧
      (∃ t, exec (.fxch [] 1) (pending true) = .next t) ∧ ¬ ((pending true).Ready ∧ (pending true).Grants (.fxch [] 1)) :=
  ⟨⟨_, rfl⟩, rfl, rfl, ⟨_, rfl⟩, rfl, ⟨_, rfl⟩, rfl, rfl, fun _ h => (nomatch h), ⟨_, rfl⟩, fun h => absurd h.1 (by unfold State.Ready; decide)⟩

/-- A pending exception; and each way in which the wait check lets an instruction execute, and in which it does not. -/
theorem witness_PendingExceptionRaisesMF :
    (Instr.fld1 []).nonWaiting = false ∧ (Instr.fld1 []).optionalPresent (pending true).params = true ∧
      (pending true).es = true ∧ (pending true).ne = true ∧ (stack2 0x037F one two).waitCheck = .proceed ∧
      ({ pending false with ignne := true } : State).waitCheck = .proceed ∧
      ({ pending true with ignne := true } : State).waitCheck ≠ .proceed := by decide

theorem witness_PendingExceptionFreezes :
    (Instr.fld1 []).nonWaiting = false ∧ (Instr.fld1 []).optionalPresent (pending false).params = true ∧
      (pending false).es = true ∧ (pending false).ne = false ∧ (pending false).ignne = false ∧
      ({ pending false with frozen := true, intr := false } : State).frozen = true ∧
      ({ pending false with frozen := true, intr := true } : State).intr = true := by decide

/-- A fault at the first byte of the operand, and at the last one only; a non-waiting instruction. -/
theorem witness_OperandFaultReplacesInstruction :
    (Instr.fldM32real [] at3000).parts.operand = some at3000 ∧
      ({ stack2 0x037F one two with denied := [(0x3003, 1)] } : State).waitCheck = .proceed ∧
      3 < (stack2 0x037F one two).operandBytes (.fldM32real [] at3000) ∧
      0x3003 ≤ ((stack2 0x037F one two).ea at3000 + BitVec.ofNat 32 3).toNat ∧
      ((stack2 0x037F one two).ea at3000 + BitVec.ofNat 32 3).toNat < 0x3003 + 1 ∧
      (Instr.fnsave [] at3000).nonWaiting = true ∧ (Instr.fnsave [] at3000).parts.operand = some at3000 ∧
      0 < (stack2 0x037F one two).operandBytes (.fnsave [] at3000) ∧
      ((stack2 0x037F one two).ea at3000 + BitVec.ofNat 32 0).toNat < 0x3000 + 1 := by decide

/-- LOCK, F2H and F3H before an ESC instruction that is present, LOCK before one that is absent, and F3H before WAIT. -/
theorem witness_LockAndRepeatPrefixes :
    (fetching [0xF0, 0xD9, 0xC9]).frozen = false ∧
      (decode true (0xD9 :: 0xC9 :: List.replicate 16 0)).toOption = some (.fxch [] 1, List.replicate 16 0) ∧
      (Instr.fxch [] 1).parts.opcodeBytes = 2 ∧
      (fetching [0xF0, 0xD9, 0xC9]).fetchWindow = 0xF0 :: 0xD9 :: 0xC9 :: List.replicate 16 0 ∧
      (Instr.fxch [] 1).optionalPresent (fetching [0xF0, 0xD9, 0xC9]).params = true ∧
      (decode true (0xDA :: 0xC1 :: List.replicate 16 0)).toOption = some (.fcmovb [] 1, List.replicate 16 0) ∧
      (fetching [0xF0, 0xDA, 0xC1]).fetchWindow = 0xF0 :: 0xDA :: 0xC1 :: List.replicate 16 0 ∧
      (Instr.fcmovb [] 1).optionalPresent { State.reset.params with hasFcmov := false } = false ∧
      (fetching [0xF2, 0xD9, 0xC9]).fetchWindow = 0xF2 :: 0xD9 :: 0xC9 :: List.replicate 16 0 ∧
      (fetching [0xF3, 0xD9, 0xC9]).fetchWindow = 0xF3 :: 0xD9 :: 0xC9 :: List.replicate 16 0 ∧
      (fetching [0xF3, 0x9B]).fetchWindow =
        Prefix.rep.byte :: (Prefixes.encode [] ++ 0x9B :: List.replicate 16 0) := by decide

/-! The conditions of an instruction on the stack and its operand, met by `stack2`. -/

theorem ready2 (cw : Word16) (a b : Ext) : (stack2 cw a b).Ready := by
  have h : (stack2 cw a b).es = false := (by decide : (0 : Word16).getLsbD esBit = false)
  rw [State.Ready, State.waitCheck, h]; rfl

theorem top2 (cw : Word16) (a b : Ext) : (stack2 cw a b).top = 0 :=
  (by decide : (0 : Word16).extractLsb' topBit 3 = 0)

theorem tag2 (cw : Word16) (a b : Ext) (k : Idx) : (stack2 cw a b).tag k = tagAt 0xFFF0 k := rfl

theorem full0 (cw : Word16) (a b : Ext) : (stack2 cw a b).Full 0 := by
  rw [State.Full, State.isEmpty, State.phys, top2, tag2]; decide

theorem full1 (cw : Word16) (a b : Ext) : (stack2 cw a b).Full 1 := by
  rw [State.Full, State.isEmpty, State.phys, top2, tag2]; decide

theorem room2 (cw : Word16) (a b : Ext) : (stack2 cw a b).Room := by
  rw [State.Room, State.pushFull, top2, tag2]; decide

theorem allows2 (cw : Word16) (a b : Ext) (x : Word32) (n : Nat) : (stack2 cw a b).Allows x n := rfl

theorem masked2 (a b : Ext) : (stack2 0x037F a b).AllMasked := fun x =>
  (by decide : ∀ x ∈ Exc.all, maskedIn 0x037F x = true) x (by cases x <;> decide)

/-- With a decimal operand of the largest digits, and one whose last digit is too large. -/
theorem witness_ExactLoadsPush :
    (stack2 0x037F one two).Ready ∧ (stack2 0x037F one two).Room ∧ (stack2 0x037F one two).Full 1 ∧
      (stack2 0x037F one two).Allows ((stack2 0x037F one two).ea at3000) 10 ∧ (Instr.fildM64int, 8) ∈ integerLoadRows ∧
      DecimalDigits 0x80999999999999999999 ∧ ¬ DecimalDigits 0xA :=
  ⟨rfl, rfl, rfl, rfl, by simp [integerLoadRows], by decide, by decide⟩

/-- Each clause has an operand: an SNaN, a denormal, a number; and the masks on either side. -/
theorem witness_RealLoadsConvertAndCheck :
    (stack2 0x037F one two).Ready ∧ (stack2 0x037F one two).Room ∧ (stack2 0x037C one two).Ready ∧
      (stack2 0x037C one two).Room ∧ (stack2 0x037C one two).Allows 0x3000 8 ∧
      (stack2 0x037F one two).masked .i = true ∧ (stack2 0x037C one two).masked .i = false ∧
      (stack2 0x037F one two).masked .d = true ∧ (stack2 0x037C one two).masked .d = false ∧
      classOf (fromReal single 0x7F800001).value = .snan ∧ (fromReal single 0x007FFFFF).wasDenormal = true ∧
      (fromReal single 0x00800000).wasDenormal = false :=
  ⟨rfl, rfl, rfl, rfl, rfl, rfl, rfl, rfl, rfl, by decide, by decide, by decide⟩

/-- With room; without room, the fault masked; without room, unmasked. -/
theorem witness_ConstantsArePushed :
    (stack2 0x037F one two).Ready ∧ (stack2 0x037F one two).pushFull = false ∧ (stack8 0x037F).Ready ∧
      (stack8 0x037F).pushFull = true ∧ (stack8 0x037F).masked .i = true ∧ (stack8 0x037E).Ready ∧
      (stack8 0x037E).pushFull = true ∧ (stack8 0x037E).masked .i = false :=
  ⟨rfl, rfl, rfl, rfl, rfl, rfl, rfl, rfl⟩

theorem witness_LoadOverflowsFullStack :
    (stack8 0x037F).Ready ∧ (stack8 0x037F).pushFull = true ∧
      (stack8 0x037F).Allows ((stack8 0x037F).ea at3000) 10 ∧ (stack8 0x037F).masked .i = true ∧
      (stack8 0x037E).masked .i = false := ⟨rfl, rfl, rfl, rfl, rfl⟩

/-- Full operands; an empty ST(0), an empty ST(i) and, for FLD, a full new top; the masks on either side. -/
theorem witness_RegisterCopiesAndExchange :
    (stack2 0x037F one two).Ready ∧ (stack2 0x037F one two).Full 0 ∧ (stack2 0x037F one two).Full 1 ∧
      (stack2 0x037F one two).isEmpty 2 = true ∧ (stack2 0x037F one two).masked .i = true ∧ (stack0 0x037E).Ready ∧
      (stack0 0x037E).isEmpty 0 = true ∧ (stack0 0x037E).masked .i = false ∧ (stack8 0x037F).Ready ∧
      (stack8 0x037F).isEmpty 1 = false ∧ (stack8 0x037F).pushFull = true :=
  ⟨rfl, rfl, rfl, rfl, rfl, rfl, rfl, rfl, rfl, rfl, rfl⟩

/-- Present with full operands, present with an empty one, absent. -/
theorem witness_ConditionalMoves :
    (Instr.fcmovb, fun s : State => s.cf) ∈ moveRows ∧ (stack2 0x037F one two).params.hasFcmov = true ∧
      (stack2 0x037F one two).Ready ∧ (stack2 0x037F one two).isEmpty 1 = false ∧
      (stack2 0x037F one two).isEmpty 2 = true ∧
      ({ stack2 0x037F one two with params := { State.reset.params with hasFcmov := false } } : State).params.hasFcmov =
        false := ⟨List.mem_cons_self, rfl, rfl, rfl, rfl, rfl⟩

/-- Each clause of the answer: stored, and abandoned by an unmasked exception before and after the conversion. -/
theorem witness_StoresWriteTheirOperand :
    (stack2 0x037F one two).Ready ∧ (stack2 0x037F one two).Full 0 ∧
      (stack2 0x037F one two).Allows ((stack2 0x037F one two).ea at3000) 10 ∧ (stack2 0x037F one two).AllMasked ∧
      (storeReal 0x037F true single one).action = .store 0x3F800000 false ∧
      (storeReal 0x0340 true single 0x7FFF8000000000000001).action = .abandonBefore ∧
      (storeReal 0x0340 true single 0x407F8000000000000000).action = .abandonAfter :=
  ⟨rfl, rfl, rfl, masked2 _ _, by decide, by decide, by decide⟩

theorem witness_StoreOfEmptyTopUnderflows :
    (stack0 0x037F).Ready ∧ (stack0 0x037F).isEmpty 0 = true ∧ (stack0 0x037F).Allows 0x3000 10 ∧
      (stack0 0x037F).masked .i = true ∧ (stack0 0x037E).Ready ∧ (stack0 0x037E).isEmpty 0 = true ∧
      (stack0 0x037E).masked .i = false := ⟨rfl, rfl, rfl, rfl, rfl, rfl, rfl⟩

/-- At the ends of the integer ranges, and one beyond; the largest packed decimal, and one beyond; no finite number. -/
theorem witness_IntegersAndDecimalsAreStoredRounded :
    0 < 2 ^ 16 ∧ 2 ^ 64 - 1 < 2 ^ 64 ∧ 0x80999999999999999999 < 2 ^ 80 ∧ 0x80999999999999999999 / 2 ^ 72 % 2 ^ 7 = 0 ∧
      (fromBcd 0x80999999999999999999).isSome = true ∧ fromBcd 0xA = none ∧
      storeInt 0x037F 16 (fromInt 32767) = ⟨[], .store 0x7FFF false⟩ ∧
      storeInt 0x037F 16 (fromInt (-32768)) = ⟨[], .store 0x8000 false⟩ ∧
      storeInt 0x037E 16 (fromInt 32768) = ⟨[.i], .abandonBefore⟩ ∧ isFinite (fromInt 32768) = true ∧
      (storeBcd 0x037F 0 (fromInt (10 ^ 18 - 1))).flags = [] ∧ (storeBcd 0x037F 0 (fromInt (10 ^ 18))).flags = [.i] ∧
      isFinite indef80 = false := by decide

theorem witness_ArithmeticRegisterForms :
    (⟨.fsubrp, .sub, true, true, true⟩ : ArithRow) ∈ arithRows ∧ (stack2 0x037F one two).Ready ∧
      (stack2 0x037F one two).Full 1 ∧ (stack2 0x037F one two).Full 0 ∧ pcBits (stack2 0x037F one two).cw = some 64 ∧
      (stack2 0x037F one two).AllMasked := ⟨by simp [arithRows], rfl, rfl, rfl, rfl, masked2 _ _⟩

theorem witness_ArithmeticMemoryForms :
    (stack2 0x037F one two).Ready ∧ (stack2 0x037F one two).Full 0 ∧
      (stack2 0x037F one two).Allows ((stack2 0x037F one two).ea at3000) 8 ∧
      ∀ r ∈ arithMemRows, r.precision (stack2 0x037F one two) = some 64 :=
  ⟨rfl, rfl, rfl, fun r _ => by
    unfold ArithMemRow.precision
    split <;> rfl⟩

/-! Values of the operands. -/

/-- A power of two. -/
theorem realOf_pow {x : Ext} (k : ℤ) (h : valOf x = ⟨false, ⟨2 ^ 63, 1, k - 63⟩⟩) : realOf x = (2 : ℚ) ^ k := by
  refine realOf_of h ?_
  have : (((2 ^ 63 : ℕ) : ℚ) / ((1 : ℕ) : ℚ)) = (2 : ℚ) ^ (63 : ℤ) := by norm_num
  rw [Exact.toRat, Mag.toRat, this, ← zpow_add₀ (by norm_num)]
  simp

theorem pow_bounds (e : ℤ) : (2 : ℚ) ^ e ≤ |(2 : ℚ) ^ e| ∧ |(2 : ℚ) ^ e| < (2 : ℚ) ^ (e + 1) := by
  rw [abs_of_pos (by positivity)]
  exact ⟨le_refl _, zpow_lt_zpow_right₀ (by norm_num) (by omega)⟩

theorem realOf_one : realOf one = 1 := by rw [realOf_pow 0 (by decide)]; norm_num
theorem realOf_two : realOf two = 2 := by rw [realOf_pow 1 (by decide)]; norm_num
theorem realOf_zero : realOf 0 = 0 := by
  have h : valOf 0 = ⟨false, ⟨0, 1, -16445⟩⟩ := by decide
  rw [realOf, h, Exact.toRat, Mag.toRat]; simp

/-- The smallest normal number, 2^63 and 2^16382. -/
def tiny : Ext := 0x00018000000000000000
def limit : Ext := 0x403E8000000000000000
def huge : Ext := 0x7FFD8000000000000000

/-- 1.5 times the smallest normal number, a half, and an SNaN. -/
def tinyHalf : Ext := 0x0001C000000000000000
def half : Ext := 0x3FFE8000000000000000
def snan1 : Ext := 0x7FFF8000000000000001

theorem realOf_tiny : realOf tiny = (2 : ℚ) ^ (-16382 : ℤ) := realOf_pow _ (by decide)
theorem realOf_limit : realOf limit = (2 : ℚ) ^ (63 : ℤ) := realOf_pow _ (by decide)
theorem realOf_huge : realOf huge = (2 : ℚ) ^ (16382 : ℤ) := realOf_pow _ (by decide)

/-- At the smallest and the largest operand of a format; a number in range, one above and one below; a denormal, an
unsupported encoding and NaNs; the masks on either side. -/
theorem witness_RealsAreStoredRounded :
    (maskedIn 0x037F .u = true ∧ 1 < 256 ^ single.bytes ∧ classOf (fromReal single 1).value ≠ .snan ∧
      256 ^ double.bytes - 1 < 256 ^ double.bytes ∧ classOf (fromReal double (256 ^ double.bytes - 1)).value ≠ .snan) ∧
      classOf 0x3FFF0000000000000001 = .unsupported ∧ classOf 0x7FFF8000000000000001 = .snan ∧ classOf indef80 = .qnan ∧
      isDenormal 1 = true ∧ (maskedIn 0x0340 .d = false ∧ maskedIn 0x0340 .o = false ∧ maskedIn 0x0340 .u = false) ∧
      (isFinite one = true ∧ isDenormal one = false ∧ realOf one = (2 : ℚ) ^ (0 : ℤ)) ∧
      (isFinite huge = true ∧ isDenormal huge = false ∧ realOf huge = (2 : ℚ) ^ (16382 : ℤ)) ∧
      (isFinite tiny = true ∧ isDenormal tiny = false ∧ realOf tiny = (2 : ℚ) ^ (-16382 : ℤ)) ∧
      ∀ e : ℤ, (2 : ℚ) ^ e ≤ |(2 : ℚ) ^ e| ∧ |(2 : ℚ) ^ e| < (2 : ℚ) ^ (e + 1) :=
  ⟨by decide, by decide, by decide, by decide, by decide, by decide,
    ⟨by decide, by decide, by rw [realOf_one, zpow_zero]⟩, ⟨by decide, by decide, realOf_huge⟩,
    ⟨by decide, by decide, realOf_tiny⟩, pow_bounds⟩

/-- At both ends of the range of normal numbers, below it and above it; the masks on either side. -/
theorem witness_ArithmeticRoundsTheExactResult :
    isFinite tiny = true ∧ isFinite huge = true ∧ isFinite 0 = true ∧ (isDenormal tiny || isDenormal 0) = false ∧
      (isDenormal huge || isDenormal one) = false ∧ realOf one ≠ 0 ∧
      (maskedIn 0x037F .o = true ∧ maskedIn 0x0340 .o = false ∧ maskedIn 0x037F .u = true ∧ maskedIn 0x0340 .u = false) ∧
      ArithOp.add.onRat (realOf tiny) (realOf 0) = (2 : ℚ) ^ (-16382 : ℤ) ∧
      ArithOp.div.onRat (realOf huge) (realOf one) = (2 : ℚ) ^ (16382 : ℤ) ∧
      ArithOp.mul.onRat (realOf tiny) (realOf tiny) = (2 : ℚ) ^ (-16382 + -16382 : ℤ) ∧
      ArithOp.mul.onRat (realOf huge) (realOf huge) = (2 : ℚ) ^ (16382 + 16382 : ℤ) ∧
      ∀ e : ℤ, (2 : ℚ) ^ e ≤ |(2 : ℚ) ^ e| ∧ |(2 : ℚ) ^ e| < (2 : ℚ) ^ (e + 1) :=
  ⟨by decide, by decide, by decide, by decide, by decide, by rw [realOf_one]; norm_num, by decide,
    by rw [ArithOp.onRat, realOf_tiny, realOf_zero, add_zero], by rw [ArithOp.onRat, realOf_huge, realOf_one, div_one],
    by rw [ArithOp.onRat, realOf_tiny, zpow_add₀ two_ne_zero], by rw [ArithOp.onRat, realOf_huge, zpow_add₀ two_ne_zero],
    pow_bounds⟩

/-- The rows of the addition, subtraction, multiplication and division into ST(0), which the witnesses use. -/
theorem arith_rows_into_top :
    (⟨.faddSt0Sti, .add, false, false, false⟩ : ArithRow) ∈ arithRows ∧
      (⟨.fsubSt0Sti, .sub, false, false, false⟩ : ArithRow) ∈ arithRows ∧
      (⟨.fmulSt0Sti, .mul, false, false, false⟩ : ArithRow) ∈ arithRows ∧
      (⟨.fdivSt0Sti, .div, false, false, false⟩ : ArithRow) ∈ arithRows := by simp [arithRows]

/-- Operands of every answer, masked and unmasked; the divisions of memory by and into a zero; NaNs of both kinds and two
significands. -/
theorem witness_SpecialOperandsOfTheFourOperations :
    (∀ (cw : Word16) (a b : Ext), (stack2 cw a b).Ready ∧ (stack2 cw a b).Full 0 ∧ (stack2 cw a b).Full 1 ∧
      (stack2 cw a b).st 0 = a ∧ (stack2 cw a b).st 1 = b) ∧
      ((stack2 0x037B one 0).masked .z = false ∧ (stack2 0x037E one 0).masked .i = false) ∧
      (∀ (cw : Word16) (pick : Bool) (op : ArithOp),
        SpecialAnswer cw pick op (.of 0x3FFF0000000000000001) (.of one) (.special cw .i indef80) ∧
        SpecialAnswer cw pick op (.of 0x7FFF8000000000000001) (.of one)
          (.special cw .i (qnanOf pick 0x7FFF8000000000000001 one)) ∧
        SpecialAnswer cw pick op (.of indef80) (.of one) ⟨[], some ⟨qnanOf pick indef80 one, false⟩⟩) ∧
      (∀ (cw : Word16) (pick : Bool),
        SpecialAnswer cw pick .add (.of (inf80 false)) (.of (inf80 true)) (.special cw .i indef80) ∧
        SpecialAnswer cw pick .add (.of (inf80 false)) (.of one) (.exactly cw false (inf80 false)) ∧
        SpecialAnswer cw pick .add (.of one) (.of (inf80 true)) (.exactly cw false (inf80 true)) ∧
        SpecialAnswer cw pick .sub (.of (inf80 true)) (.of (inf80 true)) (.special cw .i indef80) ∧
        SpecialAnswer cw pick .sub (.of (inf80 true)) (.of one) (.exactly cw false (inf80 true)) ∧
        SpecialAnswer cw pick .sub (.of one) (.of (inf80 true)) (.exactly cw false (inf80 false)) ∧
        SpecialAnswer cw pick .mul (.of (inf80 true)) (.of 0) (.special cw .i indef80) ∧
        SpecialAnswer cw pick .mul (.of (inf80 true)) (.of one) (.exactly cw false (inf80 true)) ∧
        SpecialAnswer cw pick .mul (.of one) (.of 0) (.exactly cw false (zero80 false)) ∧
        SpecialAnswer cw pick .div (.of 0) (.of 0) (.special cw .i indef80) ∧
        SpecialAnswer cw pick .div (.of one) (.of 0) (.special cw .z (inf80 false)) ∧
        SpecialAnswer cw pick .div (.of (inf80 true)) (.of one) (.exactly cw false (inf80 true)) ∧
        SpecialAnswer cw pick .div (.of one) (.of (inf80 true)) (.exactly cw false (zero80 true)) ∧
        SpecialAnswer cw pick .div (.of 0) (.of one) (.exactly cw false (zero80 false))) ∧
      (∀ cw pick, SpecialAnswer cw pick .add (.of 0) (.of 0) (.exactly cw false (zero80 false)) ∧
        SpecialAnswer cw pick .sub (.of 0) (.of (zero80 true)) (.exactly cw false (zero80 false))) ∧
      (∀ r ∈ [(⟨.fdivM32real, .div, false, 4, State.m32real, false⟩ : ArithMemRow),
          ⟨.fidivM16int, .div, false, 2, State.m16int, true⟩, ⟨.fidivM32int, .div, false, 4, State.m32int, true⟩],
        r ∈ arithMemRows ∧ SpecialAnswer 0x037F true r.op (r.left (stack2 0x037F one 0) 0x3000)
          (r.right (stack2 0x037F one 0) 0x3000) (.special 0x037F .z (inf80 false))) ∧
      isNaN indef80 = true ∧ classOf 0x7FFF8000000000000001 = .snan ∧ classOf 0x7FFFC000000000000005 = .qnan ∧
      sigOf indef80 < sigOf 0x7FFFC000000000000005 := by
  refine ⟨fun cw a b => ⟨ready2 _ _ _, full0 _ _ _, full1 _ _ _, ?_, ?_⟩, by decide, fun cw pick op => ⟨?_, ?_, ?_⟩,
    fun cw pick => ⟨?_, ?_, ?_, ?_, ?_, ?_, ?_, ?_, ?_, ?_, ?_, ?_, ?_, ?_⟩, fun cw pick => ⟨?_, ?_⟩, ?_, by decide, by decide,
    by decide, by decide⟩
  · rw [State.st, State.phys, top2]; rfl
  · rw [State.st, State.phys, top2]; rfl
  · exact .nan (.unsupported (by decide))
  · exact .nan (.snan (by decide) (by decide) (by decide))
  · exact .nan (.qnan (by decide) (by decide) (by decide) (by decide) (by decide))
  · exact .addInvalid (by decide) (by decide) (by decide)
  · exact .addInfinity (by decide) (by decide)
  · exact .infinityAdded (by decide) (by decide)
  · exact .subInvalid (by decide) (by decide) (by decide)
  · exact .subInfinity (by decide) (by decide)
  · exact .infinitySubtracted (by decide) (by decide)
  · exact .mulInvalid (by decide)
  · exact .mulInfinity (by decide) (by decide) (by decide) (by decide) (by decide)
  · exact .mulZero (by decide) (by decide) (by decide)
  · exact .divInvalid (by decide)
  · exact .divByZero (by decide) (by decide) (by decide)
  · exact .infinityDivided (by decide) (by decide)
  · exact .divByInfinity (by decide) (by decide)
  · exact .zeroDivided (by decide) (by decide) (by decide)
  · exact .addZero (by decide) (by decide) (by show realOf 0 + realOf 0 = 0; rw [realOf_zero, add_zero])
  · exact .subZero (by decide) (by decide) (by show realOf 0 = realOf (zero80 true); rw [realOf_zero, realOf_zero80])
  · intro r hr
    simp only [List.mem_cons, List.not_mem_nil, or_false] at hr
    rcases hr with rfl | rfl | rfl <;>
      exact ⟨by simp [arithMemRows], .divByZero (by decide) (by decide) (by decide)⟩

/-- An empty ST(0), an empty other operand, and a full register where the push goes; the masks on either side. -/
theorem witness_ArithmeticUnderflowsEmptyOperand :
    (stack2 0x037F one two).Ready ∧ (stack2 0x037F one two).isEmpty 2 = true ∧ (stack2 0x037F one two).masked .i = true ∧
      (stack0 0x037E).Ready ∧ (stack0 0x037E).isEmpty 0 = true ∧ (stack0 0x037E).isEmpty 1 = true ∧
      (stack0 0x037E).Allows ((stack0 0x037E).ea at3000) 8 ∧ (stack0 0x037E).masked .i = false ∧
      (stack8 0x037F).Ready ∧ (stack8 0x037F).isEmpty 0 = false ∧ (stack8 0x037F).pushFull = true :=
  ⟨rfl, rfl, rfl, rfl, rfl, rfl, rfl, rfl, rfl, rfl, rfl⟩

/-- A register form, a memory form, FSQRT, and an unmasked denormal; and the value of a denormal sum. -/
theorem witness_ReservedPrecisionIsRefused :
    (∀ cw a b, (stack2 cw a b).Ready ∧ (stack2 cw a b).Full 0 ∧ (stack2 cw a b).Full 1 ∧
      (stack2 cw a b).Allows ((stack2 cw a b).ea at3000) 8) ∧
      pcBits 0x017F = none ∧ pcBits 0x017D = none ∧ maskedIn 0x017D .d = false ∧ isFinite one = true ∧ isFinite two = true ∧
      isFinite 1 = true ∧ isDenormal 1 = true ∧ ArithOp.add.onRat (realOf one) (realOf two) ≠ 0 ∧
      (⟨.faddM64real, .add, false, 8, State.m64real, false⟩ : ArithMemRow).precision (stack2 0x017F one two) = none ∧
      ArithOp.add.onRat (realOf one) (realOf 0) ≠ 0 ∧ 0 < realOf one ∧ ArithOp.add.onRat (realOf 1) (realOf 0) ≠ 0 :=
  ⟨fun _ _ _ => ⟨ready2 _ _ _, full0 _ _ _, full1 _ _ _, rfl⟩, by decide, by decide, by decide, by decide, by decide,
    by decide, by decide, by rw [ArithOp.onRat, realOf_one, realOf_two]; norm_num, rfl,
    by rw [ArithOp.onRat, realOf_one, realOf_zero]; norm_num, by rw [realOf_one]; norm_num,
    by rw [ArithOp.onRat, realOf_zero, add_zero]; exact fun h => absurd ((realOf_eq_zero_iff 1).mp h) (by decide)⟩

theorem witness_SignOperations :
    (stack2 0x037F one two).Ready ∧ (stack2 0x037F one two).isEmpty 0 = false ∧ (stack0 0x037E).Ready ∧
      (stack0 0x037E).isEmpty 0 = true := ⟨rfl, rfl, rfl, rfl⟩

/-- A positive number; and operands of every answer, minus infinity and the denormals of either sign among them. -/
theorem witness_SquareRootCompletes :
    (∀ x y, (stack2 0x037F x y).Ready ∧ (stack2 0x037F x y).Full 0 ∧ (stack2 0x037F x y).AllMasked ∧
      pcBits (stack2 0x037F x y).cw = some 64) ∧
      (∀ cw, SqrtAnswer cw 0x3FFF0000000000000001 (.special cw .i indef80) ∧
        SqrtAnswer cw snan1 (.special cw .i (quiet snan1)) ∧ SqrtAnswer cw indef80 ⟨[], some ⟨indef80, false⟩⟩ ∧
        SqrtAnswer cw (zero80 true) ⟨[], some ⟨zero80 true, false⟩⟩ ∧
        SqrtAnswer cw (inf80 false) ⟨[], some ⟨inf80 false, false⟩⟩ ∧ SqrtAnswer cw (inf80 true) (.special cw .i indef80) ∧
        SqrtAnswer cw (negate one) (.special cw .i indef80) ∧ SqrtAnswer cw (negate 1) (.special cw .i indef80)) ∧
      SqrtAnswer 0x037D 1 ⟨[.d], none⟩ :=
  ⟨fun _ _ => ⟨ready2 _ _ _, full0 _ _ _, masked2 _ _, (by decide : pcBits 0x037F = some 64)⟩,
    fun _ => ⟨.nan (.unsupported (by decide)), .nan (.snan (by decide)), .nan (.qnan (by decide)),
      .unchanged (.inl (by decide)), .unchanged (.inr (by decide)), .negative (by decide) (by decide) (by decide),
      .negative (by decide) (by decide) (by decide), .negative (by decide) (by decide) (by decide)⟩,
    .denormal (by decide) (by decide) (by decide)⟩

/-- The square root of 2 to 53 bits, and a tie: the square of a number of 25 bits, to 24 bits. -/
theorem witness_SquareRootRoundsTheRoot :
    pcBits 0x027F = some 53 ∧ classOf two = .normal ∧ signOf two = false ∧ (2 : ℚ) ^ (2 * 0 : ℤ) ≤ realOf two ∧
      realOf two < (2 : ℚ) ^ (2 * 0 + 2 : ℤ) ∧ pcBits 0x007F = some 24 ∧ classOf (fromInt (16777217 ^ 2)) = .normal ∧
      (sqrt 0x007F (fromInt (16777217 ^ 2))).toOption = some ⟨[.p], some ⟨fromInt 16777216, false⟩⟩ ∧
      (sqrt 0x007F (fromInt (16777219 ^ 2))).toOption = some ⟨[.p], some ⟨fromInt 16777220, true⟩⟩ :=
  ⟨by decide, by decide, by decide, by rw [realOf_two]; norm_num, by rw [realOf_two]; norm_num, by decide, by decide,
    by decide +kernel, by decide +kernel⟩

/-- A number, and a denormal with #D masked; and operands of every other answer. -/
theorem witness_RoundToInteger :
    (stack2 0x037F one two).Ready ∧ (stack2 0x037F one two).Full 0 ∧ isFinite one = true ∧ isDenormal one = false ∧
      isFinite 1 = true ∧ isDenormal 1 = true ∧ (stack2 0x037F 1 two).masked .d = true ∧
      (∀ cw, NanAnswer1 cw 0x3FFF0000000000000001 (.special cw .i indef80) ∧
        NanAnswer1 cw snan1 (.special cw .i (quiet snan1)) ∧ NanAnswer1 cw indef80 ⟨[], some ⟨indef80, false⟩⟩) ∧
      classOf (inf80 true) = .infinity ∧ maskedIn 0x037D .d = false :=
  ⟨rfl, rfl, by decide, by decide, by decide, by decide, by decide,
    fun _ => ⟨.unsupported (by decide), .snan (by decide), .qnan (by decide)⟩, by decide, by decide⟩

/-- The largest difference of exponents that completes, and the smallest that does not; a tiny remainder, and an unmasked
#U. -/
theorem witness_RemainderIsExact :
    (∀ cw x y, (stack2 cw x y).Ready ∧ (stack2 cw x y).Full 0 ∧ (stack2 cw x y).Full 1) ∧
      isFinite limit = true ∧ isFinite one = true ∧ realOf limit ≠ 0 ∧ realOf one ≠ 0 ∧
      (magOf limit).log2 - (magOf one).log2 = 63 ∧ (magOf 0x403F8000000000000000).log2 - (magOf one).log2 = 64 ∧
      isFinite (negate one) = true ∧ isFinite tiny = true ∧ isFinite tinyHalf = true ∧
      (isDenormal tinyHalf || isDenormal tiny) = false ∧ maskedIn 0x036F .u = false ∧
      realOf tinyHalf - (if signOf tinyHalf = signOf tiny then ((1 : ℕ) : ℚ) else -((1 : ℕ) : ℚ)) * realOf tiny =
        (2 : ℚ) ^ (-16383 : ℤ) := by
  refine ⟨fun _ _ _ => ⟨ready2 _ _ _, full0 _ _ _, full1 _ _ _⟩, by decide, by decide, by rw [realOf_limit]; positivity,
    by rw [realOf_one]; norm_num, by decide, by decide, by decide, by decide, by decide, by decide, by decide, ?_⟩
  have h : valOf tinyHalf = ⟨false, ⟨3 * 2 ^ 62, 1, -16382 + -63⟩⟩ := by decide
  rw [if_pos (by decide), realOf, h, realOf_tiny, Exact.toRat, Mag.toRat, zpow_add₀ two_ne_zero,
    show (-16383 : ℤ) = -16382 + -1 from by norm_num, zpow_add₀ two_ne_zero]
  generalize (2 : ℚ) ^ (-16382 : ℤ) = a
  norm_num
  ring

/-- Operands of every answer, and the masks on either side. -/
theorem witness_RemainderSpecialOperands :
    (∀ cw x y, (stack2 cw x y).Ready ∧ (stack2 cw x y).Full 0 ∧ (stack2 cw x y).Full 1) ∧
      (maskedIn 0x037F .i = true ∧ maskedIn 0x037E .i = false) ∧
      (∀ cw pick, RemainderAnswer cw pick 0x3FFF0000000000000001 one (.special cw .i indef80) (fun _ => True) ∧
        RemainderAnswer cw pick one snan1 (.special cw .i (qnanOf pick one snan1)) (fun _ => True) ∧
        RemainderAnswer cw pick one indef80 ⟨[], some ⟨qnanOf pick one indef80, false⟩⟩ (fun _ => True) ∧
        RemainderAnswer cw pick (inf80 false) one (.special cw .i indef80) (fun t => t.c2 = false) ∧
        RemainderAnswer cw pick one (zero80 true) (.special cw .i indef80) (fun t => t.c2 = false) ∧
        RemainderAnswer cw pick (zero80 true) (zero80 true) (.special cw .i indef80) (fun t => t.c2 = false) ∧
        RemainderAnswer cw pick one (inf80 true) ⟨[], some ⟨one, false⟩⟩ (fun t => t.codes = (false, false, false)) ∧
        RemainderAnswer cw pick (zero80 true) one ⟨[], some ⟨zero80 true, false⟩⟩
          (fun t => t.codes = (false, false, false))) ∧
      ∀ pick, RemainderAnswer 0x037D pick 1 one ⟨[.d], none⟩ (fun _ => True) :=
  ⟨fun _ _ _ => ⟨ready2 _ _ _, full0 _ _ _, full1 _ _ _⟩, by decide,
    fun _ _ => ⟨.nan (.unsupported (.inl (by decide))), .nan (.snan (by decide) (by decide) (.inr (by decide))),
      .nan (.qnan (by decide) (by decide) (by decide) (by decide) (.inr (by decide))),
      .invalid (by decide) (by decide) (.inl (by decide)), .invalid (by decide) (by decide) (.inr (by decide)),
      .invalid (by decide) (by decide) (.inr (by decide)), .dividend (by decide) (.inl (by decide)) (by decide),
      .dividend (by decide) (.inr (by decide)) (by decide)⟩,
    fun _ => .denormal (by decide) (by decide) (by decide) (by decide) (.inl (by decide)) (by decide)⟩

/-- An operand of every class, and the masks on either side. -/
theorem witness_ExtractSplitsTheValue :
    (∀ cw a b, (stack2 cw a b).Ready ∧ (stack2 cw a b).Full 0 ∧ (stack2 cw a b).Room) ∧
      classOf (zero80 true) = .zero ∧ classOf (inf80 false) = .infinity ∧ classOf 0x3FFF0000000000000001 = .unsupported ∧
      classOf 0x7FFF8000000000000001 = .snan ∧ classOf indef80 = .qnan ∧ classOf two = .normal ∧ classOf 1 = .denormal ∧
      (maskedIn 0x037F .z = true ∧ maskedIn 0x037B .z = false ∧ maskedIn 0x037E .i = false ∧ maskedIn 0x037D .d = false) :=
  ⟨fun _ _ _ => ⟨ready2 _ _ _, full0 _ _ _, room2 _ _ _⟩, by decide, by decide, by decide, by decide, by decide, by decide,
    by decide, by decide⟩

/-- Operands of every answer without a product. 1.0 scaled to both ends of the range of normal numbers and one beyond, and
beyond what the wrapped response can hold; by zero; and a denormal scaled into the range. -/
theorem witness_ScaleMultipliesByPowerOfTwo :
    (∀ cw x y, (stack2 cw x y).Ready ∧ (stack2 cw x y).Full 0 ∧ (stack2 cw x y).Full 1) ∧
      (∀ cw pick, ScaleAnswer cw pick indef80 one ⟨[], some ⟨qnanOf pick indef80 one, false⟩⟩ ∧
        ScaleAnswer cw pick (zero80 true) (inf80 false) (.special cw .i indef80) ∧
        ScaleAnswer cw pick (inf80 false) (inf80 true) (.special cw .i indef80) ∧
        ScaleAnswer cw pick (inf80 true) (inf80 false) ⟨[], some ⟨inf80 true, false⟩⟩ ∧
        ScaleAnswer cw pick (negate one) (inf80 false) ⟨[], some ⟨inf80 true, false⟩⟩ ∧
        ScaleAnswer cw pick (negate one) (inf80 true) ⟨[], some ⟨zero80 true, false⟩⟩ ∧
        ScaleAnswer cw pick (zero80 true) (inf80 true) ⟨[], some ⟨zero80 true, false⟩⟩ ∧
        ScaleAnswer cw pick (zero80 true) one ⟨[], some ⟨zero80 true, false⟩⟩ ∧
        ScaleAnswer cw pick (inf80 true) (zero80 true) ⟨[], some ⟨inf80 true, false⟩⟩) ∧
      (∀ pick, ScaleAnswer 0x037D pick one 1 ⟨[.d], none⟩) ∧
      (∀ n ∈ [(16383 : ℤ), 16384, 16384 + 24576, -16382, -16383, -16383 - 24576, 0], |(n : ℚ)| ≤ |realOf (fromInt n)| ∧
        |realOf (fromInt n)| < |(n : ℚ)| + 1 ∧ 0 ≤ (n : ℚ) * realOf (fromInt n) ∧ isFinite (fromInt n) = true) ∧
      isFinite one = true ∧ (2 : ℚ) ^ (0 : ℤ) ≤ |realOf one| ∧ |realOf one| < (2 : ℚ) ^ (0 + 1 : ℤ) ∧
      (isFinite 1 = true ∧ isDenormal 1 = true ∧ magOf 1 = ⟨1, 1, -16445⟩) ∧
      (maskedIn 0x037F .o = true ∧ maskedIn 0x0377 .o = false ∧ maskedIn 0x037F .u = true ∧ maskedIn 0x036F .u = false) := by
  refine ⟨fun _ _ _ => ⟨ready2 _ _ _, full0 _ _ _, full1 _ _ _⟩,
    fun _ _ => ⟨.nan (.qnan (by decide) (by decide) (by decide) (by decide) (.inl (by decide))),
      .invalid (by decide) (by decide), .invalid (by decide) (by decide),
      .up (by decide) (by decide) (by decide) (by decide), .up (by decide) (by decide) (by decide) (by decide),
      .down (by decide) (by decide) (by decide), .down (by decide) (by decide) (by decide),
      .unchanged (by decide) (.inl (by decide)), .unchanged (by decide) (.inr (by decide))⟩,
    fun _ => .denormal (by decide) (by decide) (by decide) (.inr (by decide)) (by decide), fun n hn => ?_, by decide,
    by rw [realOf_one]; norm_num, by rw [realOf_one]; norm_num, by decide, by decide⟩
  have hb : n.natAbs ≤ 2 ^ 64 := (by decide : ∀ n ∈ [(16383 : ℤ), 16384, 16384 + 24576, -16382, -16383, -16383 - 24576, 0],
    n.natAbs ≤ 2 ^ 64) n hn
  obtain ⟨hf, hv, -⟩ := fromInt_spec n hb
  rw [hv]
  exact ⟨le_refl _, lt_add_one _, mul_self_nonneg _, hf⟩

/-- An ordered pair, operands on which an unmasked #I or #D ends the comparison, and NaNs of both kinds. -/
theorem witness_ComparisonsSetConditionCodes :
    (stack2 0x037F one two).Ready ∧ (stack2 0x037F one two).Full 0 ∧ (stack2 0x037F one two).Full 1 ∧
      (stack2 0x037F one two).Allows ((stack2 0x037F one two).ea at3000) 8 ∧ (stack2 0x037F one two).AllMasked ∧
      (compare 0x037E false true (.of indef80) (.of one)).value = none ∧
      (compare 0x037D false true (.of 1) (.of one)).value = none ∧
      (compare 0x037F true true (.of 0x7FFF8000000000000001) (.of one)).flags = [.i] ∧
      (compare 0x037F true true (.of indef80) (.of one)).flags = [] :=
  ⟨rfl, rfl, rfl, rfl, masked2 _ _, by decide, by decide, by decide, by decide⟩

theorem witness_ComparisonsSetHostFlags :
    (stack2 0x037F one two).params.hasFcomi = true ∧ (stack2 0x037F one two).Ready ∧ (stack2 0x037F one two).Full 0 ∧
      (stack2 0x037F one two).Full 1 ∧ (stack2 0x037F one two).AllMasked ∧
      (compare 0x037E false false (.of indef80) (.of one)).value = none ∧
      ({ stack2 0x037F one two with params := { State.reset.params with hasFcomi := false } } : State).params.hasFcomi =
        false := ⟨rfl, rfl, rfl, rfl, masked2 _ _, by decide, rfl⟩

theorem witness_RelationIsTheOrderOfValues :
    isFinite one = true ∧ classOf (inf80 true) = .infinity ∧ isOrdered indef80 = false := by decide

theorem witness_ExamineClassifiesTheTop :
    (stack2 0x037F one two).Ready ∧ (stack2 0x037F one two).isEmpty 0 = false ∧ (stack0 0x037F).Ready ∧
      (stack0 0x037F).isEmpty 0 = true := ⟨rfl, rfl, rfl, rfl⟩

theorem witness_ComparisonUnderflowsEmptyOperand :
    (Instr.fcompSti, false, 1) ∈ compareRows ∧ (stack2 0x037F one two).Ready ∧
      (stack2 0x037F one two).isEmpty 2 = true ∧ (stack2 0x037F one two).masked .i = true ∧ (stack0 0x037E).Ready ∧
      (stack0 0x037E).isEmpty 0 = true ∧ (stack0 0x037E).operandDenied ((stack0 0x037E).ea at3000) 8 = false ∧
      (stack0 0x037E).masked .i = false ∧ (stack0 0x037E).params.hasFcomi = true :=
  ⟨by simp [compareRows], rfl, rfl, rfl, rfl, rfl, rfl, rfl, rfl⟩

/-- The smallest operand out of range, of either sign; and operands of every other answer. -/
theorem witness_TrigonometrySpecialOperands :
    (∀ cw x y, (stack2 cw x y).Ready ∧ (stack2 cw x y).Full 0 ∧ (stack2 cw x y).Room) ∧
      (isFinite limit = true ∧ (2 : ℚ) ^ (63 : ℕ) ≤ |realOf limit|) ∧
      (∀ cw, TrigAnswer cw 0x3FFF0000000000000001 (.special cw .i indef80) ∧
        TrigAnswer cw snan1 (.special cw .i (quiet snan1)) ∧ TrigAnswer cw indef80 ⟨[], some ⟨indef80, false⟩⟩ ∧
        TrigAnswer cw (inf80 false) (.special cw .i indef80) ∧ TrigAnswer cw (inf80 true) (.special cw .i indef80)) ∧
      TrigAnswer 0x037D 1 ⟨[.d], none⟩ :=
  ⟨fun _ _ _ => ⟨ready2 _ _ _, full0 _ _ _, room2 _ _ _⟩, ⟨by decide, by rw [realOf_limit]; norm_num⟩,
    fun _ => ⟨.nan (.unsupported (by decide)), .nan (.snan (by decide)), .nan (.qnan (by decide)), .infinity (by decide),
      .infinity (by decide)⟩, .denormal (by decide) (by decide)⟩

/-- The largest operand in range, and a zero. -/
theorem witness_TrigonometryInRange :
    (stack2 0x037F 0x403DFFFFFFFFFFFFFFFF one).Ready ∧ (stack2 0x037F 0x403DFFFFFFFFFFFFFFFF one).Full 0 ∧
      (stack2 0x037F 0x403DFFFFFFFFFFFFFFFF one).Room ∧ isFinite 0x403DFFFFFFFFFFFFFFFF = true ∧
      |realOf 0x403DFFFFFFFFFFFFFFFF| < (2 : ℚ) ^ (63 : ℕ) ∧ isDenormal 0x403DFFFFFFFFFFFFFFFF = false ∧
      classOf 0 = .zero ∧ |realOf 0| < (2 : ℚ) ^ (63 : ℕ) := by
  refine ⟨rfl, rfl, rfl, by decide, ?_, by decide, by decide, by rw [realOf_zero]; norm_num⟩
  have h : valOf 0x403DFFFFFFFFFFFFFFFF = ⟨false, ⟨2 ^ 64 - 1, 1, -1⟩⟩ := by decide
  rw [realOf, h, Exact.toRat, Mag.toRat]
  norm_num [abs_of_pos]

/-- Operands in the domain of each function, at its ends where they are numbers; and the powers of two. -/
theorem witness_LogarithmsAndArctangentComplete :
    (∀ a b : Ext, (stack2 0x037F a b).Ready ∧ (stack2 0x037F a b).Full 0 ∧ (stack2 0x037F a b).Full 1 ∧
      (stack2 0x037F a b).AllMasked) ∧
      (InDomain .atan2 one two ∧ InDomain .atan2 0 (negate one) ∧ InDomain .atan2 (inf80 true) (inf80 false)) ∧
      InDomain .ylog2x one two ∧ InDomain .ylog2xp1 one tiny ∧ InDomain .exp2m1 0 one ∧ InDomain .exp2m1 0 (negate one) ∧
      (isDenormal one || isDenormal two) = false ∧ realOf two = (2 : ℚ) ^ (1 : ℤ) ∧ realOf (negate one) = -1 := by
  have hn : realOf (negate one) = -1 := by
    have h : valOf (negate one) = ⟨true, ⟨2 ^ 63, 1, -63⟩⟩ := by decide
    rw [realOf, h, Exact.toRat, Mag.toRat]; norm_num
  have ht : |realOf tiny| ≤ 1 / 4 := by
    rw [realOf_tiny, abs_of_pos (by positivity), show (1 / 4 : ℚ) = (2 : ℚ) ^ (-2 : ℤ) from by norm_num]
    exact zpow_le_zpow_right₀ one_le_two (by norm_num)
  refine ⟨fun a b => ⟨ready2 _ _ _, full0 _ _ _, full1 _ _ _, masked2 _ _⟩,
    ⟨⟨by decide, by decide, by decide⟩, ⟨by decide, by decide, by decide⟩, by decide, by decide, by decide⟩,
    ⟨by decide, ?_, ?_, by decide, ?_⟩, ⟨by decide, ?_, by linarith, ?_, by decide, ?_⟩, ⟨by decide, ?_, ?_⟩,
    ⟨by decide, ?_, ?_⟩, by decide, ?_, hn⟩
  · rw [realOf_two]; norm_num
  · rw [realOf_two]; norm_num
  · rw [realOf_one]; norm_num
  · rw [realOf_tiny]; positivity
  · nlinarith [abs_nonneg (realOf tiny)]
  · rw [realOf_one]; norm_num
  · rw [realOf_one]; norm_num
  · rw [realOf_one]; norm_num
  · rw [hn]; norm_num
  · rw [hn]; norm_num
  · rw [realOf_two]; norm_num

/-- Operands of every answer. -/
theorem witness_LogarithmAndArctangentSpecialOperands :
    (∀ cw x y, (stack2 cw x y).Ready ∧ (stack2 cw x y).Full 0 ∧ (stack2 cw x y).Full 1) ∧
      (∀ cw pick, Log2Answer cw pick indef80 one ⟨[], some ⟨qnanOf pick indef80 one, false⟩⟩ ∧
        Log2Answer cw pick (inf80 true) two (.special cw .i indef80) ∧
        Log2Answer cw pick 0 (zero80 true) (.special cw .i indef80) ∧
        Log2Answer cw pick (zero80 true) (inf80 false) ⟨[], some ⟨inf80 true, false⟩⟩ ∧
        Log2Answer cw pick (zero80 true) two (.special cw .z (inf80 true)) ∧
        Log2Answer cw pick (inf80 false) 0 (.special cw .i indef80) ∧
        Log2Answer cw pick (inf80 false) (inf80 true) ⟨[], some ⟨inf80 true, false⟩⟩ ∧
        Log2Answer cw pick one (inf80 true) (.special cw .i indef80) ∧
        Log2Answer cw pick one (negate two) ⟨[], some ⟨zero80 true, false⟩⟩ ∧
        Log2Answer cw pick two (inf80 true) ⟨[], some ⟨inf80 (true != decide (realOf two < 1)), false⟩⟩ ∧
        Log2Answer cw pick two 0 ⟨[], some ⟨zero80 (false != decide (realOf two < 1)), false⟩⟩) ∧
      (∀ pick, Log2Answer 0x037D pick two 1 ⟨[.d], none⟩ ∧ Log2p1Answer 0x037D pick one 1 ⟨[.d], none⟩ ∧
        Atan2Answer 0x037D pick one 1 ⟨[.d], none⟩) ∧
      (∀ cw pick, Log2p1Answer cw pick snan1 one (.special cw .i (qnanOf pick snan1 one)) ∧
        Log2p1Answer cw pick (negate two) one (.special cw .i indef80) ∧
        Log2p1Answer cw pick (inf80 true) one (.special cw .i indef80) ∧
        Log2p1Answer cw pick (zero80 true) one ⟨[], some ⟨zero80 true, false⟩⟩ ∧
        Log2p1Answer cw pick tiny (zero80 true) ⟨[], some ⟨zero80 true, false⟩⟩ ∧
        Atan2Answer cw pick 0x3FFF0000000000000001 one (.special cw .i indef80) ∧
        Atan2Answer cw pick 0 (zero80 true) ⟨[], some ⟨zero80 true, false⟩⟩ ∧
        Atan2Answer cw pick (inf80 false) (negate one) ⟨[], some ⟨zero80 true, false⟩⟩ ∧
        Exp2Answer cw (zero80 true) ⟨[], some ⟨zero80 true, false⟩⟩ ∧ Exp2Answer cw indef80 ⟨[], some ⟨indef80, false⟩⟩) ∧
      Exp2Answer 0x037D 1 ⟨[.d], none⟩ := by
  have hn : realOf (negate two) < -1 := by
    have h : valOf (negate two) = ⟨true, ⟨2 ^ 63, 1, -62⟩⟩ := by decide
    rw [realOf, h, Exact.toRat, Mag.toRat]; norm_num
  have ht : |realOf tiny| ≤ 1 / 4 := by
    rw [realOf_tiny, abs_of_pos (by positivity), show (1 / 4 : ℚ) = (2 : ℚ) ^ (-2 : ℤ) from by norm_num]
    exact zpow_le_zpow_right₀ one_le_two (by norm_num)
  have h2 : 0 < realOf two ∧ realOf two ≠ 1 := by rw [realOf_two]; norm_num
  exact ⟨fun _ _ _ => ⟨ready2 _ _ _, full0 _ _ _, full1 _ _ _⟩,
    fun _ _ => ⟨.nan (.qnan (by decide) (by decide) (by decide) (by decide) (.inl (by decide))),
      .negative (by decide) (by decide) (by decide) (by decide), .zeroZero (by decide) (by decide),
      .zeroInfinity (by decide) (by decide), .zeroDivide (by decide) (by decide) (by decide),
      .infinityZero (by decide) (by decide), .infinity (by decide) (by decide) (by decide) (by decide),
      .oneInfinity (by decide) realOf_one (by decide), .one (by decide) realOf_one (by decide),
      .infinityFactor (by decide) h2.1 h2.2 (by decide), .zeroFactor (by decide) h2.1 h2.2 (by decide)⟩,
    fun _ => ⟨.denormal (by decide) h2.1 h2.2 (by decide) (by decide) (.inr (by decide)) (by decide),
      .denormal (by decide) (by decide) (.inr ⟨by decide, by rw [realOf_one]; norm_num⟩) (.inr (by decide)) (by decide),
      .denormal (by decide) (by decide) (.inr (by decide)) (by decide)⟩,
    fun _ _ => ⟨.nan (.snan (by decide) (by decide) (.inl (by decide))), .invalid (by decide) (.inr ⟨by decide, hn⟩),
      .invalid (by decide) (.inl (by decide)), .zero (by decide) (by decide),
      .zeroFactor (by decide) (by linarith) (by nlinarith [abs_nonneg (realOf tiny)]) (by decide),
      .nan (.unsupported (.inl (by decide))), .zero (by decide) (by decide) (.inl (by decide)),
      .zero (by decide) (by decide) (.inr (by decide)), .zero (by decide), .nan (.qnan (by decide))⟩,
    .denormal (by decide) (by decide)⟩

/-- 2^0.5 - 1, which no encoding is, and 2^1 - 1; and one operand twice. -/
theorem witness_TranscendentalResultsAreMonotonic :
    (⟨.f2xm1, .exp2m1, false, false, 0⟩ : TranscRow) ∈ transcRows ∧
      (∀ x ∈ [half, one], (⟨.f2xm1, .exp2m1, false, false, 0⟩ : TranscRow).Runs (stack2 0x037F x two) ∧
        (stack2 0x037F x two).st 0 = x) ∧
      inOrder .exp2m1 0 half 0 one = true ∧ inOrder .exp2m1 0 one 0 one = true ∧
      (trueValue .exp2m1 0 half).neg = (trueValue .exp2m1 0 one).neg ∧ -16382 ≤ (trueValue .exp2m1 0 half).log2 ∧
      (trueValue .exp2m1 0 one).log2 ≤ 16382 ∧
      (trueValue .exp2m1 0 half).lo.toRat ≤ (trueValue .exp2m1 0 one).lo.toRat ∧
      (trueValue .exp2m1 0 half).hi.toRat ≤ (trueValue .exp2m1 0 one).hi.toRat ∧ (trueValue .exp2m1 0 one).Narrow := by
  have h1 : trueValue .exp2m1 0 one = ⟨false, ⟨1, 1, 0⟩, ⟨1, 1, 0⟩⟩ := by decide +kernel
  have hs : ∀ x, (stack2 0x037F x two).st 0 = x := fun x => by rw [State.st, State.phys, top2]; rfl
  have hh : realOf half = (2 : ℚ) ^ (-1 : ℤ) := realOf_pow (-1) (by decide)
  refine ⟨by simp [transcRows], fun x hx => ⟨⟨ready2 _ _ _, full0 _ _ _, fun h => (nomatch h), fun h => (nomatch h), ?_, ?_⟩, hs x⟩,
    by decide, by decide, by decide +kernel, by decide +kernel, by decide +kernel, ?_, ?_, ?_⟩
  · rw [hs x]
    simp only [List.mem_cons, List.not_mem_nil, or_false] at hx
    rcases hx with rfl | rfl
    · exact ⟨by decide, by rw [hh]; norm_num, by rw [hh]; norm_num [abs_of_pos]⟩
    · exact ⟨by decide, by rw [realOf_one]; norm_num, by rw [realOf_one]; norm_num⟩
  · exact .inr (masked2 _ _ .d)
  · exact (Mag.le_iff (by decide +kernel) (by decide +kernel)).mp (by decide +kernel)
  · exact (Mag.le_iff (by decide +kernel) (by decide +kernel)).mp (by decide +kernel)
  · rw [Enclosure.Narrow, h1]
    exact lt_add_of_pos_right _ (by positivity)

/-! ### Control -/

theorem witness_InitializeTheProcessor : (stack2 0x037F one two).Ready := rfl

theorem witness_LoadControlWord : (stack2 0x037F one two).Ready ∧ (stack2 0x037F one two).Allows 0x3000 2 :=
  ⟨rfl, rfl⟩

theorem witness_StoreControlAndStatusWords :
    (stack2 0x037F one two).Ready ∧ (stack2 0x037F one two).Allows ((stack2 0x037F one two).ea at3000) 2 := ⟨rfl, rfl⟩

theorem witness_ClearExceptions : (stack2 0x037F one two).Ready := rfl

/-- In the 16-bit format of real-address mode and the 32-bit one of protected mode, in the default layout. -/
theorem witness_StoreEnvironment :
    (stack2 0x037F one two).Ready ∧ (stack2 0x037F one two).Allows ((stack2 0x037F one two).ea at3000) 28 ∧
      (stack2 0x037F one two).params.envLayout = EnvLayout.standard ∧ EnvLayout.standard.injective = true ∧
      (stack2 0x037F one two).imageFormat [] = .r16 ∧ (stack2 0x037F one two).imageFormat [.opSize] = .r32 ∧
      ({ stack2 0x037F one two with mode := .protectedMode, opSize32 := true } : State).imageFormat [] = .p32 :=
  ⟨rfl, rfl, rfl, by decide, rfl, rfl, rfl⟩

theorem witness_LoadEnvironment :
    (stack2 0x037F one two).Ready ∧ (stack2 0x037F one two).Allows ((stack2 0x037F one two).ea at3000) 28 := ⟨rfl, rfl⟩

theorem witness_SaveState :
    (stack2 0x037F one two).Ready ∧ (stack2 0x037F one two).Allows ((stack2 0x037F one two).ea at3000) 108 ∧
      (stack2 0x037F one two).params.envLayout = EnvLayout.standard ∧
      (stack2 0x037F one two).params.envLayout.injective = true := ⟨rfl, rfl, rfl, by decide⟩

theorem witness_RestoreState :
    (stack2 0x037F one two).Ready ∧ (stack2 0x037F one two).Allows ((stack2 0x037F one two).ea at3000) 108 :=
  ⟨rfl, rfl⟩

/-- A state in the 32-bit protected-mode format. -/
def savable : State := { stack2 0x037F one two with mode := .protectedMode, opSize32 := true }

theorem witness_SaveThenRestore :
    savable.Inv ∧ savable.params.envLayout.injective = true ∧ savable.imageFormat [] = .p32 ∧ savable.Allows (savable.ea at3000) 108 ∧
      ∃ t u, exec (.fnsave [] at3000) savable = .next t ∧ exec (.frstor [] at3000) t = .next u :=
  ⟨⟨by decide, by unfold State.TagsTrue; decide, by unfold State.SummaryTrue; decide, by unfold State.BusyTrue; decide,
    by decide, by decide⟩, by decide, rfl, rfl, _, _, rfl, rfl⟩

theorem witness_StackPointerInstructions : (stack2 0x037F one two).Ready := rfl

theorem witness_InstructionsWithoutEffect : (stack2 0x037F one two).Ready := rfl
end Sys2Proof.Tests
end

section
/-! FABS and FCHS (43_basic_arithmetic.md R350, R351): the two bit operations on an encoding, then the sign operation on
ST(0) that both instructions are. -/

namespace Sys2Proof.Machine

/-! ### The encoding with its sign bit replaced -/

/-- The mask of R350 keeps the 79 bits below the sign bit. -/
theorem clearSign_eq_append (x : Ext) : clearSign x = 0#1 ++ x.extractLsb' 0 79 := by
  have mask : (0x7FFFFFFFFFFFFFFFFFFF : Ext) = 0#1 ++ BitVec.allOnes 79 := by decide
  apply BitVec.eq_of_getLsbD_eq
  intro n hn
  rw [clearSign, mask, BitVec.getLsbD_and, BitVec.getLsbD_append, BitVec.getLsbD_append, BitVec.getLsbD_allOnes]
  by_cases h : n < 79
  · simp [h]
  · simp [h]

/-- The exclusive or of R351 reaches the sign bit alone. -/
theorem negate_eq_append (x : Ext) : negate x = BitVec.ofBool (!signOf x) ++ x.extractLsb' 0 79 := by
  have mask : (0x80000000000000000000 : Ext) = 1#1 ++ 0#79 := by decide
  apply BitVec.eq_of_getLsbD_eq
  intro n hn
  rw [negate, mask, BitVec.getLsbD_xor, BitVec.getLsbD_append, BitVec.getLsbD_append]
  by_cases h : n < 79
  · simp [h]
  · obtain rfl : n = 79 := by omega
    simp [signOf]

/-! ### A sign operation on ST(0) -/

/-- What a sign operation `f` makes of `s`: an empty ST(0) underflows, any other becomes `f` of it without an
exception. -/
def State.TopEdited (s t : State) (f : Ext → Ext) : Prop :=
  if s.isEmpty 0 = true then
    s.StackFaulted t false ∧ if s.masked .i = true then s.Wrote t 0 false indef80 else s.Popped t 0
  else s.Signals t [] false ∧ s.Wrote t 0 false (f (s.st 0))

theorem editTop_topEdited (f : Ext → Ext) (s : State) : s.TopEdited (editTop f s) f := by
  unfold State.TopEdited editTop onTop
  split
  · exact underflow_faulted 0 false s
  · exact (writeReplied_outcome 0 false (.ok (plain (f (s.st 0)))) s).symm

section
variable {s u : State} {f : Ext → Ext} {i : Instr}

theorem State.TopEdited.of_record {d : Option FarPtr} (h : (s.record i d).TopEdited u f) : s.TopEdited u f :=
  ite_map .rfl
    (fun ⟨hf, hw⟩ => ⟨hf.of_record, ite_map .rfl State.Wrote.of_record State.Popped.of_record hw⟩)
    (fun ⟨hs, hw⟩ => ⟨hs.of_record, hw.of_record⟩) h

theorem State.TopEdited.retire {n : Nat} {e : Bool} (h : s.TopEdited u f) : s.TopEdited (u.retire n e) f :=
  ite_map .rfl
    (fun ⟨hf, hw⟩ => ⟨hf.retire, ite_map .rfl State.Wrote.retire State.Popped.retire hw⟩)
    (fun ⟨hs, hw⟩ => ⟨hs.retire, hw.retire⟩) h

/-- An instruction that is a sign operation on ST(0). -/
theorem runReg_editTop (f : Ext → Ext) (i : Instr) (hr : s.Ready) :
    ∃ t, runReg i (fun u => .ok (editTop f u)) s = .next t ∧ s.Ran t i none ∧ s.TopEdited t f := by
  obtain ⟨hnext, hran⟩ := runReg_ran (i := i) (body := fun u => .ok (editTop f u)) hr rfl (OnStack.editTop f _)
  exact ⟨_, hnext, hran, (editTop_topEdited f _).of_record.retire⟩

/-! ### FABS and FCHS -/

theorem exec_fabs_topEdited (p : Prefixes) (hr : s.Ready) :
    ∃ t, exec (.fabs p) s = .next t ∧ s.Ran t (.fabs p) none ∧
      s.TopEdited t fun x => 0#1 ++ x.extractLsb' 0 79 := by
  rw [← funext clearSign_eq_append]
  exact runReg_editTop clearSign (.fabs p) hr

theorem exec_fchs_topEdited (p : Prefixes) (hr : s.Ready) :
    ∃ t, exec (.fchs p) s = .next t ∧ s.Ran t (.fchs p) none ∧
      s.TopEdited t fun x => BitVec.ofBool (!signOf x) ++ x.extractLsb' 0 79 := by
  rw [← funext negate_eq_append]
  exact runReg_editTop negate (.fchs p) hr

end

/-- Settles O33: both instructions are sign operations on ST(0), and each one's bit operation replaces bit 79 alone. -/
theorem signOperations : Obligations.SignOperations := by
  intro s p hr
  exact ⟨exec_fabs_topEdited p hr, exec_fchs_topEdited p hr⟩

end Sys2Proof.Machine
end

section
/-! The relation of two encodings (44_comparison.md R381): when it is unordered, how finite values compare, and where the
infinities stand. -/

namespace Sys2Proof.Machine

/-! ### Unordered encodings -/

theorem relationOf_ne_unordered (m n : Int) : relationOf m n ≠ .unordered := by
  unfold relationOf
  split
  · simp
  · split <;> simp

theorem compareExt_unordered_iff (a b : Ext) :
    compareExt a b = .unordered ↔ isOrdered a = false ∨ isOrdered b = false := by
  cases ha : isOrdered a with
  | false => simp [compareExt, ha]
  | true =>
    cases hb : isOrdered b with
    | false => simp [compareExt, hb]
    | true =>
      simp only [compareExt, ha, hb, Bool.and_self, Bool.not_true, Bool.false_eq_true, Bool.true_eq_false, if_false,
        or_self, iff_false]
      split
      · exact relationOf_ne_unordered _ _
      · exact relationOf_ne_unordered _ _

/-! ### Finite values -/

/-- What is not unordered, less or equal is greater. -/
theorem Relation.eq_greater_iff {r : Relation} (h : r ≠ .unordered) : r = .greater ↔ r ≠ .less ∧ r ≠ .equal := by
  cases r with
  | greater => simp
  | less => simp
  | equal => simp
  | unordered => exact absurd rfl h

theorem compareExt_greater_iff {a b : Ext} (ha : isFinite a = true) (hb : isFinite b = true) :
    compareExt a b = .greater ↔ realOf b < realOf a := by
  obtain ⟨hless, hequal⟩ := compareExt_spec ha hb
  have hordered : compareExt a b ≠ .unordered := by
    simp [compareExt_unordered_iff, isOrdered_of_isFinite ha, isOrdered_of_isFinite hb]
  rw [Relation.eq_greater_iff hordered, ne_eq, ne_eq, hless, hequal, not_lt, lt_iff_le_and_ne, ne_comm]

/-! ### Infinities -/

theorem infRank_of_infinity {x : Ext} (h : classOf x = .infinity) : infRank x = if signOf x then -1 else 1 := if_pos h

theorem infRank_of_isFinite {x : Ext} (h : isFinite x = true) : infRank x = 0 := if_neg (isFinite_classes h).2.2.2

/-- Beside an infinity the ranks decide. -/
theorem compareExt_of_infinity {a b : Ext} (ha : isOrdered a = true) (hb : isOrdered b = true)
    (h : classOf a = .infinity ∨ classOf b = .infinity) : compareExt a b = relationOf (infRank a) (infRank b) := by
  simp [compareExt, ha, hb, h]

theorem compareExt_infinity_finite {a b : Ext} (ha : classOf a = .infinity) (hb : isFinite b = true) :
    compareExt a b = if signOf a then .less else .greater := by
  rw [compareExt_of_infinity (isOrdered_of_infinity ha) (isOrdered_of_isFinite hb) (.inl ha), infRank_of_infinity ha,
    infRank_of_isFinite hb]
  cases signOf a <;> rfl

theorem compareExt_finite_infinity {a b : Ext} (ha : isFinite a = true) (hb : classOf b = .infinity) :
    compareExt a b = if signOf b then .greater else .less := by
  rw [compareExt_of_infinity (isOrdered_of_isFinite ha) (isOrdered_of_infinity hb) (.inr hb), infRank_of_isFinite ha,
    infRank_of_infinity hb]
  cases signOf b <;> rfl

theorem compareExt_infinity_infinity {a b : Ext} (ha : classOf a = .infinity) (hb : classOf b = .infinity) :
    compareExt a b = if signOf a = signOf b then .equal else if signOf a then .less else .greater := by
  rw [compareExt_of_infinity (isOrdered_of_infinity ha) (isOrdered_of_infinity hb) (.inl ha), infRank_of_infinity ha,
    infRank_of_infinity hb]
  cases signOf a <;> cases signOf b <;> rfl

/-- Settles O43: the table of codes is the model's, and the relation is settled apart for unordered encodings, for finite
values and for each place an infinity can stand. -/
theorem relationIsTheOrderOfValues : Obligations.RelationIsTheOrderOfValues := by
  refine ⟨⟨rfl, rfl, rfl, rfl⟩, fun a b => ⟨compareExt_unordered_iff a b, fun ha hb => ?_, compareExt_infinity_finite,
    compareExt_finite_infinity, compareExt_infinity_infinity⟩⟩
  obtain ⟨hless, hequal⟩ := compareExt_spec ha hb
  exact ⟨hless, compareExt_greater_iff ha hb, hequal⟩

end Sys2Proof.Machine
end

section
/-! FLDCW (46_control.md R464): what replacing the control word does to the status word, then what of the machine it leaves
alone. -/

namespace Sys2Proof.Machine

/-! ### ES and B recomputed -/

/-- Recomputing the summary writes ES and B alone. -/
theorem State.resummarize_sameStatusBut (s : State) : s.SameStatusBut s.resummarize [esBit, busyBit] := fun n hn => by
  obtain ⟨hes, hbusy⟩ : n ≠ esBit ∧ n ≠ busyBit := by simpa using hn
  rw [State.resummarize, State.setSw_sw, withSummary, getLsbD_putBit, if_neg (fun h => hbusy h.1), getLsbD_putBit,
    if_neg (fun h => hes h.1)]

theorem State.SameStatusBut.trans {s t u : State} {l k : List Nat} (h : s.SameStatusBut t l) (g : t.SameStatusBut u k) :
    s.SameStatusBut u (k ++ l) := fun n hn => by
  obtain ⟨hk, hl⟩ : n ∉ k ∧ n ∉ l := by simpa using hn
  exact (g n hk).trans (h n hl)

/-- The exception flags are none of the condition codes, ES and B. -/
theorem State.SameStatusBut.flag_eq {s t : State} (h : s.SameStatusBut t (codeBits ++ [esBit, busyBit])) (x : Exc) :
    t.flag x = s.flag x :=
  h x.bit (by cases x <;> decide)

theorem State.Coherent.retire {s : State} (h : s.Coherent) (n : Nat) (e : Bool) : (s.retire n e).Coherent :=
  h.of_bits (s.retire_cw n e) fun _ _ => by rw [State.retire_sw]

/-- Where ES satisfies its equation, it tells of the flags before, if they are kept, under the masks now. -/
theorem State.Coherent.es_iff {s t : State} (h : t.Coherent) (hf : ∀ x, t.flag x = s.flag x) :
    t.es = true ↔ ∃ x, s.flag x = true ∧ t.masked x = false := by
  have hes : t.es = summary t.sw t.cw := h.1
  rw [hes, summary_iff]
  exact exists_congr fun x => and_congr_left' (by rw [← hf x]; rfl)

/-! ### The load -/

theorem exec_fldcw (p : Prefixes) (m : AddrMode) (s : State) :
    exec (.fldcw p m) s = afterWait s (runMemControl (.fldcw p m) m 2 loadControl s) := rfl

section
variable (a : Word32) (s : State)

theorem loadControl_coherent : (loadControl a s).Coherent := (State.coherent_resummarize _).drawAllCodes

theorem loadControl_sameStatusBut : s.SameStatusBut (loadControl a s) (codeBits ++ [esBit, busyBit]) := fun n hn =>
  ((s.setCw (BitVec.ofNat 16 (s.read a 2))).resummarize_sameStatusBut.trans (drawAllCodes_sameStatusBut _)) n hn

theorem loadControl_cw : (loadControl a s).cw = BitVec.ofNat 16 (s.read a 2) := rfl

theorem loadControl_sameRegisters : s.SameRegisters (loadControl a s) := ⟨fun _ => rfl, fun _ => rfl⟩

theorem loadControl_samePointers : s.SamePointers (loadControl a s) := ⟨rfl, rfl, rfl⟩

theorem loadControl_sameHost : s.SameHost (loadControl a s) := by constructor <;> rfl

theorem loadControl_sameMemory : s.SameMemory (loadControl a s) := fun _ => rfl

theorem loadControl_eip : (loadControl a s).eip = s.eip := rfl

end

/-- Settles O51: the load replaces the control word, and after it only ES, B and the condition codes of the status word are
not what they were; ES and B satisfy their equations, in which the flags are the old ones and the masks the new ones. -/
theorem loadControlWord : Obligations.LoadControlWord := by
  intro s p m hr ha
  have hnext : exec (.fldcw p m) s = .next ((loadControl (s.ea m) s).retire (Instr.fldcw p m).length s.es) := by
    rw [exec_fldcw, afterWait_ready hr, runMemControl_next loadControl ha]
  have hstatus := (loadControl_sameStatusBut (s.ea m) s).retire (n := (Instr.fldcw p m).length) (e := s.es)
  have hcoherent := (loadControl_coherent (s.ea m) s).retire (Instr.fldcw p m).length s.es
  refine ⟨_, hnext, ?_, hstatus, hcoherent.2, hcoherent.es_iff hstatus.flag_eq,
    (loadControl_sameRegisters _ s).retire, (loadControl_samePointers _ s).retire, (loadControl_sameHost _ s).retire,
    (loadControl_sameMemory _ s).retire, ?_⟩
  · rw [State.retire_cw, loadControl_cw]
  · rw [State.PastInstr, State.retire_eip, loadControl_eip]

end Sys2Proof.Machine
end

section
/-! The stores of the control and the status word (46_control.md R465 to R469): the status word as it is stored, what a
store to memory and a write of AX leave alone, then the two forms, to memory and to AX. -/

namespace Sys2Proof.Machine

/-! ### The status word as it is stored -/

theorem State.storedSw_bit_of_lt (s : State) {n : Nat} (h : n < 15) : s.storedSw.getLsbD n = s.sw.getLsbD n := by
  have hn : ¬ (n = busyBit ∧ n < 16) := by unfold busyBit; omega
  rw [State.storedSw, Machine.storedSw, getLsbD_putBit, if_neg hn]

theorem State.storedSw_busy (s : State) : s.storedSw.getLsbD 15 = s.es := by
  rw [State.storedSw, Machine.storedSw, getLsbD_putBit, if_pos (by decide)]
  rfl

/-! ### What stays -/

/-- Nothing of the FPU has changed: the control, status and tag words, the data registers and the pointer registers. -/
structure State.SameFpu (s t : State) : Prop where
  sw : t.sw = s.sw
  cw : t.cw = s.cw
  tw : t.tw = s.tw
  regs : t.regs = s.regs
  pointers : s.SamePointers t

theorem State.SameFpu.retire {s u : State} {n : Nat} {e : Bool} (h : s.SameFpu u) : s.SameFpu (u.retire n e) :=
  ⟨(u.retire_sw n e).trans h.sw, (u.retire_cw n e).trans h.cw, (u.retire_tw n e).trans h.tw,
    (u.retire_regs n e).trans h.regs, h.pointers.retire⟩

theorem State.write_sameFpu (s : State) (a : Word32) (n v : Nat) : s.SameFpu (s.write a n v) :=
  ⟨rfl, rfl, rfl, rfl, rfl, rfl, rfl⟩

theorem State.write_sameHost (s : State) (a : Word32) (n v : Nat) : s.SameHost (s.write a n v) := by constructor <;> rfl

theorem State.setAx_sameFpu (s : State) (v : Word16) : s.SameFpu (s.setAx v) := ⟨rfl, rfl, rfl, rfl, rfl, rfl, rfl⟩

theorem State.setAx_sameMemory (s : State) (v : Word16) : s.SameMemory (s.setAx v) := fun _ => rfl

/-! ### The general registers after a write of AX -/

theorem State.setAx_gpr_eax (s : State) (v : Word16) :
    (s.setAx v).gpr .eax = (s.gpr .eax).extractLsb' 16 16 ++ v :=
  Vector.getElem_set_self (by decide)

theorem State.setAx_eax_low (s : State) (v : Word16) {n : Nat} (h : n < 16) :
    ((s.setAx v).gpr .eax).getLsbD n = v.getLsbD n := by
  rw [State.setAx_gpr_eax, BitVec.getLsbD_append, if_pos h]

theorem State.setAx_eax_high (s : State) (v : Word16) :
    ((s.setAx v).gpr .eax).extractLsb' 16 16 = (s.gpr .eax).extractLsb' 16 16 := by
  rw [State.setAx_gpr_eax]
  exact BitVec.extractLsb'_append_eq_left

theorem Gpr.code_toNat_ne_zero {r : Gpr} (h : r ≠ .eax) : r.code.toNat ≠ 0 := by
  cases r with
  | eax => exact absurd rfl h
  | _ => decide

theorem State.setAx_gpr_of_ne (s : State) (v : Word16) {r : Gpr} (h : r ≠ .eax) : (s.setAx v).gpr r = s.gpr r :=
  Vector.getElem_set_ne (by decide) r.code.isLt (Gpr.code_toNat_ne_zero h).symm

@[simp] theorem State.retire_gpr (s : State) (n : Nat) (e : Bool) (r : Gpr) : (s.retire n e).gpr r = s.gpr r :=
  congrArg (fun g : Vector Word32 8 => g[r.code.toNat]) (s.retire_gprs n e)

/-! ### A word stored to memory -/

/-- What a control instruction has done that stores the word `v` at `a` and nothing else. -/
structure State.WordStored (s t : State) (i : Instr) (a : Word32) (v : Word16) : Prop where
  value : t.read a 2 = v.toNat
  memory : s.SameMemoryBut t a 2
  fpu : s.SameFpu t
  host : s.SameHost t
  pc : s.PastInstr t i

theorem State.write_wordStored (s : State) (i : Instr) (a : Word32) (v : Word16) :
    s.WordStored ((s.write a 2 v.toNat).retire i.length s.es) i a v where
  value := by
    rw [State.retire_read, read_write s _ _ _ (by decide)]
    exact Nat.mod_eq_of_lt v.isLt
  memory := State.SameMemoryBut.retire (write_outside s a 2 v.toNat)
  fpu := (s.write_sameFpu _ _ _).retire
  host := (s.write_sameHost _ _ _).retire
  pc := State.retire_eip _ _ _

/-- The two forms of an instruction whose operation is the store of a word: `j` does not wait, `k` is the waiting form. -/
theorem exec_wordStored {s : State} {m : AddrMode} {body : Word32 → State → State} {v : Word16} {i j k : Instr}
    (hj : exec j s = runMemControl j m 2 body s) (hk : exec k s = afterWait s (runMemControl k m 2 body s))
    (hb : body (s.ea m) s = s.write (s.ea m) 2 v.toNat) (hi : i = j ∨ (i = k ∧ s.Ready)) (ha : s.Allows (s.ea m) 2) :
    ∃ t, exec i s = .next t ∧ s.WordStored t i (s.ea m) v := by
  have hexec : exec i s = runMemControl i m 2 body s := by
    rcases hi with rfl | ⟨rfl, hr⟩
    · exact hj
    · rw [hk, afterWait_ready hr]
  refine ⟨_, hexec.trans (runMemControl_next body ha), ?_⟩
  rw [hb]
  exact s.write_wordStored i (s.ea m) v

theorem exec_controlWord_stored {s : State} {p : Prefixes} {m : AddrMode} {i : Instr}
    (hi : i = .fnstcw p m ∨ (i = .fstcw p m ∧ s.Ready)) (ha : s.Allows (s.ea m) 2) :
    ∃ t, exec i s = .next t ∧ s.WordStored t i (s.ea m) s.cw :=
  exec_wordStored (body := storeControl) rfl rfl rfl hi ha

theorem exec_statusWord_stored {s : State} {p : Prefixes} {m : AddrMode} {i : Instr}
    (hi : i = .fnstswM2byte p m ∨ (i = .fstswM2byte p m ∧ s.Ready)) (ha : s.Allows (s.ea m) 2) :
    ∃ t, exec i s = .next t ∧ s.WordStored t i (s.ea m) s.storedSw :=
  exec_wordStored (body := storeStatus) rfl rfl rfl hi ha

/-! ### The status word in AX -/

theorem exec_statusToAx {s : State} {p : Prefixes} {i : Instr}
    (hi : i = .fnstswAx p ∨ (i = .fstswAx p ∧ s.Ready)) :
    exec i s = .next ((s.setAx s.storedSw).retire i.length s.es) := by
  rcases hi with rfl | ⟨rfl, hr⟩
  · exact runPlainControl_next _ statusToAx s
  · exact (afterWait_ready hr _).trans (runPlainControl_next _ statusToAx s)

/-- Settles O52: both stores to memory are the store of one word, and the write of AX puts the status word as it is stored
below the upper half of EAX. -/
theorem storeControlAndStatusWords : Obligations.StoreControlAndStatusWords := by
  intro s p m
  refine ⟨fun i hi ha => ?_, fun i hi ha => ?_, fun i hi => ?_⟩
  · obtain ⟨t, hnext, hvalue, hmemory, ⟨hsw, hcw, htw, hregs, hpointers⟩, hhost, hpc⟩ := exec_controlWord_stored hi ha
    exact ⟨t, hnext, hvalue, hmemory, hsw, hcw, htw, hregs, hpointers, hhost, hpc⟩
  · obtain ⟨t, hnext, hvalue, hmemory, ⟨hsw, hcw, htw, hregs, hpointers⟩, hhost, hpc⟩ := exec_statusWord_stored hi ha
    have hbit : ∀ n, (t.read (s.ea m) 2).testBit n = s.storedSw.getLsbD n := fun n => by
      rw [hvalue, BitVec.testBit_toNat]
    exact ⟨t, hnext, fun n hn => (hbit n).trans (s.storedSw_bit_of_lt hn), (hbit 15).trans s.storedSw_busy, hmemory, hsw,
      hcw, htw, hregs, hpointers, hhost, hpc⟩
  · obtain ⟨hsw, hcw, htw, hregs, hpointers⟩ := (s.setAx_sameFpu s.storedSw).retire (n := i.length) (e := s.es)
    refine ⟨_, exec_statusToAx hi, fun n hn => ?_, ?_, ?_, fun r hr => ?_, (s.setAx_sameMemory _).retire, hsw, hcw, htw,
      hregs, hpointers, State.retire_eip _ _ _⟩
    · rw [State.retire_gpr, s.setAx_eax_low _ (by omega), s.storedSw_bit_of_lt hn]
    · rw [State.retire_gpr, s.setAx_eax_low _ (by decide), s.storedSw_busy]
    · rw [State.retire_gpr, s.setAx_eax_high]
    · rw [State.retire_gpr, s.setAx_gpr_of_ne _ hr]

end Sys2Proof.Machine
end

section
/-! Decoding (30_encoding.md): the rows of the opcode tables, the decoder from the first opcode byte on, what it makes of an
encoding, of a reserved encoding and of prefixes that are not allowed, and the step that executes what it reads. -/

namespace Sys2Proof

/-! ### The opcode tables, row by row -/

/-- Every instruction stands in the opcode tables where its shape says, with the parts its shape says. -/
theorem opcodeRow_statement (i : Instr) : Laws.OpcodeRow.Statement i := by
  cases i <;> exact ⟨rfl, rfl⟩

/-- An instruction has a waiting form exactly if the tables of the waiting forms have its row. -/
theorem hasWaitingForm_eq (i : Instr) :
    i.hasWaitingForm = match i.shape with
      | .mem a r p m => (waitMemForm a r p m).isSome
      | .reg a r n p => (waitRegForm a r n p).isSome
      | _ => false := by
  cases i <;> rfl

theorem memForm_parts {a r : BitVec 3} {p : Prefixes} {m : AddrMode} {i : Instr} (h : memForm a r p m = some i)
    (q : Prefixes) : ∃ j, memForm a r q m = some j ∧ j.parts = ⟨q, some m, 2⟩ := by
  unfold memForm at h ⊢
  split at h <;> first | exact ⟨_, rfl, rfl⟩ | cases h

theorem stackForm_parts {a r n : BitVec 3} {p : Prefixes} {i : Instr} (h : stackForm a r p n = some i) (q : Prefixes) :
    ∃ j, stackForm a r q n = some j ∧ j.parts = ⟨q, none, 2⟩ := by
  unfold stackForm at h ⊢
  split at h <;> first | exact ⟨_, rfl, rfl⟩ | cases h

theorem plainForm_parts {a r n : BitVec 3} {p : Prefixes} {i : Instr} (h : plainForm a r n p = some i) (q : Prefixes) :
    ∃ j, plainForm a r n q = some j ∧ j.parts = ⟨q, none, 2⟩ := by
  unfold plainForm at h ⊢
  split at h <;> first | exact ⟨_, rfl, rfl⟩ | cases h

theorem regForm_parts {a r n : BitVec 3} {p : Prefixes} {i : Instr} (h : regForm a r n p = some i) (q : Prefixes) :
    ∃ j, regForm a r n q = some j ∧ j.parts = ⟨q, none, 2⟩ := by
  cases hs : stackForm a r p n with
  | some k =>
    obtain ⟨j, hj, hp⟩ := stackForm_parts hs q
    exact ⟨j, by simp [regForm, hj], hp⟩
  | none =>
    have hq : stackForm a r q n = none := by
      cases hk : stackForm a r q n with
      | none => rfl
      | some k =>
        obtain ⟨j, hj, -⟩ := stackForm_parts hk p
        rw [hs] at hj
        cases hj
    obtain ⟨j, hj, hp⟩ := plainForm_parts (by simpa [regForm, hs] using h) q
    exact ⟨j, by simp [regForm, hq, hj], hp⟩

theorem waitMemForm_parts {a r : BitVec 3} {p : Prefixes} {m : AddrMode} {i : Instr} (h : waitMemForm a r p m = some i) :
    i.parts.opcodeBytes = 3 := by
  unfold waitMemForm at h
  split at h <;> cases h <;> rfl

theorem waitRegForm_parts {a r n : BitVec 3} {p : Prefixes} {i : Instr} (h : waitRegForm a r n p = some i) :
    i.parts.opcodeBytes = 3 := by
  unfold waitRegForm at h
  split at h <;> cases h <;> rfl

/-! ### The decoder from the first opcode byte on -/

section
variable {a32 : Bool} {bs r rest : List Byte} {p : Prefixes} {k : Bool} {b1 : Byte} {i : Instr}

/-- An ESC instruction is looked up, then its prefixes are judged. -/
theorem decode_esc (hl : takePrefixes bs = ⟨p, k, b1 :: r⟩) (he : isEsc b1 = true) :
    decode a32 bs = (decodeEsc memForm regForm a32 p b1 r).bind (allowPrefixes ⟨p, k, b1 :: r⟩) := by
  simp [decode, hl, he]

theorem isEsc_wait : isEsc 155#8 = false := by decide

/-- 9BH is WAIT, or the first byte of a waiting pair. -/
theorem decode_wait (hl : takePrefixes bs = ⟨p, k, 0x9B :: r⟩) :
    decode a32 bs = allowPrefixes ⟨p, k, 0x9B :: r⟩
      (if p = [] then (decodeWaiting a32 r).getD (.wait [], r) else (.wait p, r)) := by
  simp [decode, hl, isEsc_wait]

theorem allowPrefixes_ok (l : Leading) (hk : l.lock = false) (hw : i.parts.prefixesWf = true) :
    allowPrefixes l (i, rest) = .ok (i, rest) := by
  simp [allowPrefixes, hk, hw]

theorem decodeWaiting_esc (hl : takePrefixes bs = ⟨p, false, b1 :: r⟩) (he : isEsc b1 = true) (hr : p.repeats = false) :
    decodeWaiting a32 bs = (decodeEsc waitMemForm waitRegForm a32 p b1 r).toOption := by
  simp [decodeWaiting, hl, he, hr]

theorem decodeWaiting_of_not_esc (hl : takePrefixes bs = ⟨p, k, b1 :: r⟩) (he : isEsc b1 = false) :
    decodeWaiting a32 bs = none := by
  simp [decodeWaiting, hl, he]

/-- What an ESC instruction is read from: a row of the register forms, or an operand and a row of the memory forms. -/
theorem decodeEsc_eq_ok {mem : BitVec 3 → BitVec 3 → Prefixes → AddrMode → Option Instr}
    {reg : BitVec 3 → BitVec 3 → BitVec 3 → Prefixes → Option Instr}
    (h : decodeEsc mem reg a32 p b1 r = .ok (i, rest)) : ∃ b2 u, r = b2 :: u ∧
      ((modOf b2 = 3#2 ∧ reg (rmOf b1) (regOf b2) (rmOf b2) p = some i ∧ u = rest) ∨
        (modOf b2 ≠ 3#2 ∧ ∃ m, takeAddr (p.addr32 a32) b2 u = some (m, rest) ∧ mem (rmOf b1) (regOf b2) p m = some i)) := by
  cases r with
  | nil => cases h
  | cons b2 u =>
    refine ⟨b2, u, rfl, ?_⟩
    by_cases hm : modOf b2 = 3#2
    · cases hf : reg (rmOf b1) (regOf b2) (rmOf b2) p with
      | none => simp [decodeEsc, hm, hf] at h
      | some j =>
        obtain ⟨rfl, rfl⟩ : j = i ∧ u = rest := by simpa [decodeEsc, hm, hf] using h
        exact .inl ⟨hm, rfl, rfl⟩
    · cases ht : takeAddr (p.addr32 a32) b2 u with
      | none => simp [decodeEsc, hm, ht] at h
      | some y =>
        obtain ⟨m, v⟩ := y
        cases hf : mem (rmOf b1) (regOf b2) p m with
        | none => simp [decodeEsc, hm, ht, hf] at h
        | some j =>
          obtain ⟨rfl, rfl⟩ : j = i ∧ v = rest := by simpa [decodeEsc, hm, ht, hf] using h
          exact .inr ⟨hm, m, rfl, hf⟩

/-- A waiting pair has three opcode bytes. -/
theorem decodeWaiting_parts (h : decodeWaiting a32 bs = some (i, rest)) : i.parts.opcodeBytes = 3 := by
  cases hl : (takePrefixes bs).rest with
  | nil => simp [decodeWaiting, hl] at h
  | cons b1 t =>
    simp only [decodeWaiting, hl] at h
    split at h
    · cases hd : decodeEsc waitMemForm waitRegForm a32 (takePrefixes bs).prefixes b1 t with
      | error e => simp [hd, Except.toOption] at h
      | ok q =>
        obtain rfl : q = (i, rest) := by simpa [hd, Except.toOption] using h
        obtain ⟨b2, u, -, ⟨-, hf, -⟩ | ⟨-, m, -, hf⟩⟩ := decodeEsc_eq_ok hd
        · exact waitRegForm_parts hf
        · exact waitMemForm_parts hf
    · cases h

end

/-! ### What is well-formed, by shape -/

theorem wf_of_mem {a32 : Bool} {i : Instr} {p : Prefixes} {m : AddrMode} {n : Nat} (hp : i.parts = ⟨p, some m, n⟩)
    (hn : n ≠ 1) (h : i.wf a32 = true) : p.repeats = false ∧ m.wf = true ∧ m.is32 = p.addr32 a32 := by
  simpa [Instr.wf, hp, Parts.prefixesWf, Parts.operandWf, hn] using h

theorem wf_of_reg {a32 : Bool} {i : Instr} {p : Prefixes} {n : Nat} (hp : i.parts = ⟨p, none, n⟩) (hn : n ≠ 1)
    (h : i.wf a32 = true) : p.repeats = false := by
  simpa [Instr.wf, hp, Parts.prefixesWf, Parts.operandWf, hn] using h

theorem prefixesWf_of_wf {a32 : Bool} {i : Instr} (h : i.wf a32 = true) : i.parts.prefixesWf = true := by
  rw [Instr.wf, Bool.and_eq_true] at h
  exact h.1

/-! ### Encodings are read back -/

section
variable {a32 : Bool} {i : Instr}

theorem decode_encode_mem {a r : BitVec 3} {p : Prefixes} {m : AddrMode} (hs : i.shape = .mem a r p m)
    (h : i.wf a32 = true) (rest : List Byte) : decode a32 (encode i ++ rest) = .ok (i, rest) := by
  obtain ⟨hf, hp⟩ : memForm a r p m = some i ∧ i.parts = ⟨p, some m, 2⟩ := by
    simpa [Laws.OpcodeRow.Statement, hs] using opcodeRow_statement i
  obtain ⟨-, hm, h32⟩ := wf_of_mem hp (by decide) h
  have hl := takePrefixes_encode p (endsPrefixes_escByte a) (modRm m.mod r m.rm :: m.tail ++ rest)
  rw [encode, hs, Shape.encode, List.append_assoc, List.cons_append, decode_esc hl (isEsc_escByte a),
    decodeEsc_mem hf hm h32]
  exact allowPrefixes_ok _ rfl (prefixesWf_of_wf h)

theorem decode_encode_reg {a r n : BitVec 3} {p : Prefixes} (hs : i.shape = .reg a r n p) (h : i.wf a32 = true)
    (rest : List Byte) : decode a32 (encode i ++ rest) = .ok (i, rest) := by
  obtain ⟨hf, hp⟩ : regForm a r n p = some i ∧ i.parts = ⟨p, none, 2⟩ := by
    simpa [Laws.OpcodeRow.Statement, hs] using opcodeRow_statement i
  have hl := takePrefixes_encode p (endsPrefixes_escByte a) (modRm 3 r n :: rest)
  rw [encode, hs, Shape.encode, List.append_assoc, List.cons_append, List.cons_append, List.nil_append,
    decode_esc hl (isEsc_escByte a), decodeEsc_reg hf]
  exact allowPrefixes_ok _ rfl (prefixesWf_of_wf h)

theorem decode_encode_waitMem {a r : BitVec 3} {p : Prefixes} {m : AddrMode} (hs : i.shape = .waitMem a r p m)
    (h : i.wf a32 = true) (rest : List Byte) : decode a32 (encode i ++ rest) = .ok (i, rest) := by
  obtain ⟨hf, hp⟩ : waitMemForm a r p m = some i ∧ i.parts = ⟨p, some m, 3⟩ := by
    simpa [Laws.OpcodeRow.Statement, hs] using opcodeRow_statement i
  obtain ⟨hr, hm, h32⟩ := wf_of_mem hp (by decide) h
  have hl := takePrefixes_encode p (endsPrefixes_escByte a) (modRm m.mod r m.rm :: m.tail ++ rest)
  have hw : decodeWaiting a32 (p.encode ++ escByte a :: (modRm m.mod r m.rm :: m.tail ++ rest)) = some (i, rest) := by
    rw [decodeWaiting_esc hl (isEsc_escByte a) hr, decodeEsc_mem hf hm h32]
    rfl
  rw [encode, hs, Shape.encode, List.cons_append, List.append_assoc, List.cons_append,
    decode_wait (takePrefixes_end endsPrefixes_wait _), if_pos rfl, hw]
  exact allowPrefixes_ok _ rfl (prefixesWf_of_wf h)

theorem decode_encode_waitReg {a r n : BitVec 3} {p : Prefixes} (hs : i.shape = .waitReg a r n p) (h : i.wf a32 = true)
    (rest : List Byte) : decode a32 (encode i ++ rest) = .ok (i, rest) := by
  obtain ⟨hf, hp⟩ : waitRegForm a r n p = some i ∧ i.parts = ⟨p, none, 3⟩ := by
    simpa [Laws.OpcodeRow.Statement, hs] using opcodeRow_statement i
  have hl := takePrefixes_encode p (endsPrefixes_escByte a) (modRm 3 r n :: rest)
  have hw : decodeWaiting a32 (p.encode ++ escByte a :: modRm 3 r n :: rest) = some (i, rest) := by
    rw [decodeWaiting_esc hl (isEsc_escByte a) (wf_of_reg hp (by decide) h), decodeEsc_reg hf]
    rfl
  rw [encode, hs, Shape.encode, List.cons_append, List.append_assoc, List.cons_append, List.cons_append,
    List.nil_append, decode_wait (takePrefixes_end endsPrefixes_wait _), if_pos rfl, hw]
  exact allowPrefixes_ok _ rfl (prefixesWf_of_wf h)

/-- WAIT after prefixes stands alone, whatever follows it. -/
theorem decode_wait_prefixed (a32 : Bool) {p : Prefixes} (hp : p ≠ []) (rest : List Byte) :
    decode a32 (p.encode ++ 0x9B :: rest) = .ok (.wait p, rest) := by
  rw [decode_wait (takePrefixes_encode p endsPrefixes_wait rest), if_neg hp]
  exact allowPrefixes_ok _ rfl rfl

theorem decode_wait_end (a32 : Bool) : decode a32 [0x9B] = .ok (.wait [], []) := by
  rw [decode_wait (takePrefixes_end endsPrefixes_wait []), if_pos rfl]
  rfl

end

/-- Settles O1: each shape of an encoding is read back on its own. -/
theorem decodeInvertsEncode : Obligations.DecodeInvertsEncode := by
  intro a32 i rest h hw
  cases hs : i.shape with
  | mem => exact decode_encode_mem hs h rest
  | reg => exact decode_encode_reg hs h rest
  | waitMem => exact decode_encode_waitMem hs h rest
  | waitReg => exact decode_encode_waitReg hs h rest
  | wait p =>
    obtain ⟨rfl, -⟩ : i = .wait p ∧ i.parts = ⟨p, none, 1⟩ := by
      simpa [Laws.OpcodeRow.Statement, hs] using opcodeRow_statement i
    by_cases hp : p = []
    · subst hp
      rw [hw rfl]
      exact decode_wait_end a32
    · simpa [encode, hs, Shape.encode] using decode_wait_prefixed a32 hp rest

/-! ### 9BH before an instruction without a waiting form -/

theorem decodeWaiting_encode {a32 : Bool} {i : Instr} (h : i.wf a32 = true) (hw : i.hasWaitingForm = false)
    (rest : List Byte) : decodeWaiting a32 (encode i ++ rest) = none := by
  have hrow := opcodeRow_statement i
  rw [hasWaitingForm_eq] at hw
  cases hs : i.shape with
  | mem a r p m =>
    simp only [Laws.OpcodeRow.Statement, hs] at hrow hw
    obtain ⟨hr, hm, h32⟩ := wf_of_mem hrow.2 (by decide) h
    have hl := takePrefixes_encode p (endsPrefixes_escByte a) (modRm m.mod r m.rm :: m.tail ++ rest)
    rw [encode, hs, Shape.encode, List.append_assoc, List.cons_append,
      decodeWaiting_esc hl (isEsc_escByte a) hr, List.cons_append, decodeEsc, modOf_modRm, if_neg m.mod_ne_three, ← h32,
      takeAddr_encode hm]
    have hn : waitMemForm a r p m = none := by simpa using hw
    simp [hn, Except.toOption]
  | reg a r n p =>
    simp only [Laws.OpcodeRow.Statement, hs] at hrow hw
    have hl := takePrefixes_encode p (endsPrefixes_escByte a) (modRm 3 r n :: rest)
    rw [encode, hs, Shape.encode, List.append_assoc, List.cons_append, List.cons_append, List.nil_append,
      decodeWaiting_esc hl (isEsc_escByte a) (wf_of_reg hrow.2 (by decide) h)]
    have hn : waitRegForm a r n p = none := by simpa using hw
    simp [decodeEsc, hn, Except.toOption]
  | wait p =>
    rw [encode, hs, Shape.encode, List.append_assoc, List.cons_append]
    exact decodeWaiting_of_not_esc (takePrefixes_encode p endsPrefixes_wait _) isEsc_wait
  | waitMem =>
    rw [encode, hs, Shape.encode, List.cons_append]
    exact decodeWaiting_of_not_esc (takePrefixes_end endsPrefixes_wait _) isEsc_wait
  | waitReg =>
    rw [encode, hs, Shape.encode, List.cons_append]
    exact decodeWaiting_of_not_esc (takePrefixes_end endsPrefixes_wait _) isEsc_wait

/-- Settles O2: what follows 9BH completes no waiting pair. -/
theorem waitStandsAlone : Obligations.WaitStandsAlone := by
  intro a32 i rest h hw
  rw [decode_wait (takePrefixes_end endsPrefixes_wait _), if_pos rfl, decodeWaiting_encode h hw]
  rfl

/-! ### Reserved encodings -/

/-- A byte of `prefixBytes` is LOCK or one that `Prefix.ofByte` knows, 67H alone for the address size. -/
theorem ofByte_prefixBytes : ∀ x ∈ prefixBytes, (Prefix.ofByte x = none ∧ x = 0xF0) ∨
    ∃ z, Prefix.ofByte x = some z ∧ (Prefix.addrSize == z) = ((0x67 : Byte) == x) := by
  simp only [prefixBytes, List.forall_mem_cons]
  exact ⟨.inr ⟨_, rfl, rfl⟩, .inr ⟨_, rfl, rfl⟩, .inr ⟨_, rfl, rfl⟩, .inr ⟨_, rfl, rfl⟩, .inr ⟨_, rfl, rfl⟩,
    .inr ⟨_, rfl, rfl⟩, .inr ⟨_, rfl, rfl⟩, .inr ⟨_, rfl, rfl⟩, .inl ⟨rfl, trivial⟩, .inr ⟨_, rfl, rfl⟩,
    .inr ⟨_, rfl, rfl⟩, by simp⟩

/-- The bytes of `prefixBytes`, LOCK among them, are skipped, and 67H is noticed. -/
theorem takePrefixes_prefixBytes {pre : List Byte} (h : ∀ x ∈ pre, x ∈ prefixBytes) {b : Byte}
    (hb : endsPrefixes b = true) (r : List Byte) :
    ∃ p k, takePrefixes (pre ++ b :: r) = ⟨p, k, b :: r⟩ ∧ p.contains .addrSize = pre.contains 0x67 := by
  induction pre with
  | nil => exact ⟨[], false, takePrefixes_end hb r, rfl⟩
  | cons x pre ih =>
    obtain ⟨p, k, hp, hc⟩ := ih fun y hy => h y (List.mem_cons_of_mem _ hy)
    rcases ofByte_prefixBytes x (h x List.mem_cons_self) with ⟨hx, hlock⟩ | ⟨z, hz, hzx⟩
    · refine ⟨p, true, ?_, ?_⟩
      · rw [List.cons_append, takePrefixes, hx]
        simp [hlock, hp]
      · rw [hc, List.contains_cons, hlock]
        rfl
    · refine ⟨z :: p, k, ?_, ?_⟩
      · rw [List.cons_append, takePrefixes, hz, hp]
      · rw [List.contains_cons, List.contains_cons, hc, hzx]

theorem memForm_reserved (p : Prefixes) (m : AddrMode) : ∀ c ∈ reservedMemoryForms, memForm c.1 c.2 p m = none := by
  simp only [reservedMemoryForms, List.forall_mem_cons]
  exact ⟨rfl, rfl, rfl, rfl, rfl, rfl, rfl, by simp⟩

theorem decode_reserved_mem {a32 : Bool} {pre : List Byte} {m : AddrMode} {c : BitVec 3 × BitVec 3}
    (hpre : ∀ x ∈ pre, x ∈ prefixBytes) (hm : m.wf = true) (h32 : m.is32 = (a32 != pre.contains 0x67))
    (hc : c ∈ reservedMemoryForms) (rest : List Byte) :
    decode a32 (pre ++ (escByte c.1 :: modRm m.mod c.2 m.rm :: m.tail) ++ rest) = .error .reserved := by
  obtain ⟨p, k, hl, hp⟩ :=
    takePrefixes_prefixBytes hpre (endsPrefixes_escByte c.1) (modRm m.mod c.2 m.rm :: (m.tail ++ rest))
  have ha : p.addr32 a32 = m.is32 := by rw [h32, ← hp]; rfl
  rw [List.append_assoc, List.cons_append, List.cons_append, decode_esc hl (isEsc_escByte c.1), decodeEsc,
    modOf_modRm, if_neg m.mod_ne_three, ha, takeAddr_encode hm]
  simp [memForm_reserved p m c hc, Except.bind]

theorem regForm_nil_isSome (a r n : BitVec 3) :
    (regForm a r n []).isSome = listedRegisterForm (escByte a) (modRm 3 r n) := by
  revert a r n
  decide

/-- The register forms without a row are those that R135 does not list. -/
theorem regForm_unlisted {a r n : BitVec 3} (h : listedRegisterForm (escByte a) (modRm 3 r n) = false) (p : Prefixes) :
    regForm a r n p = none := by
  cases hp : regForm a r n p with
  | none => rfl
  | some i =>
    obtain ⟨j, hj, -⟩ := regForm_parts hp []
    rw [← regForm_nil_isSome, hj] at h
    cases h

theorem escByte_rmOf {b : Byte} (h : isEsc b = true) : escByte (rmOf b) = b := by
  revert b
  decide

theorem modRm_regForm {b : Byte} (h : 0xC0 ≤ b.toNat) : modRm 3 (regOf b) (rmOf b) = b := by
  revert b
  decide

theorem decode_reserved_reg {a32 : Bool} {pre : List Byte} {b1 b2 : Byte} (hpre : ∀ x ∈ pre, x ∈ prefixBytes)
    (he : isEsc b1 = true) (h2 : 0xC0 ≤ b2.toNat) (hu : listedRegisterForm b1 b2 = false) (rest : List Byte) :
    decode a32 (pre ++ b1 :: b2 :: rest) = .error .reserved := by
  rw [← escByte_rmOf he, ← modRm_regForm h2] at hu ⊢
  obtain ⟨p, k, hl, -⟩ :=
    takePrefixes_prefixBytes hpre (endsPrefixes_escByte (rmOf b1)) (modRm 3 (regOf b2) (rmOf b2) :: rest)
  rw [decode_esc hl (isEsc_escByte _)]
  simp [decodeEsc, regForm_unlisted hu p, Except.bind]

/-! ### Prefixes that are not allowed -/

section
variable {a32 : Bool} {bs r : List Byte} {i : Instr}

theorem takePrefixes_lock (bs : List Byte) : takePrefixes (0xF0 :: bs) = { takePrefixes bs with lock := true } := by
  rw [takePrefixes, show Prefix.ofByte 0xF0 = none from rfl]
  rfl

theorem takePrefixes_prefix {b : Byte} {x : Prefix} (h : Prefix.ofByte b = some x) (bs : List Byte) :
    takePrefixes (b :: bs) = { takePrefixes bs with prefixes := x :: (takePrefixes bs).prefixes } := by
  rw [takePrefixes, h]

/-- What the prefixes are judged on, if they are allowed. -/
theorem allowPrefixes_eq_ok {l : Leading} {q : Instr × List Byte} {x : Instr × List Byte}
    (h : allowPrefixes l q = .ok x) : q = x ∧ l.lock = false := by
  unfold allowPrefixes at h
  split at h
  · cases h
  · split at h
    · cases h
    · exact ⟨Except.ok.inj h, by simp_all⟩

/-- Bytes that decode: the prefixes end in an ESC byte, whose instruction the tables have, or in 9BH. -/
theorem decode_eq_ok (h : decode a32 bs = .ok (i, r)) : ∃ p b1 t, takePrefixes bs = ⟨p, false, b1 :: t⟩ ∧
    ((isEsc b1 = true ∧ decodeEsc memForm regForm a32 p b1 t = .ok (i, r)) ∨
      (b1 = 0x9B ∧ (if p = [] then (decodeWaiting a32 t).getD (.wait [], t) else (.wait p, t)) = (i, r))) := by
  rcases hl : takePrefixes bs with ⟨p, k, rest⟩
  cases rest with
  | nil => simp [decode, hl] at h
  | cons b1 t =>
    by_cases he : isEsc b1 = true
    · rw [decode_esc hl he] at h
      cases hd : decodeEsc memForm regForm a32 p b1 t with
      | error e => simp [hd, Except.bind] at h
      | ok q =>
        rw [hd] at h
        obtain ⟨rfl, rfl⟩ := allowPrefixes_eq_ok h
        exact ⟨p, b1, t, rfl, .inl ⟨he, hd⟩⟩
    · by_cases hb : b1 = 155#8
      · subst hb
        rw [decode_wait hl] at h
        obtain ⟨hq, rfl⟩ := allowPrefixes_eq_ok h
        exact ⟨p, _, t, rfl, .inr ⟨rfl, hq⟩⟩
      · simp [decode, hl, he, hb] at h

/-- LOCK before an instruction that decodes is reported with the instruction. -/
theorem decode_lock (h : decode a32 bs = .ok (i, r)) : decode a32 (0xF0 :: bs) = .error (.lockPrefix i) := by
  obtain ⟨p, b1, t, hl, ⟨he, hd⟩ | ⟨rfl, hd⟩⟩ := decode_eq_ok h
  · have hl' : takePrefixes (0xF0 :: bs) = ⟨p, true, b1 :: t⟩ := by rw [takePrefixes_lock, hl]
    rw [decode_esc hl' he, hd]
    rfl
  · have hl' : takePrefixes (0xF0 :: bs) = ⟨p, true, 0x9B :: t⟩ := by rw [takePrefixes_lock, hl]
    rw [decode_wait hl', hd]
    rfl

theorem addr32_repeat {x : Prefix} (hx : x = .repne ∨ x = .rep) (p : Prefixes) :
    Prefixes.addr32 a32 (x :: p) = Prefixes.addr32 a32 p := by
  rcases hx with rfl | rfl <;> rfl

theorem prefixesWf_repeat {j : Instr} {x : Prefix} (hx : x = .repne ∨ x = .rep) {p : Prefixes} {o : Option AddrMode}
    (hj : j.parts = ⟨x :: p, o, 2⟩) : j.parts.prefixesWf = false := by
  rcases hx with rfl | rfl <;> simp [Parts.prefixesWf, hj, Prefixes.repeats]

/-- With one more F2H or F3H an ESC instruction is looked up in the same row. -/
theorem decodeEsc_repeat {x : Prefix} (hx : x = .repne ∨ x = .rep) {p : Prefixes} {b1 : Byte} {t : List Byte}
    (h : decodeEsc memForm regForm a32 p b1 t = .ok (i, r)) :
    i.parts.opcodeBytes = 2 ∧
      ∃ j, decodeEsc memForm regForm a32 (x :: p) b1 t = .ok (j, r) ∧ j.parts.prefixesWf = false := by
  obtain ⟨b2, u, rfl, ⟨hm, hf, rfl⟩ | ⟨hm, m, ht, hf⟩⟩ := decodeEsc_eq_ok h
  · obtain ⟨j, hj, hparts⟩ := regForm_parts hf (x :: p)
    obtain ⟨k, hk, hsame⟩ := regForm_parts hf p
    obtain rfl : i = k := Option.some.inj (hf.symm.trans hk)
    exact ⟨by rw [hsame], j, by simp [decodeEsc, hm, hj], prefixesWf_repeat hx hparts⟩
  · obtain ⟨j, hj, hparts⟩ := memForm_parts hf (x :: p)
    obtain ⟨k, hk, hsame⟩ := memForm_parts hf p
    obtain rfl : i = k := Option.some.inj (hf.symm.trans hk)
    exact ⟨by rw [hsame], j, by simp [decodeEsc, hm, addr32_repeat hx, ht, hj], prefixesWf_repeat hx hparts⟩

/-- F2H or F3H before an ESC instruction. -/
theorem decode_repeat {b : Byte} (hb : b = 0xF2 ∨ b = 0xF3) (h : decode a32 bs = .ok (i, r))
    (hn : i.parts.opcodeBytes = 2) : decode a32 (b :: bs) = .error .repPrefix := by
  obtain ⟨x, hx, hbx⟩ : ∃ x, (x = .repne ∨ x = .rep) ∧ Prefix.ofByte b = some x := by
    rcases hb with rfl | rfl
    · exact ⟨.repne, .inl rfl, rfl⟩
    · exact ⟨.rep, .inr rfl, rfl⟩
  obtain ⟨p, b1, t, hl, ⟨he, hd⟩ | ⟨rfl, hd⟩⟩ := decode_eq_ok h
  · obtain ⟨-, j, hj, hw⟩ := decodeEsc_repeat hx hd
    have hl' : takePrefixes (b :: bs) = ⟨x :: p, false, b1 :: t⟩ := by rw [takePrefixes_prefix hbx, hl]
    rw [decode_esc hl' he, hj]
    simp [Except.bind, allowPrefixes, hw]
  · have hwait : i.parts.opcodeBytes ≠ 2 := by
      split at hd
      · cases hw : decodeWaiting a32 t with
        | none =>
          obtain ⟨rfl, -⟩ : Instr.wait [] = i ∧ t = r := by simpa [hw] using hd
          decide
        | some q =>
          obtain rfl : q = (i, r) := by simpa [hw] using hd
          rw [decodeWaiting_parts hw]
          decide
      · obtain ⟨rfl, -⟩ := Prod.mk.inj hd
        exact (by decide : (1 : Nat) ≠ 2)
    exact absurd hn hwait

end

end Sys2Proof

namespace Sys2Proof.Machine

/-! ### The step -/

section
variable {s : State}

theorem step_decoded {i : Instr} {r : List Byte} (hf : s.frozen = false)
    (h : decode s.addrSize32 s.fetchWindow = .ok (i, r)) : step s = exec i s := by
  simp [step, hf, h]

theorem step_undecoded {e : DecodeError} (hf : s.frozen = false) (h : decode s.addrSize32 s.fetchWindow = .error e) :
    step s = s.undecoded e := by
  simp [step, hf, h]

end

/-- Settles O3: no row is found, so the prefixes are not looked at. -/
theorem reservedEncodingsAreRefused : Obligations.ReservedEncodingsAreRefused := by
  refine ⟨fun a32 pre m rest hpre hm h32 c hc => decode_reserved_mem hpre hm h32 hc rest,
    fun a32 pre b1 b2 rest hpre he h2 hu => decode_reserved_reg hpre he h2 hu rest, ?_⟩
  rintro s b hf rfl hd
  exact step_undecoded hf hd

/-- Settles O4, word by word. -/
theorem manualWordsDecode : Obligations.ManualWordsDecode := by
  refine ⟨?_, ?_, ?_, ?_, ?_, ?_, ?_, ?_, ?_, ?_, ?_, ?_, ?_⟩ <;> decide

/-- Settles O5: the window begins with the instruction's bytes, which are read back. -/
theorem stepRunsDecodedInstruction : Obligations.StepRunsDecodedInstruction := by
  refine ⟨fun s i r hf hd => step_decoded hf hd, fun s i hf hw hi hr => ?_⟩
  obtain ⟨rest, hrest⟩ := fetchWindow_of_read hr
  refine step_decoded (r := rest) hf ?_
  rw [hrest]
  exact decodeInvertsEncode s.addrSize32 i rest hw fun h => absurd h hi

/-- Settles O16: LOCK is judged on the instruction behind it, and F2H and F3H leave its row as it is. -/
theorem lockAndRepeatPrefixes : Obligations.LockAndRepeatPrefixes := by
  intro s bs hf
  refine ⟨fun i r hd => ⟨fun hw hp => ?_, fun hw hp => ?_, fun hn hw => ?_⟩, fun x q hw => ?_⟩
  · have hlock : decode s.addrSize32 s.fetchWindow = .error (.lockPrefix i) := hw ▸ decode_lock hd
    rw [step_undecoded hf hlock, State.undecoded, hp]
    rfl
  · have hlock : decode s.addrSize32 s.fetchWindow = .error (.lockPrefix i) := hw ▸ decode_lock hd
    rw [step_undecoded hf hlock, State.undecoded, hp]
    rfl
  · obtain ⟨b, hb, hw⟩ : ∃ b, (b = 0xF2 ∨ b = 0xF3) ∧ s.fetchWindow = b :: bs :=
      hw.elim (fun h => ⟨_, .inl rfl, h⟩) fun h => ⟨_, .inr rfl, h⟩
    exact step_undecoded hf (hw ▸ decode_repeat hb hd hn)
  · refine step_decoded (r := bs) hf ?_
    rw [hw]
    exact decode_wait_prefixed s.addrSize32 (List.cons_ne_nil x q) bs

end Sys2Proof.Machine
end

section
/-! The frames of every instruction and the invariant: where `led` leads, the state is the old one but for an event, the
recorded one after an operation of the instruction's class, or what a control instruction makes of it. -/

namespace Sys2Proof.Machine

/-! ### The state of an instruction that is replaced -/

/-- Only the events, the freeze and FERR# can have changed: the instruction was replaced by an exception or a fault. -/
def State.Replaced (s t : State) : Prop := t = { s with ferr := t.ferr, frozen := t.frozen, events := t.events }

theorem State.replaced_emit (s : State) (e : HostEvent) : s.Replaced (s.emit e) := rfl

theorem State.replaced_freeze (s : State) : s.Replaced s.freeze := by
  obtain ⟨e, he⟩ := s.freeze_fields
  rw [State.Replaced, he]

/-! ### The operation of a non-control instruction -/

/-- The byte `b` of memory is none of those that the instruction stores. -/
def State.StoresElsewhere (s : State) (i : Instr) (b : Nat) : Prop :=
  ∀ a n, s.storedRange i = some (a, n) → inRange a n b = false

/-- What the operation of the non-control instruction `i` leaves of the state `v`: what every instruction keeps, the
control word, the pointer and general registers, ZF, PF and CF unless it compares into them, and memory but for the bytes
that it stores. `s` is the state before the instruction recorded itself. -/
structure State.Operated (s : State) (i : Instr) (v u : State) : Prop where
  keeps : Keeps v u
  cw : u.cw = v.cw
  fip : u.fip = v.fip
  fdp : u.fdp = v.fdp
  fop : u.fop = v.fop
  gprs : u.gprs = v.gprs
  flags : i.writesHostFlags = false → u.zf = v.zf ∧ u.pf = v.pf ∧ u.cf = v.cf
  memory : ∀ b, s.StoresElsewhere i b → readByte u.mem b = readByte v.mem b

section
variable {i : Instr} {s t u v : State}

theorem OnStack.operated (h : OnStack v u) : s.Operated i v u where
  keeps := h.keeps
  cw := h.cw
  fip := h.fip
  fdp := h.fdp
  fop := h.fop
  gprs := h.sameHost.gprs
  flags _ := ⟨h.sameHost.zf, h.sameHost.pf, h.sameHost.cf⟩
  memory b _ := by rw [h.mem]

theorem StoresAt.operated {a : Word32} {n : Nat} (hs : s.storedRange i = some (a, n)) (h : StoresAt v u a n) :
    s.Operated i v u where
  keeps := h.keeps
  cw := (congrArg State.cw h.beyond :)
  fip := (congrArg State.fip h.beyond :)
  fdp := (congrArg State.fdp h.beyond :)
  fop := (congrArg State.fop h.beyond :)
  gprs := (congrArg State.gprs h.beyond :)
  flags _ := ⟨(congrArg State.zf h.beyond :), (congrArg State.pf h.beyond :), (congrArg State.cf h.beyond :)⟩
  memory b hb := h.memory b (hb a n hs)

theorem FlagsOnly.operated (hf : i.writesHostFlags = true) (h : FlagsOnly v u) : s.Operated i v u where
  keeps := h.keeps
  cw := (congrArg State.cw h.beyond :)
  fip := (congrArg State.fip h.beyond :)
  fdp := (congrArg State.fdp h.beyond :)
  fop := (congrArg State.fop h.beyond :)
  gprs := (congrArg State.gprs h.beyond :)
  flags hn := by rw [hf] at hn; cases hn
  memory b _ := by rw [show u.mem = v.mem from (congrArg State.mem h.beyond :)]

/-- The three ways of an instruction that leads on: replaced, operated from the recorded state, or a control instruction. -/
theorem led_outcomes (h : exec i s = .next t) :
    (s.Replaced t ∧ ¬ (s.Ready ∧ s.Grants i)) ∨
    (i.isControl = false ∧ s.Ready ∧ s.Grants i ∧
      ∃ u, s.Operated i (s.record i (s.dataPointer i)) u ∧ t = u.retire i.length s.es) ∨
    (i.isControl = true ∧ t = (s.controlled i).retire i.length s.es) := by
  cases led i h with
  | raised _ hw => exact .inl ⟨s.replaced_emit _, fun hr => by rw [State.Ready, hw] at hr; cases hr.1⟩
  | froze _ hw => exact .inl ⟨s.replaced_freeze, fun hr => by rw [State.Ready, hw] at hr; cases hr.1⟩
  | denied _ hg => exact .inl ⟨s.replaced_emit _, fun hr => hg hr.2⟩
  | stack hr hg hc _ hu => exact .inr (.inl ⟨hc, hr, hg, _, hu.operated, rfl⟩)
  | stored hr hg hc hs hu => exact .inr (.inl ⟨hc, hr, hg, _, hu.operated hs, rfl⟩)
  | flagged hr hg hc hf _ hu => exact .inr (.inl ⟨hc, hr, hg, _, hu.operated hf, rfl⟩)
  | controlled _ _ hc => exact .inr (.inr ⟨hc, rfl⟩)

end

/-! ### What a control instruction leaves -/

section
variable (s : State) (i : Instr)

theorem State.controlled_cw (h : i.writesControlWord = false) : (s.controlled i).cw = s.cw := by
  cases i <;> first | rfl | cases h

theorem State.controlled_pointers (h : i.replacesPointers = false) : s.SamePointers (s.controlled i) := by
  cases i <;> first | exact ⟨rfl, rfl, rfl⟩ | cases h

theorem State.controlled_regs (h : ∀ p m, i ≠ .frstor p m) : (s.controlled i).regs = s.regs := by
  cases i <;> first | rfl | exact absurd rfl (h _ _)

theorem saveEnvironment_mem (f : ImageFormat) (a : Word32) :
    (saveEnvironment f a s).mem = writeBytes s.mem a (storedImage f .environment s) := by
  rw [saveEnvironment, State.drawAllCodes_mem, State.resummarize_mem, State.setCw_mem, State.writeImage, State.setMem_mem]

theorem saveState_mem (f : ImageFormat) (a : Word32) :
    (saveState f a s).mem = writeBytes s.mem a (storedImage f .state s) := by
  rw [saveState, State.initialized, State.setPointers_mem, State.setTw_mem, State.setSw_mem, State.setCw_mem,
    State.writeImage, State.setMem_mem]

theorem readByte_storedImage_outside (m : Memory) (a : Word32) (f : ImageFormat) (k : ImageKind) {b : Nat}
    (h : inRange a (f.bytes k) b = false) : readByte (writeBytes m a (storedImage f k s)) b = readByte m b :=
  readByte_writeBytes_outside _ _ _ _ (by rwa [storedImage_length])

theorem State.controlled_memory {b : Nat} (h : s.StoresElsewhere i b) :
    readByte (s.controlled i).mem b = readByte s.mem b := by
  unfold State.controlled
  split
  case h_4 => exact write_outside _ _ _ _ _ (h _ _ rfl)
  case h_5 => exact write_outside _ _ _ _ _ (h _ _ rfl)
  case h_6 => exact write_outside _ _ _ _ _ (h _ _ rfl)
  case h_7 => exact write_outside _ _ _ _ _ (h _ _ rfl)
  case h_12 => rw [saveEnvironment_mem, readByte_storedImage_outside _ _ _ _ _ (h _ _ rfl)]
  case h_13 => rw [saveEnvironment_mem, readByte_storedImage_outside _ _ _ _ _ (h _ _ rfl)]
  case h_15 => rw [saveState_mem, readByte_storedImage_outside _ _ _ _ _ (h _ _ rfl)]
  case h_16 => rw [saveState_mem, readByte_storedImage_outside _ _ _ _ _ (h _ _ rfl)]
  all_goals rfl

/-- Where a control instruction writes AX, it stores the status word there. -/
theorem State.controlled_ax (h : i.writesAx = true) : s.controlled i = s.setAx s.storedSw := by
  unfold Instr.writesAx at h
  split at h
  · rfl
  · rfl
  · cases h

end

/-! ### The invariant -/

section
variable {s t u : State}

theorem State.Inv.sound (h : s.Inv) : s.Sound := ⟨h.memory, h.tags, h.summary, h.busy⟩

theorem State.Sound.retire (h : u.Sound) (n : Nat) (e : Bool) : (u.retire n e).Sound where
  memory := by rw [State.retire_mem]; exact h.memory
  tags := h.tags.of_eq (fun k => congrArg (fun r : Vector Ext 8 => r[k.toNat]) (u.retire_regs n e))
    fun k => congrArg (tagAt · k) (u.retire_tw n e)
  coherent := h.coherent.retire n e

/-- An instruction that ran keeps the invariant: FERR# stands only for ES, and a processor that runs is not frozen. -/
theorem Keeps.inv_retire (h : Keeps s u) (hi : s.Inv) (hf : s.frozen = false) (n : Nat) (e : Bool) :
    (u.retire n e).Inv := by
  have hs : (u.retire n e).Sound := (h.sound hi.sound).retire n e
  refine ⟨hs.memory, hs.tags, hs.coherent.1, hs.coherent.2, fun hferr => ?_, fun hfroze => ?_⟩
  · have hes : u.es = true := State.retire_ferr hferr
    rwa [State.es, State.retire_sw]
  · rw [State.retire_frozen, h.frozen, hf] at hfroze
    cases hfroze

theorem State.Inv.emit (h : s.Inv) (e : HostEvent) : (s.emit e).Inv :=
  ⟨h.memory, h.tags, h.summary, h.busy, h.ferr, h.frozen⟩

theorem State.Inv.freeze (h : s.Inv) (hw : s.waitCheck = .freeze) : s.freeze.Inv := by
  obtain ⟨hes, hne, hign⟩ := s.waitCheck_freeze_iff.1 hw
  obtain ⟨e, he⟩ := s.freeze_fields
  rw [he]
  exact ⟨h.memory, h.tags, h.summary, h.busy, fun _ => hes, fun _ => ⟨hes, hne, hign⟩⟩

theorem State.Inv.deliverInterrupt (h : s.Inv) : s.deliverInterrupt.Inv :=
  ⟨h.memory, h.tags, h.summary, h.busy, h.ferr, fun hf => by cases hf⟩

theorem State.Inv.exec {i : Instr} (h : s.Inv) (hf : s.frozen = false) (ht : exec i s = .next t) : t.Inv := by
  cases led i ht with
  | raised => exact h.emit _
  | froze _ hw => exact h.freeze hw
  | denied => exact h.emit _
  | stack _ _ _ _ hu => exact ((Keeps.record s i _).trans hu.keeps).inv_retire h hf _ _
  | stored _ _ _ _ hu => exact ((Keeps.record s i _).trans hu.keeps).inv_retire h hf _ _
  | flagged _ _ _ _ _ hu => exact ((Keeps.record s i _).trans hu.keeps).inv_retire h hf _ _
  | controlled => exact (Keeps.controlled s i).inv_retire h hf _ _

theorem State.Inv.stayFrozen (h : s.Inv) (ht : s.stayFrozen = .next t) : t.Inv := by
  unfold State.stayFrozen at ht
  split at ht
  · cases ht
    exact h.deliverInterrupt
  · cases ht

theorem State.Inv.undecoded {e : DecodeError} (h : s.Inv) (ht : s.undecoded e = .next t) : t.Inv := by
  cases e with
  | lockPrefix i =>
    obtain ⟨-, ht⟩ := ifPresent_cases ht
    cases ht
    exact h.emit _
  | _ => cases ht

end

/-- Settles O6: a frozen processor, an instruction, and bytes that are none. -/
theorem stepKeepsInvariant : Obligations.StepKeepsInvariant := by
  intro s t hi ht
  cases hf : s.frozen with
  | true => exact hi.stayFrozen (by simpa [step, hf] using ht)
  | false =>
    cases hd : decode s.addrSize32 s.fetchWindow with
    | ok q => exact hi.exec hf (step_decoded (i := q.1) (r := q.2) hf hd ▸ ht)
    | error e => exact hi.undecoded (step_undecoded hf hd ▸ ht)

/-- Settles O7, clause by clause. -/
theorem resetSatisfiesInvariant : Obligations.ResetSatisfiesInvariant :=
  ⟨wf_reset, fun k => .inr (by revert k; decide), rfl, rfl, nofun, nofun⟩

/-- Settles O8 by the laws of memory. -/
theorem memoryReadsWhatWasWritten : Obligations.MemoryReadsWhatWasWritten :=
  ⟨fun m a b v => readByte_writeByte m a v b, fun s a n v hn => read_write s a n v hn, fun _ a v h => wf_writeByte h a v,
    fun _ _ h h' hr => wfFrom_ext h h' hr⟩

/-! ### The frames -/

section
variable {i : Instr} {s t u : State}

theorem State.Operated.keeps_of_record {d : Option FarPtr} (h : s.Operated i (s.record i d) u) : Keeps s u :=
  (Keeps.record s i d).trans h.keeps

theorem State.gpr_congr (h : t.gprs = s.gprs) (r : Gpr) : t.gpr r = s.gpr r :=
  congrArg (fun g : Vector Word32 8 => g[r.code.toNat]) h

theorem State.Replaced.keeps (h : s.Replaced t) : t.segs = s.segs ∧ t.ne = s.ne ∧ t.ignne = s.ignne ∧ t.mode = s.mode ∧
    t.opSize32 = s.opSize32 ∧ t.addrSize32 = s.addrSize32 ∧ t.intr = s.intr ∧ t.denied = s.denied ∧
    t.params = s.params := by
  rw [h]
  exact ⟨rfl, rfl, rfl, rfl, rfl, rfl, rfl, rfl, rfl⟩

theorem Keeps.retire_inputs (h : Keeps s u) (n : Nat) (e : Bool) : (u.retire n e).segs = s.segs ∧
    (u.retire n e).ne = s.ne ∧ (u.retire n e).ignne = s.ignne ∧ (u.retire n e).mode = s.mode ∧
    (u.retire n e).opSize32 = s.opSize32 ∧ (u.retire n e).addrSize32 = s.addrSize32 ∧ (u.retire n e).intr = s.intr ∧
    (u.retire n e).denied = s.denied ∧ (u.retire n e).params = s.params := by
  simp [h.segs, h.ne, h.ignne, h.mode, h.opSize32, h.addrSize32, h.intr, h.denied, h.params]

/-- The host's segments, modes and inputs after any instruction. -/
theorem exec_inputs (h : exec i s = .next t) : t.segs = s.segs ∧ t.ne = s.ne ∧ t.ignne = s.ignne ∧ t.mode = s.mode ∧
    t.opSize32 = s.opSize32 ∧ t.addrSize32 = s.addrSize32 ∧ t.intr = s.intr ∧ t.denied = s.denied ∧
    t.params = s.params := by
  obtain ⟨hr, -⟩ | ⟨-, -, -, u, hu, rfl⟩ | ⟨-, rfl⟩ := led_outcomes h
  · exact hr.keeps
  · exact hu.keeps_of_record.retire_inputs _ _
  · exact (Keeps.controlled s i).retire_inputs _ _

theorem exec_hostFlags (h : exec i s = .next t) (hn : i.writesHostFlags = false) :
    t.zf = s.zf ∧ t.pf = s.pf ∧ t.cf = s.cf := by
  obtain ⟨hr, -⟩ | ⟨-, -, -, u, hu, rfl⟩ | ⟨-, rfl⟩ := led_outcomes h
  · rw [hr]
    exact ⟨rfl, rfl, rfl⟩
  · have hf : u.zf = s.zf ∧ u.pf = s.pf ∧ u.cf = s.cf := hu.flags hn
    simpa using hf
  · simpa using s.controlled_flags i

theorem exec_gprs (h : exec i s = .next t) (hn : i.writesAx = false) : t.gprs = s.gprs := by
  obtain ⟨hr, -⟩ | ⟨-, -, -, u, hu, rfl⟩ | ⟨-, rfl⟩ := led_outcomes h
  · rw [hr]
  · have hg : u.gprs = s.gprs := hu.gprs
    simpa using hg
  · simpa using s.controlled_gprs i hn

/-- Of the general registers at most AX changes. -/
theorem exec_gpr (h : exec i s = .next t) : (∀ r, r ≠ .eax → t.gpr r = s.gpr r) ∧
    (t.gpr .eax).extractLsb' 16 16 = (s.gpr .eax).extractLsb' 16 16 := by
  cases hw : i.writesAx with
  | false =>
    have hg := exec_gprs h hw
    exact ⟨fun r _ => State.gpr_congr hg r, by rw [State.gpr_congr hg]⟩
  | true =>
    have hcontrol : i.isControl = true := by
      unfold Instr.writesAx at hw
      split at hw
      · rfl
      · rfl
      · cases hw
    obtain ⟨hr, -⟩ | ⟨hc, -⟩ | ⟨-, rfl⟩ := led_outcomes h
    · have hg : t.gprs = s.gprs := by rw [hr]
      exact ⟨fun r _ => State.gpr_congr hg r, by rw [State.gpr_congr hg]⟩
    · rw [hcontrol] at hc
      cases hc
    · rw [s.controlled_ax i hw]
      refine ⟨fun r hr => ?_, ?_⟩
      · rw [State.retire_gpr, s.setAx_gpr_of_ne _ hr]
      · rw [State.retire_gpr, s.setAx_eax_high]

theorem exec_memory (h : exec i s = .next t) {b : Nat} (hb : s.StoresElsewhere i b) :
    readByte t.mem b = readByte s.mem b := by
  obtain ⟨hr, -⟩ | ⟨-, -, -, u, hu, rfl⟩ | ⟨-, rfl⟩ := led_outcomes h
  · rw [hr]
  · rw [State.retire_mem]
    exact hu.memory b hb
  · rw [State.retire_mem, s.controlled_memory i hb]

end

/-- Settles O9: every step of `exec` keeps the inputs, and only the four comparisons and the two stores to AX write a host
register. -/
theorem hostFrame : Obligations.HostFrame := by
  intro i s t h
  obtain ⟨h1, h2, h3, h4, h5, h6, h7, h8, h9⟩ := exec_inputs h
  exact ⟨h1, h2, h3, h4, h5, h6, h7, h8, h9, exec_hostFlags h, exec_gprs h, exec_gpr h⟩

/-- Settles O10: a store writes `storedRange`, and an instruction without one writes nothing. -/
theorem memoryFrame : Obligations.MemoryFrame := by
  intro i s t h
  cases hs : s.storedRange i with
  | none => exact fun b => exec_memory h fun a n hn => by rw [hs] at hn; cases hn
  | some q => exact fun b hb => exec_memory h fun a n hn => by rw [hs] at hn; cases hn; exact hb

/-! ### The control word, the pointer registers and the data registers -/

section
variable {i : Instr} {s t u : State}

theorem exec_cw (h : exec i s = .next t) (hw : i.writesControlWord = false) : t.cw = s.cw := by
  obtain ⟨hr, -⟩ | ⟨-, -, -, u, hu, rfl⟩ | ⟨-, rfl⟩ := led_outcomes h
  · rw [hr]
  · rw [State.retire_cw, hu.cw]
    rfl
  · rw [State.retire_cw, s.controlled_cw i hw]

theorem exec_recorded (h : exec i s = .next t) (hc : i.isControl = false) (hr : s.Ready) (hg : s.Grants i) :
    s.Recorded t i (s.dataPointer i) := by
  obtain ⟨-, hn⟩ | ⟨-, -, -, u, hu, rfl⟩ | ⟨hc', -⟩ := led_outcomes h
  · exact absurd ⟨hr, hg⟩ hn
  · have hfip : u.fip = s.pc := hu.fip
    have hfop : u.fop = i.fop := hu.fop
    have hfdp : u.fdp = (s.dataPointer i).getD (Config.undefFdp s.draws) := hu.fdp
    refine ⟨by rw [State.retire_fip, hfip], by rw [State.retire_fop, hfop], fun q hq => ?_⟩
    rw [State.retire_fdp, hfdp, hq]
    rfl
  · rw [hc] at hc'
    cases hc'

theorem State.Replaced.samePointers (h : s.Replaced t) : s.SamePointers t := by
  rw [h]
  exact ⟨rfl, rfl, rfl⟩

theorem exec_pointers_of_replaced (h : exec i s = .next t) (hc : i.isControl = false) (hn : ¬ (s.Ready ∧ s.Grants i)) :
    s.SamePointers t := by
  obtain ⟨hr, -⟩ | ⟨-, hr, hg, -⟩ | ⟨hc', -⟩ := led_outcomes h
  · exact hr.samePointers
  · exact absurd ⟨hr, hg⟩ hn
  · rw [hc] at hc'
    cases hc'

theorem exec_pointers_of_control (h : exec i s = .next t) (hc : i.isControl = true) (hp : i.replacesPointers = false) :
    s.SamePointers t := by
  obtain ⟨hr, -⟩ | ⟨hc', -⟩ | ⟨-, rfl⟩ := led_outcomes h
  · exact hr.samePointers
  · rw [hc] at hc'
    cases hc'
  · exact (s.controlled_pointers i hp).retire

theorem State.reg_congr (h : t.regs = s.regs) (k : Idx) : t.reg k = s.reg k :=
  congrArg (fun r : Vector Ext 8 => r[k.toNat]) h

theorem exec_regs_of_control (h : exec i s = .next t) (hc : i.isControl = true) (hi : ∀ p m, i ≠ .frstor p m) :
    t.regs = s.regs := by
  obtain ⟨hr, -⟩ | ⟨hc', -⟩ | ⟨-, rfl⟩ := led_outcomes h
  · rw [hr]
  · rw [hc] at hc'
    cases hc'
  · rw [State.retire_regs, s.controlled_regs i hi]

/-- A register form whose operation writes no data register. -/
theorem runReg_regs {f : State → State} (h : runReg i (fun v => .ok (f v)) s = .next t)
    (hf : ∀ v, (f v).regs = v.regs) : t.regs = s.regs := by
  obtain ⟨-, rfl⟩ | ⟨-, rfl⟩ | ⟨-, u, hu, rfl⟩ := runReg_cases h
  · rfl
  · rw [s.replaced_freeze]
  · obtain rfl := Except.ok.inj hu
    rw [State.retire_regs, hf, State.record_regs]

theorem exec_regs_of_movesTop (h : exec i s = .next t) (hm : i.movesTop = true) : t.regs = s.regs := by
  unfold Instr.movesTop at hm
  split at hm
  · exact runReg_regs (f := rotate 1) h fun _ => rfl
  · exact runReg_regs (f := rotate (-1)) h fun _ => rfl
  · exact runReg_regs (f := freeRegister _) h fun _ => rfl
  · exact runReg_regs (f := State.drawAllCodes) h fun _ => rfl
  · cases hm

end

/-- Settles O11: by the outcomes of an instruction: replaced, executed with itself recorded, or a control instruction. -/
theorem controlAndPointerFrame : Obligations.ControlAndPointerFrame := by
  intro i s t h
  refine ⟨exec_cw h, exec_recorded h, exec_pointers_of_replaced h, exec_pointers_of_control h, fun hi hf k => ?_⟩
  exact State.reg_congr (hi.elim (fun hc => exec_regs_of_control h hc hf) fun hm => exec_regs_of_movesTop h hm) k

/-! ### What comes before every instruction -/

section
variable {i : Instr} {s : State}

/-- Every waiting instruction of the processor begins with the wait check. -/
theorem exec_afterWait (hn : i.nonWaiting = false) (hp : i.optionalPresent s.params = true) :
    ∃ r, exec i s = afterWait s r := by
  have hopt : ∀ {b : Bool} {r : Result}, b = true → ifPresent b r = r := fun hb => by rw [hb]; rfl
  cases i <;> first | exact ⟨_, rfl⟩ | exact ⟨_, hopt hp⟩ | cases hn

/-- Every instruction with a memory operand next asks the host for it. -/
theorem exec_withOperand {m : AddrMode} (h : i.parts.operand = some m) :
    (i.nonWaiting = true ∧ ∃ r, exec i s = withOperand s (s.ea m) (s.operandBytes i) r) ∨
      (i.nonWaiting = false ∧ ∃ r, exec i s = afterWait s (withOperand s (s.ea m) (s.operandBytes i) r)) := by
  cases i <;> cases h <;> first | exact .inl ⟨rfl, _, rfl⟩ | exact .inr ⟨rfl, _, rfl⟩

theorem afterWait_raise (h : s.waitCheck = .raise) (r : Result) : afterWait s r = .next s.raiseMF := by
  rw [afterWait, h]

theorem afterWait_freeze (h : s.waitCheck = .freeze) (r : Result) : afterWait s r = .next s.freeze := by
  rw [afterWait, h]

theorem withOperand_denied {a : Word32} {n : Nat} (h : s.operandDenied a n = true) (r : Result) :
    withOperand s a n r = .next s.raiseOperandFault := by
  rw [withOperand, if_pos h]

theorem State.freeze_eq (s : State) : s.freeze = { s with
    frozen := true, ferr := true, events := s.events ++ (if s.ferr then [] else [.ferr true]) ++ [.freeze s.pc] } := by
  cases hf : s.ferr with
  | true =>
    rw [State.freeze, State.setFerr, if_pos hf, if_pos rfl, List.append_nil, ← hf]
    rfl
  | false =>
    rw [State.freeze, State.setFerr, if_neg (by simp [hf])]
    rfl

theorem State.operandDenied_of {a : Word32} {n j : Nat} {d : Nat × Nat} (hj : j < n) (hd : d ∈ s.denied)
    (hl : d.1 ≤ (a + BitVec.ofNat 32 j).toNat) (hu : (a + BitVec.ofNat 32 j).toNat < d.1 + d.2) :
    s.operandDenied a n = true :=
  List.any_eq_true.2 ⟨d, hd, List.any_eq_true.2 ⟨j, List.mem_range.2 hj,
    Bool.and_eq_true_iff.2 ⟨decide_eq_true hl, decide_eq_true hu⟩⟩⟩

end

/-- Settles O12: a waiting instruction begins with the wait check, which raises #MF exactly when an exception is pending. -/
theorem pendingExceptionRaisesMF : Obligations.PendingExceptionRaisesMF := by
  refine ⟨fun i s hn hp hes hne => ?_, State.waitCheck_proceed_iff⟩
  obtain ⟨r, hr⟩ := exec_afterWait hn hp
  rw [hr, afterWait_raise (s.waitCheck_raise_iff.2 ⟨hes, hne⟩)]
  rfl

/-- Settles O13: as O12 with the freeze; a frozen processor only looks at the interrupt. -/
theorem pendingExceptionFreezes : Obligations.PendingExceptionFreezes := by
  refine ⟨fun i s hn hp hes hne hign => ?_, fun s hf => ⟨fun hi => ?_, fun hi => ?_⟩⟩
  · obtain ⟨r, hr⟩ := exec_afterWait hn hp
    rw [hr, afterWait_freeze (s.waitCheck_freeze_iff.2 ⟨hes, hne, hign⟩), s.freeze_eq]
  · simp [step, hf, State.stayFrozen, hi]
  · simp [step, hf, State.stayFrozen, hi]
    rfl

/-- Settles O15: the operand is checked after the wait check and before anything is recorded. -/
theorem operandFaultReplacesInstruction : Obligations.OperandFaultReplacesInstruction := by
  intro i s m j d hm hr hj hd hl hu
  have hdenied := State.operandDenied_of hj hd hl hu
  obtain ⟨-, r, he⟩ | ⟨hn, r, he⟩ := exec_withOperand (s := s) hm
  · rw [he, withOperand_denied hdenied]
    rfl
  · have hready : s.Ready := hr.resolve_left (by simp [hn])
    rw [he, afterWait_ready hready, withOperand_denied hdenied]
    rfl

end Sys2Proof.Machine
end

section
/-! What the operation of an instruction did to the recorded state, told of the state before and after the instruction; then
the loads, moves and stores (41_data_transfer.md, 42_load_constants.md). -/

namespace Sys2Proof.Machine

/-! ### From the operation to the instruction -/

section
variable {s u : State} {i : Instr} {p : Prefixes} {m : AddrMode} {o : Option FarPtr} {n k : Nat} {e b : Bool} {d : Idx}
  {x y : Ext}

/-- A register form that always completes, and what its end says of the state. -/
theorem runReg_effect {f : State → State} {P : State → Prop} (hr : s.Ready) (ho : ∀ v, OnStack v (f v))
    (hp : P ((f (s.record i none)).retire i.length s.es)) :
    ∃ t, runReg i (fun v => .ok (f v)) s = .next t ∧ s.Ran t i none ∧ P t := by
  obtain ⟨hnext, hran⟩ := runReg_ran (i := i) (body := fun v => .ok (f v)) hr rfl (ho _)
  exact ⟨_, hnext, hran, hp⟩

/-- A memory form that always completes, and what its end says of the state. -/
theorem runMem_effect {f : Word32 → State → State} {P : State → Prop} (hr : s.Ready) (ha : s.Allows (s.ea m) k)
    (ho : ∀ v, OnStack v (f (s.ea m) v))
    (hp : P ((f (s.ea m) (s.record i (some (s.operandPtr p m)))).retire i.length s.es)) :
    ∃ t, runMem i p m k (fun a v => .ok (f a v)) s = .next t ∧ s.Ran t i (some (s.operandPtr p m)) ∧ P t := by
  obtain ⟨hnext, hran⟩ := runMem_ran (i := i) (p := p) (body := fun a v => .ok (f a v)) hr ha rfl (ho _)
  exact ⟨_, hnext, hran, hp⟩

@[simp] theorem State.pushed_record_iff : (s.record i o).Pushed u x ↔ s.Pushed u x :=
  ⟨.of_record, fun h => ⟨h.top, h.value, h.tag⟩⟩

@[simp] theorem State.wrote_record_iff : (s.record i o).Wrote u d b x ↔ s.Wrote u d b x :=
  ⟨.of_record, fun h => ⟨h.top, h.value, h.tag⟩⟩

@[simp] theorem State.wrotePair_record_iff : (s.record i o).WrotePair u x y ↔ s.WrotePair u x y :=
  ⟨.of_record, fun h => ⟨h.top, h.value, h.tag⟩⟩

@[simp] theorem State.popped_record_iff : (s.record i o).Popped u k ↔ s.Popped u k :=
  ⟨.of_record, fun h => ⟨h.top, h.value, h.tag⟩⟩

@[simp] theorem State.signals_record_iff {l : List Exc} : (s.record i o).Signals u l b ↔ s.Signals u l b :=
  ⟨.of_record, fun h => ⟨h.flag, h.es, h.busy, h.sf, h.c1⟩⟩

@[simp] theorem State.stackFaulted_record_iff : (s.record i o).StackFaulted u b ↔ s.StackFaulted u b :=
  ⟨.of_record, fun h => ⟨h.flag, h.es, h.busy, h.sf, h.c1⟩⟩

@[simp] theorem State.sameRegisters_record_iff : (s.record i o).SameRegisters u ↔ s.SameRegisters u :=
  ⟨.of_record, fun h => ⟨h.value, h.tag⟩⟩

@[simp] theorem State.sameMemory_record_iff : (s.record i o).SameMemory u ↔ s.SameMemory u := .rfl

@[simp] theorem State.sameStatusBut_record_iff {l : List Nat} : (s.record i o).SameStatusBut u l ↔ s.SameStatusBut u l :=
  .rfl

@[simp] theorem State.record_c1 : (s.record i o).c1 = s.c1 := rfl

@[simp] theorem State.outcome_record_iff {r : Reply Written} : (s.record i o).Outcome u d b r ↔ s.Outcome u d b r := by
  unfold State.Outcome
  cases r.value <;> simp only [State.wrote_record_iff, State.popped_record_iff, State.signals_record_iff, State.record_c1]

@[simp] theorem State.pushed_retire_iff : s.Pushed (u.retire n e) x ↔ s.Pushed u x :=
  ⟨fun h => h.of_eq (u.retire_top n e).symm (fun k => (u.retire_reg n e k).symm) fun k => (u.retire_tag n e k).symm,
    .retire⟩

@[simp] theorem State.wrote_retire_iff : s.Wrote (u.retire n e) d b x ↔ s.Wrote u d b x :=
  ⟨fun h => h.of_eq (u.retire_top n e).symm (fun k => (u.retire_reg n e k).symm) fun k => (u.retire_tag n e k).symm,
    .retire⟩

@[simp] theorem State.popped_retire_iff : s.Popped (u.retire n e) k ↔ s.Popped u k :=
  ⟨fun h => h.of_eq (u.retire_top n e).symm (fun j => (u.retire_reg n e j).symm) fun j => (u.retire_tag n e j).symm,
    .retire⟩

@[simp] theorem State.wrotePair_retire_iff : s.WrotePair (u.retire n e) x y ↔ s.WrotePair u x y :=
  ⟨fun h => ⟨by simpa using h.top, by simpa using h.value, by simpa using h.tag⟩, .retire⟩

@[simp] theorem State.signals_retire_iff {l : List Exc} : s.Signals (u.retire n e) l b ↔ s.Signals u l b :=
  ⟨fun h => ⟨fun q => (u.retire_flag n e q).symm.trans (h.flag q), (u.retire_es n e).symm.trans h.es,
    (u.retire_busy n e).symm.trans h.busy, (u.retire_sf n e).symm.trans h.sf, (u.retire_c1 n e).symm.trans h.c1⟩, .retire⟩

@[simp] theorem State.stackFaulted_retire_iff : s.StackFaulted (u.retire n e) b ↔ s.StackFaulted u b :=
  ⟨fun h => ⟨fun q => (u.retire_flag n e q).symm.trans (h.flag q), (u.retire_es n e).symm.trans h.es,
    (u.retire_busy n e).symm.trans h.busy, (u.retire_sf n e).symm.trans h.sf, (u.retire_c1 n e).symm.trans h.c1⟩, .retire⟩

@[simp] theorem State.sameRegisters_retire_iff : s.SameRegisters (u.retire n e) ↔ s.SameRegisters u :=
  ⟨fun h => ⟨by simpa using h.value, by simpa using h.tag⟩, .retire⟩

@[simp] theorem State.sameMemory_retire_iff : s.SameMemory (u.retire n e) ↔ s.SameMemory u := by
  simp only [State.SameMemory, State.retire_mem]

@[simp] theorem State.sameStatusBut_retire_iff {l : List Nat} : s.SameStatusBut (u.retire n e) l ↔ s.SameStatusBut u l := by
  simp only [State.SameStatusBut, State.retire_sw]

@[simp] theorem State.outcome_retire_iff {r : Reply Written} : s.Outcome (u.retire n e) d b r ↔ s.Outcome u d b r := by
  unfold State.Outcome
  cases r.value <;> simp only [State.wrote_retire_iff, State.popped_retire_iff, State.signals_retire_iff]

@[simp] theorem State.record_codes : (s.record i o).codes = s.codes := rfl

@[simp] theorem State.record_pushFull : (s.record i o).pushFull = s.pushFull := rfl

@[simp] theorem State.record_phys (k : Idx) : (s.record i o).phys k = s.phys k := rfl

end

/-! ### Packed decimals -/

/-- The digits of a packed decimal make a number below `10^18`. -/
theorem decimalValue_lt {m : Nat} (h : DecimalDigits m) : decimalValue m < 10 ^ 18 :=
  (bcdValue_spec m 18 _ (bcdValue_sum m 18 h)).1

/-- A number of at most 64 bits is encoded exactly; a zero keeps the sign. -/
theorem enc80_natural (neg : Bool) {v : Nat} (hv : v < 2 ^ 64) : isFinite (enc80 neg v 0) = true ∧
    signOf (enc80 neg v 0) = neg ∧ |realOf (enc80 neg v 0)| = (v : ℚ) ∧
      (realOf (enc80 neg v 0) = 0 → enc80 neg v 0 = zero80 neg) := by
  have hsmall : (v : ℚ) < (2 : ℚ) ^ (64 : ℤ) := by exact_mod_cast hv
  have hlarge : (2 : ℚ) ^ (64 : ℤ) < (2 : ℚ) ^ (16384 : ℤ) := zpow_lt_zpow_right₀ one_lt_two (by decide)
  obtain ⟨hf, hs, hr⟩ := enc80_grid neg (q := 0) hv (by decide) (by simpa only [zpow_zero, mul_one] using hsmall.trans hlarge)
  rw [zpow_zero, mul_one] at hr
  refine ⟨hf, hs, hr, fun h0 => ?_⟩
  rw [h0, abs_zero] at hr
  obtain rfl : v = 0 := by exact_mod_cast hr.symm
  rfl

theorem fromBcd_digits {m : Nat} (h : DecimalDigits m) : ∃ x, fromBcd m = some x ∧ isFinite x = true ∧
    signOf x = m.testBit 79 ∧ |realOf x| = (decimalValue m : ℚ) ∧ (realOf x = 0 → x = zero80 (signOf x)) := by
  have hvalue : fromBcd m = some (enc80 (m.testBit 79) (decimalValue m) 0) := by
    rw [fromBcd, bcdValue_sum m 18 h]
    rfl
  obtain ⟨hf, hs, hr, h0⟩ := enc80_natural (m.testBit 79) ((decimalValue_lt h).trans (by norm_num))
  exact ⟨_, hvalue, hf, hs, hr, fun hz => by rw [hs, h0 hz]⟩

theorem fromBcd_no_digits {m : Nat} (h : ¬ DecimalDigits m) : fromBcd m = none := by
  have hex : ∃ k < 18, ¬ m / 16 ^ k % 16 ≤ 9 := by simpa [DecimalDigits] using h
  rw [fromBcd, bcdValue_none m 18 hex]
  rfl

/-- An integer operand is small enough for its conversion to be exact. -/
theorem natAbs_sint_le {n v : Nat} (hn : n ≤ 64) (hv : v < 2 ^ n) : (sint n v).natAbs ≤ 2 ^ 64 := by
  have hpow : (2 : Nat) ^ n ≤ 2 ^ 64 := Nat.pow_le_pow_right (by norm_num) hn
  have hcast : (2 : ℤ) ^ n = ((2 ^ n : Nat) : ℤ) := by push_cast; rfl
  rw [sint, hcast]
  generalize (2 : Nat) ^ n = N at *
  split <;> omega

/-! ### Loads -/

section
variable {s : State}

theorem loadValue_room (h : s.Room) (x : Ext) : s.Pushed (loadValue x s) x ∧ s.Signals (loadValue x s) [] false :=
  loadReplied_room h (.ok x)

/-- A load from memory of a value that raises no exception of its own. -/
theorem runMem_loadValue {f : State → Word32 → Ext} (i : Instr) (p : Prefixes) {m : AddrMode} {n : Nat} (hr : s.Ready)
    (hroom : s.Room) (ha : s.Allows (s.ea m) n)
    (hf : f (s.record i (some (s.operandPtr p m))) (s.ea m) = f s (s.ea m)) :
    ∃ t, runMem i p m n (fun a v => .ok (loadValue (f v a) v)) s = .next t ∧ s.Ran t i (some (s.operandPtr p m)) ∧
      s.Pushed t (f s (s.ea m)) ∧ s.Signals t [] false := by
  refine runMem_effect (f := fun a v => loadValue (f v a) v) hr ha (fun v => OnStack.loadValue _ v) ?_
  rw [hf]
  obtain ⟨hp, hs⟩ := loadValue_room (s := s.record i (some (s.operandPtr p m))) hroom (f s (s.ea m))
  exact ⟨by simpa using hp, by simpa using hs⟩

theorem exec_fldM80real (p : Prefixes) (m : AddrMode) (s : State) : exec (.fldM80real p m) s =
    runMem (.fldM80real p m) p m 10 (fun a v => .ok (loadValue (v.m80real a) v)) s := rfl

theorem exec_fbld (p : Prefixes) (m : AddrMode) (s : State) : exec (.fbld p m) s =
    runMem (.fbld p m) p m 10 (fun a v => .ok (loadValue (bcdOperand v a) v)) s := rfl

/-- The value of an integer operand of `n` bytes. -/
def loadedInt (n : Nat) (v : State) (a : Word32) : Ext := fromInt (sint (8 * n) (v.read a n))

theorem integerLoadRows_exec : ∀ row ∈ integerLoadRows, 8 * row.2 ≤ 64 ∧ ∀ (p : Prefixes) (m : AddrMode) (s : State),
    exec (row.1 p m) s = runMem (row.1 p m) p m row.2 (fun a v => .ok (loadValue (loadedInt row.2 v a) v)) s := by
  have h64 : ∀ (p : Prefixes) (m : AddrMode) (s : State), exec (.fildM64int p m) s =
      runMem (.fildM64int p m) p m 8 (fun a v => .ok (loadValue (loadedInt 8 v a) v)) s := by
    intro p m s
    show execFildM64int p m s = _
    simp only [execFildM64int, State.m64int, Operand.of, loadedInt, Nat.reduceMul]
  simp only [integerLoadRows, List.forall_mem_cons]
  exact ⟨⟨by decide, fun _ _ _ => rfl⟩, ⟨by decide, fun _ _ _ => rfl⟩, ⟨by decide, h64⟩, by simp⟩

/-- An integer operand as it is converted. -/
theorem fromInt_sint {n v : Nat} (hn : n ≤ 64) (hv : v < 2 ^ n) : isFinite (fromInt (sint n v)) = true ∧
    realOf (fromInt (sint n v)) = (sint n v : ℚ) ∧ (realOf (fromInt (sint n v)) = 0 → fromInt (sint n v) = zero80 false) := by
  obtain ⟨hf, hr, -⟩ := fromInt_spec (sint n v) (natAbs_sint_le hn hv)
  refine ⟨hf, hr, fun h0 => ?_⟩
  rw [hr] at h0
  rw [show sint n v = 0 by exact_mod_cast h0]
  rfl

theorem State.read_lt_bits (s : State) (a : Word32) (n : Nat) : s.read a n < 2 ^ (8 * n) := by
  rw [pow_mul]
  exact s.read_lt a n

theorem exec_fldSti_full {i : Idx} (p : Prefixes) (hr : s.Ready) (hroom : s.Room) (hi : s.Full i) :
    ∃ t, exec (.fldSti p i) s = .next t ∧ s.Ran t (.fldSti p i) none ∧ s.Pushed t (s.st i) ∧ s.Signals t [] false := by
  refine runReg_effect (f := loadStack i) hr (OnStack.loadStack i) ?_
  have hfull : (s.record (.fldSti p i) none).isEmpty i = false := hi
  rw [loadStack, if_neg (by simp [hfull])]
  obtain ⟨hp, hs⟩ := loadValue_room (s := s.record (.fldSti p i) none) hroom (s.st i)
  exact ⟨by simpa using hp, by simpa using hs⟩

end

/-- Settles O17: each operand is read, converted and pushed. -/
theorem exactLoadsPush : Obligations.ExactLoadsPush := by
  intro s p hr hroom
  refine ⟨fun m ha => runMem_loadValue (f := State.m80real) _ p hr hroom ha rfl,
    fun i hi => exec_fldSti_full p hr hroom hi, fun row hrow m ha => ?_, fun m ha => ?_⟩
  · obtain ⟨hn, hexec⟩ := integerLoadRows_exec row hrow
    obtain ⟨t, hnext, hran, hp, hs⟩ :=
      runMem_loadValue (f := loadedInt row.2) (row.1 p m) p hr hroom ha rfl
    exact ⟨t, _, (hexec p m s).trans hnext, hran, hp, hs, fromInt_sint hn (s.read_lt_bits _ _)⟩
  · obtain ⟨t, hnext, hran, hp, hs⟩ := runMem_loadValue (f := bcdOperand) (.fbld p m) p hr hroom ha rfl
    refine ⟨t, _, hnext, hran, hp, hs, fun hd => ?_⟩
    obtain ⟨x, hx, hrest⟩ := fromBcd_digits hd
    rw [bcdOperand, hx]
    exact hrest

/-! ### Loads of reals -/

section
variable {s : State}

theorem loadReply_snan {cw : Word16} {o : Operand} (h : classOf o.value = .snan) :
    loadReply cw o = ⟨[.i], if maskedIn cw .i = true then some (quiet o.value) else none⟩ := if_pos h

theorem loadReply_denormal {cw : Word16} {o : Operand} (h : classOf o.value ≠ .snan) (hd : o.wasDenormal = true) :
    loadReply cw o = ⟨[.d], if maskedIn cw .d = true then some o.value else none⟩ := by
  rw [loadReply, if_neg h, Reply.afterDenormal, if_pos hd]
  split <;> rfl

theorem loadReply_plain {cw : Word16} {o : Operand} (h : classOf o.value ≠ .snan) (hd : o.wasDenormal = false) :
    loadReply cw o = .ok o.value := by
  rw [loadReply, if_neg h, Reply.afterDenormal, hd]
  rfl

/-- A load whose operand's own exception has the masked response `x`. -/
theorem loadReplied_special {v : State} (h : v.Room) (y : Exc) (x : Ext) :
    if v.masked y = true then
      v.Pushed (loadReplied ⟨[y], if v.masked y = true then some x else none⟩ v) x ∧
        v.Signals (loadReplied ⟨[y], if v.masked y = true then some x else none⟩ v) [y] false
    else v.Popped (loadReplied ⟨[y], if v.masked y = true then some x else none⟩ v) 0 ∧
      v.Signals (loadReplied ⟨[y], if v.masked y = true then some x else none⟩ v) [y] v.c1 := by
  split
  · exact loadReplied_room h ⟨[y], some x⟩
  · exact loadReplied_room h ⟨[y], none⟩

theorem loadReal_effect {v : State} (h : v.Room) (o : Operand) :
    if classOf o.value = .snan then
      if v.masked .i = true then v.Pushed (loadReal o v) (quiet o.value) ∧ v.Signals (loadReal o v) [.i] false
      else v.Popped (loadReal o v) 0 ∧ v.Signals (loadReal o v) [.i] v.c1
    else if o.wasDenormal = true then
      if v.masked .d = true then v.Pushed (loadReal o v) o.value ∧ v.Signals (loadReal o v) [.d] false
      else v.Popped (loadReal o v) 0 ∧ v.Signals (loadReal o v) [.d] v.c1
    else v.Pushed (loadReal o v) o.value ∧ v.Signals (loadReal o v) [] false := by
  rw [loadReal]
  split
  next hsnan =>
    rw [loadReply_snan hsnan]
    exact loadReplied_special h .i _
  next hsnan =>
    split
    next hd =>
      rw [loadReply_denormal hsnan hd]
      exact loadReplied_special h .d _
    next hd =>
      rw [loadReply_plain hsnan (by simpa using hd)]
      exact loadValue_room h _

theorem realLoadRows_exec : ∀ row ∈ [(Instr.fldM32real, 4, single), (Instr.fldM64real, 8, double)],
    ∀ (p : Prefixes) (m : AddrMode) (s : State), exec (row.1 p m) s =
      runMem (row.1 p m) p m row.2.1 (fun a v => .ok (loadReal (fromReal row.2.2 (v.read a row.2.1)) v)) s := by
  simp only [List.forall_mem_cons]
  exact ⟨fun _ _ _ => rfl, fun _ _ _ => rfl, by simp⟩

end

/-- Settles O18: the operand is converted, and `loadReal` checks it before the push. -/
theorem realLoadsConvertAndCheck : Obligations.RealLoadsConvertAndCheck := by
  intro s p m row hrow hr hroom ha
  rw [realLoadRows_exec row hrow]
  refine runMem_effect (f := fun a v => loadReal (fromReal row.2.2 (v.read a row.2.1)) v) hr ha
    (fun v => OnStack.loadReal _ v) ?_
  have h := loadReal_effect (v := s.record (row.1 p m) (some (s.operandPtr p m))) hroom
    (fromReal row.2.2 (s.read (s.ea m) row.2.1))
  simpa using h

end Sys2Proof.Machine
end

section
/-! Constants, overflowing loads, register moves and stores (41_data_transfer.md, 42_load_constants.md). -/

namespace Sys2Proof.Machine

variable {s : State}

/-! ### Constants and overflowing loads -/

/-- A pushed value, or the stack overflow. -/
theorem loadValue_effect (s : State) (x : Ext) :
    if s.pushFull = false then s.Pushed (loadValue x s) x ∧ s.Signals (loadValue x s) [] false
    else if s.masked .i = true then s.Pushed (loadValue x s) indef80 ∧ s.StackFaulted (loadValue x s) true
    else s.Popped (loadValue x s) 0 ∧ s.StackFaulted (loadValue x s) true := by
  by_cases hfull : s.pushFull = false
  · rw [if_pos hfull]
    exact loadValue_room hfull x
  · rw [if_neg hfull]
    obtain ⟨hfault, hstack⟩ := loadReplied_full (by simpa using hfull) (.ok x)
    exact ite_map .rfl (fun h => ⟨h, hfault⟩) (fun h => ⟨h, hfault⟩) hstack

/-- What a load-constant instruction is: its encoding, its arm and its constant. -/
theorem constantRows_exec : ∀ row ∈ constantRows, encode (row.1 []) = [0xD9, row.2.1] ∧
    ∀ (s : State) (p : Prefixes),
      exec (row.1 p) s = runReg (row.1 p) (fun v => .ok (loadValue (row.2.2 (roundMode v.cw)) v)) s := by
  have hpi : constPi = fun rm =>
      if rm = .nearest ∨ rm = .up then 0x4000C90FDAA22168C235 else 0x4000C90FDAA22168C234 := by
    funext rm; cases rm <;> rfl
  have hl2t : constL2t = fun rm => if rm = .up then 0x4000D49A784BCD1B8AFF else 0x4000D49A784BCD1B8AFE := by
    funext rm; cases rm <;> rfl
  have hl2e : constL2e = fun rm =>
      if rm = .nearest ∨ rm = .up then 0x3FFFB8AA3B295C17F0BC else 0x3FFFB8AA3B295C17F0BB := by
    funext rm; cases rm <;> rfl
  have hlg2 : constLg2 = fun rm =>
      if rm = .nearest ∨ rm = .up then 0x3FFD9A209A84FBCFF799 else 0x3FFD9A209A84FBCFF798 := by
    funext rm; cases rm <;> rfl
  have hln2 : constLn2 = fun rm =>
      if rm = .nearest ∨ rm = .up then 0x3FFEB17217F7D1CF79AC else 0x3FFEB17217F7D1CF79AB := by
    funext rm; cases rm <;> rfl
  simp only [constantRows, List.forall_mem_cons, ← hpi, ← hl2t, ← hl2e, ← hlg2, ← hln2]
  exact ⟨⟨rfl, fun _ _ => rfl⟩, ⟨rfl, fun _ _ => rfl⟩, ⟨rfl, fun _ _ => rfl⟩, ⟨rfl, fun _ _ => rfl⟩,
    ⟨rfl, fun _ _ => rfl⟩, ⟨rfl, fun _ _ => rfl⟩, ⟨rfl, fun _ _ => rfl⟩, by simp⟩

/-- Settles O19: each row is a push of its constant, whose outcome `loadValue_effect` states. -/
theorem constantsArePushed : Obligations.ConstantsArePushed := by
  intro row hrow
  obtain ⟨hencode, hexec⟩ := constantRows_exec row hrow
  refine ⟨hencode, fun s p hr => ?_⟩
  rw [hexec]
  refine runReg_effect (f := fun v => loadValue (row.2.2 (roundMode v.cw)) v) hr (fun v => OnStack.loadValue _ v) ?_
  simpa using loadValue_effect (s.record (row.1 p) none) (row.2.2 (roundMode s.cw))

/-- Every load from memory answers something, which a full register makes a stack overflow. -/
theorem memoryLoadRows_exec : ∀ row ∈ [(Instr.fldM32real, 4), (Instr.fldM64real, 8), (Instr.fldM80real, 10),
    (Instr.fildM16int, 2), (Instr.fildM32int, 4), (Instr.fildM64int, 8), (Instr.fbld, 10)],
    ∃ r : State → Word32 → Reply Ext, ∀ (p : Prefixes) (m : AddrMode) (s : State),
      exec (row.1 p m) s = runMem (row.1 p m) p m row.2 (fun a v => .ok (loadReplied (r v a) v)) s := by
  simp only [List.forall_mem_cons]
  exact ⟨⟨fun v a => loadReply v.cw (v.m32real a), fun _ _ _ => rfl⟩,
    ⟨fun v a => loadReply v.cw (v.m64real a), fun _ _ _ => rfl⟩, ⟨fun v a => .ok (v.m80real a), fun _ _ _ => rfl⟩,
    ⟨fun v a => .ok (v.m16int a).value, fun _ _ _ => rfl⟩, ⟨fun v a => .ok (v.m32int a).value, fun _ _ _ => rfl⟩,
    ⟨fun v a => .ok (v.m64int a).value, fun _ _ _ => rfl⟩, ⟨fun v a => .ok (bcdOperand v a), fun _ _ _ => rfl⟩, by simp⟩

/-- Settles O20: every load answers something, and `loadReplied_full` is the overflow whatever that is. -/
theorem loadOverflowsFullStack : Obligations.LoadOverflowsFullStack := by
  intro s p m row hrow hr hfull ha
  obtain ⟨r, hexec⟩ := memoryLoadRows_exec row hrow
  rw [hexec]
  refine runMem_effect (f := fun a v => loadReplied (r v a) v) hr ha (fun v => OnStack.loadReplied _ v) ?_
  simpa using loadReplied_full (s := s.record (row.1 p m) (some (s.operandPtr p m))) hfull (r _ (s.ea m))

/-! ### Register moves -/

theorem storeStack_effect (i : Idx) (pop : Bool) (s : State) :
    if s.isEmpty 0 = true then
      s.StackFaulted (storeStack i pop s) false ∧
        if s.masked .i = true then s.Wrote (storeStack i pop s) i pop indef80 else s.Popped (storeStack i pop s) 0
    else s.Wrote (storeStack i pop s) i pop (s.st 0) ∧ s.Signals (storeStack i pop s) [] false := by
  split
  next h => exact storeStack_empty i pop h
  next h => exact storeStack_full i pop (by simpa [State.Full] using h)

theorem loadStack_faults {i : Idx} (h : s.isEmpty i = true ∨ s.pushFull = true) :
    s.StackFaulted (loadStack i s) (!s.isEmpty i) ∧
      if s.masked .i = true then s.Pushed (loadStack i s) indef80 else s.Popped (loadStack i s) 0 := by
  cases hi : s.isEmpty i with
  | true =>
    rw [loadStack, if_pos hi]
    exact pushFault s false
  | false =>
    rw [loadStack, if_neg (by simp [hi])]
    exact loadReplied_full (by simpa [hi] using h) (.ok (s.st i))

theorem moveIf_effect (c : Bool) (i : Idx) (s : State) :
    if s.isEmpty 0 = true ∨ s.isEmpty i = true then
      s.StackFaulted (moveIf c i s) false ∧
        if s.masked .i = true then s.Wrote (moveIf c i s) 0 false indef80 else s.Popped (moveIf c i s) 0
    else s.Signals (moveIf c i s) [] false ∧
      if c = true then s.Wrote (moveIf c i s) 0 false (s.st i) else s.Popped (moveIf c i s) 0 := by
  split
  next h => exact moveIf_empty c i h
  next h =>
    obtain ⟨h0, hi⟩ := not_or.mp h
    exact moveIf_full c i (by simpa [State.Full] using h0) (by simpa [State.Full] using hi)

/-- Settles O21: each of the four copies through its operation on the stack, by whether its registers are empty. -/
theorem registerCopiesAndExchange : Obligations.RegisterCopiesAndExchange := by
  intro s p i hr
  have hcopy : ∀ row ∈ [(Instr.fstSti p i, false), (Instr.fstpSti p i, true)],
      exec row.1 s = runReg row.1 (fun v => .ok (storeStack i row.2 v)) s := by
    simp only [List.forall_mem_cons]
    exact ⟨rfl, rfl, by simp⟩
  refine ⟨fun row hrow => ?_, fun h0 hi => ?_, fun hempty => ?_, fun hfault => ?_⟩
  · rw [hcopy row hrow]
    refine runReg_effect (f := storeStack i row.2) hr (OnStack.storeStack i row.2) ?_
    simpa using storeStack_effect i row.2 (s.record row.1 none)
  · refine runReg_effect (f := exchangeTop i) hr (OnStack.exchangeTop i) ?_
    obtain ⟨hsignals, htop, hstack⟩ := exchangeTop_full (s := s.record (.fxch p i) none) i h0 hi
    exact ⟨by simpa using hsignals, by simpa using htop,
      by simp only [State.retire_reg, State.retire_tag]; exact hstack⟩
  · refine runReg_effect (f := exchangeTop i) hr (OnStack.exchangeTop i) ?_
    obtain ⟨hfault, htop, hstack⟩ := exchangeTop_empty (s := s.record (.fxch p i) none) i hempty
    refine ⟨by simpa using hfault, ite_map .rfl (fun h => ⟨_, _, rfl, rfl, ?_, ?_⟩) (fun h => ?_) hstack⟩
    · simpa using htop
    · simp only [State.retire_reg, State.retire_tag]
      exact h
    · simpa using h
  · refine runReg_effect (f := loadStack i) hr (OnStack.loadStack i) ?_
    simpa using loadStack_faults (s := s.record (.fldSti p i) none) hfault

theorem moveRows_exec : ∀ row ∈ moveRows, (∀ (s : State) (i : Instr) (o : Option FarPtr), row.2 (s.record i o) = row.2 s) ∧
    ∀ (s : State) (p : Prefixes) (i : Idx), exec (row.1 p i) s =
      ifPresent s.params.hasFcmov (runReg (row.1 p i) (fun v => .ok (moveIf (row.2 v) i v)) s) := by
  simp only [moveRows, List.forall_mem_cons]
  refine ⟨⟨fun _ _ _ => rfl, fun _ _ _ => rfl⟩, ⟨fun _ _ _ => rfl, fun _ _ _ => rfl⟩,
    ⟨fun _ _ _ => rfl, fun _ _ _ => rfl⟩, ⟨fun _ _ _ => rfl, fun _ _ _ => rfl⟩,
    ⟨fun _ _ _ => rfl, fun _ _ _ => rfl⟩, ⟨fun _ _ _ => rfl, fun s p i => ?_⟩,
    ⟨fun _ _ _ => rfl, fun _ _ _ => rfl⟩, ⟨fun _ _ _ => rfl, fun _ _ _ => rfl⟩, by simp⟩
  simp only [Bool.not_or]
  rfl

/-- Settles O22: each row is `moveIf` of its condition, which reads flags that recording the instruction does not change. -/
theorem conditionalMoves : Obligations.ConditionalMoves := by
  intro row hrow s p i
  obtain ⟨hrecord, hexec⟩ := moveRows_exec row hrow
  rw [hexec]
  refine ⟨fun habsent => by rw [habsent]; rfl, fun hpresent hr => ?_⟩
  rw [hpresent]
  refine runReg_effect (f := fun v => moveIf (row.2 v) i v) hr (fun v => OnStack.moveIf _ i v) ?_
  have h := moveIf_effect (row.2 (s.record (row.1 p i) none)) i (s.record (row.1 p i) none)
  rw [hrecord] at h ⊢
  simpa using h

/-! ### Stores -/

/-- With every exception masked a conversion to memory always stores. -/
theorem storeFinite_stores {cw : Word16} (h : ∀ x, maskedIn cw x = true) (f : RealFormat) (v : Exact) :
    ∃ n c, (storeFinite cw f v).action = .store n c := by
  unfold storeFinite
  simp only [h, if_true]
  split
  · exact ⟨_, _, rfl⟩
  · split
    · split <;> exact ⟨_, _, rfl⟩
    · exact ⟨_, _, rfl⟩

theorem storeReal_stores {cw : Word16} (h : ∀ x, maskedIn cw x = true) (d : Bool) (f : RealFormat) (x : Ext) :
    ∃ n c, (storeReal cw d f x).action = .store n c := by
  have hfinite := storeFinite_stores h f (valOf x)
  unfold storeReal StoreReply.invalid
  simp only [h, if_true]
  cases classOf x with
  | normal => exact hfinite
  | denormal | pseudoDenormal => cases d <;> exact hfinite
  | zero | infinity | qnan | snan | unsupported => exact ⟨_, _, rfl⟩

theorem StoreReply.invalid_stores {cw : Word16} (h : ∀ x, maskedIn cw x = true) (n : Nat) :
    ∃ v c, (StoreReply.invalid cw n).action = .store v c := by
  rw [StoreReply.invalid, h]
  exact ⟨_, _, rfl⟩

/-- The conversion to an integer of a finite value, and of anything else (40_numerics.md R228). -/
theorem storeInt_eq (cw : Word16) (n : Nat) (x : Ext) :
    storeInt cw n x =
      if isFinite x = true then storeIntFinite cw n (valOf x) else .invalid cw (intIndefinite n) := by
  unfold storeInt isFinite
  cases classOf x <;> rfl

/-- The conversion to packed decimal of a finite value, and of anything else (40_numerics.md R230). -/
theorem storeBcd_eq (cw : Word16) (low : BitVec 64) (x : Ext) :
    storeBcd cw low x =
      if isFinite x = true then storeBcdFinite cw low (valOf x) else .invalid cw (bcdIndefinite low) := by
  unfold storeBcd isFinite
  cases classOf x <;> rfl

theorem storeInt_stores {cw : Word16} (h : ∀ x, maskedIn cw x = true) (n : Nat) (x : Ext) :
    ∃ v c, (storeInt cw n x).action = .store v c := by
  rw [storeInt_eq, storeIntFinite]
  split
  · by_cases hlimit : (if (valOf x).neg then 2 ^ (n - 1) else 2 ^ (n - 1) - 1) < (roundInt (roundMode cw) (valOf x)).mant
    · rw [if_pos hlimit]
      exact StoreReply.invalid_stores h _
    · rw [if_neg hlimit]
      exact ⟨_, _, rfl⟩
  · exact StoreReply.invalid_stores h _

theorem storeBcd_stores {cw : Word16} (h : ∀ x, maskedIn cw x = true) (low : BitVec 64) (x : Ext) :
    ∃ v c, (storeBcd cw low x).action = .store v c := by
  rw [storeBcd_eq, storeBcdFinite]
  split
  · by_cases hlimit : 10 ^ 18 - 1 < (roundInt (roundMode cw) (valOf x)).mant
    · rw [if_pos hlimit]
      exact StoreReply.invalid_stores h _
    · rw [if_neg hlimit]
      exact ⟨_, _, rfl⟩
  · exact StoreReply.invalid_stores h _

/-- What a store of ST(0) to memory is: its arm, and what its conversion depends on. -/
structure StoreRow.Describes (row : StoreRow) : Prop where
  bytes : row.bytes ≤ 2 ^ 32
  run : ∀ (p : Prefixes) (m : AddrMode) (s : State), exec (row.make p m) s = runMem (row.make p m) p m row.bytes
    (fun a v => .ok (storeTop a row.bytes row.pop (row.indefinite v) (row.convert v) v)) s
  convert : ∀ (s : State) (i : Instr) (o : Option FarPtr), row.convert (s.record i o) = row.convert s
  indefinite : ∀ (s : State) (i : Instr) (o : Option FarPtr), row.indefinite (s.record i o) = row.indefinite s
  stores : ∀ s : State, s.AllMasked → ∀ x, ∃ v c, (row.convert s x).action = .store v c

theorem storeRows_describe : ∀ row ∈ storeRows, row.Describes := by
  simp only [storeRows, List.forall_mem_cons]
  have hreal : ∀ (f : RealFormat) (s : State), s.AllMasked → ∀ x,
      ∃ v c, (storeReal s.cw s.params.fstSignalsD f x).action = .store v c := fun f _ h => storeReal_stores h _ f
  have hint : ∀ (n : Nat) (s : State), s.AllMasked → ∀ x, ∃ v c, (storeInt s.cw n x).action = .store v c :=
    fun n _ h => storeInt_stores h n
  exact ⟨⟨by decide, fun _ _ _ => rfl, fun _ _ _ => rfl, fun _ _ _ => rfl, hreal single⟩,
    ⟨by decide, fun _ _ _ => rfl, fun _ _ _ => rfl, fun _ _ _ => rfl, hreal double⟩,
    ⟨by decide, fun _ _ _ => rfl, fun _ _ _ => rfl, fun _ _ _ => rfl, hreal single⟩,
    ⟨by decide, fun _ _ _ => rfl, fun _ _ _ => rfl, fun _ _ _ => rfl, hreal double⟩,
    ⟨by decide, fun _ _ _ => rfl, fun _ _ _ => rfl, fun _ _ _ => rfl, fun _ _ _ => ⟨_, _, rfl⟩⟩,
    ⟨by decide, fun _ _ _ => rfl, fun _ _ _ => rfl, fun _ _ _ => rfl, hint 16⟩,
    ⟨by decide, fun _ _ _ => rfl, fun _ _ _ => rfl, fun _ _ _ => rfl, hint 32⟩,
    ⟨by decide, fun _ _ _ => rfl, fun _ _ _ => rfl, fun _ _ _ => rfl, hint 16⟩,
    ⟨by decide, fun _ _ _ => rfl, fun _ _ _ => rfl, fun _ _ _ => rfl, hint 32⟩,
    ⟨by decide, fun _ _ _ => rfl, fun _ _ _ => rfl, fun _ _ _ => rfl, hint 64⟩,
    ⟨by decide, fun _ _ _ => rfl, fun _ _ _ => rfl, fun _ _ _ => rfl, fun _ h => storeBcd_stores h _⟩, by simp⟩

/-- A store that the wait check and the host let execute. -/
theorem StoreRow.Describes.next {row : StoreRow} (h : row.Describes) {p : Prefixes} {m : AddrMode} (hr : s.Ready)
    (ha : s.Allows (s.ea m) row.bytes) {P : State → Prop}
    (hm : (s.record (row.make p m) (some (s.operandPtr p m))).SameMemoryBut
      (storeTop (s.ea m) row.bytes row.pop (row.indefinite s) (row.convert s)
        (s.record (row.make p m) (some (s.operandPtr p m)))) (s.ea m) row.bytes)
    (hp : P ((storeTop (s.ea m) row.bytes row.pop (row.indefinite s) (row.convert s)
        (s.record (row.make p m) (some (s.operandPtr p m)))).retire (row.make p m).length s.es)) :
    ∃ t, exec (row.make p m) s = .next t ∧
      s.RanStoring t (row.make p m) (s.operandPtr p m) (s.ea m) row.bytes ∧ P t := by
  refine ⟨_, ?_, (storeTop_beyond (s.ea m) row.bytes row.pop (row.indefinite s) (row.convert s) _).ranStoring hm, hp⟩
  rw [h.run]
  refine runMem_next hr ha ?_
  rw [h.convert, h.indefinite]

/-- Settles O23: each row is described by its conversion (`storeRows_describe`), whose action `storeReplied_effect` carries
out. -/
theorem storesWriteTheirOperand : Obligations.StoresWriteTheirOperand := by
  intro row hrow s p m hr hfull ha
  have hd := storeRows_describe row hrow
  have hstored := storeReplied_effect (s.ea m) hd.bytes row.pop (row.convert s (s.st 0))
    (s.record (row.make p m) (some (s.operandPtr p m)))
  refine hd.next hr ha ?_ ?_
  all_goals rw [storeTop_full _ _ _ _ _ (s := s.record (row.make p m) (some (s.operandPtr p m))) hfull, State.record_st]
  · exact hstored.1
  · refine ⟨fun h => hd.stores s h _, ?_⟩
    cases hact : (row.convert s (s.st 0)).action
    all_goals
      simp only [hact] at hstored ⊢
      simpa using hstored.2

/-- Settles O24: an empty ST(0) is found before the conversion. -/
theorem storeOfEmptyTopUnderflows : Obligations.StoreOfEmptyTopUnderflows := by
  intro row hrow s p m hr hempty ha
  have hd := storeRows_describe row hrow
  obtain ⟨hmemory, hfault, hstack⟩ := storeTop_empty (s.ea m) hd.bytes row.pop (row.indefinite s) (row.convert s)
    (s := s.record (row.make p m) (some (s.operandPtr p m))) hempty
  exact hd.next hr ha hmemory ⟨by simpa using hfault, by simpa using hstack⟩

end Sys2Proof.Machine
end

section
/-! The comparisons and FXAM (44_comparison.md). -/

namespace Sys2Proof.Machine

/-! ### What a comparison answers -/

section
variable {cw : Word16} {quiet testD : Bool} {a b : Operand}

theorem compareInvalid_iff (quiet : Bool) (a b : Ext) : compareInvalid quiet a b = true ↔
    (classOf a = .unsupported ∨ classOf b = .unsupported) ∨ (classOf a = .snan ∨ classOf b = .snan) ∨
      (quiet = false ∧ (classOf a = .qnan ∨ classOf b = .qnan)) := by
  simp only [compareInvalid, Bool.or_eq_true, Bool.and_eq_true, beq_iff_eq, Bool.not_eq_true']
  tauto

theorem compareInvalid_ordered (ha : isOrdered a.value = true) (hb : isOrdered b.value = true) :
    ¬ compareInvalid quiet a.value b.value = true := by
  obtain ⟨ha1, ha2, ha3⟩ := isOrdered_classes ha
  obtain ⟨hb1, hb2, hb3⟩ := isOrdered_classes hb
  simp [compareInvalid_iff, ha1, ha2, ha3, hb1, hb2, hb3]

theorem isOrdered_qnan {x : Ext} (h : classOf x = .qnan) : isOrdered x = false := by simp [isOrdered, isNaN, h]

/-- A comparison of two ordered operands goes to the denormal test. -/
theorem compare_ordered (ha : isOrdered a.value = true) (hb : isOrdered b.value = true) :
    compare cw quiet testD a b =
      .afterDenormal cw (testD && (a.denormal || b.denormal)) (.ok (compareExt a.value b.value)) := by
  have hrel : compareExt a.value b.value ≠ .unordered := by simp [compareExt_unordered_iff, ha, hb]
  rw [compare, if_neg (compareInvalid_ordered ha hb), if_neg hrel]

theorem compareAnswers (cw : Word16) (quiet testD : Bool) (a b : Operand) : CompareAnswers cw quiet testD a b where
  invalid h := by
    rw [compare, if_pos ((compareInvalid_iff _ _ _).mpr h)]
    rfl
  unordered hq ha hb ha' hb' hnan := by
    have hvalid : ¬ compareInvalid quiet a.value b.value = true := by
      simp [compareInvalid_iff, hq, ha, hb, ha', hb']
    have hrel : compareExt a.value b.value = .unordered :=
      (compareExt_unordered_iff _ _).mpr (hnan.imp isOrdered_qnan isOrdered_qnan)
    rw [compare, if_neg hvalid, if_pos hrel]
    rfl
  denormal ha hb ht hd := by
    have hdenormal : (testD && (a.denormal || b.denormal)) = true := by simpa [ht] using hd
    rw [compare_ordered ha hb, Reply.afterDenormal, if_pos hdenormal]
    split <;> rfl
  ordered ha hb hd := by
    have hdenormal : ¬ (testD && (a.denormal || b.denormal)) = true := by
      rcases hd with ht | ⟨ha', hb'⟩
      · simp [ht]
      · simp [ha', hb']
    rw [compare_ordered ha hb, Reply.afterDenormal, if_neg hdenormal]
    rfl

/-- With every exception masked a comparison always answers a relation. -/
theorem compare_isSome (h : ∀ x, maskedIn cw x = true) : (compare cw quiet testD a b).value.isSome = true := by
  unfold compare Reply.pre Reply.afterDenormal
  simp only [h, if_true]
  repeat' split
  all_goals rfl

end

/-! ### Comparisons into the condition codes -/

/-- The relation of ST(0) and `b` stands in the condition codes, or an unmasked exception left them and the stack as they
were (44_comparison.md R383). -/
def State.Compared (s t : State) (quiet : Bool) (b : Operand) (n : Nat) : Prop :=
  match (compare s.cw quiet true (.of (s.st 0)) b).value with
  | some r => t.codes = r.codes ∧ s.Popped t n ∧ s.Signals t (compare s.cw quiet true (.of (s.st 0)) b).flags false
  | none => t.codes = s.codes ∧ s.Popped t 0 ∧ s.Signals t (compare s.cw quiet true (.of (s.st 0)) b).flags s.c1

/-- The stack underflow of a comparison into the condition codes (44_comparison.md R383 step 1). -/
def State.ComparedEmpty (s t : State) (n : Nat) : Prop :=
  s.StackFaulted t false ∧
    if s.masked .i = true then t.codes = (true, true, true) ∧ s.Popped t n else t.codes = s.codes ∧ s.Popped t 0

section
variable {s u : State} {i : Instr} {p : Prefixes} {m : AddrMode} {o : Option FarPtr} {quiet e : Bool} {b : Operand}
  {n l : Nat}

theorem State.Compared.executed (h : (s.record i o).Compared u quiet b n) : s.Compared (u.retire l e) quiet b n := by
  unfold State.Compared at h ⊢
  rw [State.record_cw, State.record_st] at h
  cases hv : (compare s.cw quiet true (.of (s.st 0)) b).value
  all_goals
    simp only [hv] at h ⊢
    simpa using h

theorem State.ComparedEmpty.executed (h : (s.record i o).ComparedEmpty u n) : s.ComparedEmpty (u.retire l e) n := by
  simpa [State.ComparedEmpty] using h

/-- A register form that compares ST(0) with ST(j). -/
theorem compareStack_compared {j : Idx}
    (hexec : exec i s = runReg i (fun v => .ok (compareStack .codes quiet true n j v)) s) (hn : n ≤ 2) (hr : s.Ready)
    (h0 : s.Full 0) (hj : s.Full j) :
    ∃ t, exec i s = .next t ∧ s.Ran t i none ∧ s.Compared t quiet (.of (s.st j)) n := by
  rw [hexec]
  refine runReg_effect hr (fun v => OnStack.compareCodes _ _ _ _ _ _ v) (State.Compared.executed (i := i) (o := none) ?_)
  rw [compareStack, State.record_isEmpty, State.record_isEmpty, show s.isEmpty 0 = false from h0,
    show s.isEmpty j = false from hj]
  exact compareInto_codes quiet true hn _ _ _

theorem compareStack_empty {j : Idx}
    (hexec : exec i s = runReg i (fun v => .ok (compareStack .codes quiet true n j v)) s) (hn : n ≤ 2) (hr : s.Ready)
    (hempty : (s.isEmpty 0 || s.isEmpty j) = true) :
    ∃ t, exec i s = .next t ∧ s.Ran t i none ∧ s.ComparedEmpty t n := by
  rw [hexec]
  refine runReg_effect hr (fun v => OnStack.compareCodes _ _ _ _ _ _ v)
    (State.ComparedEmpty.executed (i := i) (o := none) ?_)
  rw [compareStack, State.record_isEmpty, State.record_isEmpty, hempty]
  exact compareInto_codes_empty quiet true hn _ _ _

/-- A memory form that compares ST(0) with its operand. -/
theorem compareMem_compared {operand : State → Word32 → Operand} {k : Nat}
    (hexec : exec i s = runMem i p m k (fun a v => .ok (compareTop n (operand v a) v)) s)
    (hop : operand (s.record i (some (s.operandPtr p m))) (s.ea m) = operand s (s.ea m)) (hn : n ≤ 2) (hr : s.Ready)
    (ha : s.Allows (s.ea m) k) (h0 : s.Full 0) :
    ∃ t, exec i s = .next t ∧ s.Ran t i (some (s.operandPtr p m)) ∧ s.Compared t false (operand s (s.ea m)) n := by
  rw [hexec]
  refine runMem_effect (f := fun a v => compareTop n (operand v a) v) hr ha (fun v => OnStack.compareCodes _ _ _ _ _ _ v)
    (State.Compared.executed (i := i) (o := some (s.operandPtr p m)) ?_)
  rw [compareTop, State.record_isEmpty, show s.isEmpty 0 = false from h0, hop]
  exact compareInto_codes false true hn _ _ _

theorem compareMem_empty {operand : State → Word32 → Operand} {k : Nat}
    (hexec : exec i s = runMem i p m k (fun a v => .ok (compareTop n (operand v a) v)) s) (hn : n ≤ 2) (hr : s.Ready)
    (ha : s.Allows (s.ea m) k) (hempty : s.isEmpty 0 = true) :
    ∃ t, exec i s = .next t ∧ s.Ran t i (some (s.operandPtr p m)) ∧ s.ComparedEmpty t n := by
  rw [hexec]
  refine runMem_effect (f := fun a v => compareTop n (operand v a) v) hr ha (fun v => OnStack.compareCodes _ _ _ _ _ _ v)
    (State.ComparedEmpty.executed (i := i) (o := some (s.operandPtr p m)) ?_)
  rw [compareTop, State.record_isEmpty, hempty]
  exact compareInto_codes_empty false true hn _ _ _

/-- FTST compares ST(0) with zero. -/
theorem ftst_compared (p : Prefixes) (hr : s.Ready) (h0 : s.Full 0) :
    ∃ t, exec (.ftst p) s = .next t ∧ s.Ran t (.ftst p) none ∧ s.Compared t false (.of (zero80 false)) 0 := by
  refine runReg_effect (f := fun v => compareTop 0 (.of (zero80 false)) v) hr
    (fun v => OnStack.compareCodes _ _ _ _ _ _ v) (State.Compared.executed (i := .ftst p) (o := none) ?_)
  rw [compareTop, State.record_isEmpty, show s.isEmpty 0 = false from h0]
  exact compareInto_codes false true (by decide) _ _ _

theorem ftst_empty (p : Prefixes) (hr : s.Ready) (hempty : s.isEmpty 0 = true) :
    ∃ t, exec (.ftst p) s = .next t ∧ s.Ran t (.ftst p) none ∧ s.ComparedEmpty t 0 := by
  refine runReg_effect (f := fun v => compareTop 0 (.of (zero80 false)) v) hr
    (fun v => OnStack.compareCodes _ _ _ _ _ _ v) (State.ComparedEmpty.executed (i := .ftst p) (o := none) ?_)
  rw [compareTop, State.record_isEmpty, hempty]
  exact compareInto_codes_empty false true (by decide) _ _ _

end

theorem compareRows_exec : ∀ row ∈ compareRows, row.2.2 ≤ 2 ∧ ∀ (p : Prefixes) (i : Idx) (s : State),
    exec (row.1 p i) s = runReg (row.1 p i) (fun v => .ok (compareStack .codes row.2.1 true row.2.2 i v)) s := by
  simp only [compareRows, List.forall_mem_cons]
  exact ⟨⟨by decide, fun _ _ _ => rfl⟩, ⟨by decide, fun _ _ _ => rfl⟩, ⟨by decide, fun _ _ _ => rfl⟩,
    ⟨by decide, fun _ _ _ => rfl⟩, by simp⟩

theorem comparePopRows_exec : ∀ row ∈ comparePopRows, ∀ (p : Prefixes) (s : State),
    exec (row.1 p) s = runReg (row.1 p) (fun v => .ok (compareStack .codes row.2 true 2 1 v)) s := by
  simp only [comparePopRows, List.forall_mem_cons]
  exact ⟨fun _ _ => rfl, fun _ _ => rfl, by simp⟩

theorem compareMemRows_exec : ∀ row ∈ compareMemRows, row.2.2.2 ≤ 2 ∧
    (∀ (s : State) (i : Instr) (o : Option FarPtr) (a : Word32), row.2.2.1 (s.record i o) a = row.2.2.1 s a) ∧
    ∀ (p : Prefixes) (m : AddrMode) (s : State), exec (row.1 p m) s =
      runMem (row.1 p m) p m row.2.1 (fun a v => .ok (compareTop row.2.2.2 (row.2.2.1 v a) v)) s := by
  simp only [compareMemRows, List.forall_mem_cons]
  exact ⟨⟨by decide, fun _ _ _ _ => rfl, fun _ _ _ => rfl⟩, ⟨by decide, fun _ _ _ _ => rfl, fun _ _ _ => rfl⟩,
    ⟨by decide, fun _ _ _ _ => rfl, fun _ _ _ => rfl⟩, ⟨by decide, fun _ _ _ _ => rfl, fun _ _ _ => rfl⟩,
    ⟨by decide, fun _ _ _ _ => rfl, fun _ _ _ => rfl⟩, ⟨by decide, fun _ _ _ _ => rfl, fun _ _ _ => rfl⟩,
    ⟨by decide, fun _ _ _ _ => rfl, fun _ _ _ => rfl⟩, ⟨by decide, fun _ _ _ _ => rfl, fun _ _ _ => rfl⟩, by simp⟩

/-- Settles O41: each form compares ST(0) with its operand into the condition codes. -/
theorem comparisonsSetConditionCodes : Obligations.ComparisonsSetConditionCodes := by
  intro s p i m hr h0 x hx hfull
  have answered : ∀ {t : State} {j : Instr} {q : Option FarPtr} {quiet : Bool} {b : Operand} {n : Nat},
      exec j s = .next t ∧ s.Ran t j q ∧ s.Compared t quiet b n →
      exec j s = .next t ∧ s.Ran t j q ∧ CompareAnswers s.cw quiet true (.of (s.st 0)) b ∧
        (s.AllMasked → (compare s.cw quiet true (.of (s.st 0)) b).value.isSome = true) ∧ s.Compared t quiet b n :=
    fun ⟨hnext, hran, h⟩ => ⟨hnext, hran, compareAnswers _ _ _ _ _, compare_isSome, h⟩
  simp only [List.mem_append, List.mem_map, List.mem_singleton] at hx
  rcases hx with ((⟨row, hrow, rfl⟩ | ⟨row, hrow, rfl⟩) | ⟨row, hrow, rfl⟩) | rfl
  · obtain ⟨hn, hexec⟩ := compareRows_exec row hrow
    exact (compareStack_compared (hexec p i s) hn hr h0 hfull).imp fun _ => answered
  · exact (compareStack_compared (comparePopRows_exec row hrow p s) (by decide) hr h0 hfull).imp fun _ => answered
  · obtain ⟨hn, hop, hexec⟩ := compareMemRows_exec row hrow
    exact (compareMem_compared (hexec p m s) (hop _ _ _ _) hn hr hfull h0).imp fun _ => answered
  · exact (ftst_compared p hr h0).imp fun _ => answered

/-! ### Comparisons into EFLAGS -/

/-- What a comparison into EFLAGS leaves of the state: ZF, PF and CF are the host's only change. -/
structure State.RanFlags (s t : State) (i : Instr) : Prop where
  memory : s.SameMemory t
  control : t.cw = s.cw
  pointers : s.Recorded t i none
  pc : s.PastInstr t i
  gprs : t.gprs = s.gprs
  segs : t.segs = s.segs

section
variable {s u : State} {i : Instr}

theorem FlagsOnly.ran (h : FlagsOnly (s.record i none) u) : s.RanFlags (u.retire i.length s.es) i where
  memory a := by
    rw [State.retire_mem, show u.mem = s.mem from (congrArg State.mem h.beyond :)]
  control := by
    rw [State.retire_cw, show u.cw = s.cw from (congrArg State.cw h.beyond :)]
  pointers := ⟨by rw [State.retire_fip, show u.fip = s.pc from (congrArg State.fip h.beyond :)],
    by rw [State.retire_fop, show u.fop = i.fop from (congrArg State.fop h.beyond :)], fun _ e => by cases e⟩
  pc := by
    rw [State.PastInstr, State.retire_eip, show u.eip = s.eip from (congrArg State.eip h.beyond :)]
  gprs := by
    rw [State.retire_gprs, show u.gprs = s.gprs from (congrArg State.gprs h.beyond :)]
  segs := by
    rw [State.retire_segs, show u.segs = s.segs from (congrArg State.segs h.beyond :)]

end

theorem compareFlagRows_exec : ∀ row ∈ compareFlagRows, row.2.2 ≤ 2 ∧ ∀ (p : Prefixes) (i : Idx) (s : State),
    exec (row.1 p i) s = ifPresent s.params.hasFcomi
      (runReg (row.1 p i) (fun v => .ok (compareStack .eflags row.2.1 false row.2.2 i v)) s) := by
  simp only [compareFlagRows, List.forall_mem_cons]
  exact ⟨⟨by decide, fun _ _ _ => rfl⟩, ⟨by decide, fun _ _ _ => rfl⟩, ⟨by decide, fun _ _ _ => rfl⟩,
    ⟨by decide, fun _ _ _ => rfl⟩, by simp⟩

@[simp] theorem State.record_zf (s : State) (i : Instr) (o : Option FarPtr) : (s.record i o).zf = s.zf := rfl
@[simp] theorem State.record_pf (s : State) (i : Instr) (o : Option FarPtr) : (s.record i o).pf = s.pf := rfl
@[simp] theorem State.record_cf (s : State) (i : Instr) (o : Option FarPtr) : (s.record i o).cf = s.cf := rfl

/-- A present comparison into EFLAGS that its wait check lets execute. -/
theorem compareFlags_next {s : State} {p : Prefixes} {i : Idx} {P : State → Prop}
    {row : (Prefixes → Idx → Instr) × Bool × Nat} (hrow : row ∈ compareFlagRows) (hpresent : s.params.hasFcomi = true)
    (hr : s.Ready)
    (hp : P ((compareStack .eflags row.2.1 false row.2.2 i (s.record (row.1 p i) none)).retire (row.1 p i).length s.es)) :
    ∃ t, exec (row.1 p i) s = .next t ∧ s.RanFlags t (row.1 p i) ∧ P t := by
  have hnext : runReg (row.1 p i) (fun v => .ok (compareStack .eflags row.2.1 false row.2.2 i v)) s = .next
      ((compareStack .eflags row.2.1 false row.2.2 i (s.record (row.1 p i) none)).retire (row.1 p i).length s.es) :=
    runReg_next hr rfl
  refine ⟨_, ?_, (flagsOnly_compare row.2.1 false row.2.2 i _).ran, hp⟩
  rw [(compareFlagRows_exec row hrow).2, hpresent]
  exact hnext

/-- Settles O42: each row compares ST(0) with ST(i) into the host flags, without the denormal test. -/
theorem comparisonsSetHostFlags : Obligations.ComparisonsSetHostFlags := by
  intro row hrow s p i
  obtain ⟨hn, hexec⟩ := compareFlagRows_exec row hrow
  refine ⟨fun habsent => by rw [hexec, habsent]; rfl, fun hpresent hr h0 hi => ?_⟩
  have h := compareInto_eflags row.2.1 false hn (.of (s.st 0)) (.of (s.st i)) (s.record (row.1 p i) none)
  rw [State.record_cw] at h
  have hbody : compareStack .eflags row.2.1 false row.2.2 i (s.record (row.1 p i) none) =
      compareInto .eflags row.2.1 false row.2.2 false (.of (s.st 0)) (.of (s.st i)) (s.record (row.1 p i) none) := by
    rw [compareStack, State.record_isEmpty, State.record_isEmpty, show s.isEmpty 0 = false from h0,
      show s.isEmpty i = false from hi]
    rfl
  rw [← hbody] at h
  obtain ⟨t, hnext, hran, hanswer⟩ := compareFlags_next hrow hpresent hr (P := fun t =>
    match (compare s.cw row.2.1 false (.of (s.st 0)) (.of (s.st i))).value with
    | some r => (t.zf, t.pf, t.cf) = r.codes ∧ s.Popped t row.2.2 ∧
        s.Signals t (compare s.cw row.2.1 false (.of (s.st 0)) (.of (s.st i))).flags false
    | none => (t.zf, t.pf, t.cf) = (s.zf, s.pf, s.cf) ∧ s.Popped t 0 ∧
        s.Signals t (compare s.cw row.2.1 false (.of (s.st 0)) (.of (s.st i))).flags s.c1) (by
      cases hv : (compare s.cw row.2.1 false (.of (s.st 0)) (.of (s.st i))).value
      all_goals
        simp only [hv] at h ⊢
        simpa using h)
  exact ⟨t, hnext, hran.memory, hran.control, hran.pointers, hran.pc, hran.gprs, hran.segs, compareAnswers _ _ _ _ _,
    compare_isSome, hanswer⟩

/-! ### FXAM, and empty operands -/

theorem examineTop_sameStatusBut (s : State) : s.SameStatusBut (examineTop s) codeBits := fun n hn => by
  simp only [codeBits, List.mem_cons, List.not_mem_nil, or_false, not_or] at hn
  simp [examineTop, State.setCodes, State.setC1, State.putSw_bit, hn]

/-- Settles O44: `examineTop` writes the codes and nothing else. -/
theorem examineClassifiesTheTop : Obligations.ExamineClassifiesTheTop := by
  intro s p hr
  refine runReg_effect (f := examineTop) hr OnStack.examineTop ?_
  obtain ⟨hcodes, hc1, -, hregisters, -⟩ := examineTop_effect (s.record (.fxam p) none)
  refine ⟨by simpa using hregisters, by simpa using examineTop_sameStatusBut (s.record (.fxam p) none), by simpa using hc1, ?_⟩
  rw [State.retire_codes, hcodes]
  rfl

/-- Settles O45: each form tests the tags of its operands before it compares. -/
theorem comparisonUnderflowsEmptyOperand : Obligations.ComparisonUnderflowsEmptyOperand := by
  intro s p i m hr
  refine ⟨fun x hx hempty => ?_, fun row hrow hpresent hempty => ?_⟩
  · simp only [List.mem_append, List.mem_map, List.mem_singleton] at hx
    rcases hx with ((⟨row, hrow, rfl⟩ | ⟨row, hrow, rfl⟩) | ⟨row, hrow, rfl⟩) | rfl
    · obtain ⟨hn, hexec⟩ := compareRows_exec row hrow
      exact compareStack_empty (hexec p i s) hn hr hempty
    · exact compareStack_empty (n := 2) (comparePopRows_exec row hrow p s) (by decide) hr hempty
    · obtain ⟨hn, -, hexec⟩ := compareMemRows_exec row hrow
      obtain ⟨h0, ha⟩ := (Bool.and_eq_true _ _).mp hempty
      exact compareMem_empty (hexec p m s) hn hr (by simpa [State.Allows] using ha) h0
    · exact ftst_empty p hr hempty
  · obtain ⟨hn, -⟩ := compareFlagRows_exec row hrow
    have h := compareInto_eflags_empty row.2.1 false hn (.of (s.st 0)) (.of (s.st i)) (s.record (row.1 p i) none)
    have hbody : compareStack .eflags row.2.1 false row.2.2 i (s.record (row.1 p i) none) =
        compareInto .eflags row.2.1 false row.2.2 true (.of (s.st 0)) (.of (s.st i)) (s.record (row.1 p i) none) := by
      rw [compareStack, State.record_isEmpty, State.record_isEmpty, show (s.isEmpty 0 || s.isEmpty i) = true by simpa using hempty]
      rfl
    rw [← hbody] at h
    obtain ⟨t, hnext, hran, hfault, hstack⟩ := compareFlags_next hrow hpresent hr (P := fun t => s.StackFaulted t false ∧
      if s.masked .i = true then (t.zf, t.pf, t.cf) = (true, true, true) ∧ s.Popped t row.2.2
      else (t.zf, t.pf, t.cf) = (s.zf, s.pf, s.cf) ∧ s.Popped t 0) (by simpa using h)
    exact ⟨t, hnext, hran.memory, hran.control, hran.pointers, hran.pc, hran.gprs, hran.segs, hfault, hstack⟩

end Sys2Proof.Machine
end

section
/-! The control instructions (46_control.md): initialization, the environment and the whole state in memory, and those that
only move TOP or the pc. -/

namespace Sys2Proof.Machine

section
variable {s t u : State} {i j k : Instr} {m : AddrMode} {n : Nat} {a : Word32} {f : ImageFormat}

/-! ### The non-waiting and the waiting form -/

/-- Both forms of a control instruction without an operand: `j` does not wait, `k` waits. -/
theorem exec_plainControl {body : State → State} (hj : exec j s = runPlainControl j body s)
    (hk : exec k s = afterWait s (runPlainControl k body s)) (hi : i = j ∨ (i = k ∧ s.Ready)) :
    exec i s = .next ((body s).retire i.length s.es) := by
  rcases hi with rfl | ⟨rfl, hr⟩
  · exact hj
  · exact hk.trans (afterWait_ready hr _)

/-- Both forms of a control instruction with a memory operand. -/
theorem exec_memControl {body : Word32 → State → State} (hj : exec j s = runMemControl j m n body s)
    (hk : exec k s = afterWait s (runMemControl k m n body s)) (hi : i = j ∨ (i = k ∧ s.Ready))
    (ha : s.Allows (s.ea m) n) : exec i s = .next ((body (s.ea m) s).retire i.length s.es) := by
  rcases hi with rfl | ⟨rfl, hr⟩
  · exact hj.trans (runMemControl_next body ha)
  · exact hk.trans ((afterWait_ready hr _).trans (runMemControl_next body ha))

/-- FERR# is not asserted where no unmasked exception is pending after the instruction. -/
theorem State.retire_ferr_false (h : u.es = false) (n : Nat) (e : Bool) : (u.retire n e).ferr = false := by
  cases hf : (u.retire n e).ferr
  · rfl
  · exact absurd (State.retire_ferr hf) (by simp [h])

theorem State.retire_past (h : u.eip = s.eip) (i : Instr) (e : Bool) : s.PastInstr (u.retire i.length e) i := by
  rw [State.PastInstr, State.retire_eip, h]

/-- ES of a coherent state, in terms of its own flags. -/
theorem State.Coherent.es_iff_self (h : t.Coherent) : t.es = true ↔ ∃ x, t.flag x = true ∧ t.masked x = false :=
  h.es_iff fun _ => rfl

/-! ### Initialization -/

end

theorem State.initialized_es (s : State) : s.initialized.es = false := by
  simp [State.es, State.initialized]

/-- Settles O50: field by field of `State.initialized`. -/
theorem initializeTheProcessor : Obligations.InitializeTheProcessor := by
  refine ⟨rfl, rfl, fun s p i hi => ?_⟩
  have hhost : s.SameHost s.initialized := by constructor <;> rfl
  have hmemory : s.SameMemory s.initialized := fun _ => rfl
  exact ⟨_, exec_plainControl (body := State.initialized) rfl rfl hi, by simp [State.initialized],
    by simp [State.initialized], by simp [State.initialized], by simp [State.initialized], by simp [State.initialized],
    by simp [State.initialized], by simp [State.initialized], State.retire_ferr_false s.initialized_es _ _,
    State.retire_past rfl i s.es, hhost.retire, hmemory.retire⟩

/-! ### Clearing the exceptions -/

theorem clearExceptions_sameStatusBut (s : State) :
    (s.setSw (s.sw &&& 0x7F00)).SameStatusBut (clearExceptions s) codeBits :=
  drawAllCodes_sameStatusBut _

theorem clearExceptions_bit (s : State) {n : Nat} (hc : n ∉ codeBits) (hn : (0x7F00 : Word16).getLsbD n = false) :
    (clearExceptions s).sw.getLsbD n = false := by
  rw [clearExceptions_sameStatusBut s n hc, State.setSw_sw, BitVec.getLsbD_and, hn, Bool.and_false]

theorem clearExceptions_top (s : State) : (clearExceptions s).top = s.top := by
  rw [clearExceptions, State.drawAllCodes_top]
  apply BitVec.eq_of_getLsbD_eq
  intro n hn
  have hmask : (0x7F00 : Word16).getLsbD (topBit + n) = true := by
    revert n
    decide
  simp only [State.top, State.setSw_sw, BitVec.getLsbD_extractLsb', BitVec.getLsbD_and, hmask, Bool.and_true]

/-- Settles O53: bit by bit of the mask that clears the status word. -/
theorem clearExceptions_settled : Obligations.ClearExceptions := by
  intro s p i hi
  have hes : (clearExceptions s).es = false := clearExceptions_bit s (by decide) (by decide)
  have hhost : s.SameHost (clearExceptions s) := by constructor <;> rfl
  have hpointers : s.SamePointers (clearExceptions s) := ⟨rfl, rfl, rfl⟩
  have hmemory : s.SameMemory (clearExceptions s) := fun _ => rfl
  refine ⟨_, exec_plainControl (body := clearExceptions) rfl rfl hi, fun x => ?_, ?_, ?_, ?_,
    State.retire_ferr_false hes _ _, ?_, ?_, ?_, ?_, hpointers.retire, hhost.retire, hmemory.retire,
    State.retire_past rfl i s.es⟩
  · rw [State.retire_flag]
    exact clearExceptions_bit s (by cases x <;> decide) (by cases x <;> decide)
  · rw [State.retire_sf]
    exact clearExceptions_bit s (by decide) (by decide)
  · rw [State.retire_es, hes]
  · rw [State.retire_busy]
    exact clearExceptions_bit s (by decide) (by decide)
  · rw [State.retire_top, clearExceptions_top]
  · rw [State.retire_cw]; rfl
  · rw [State.retire_tw]; rfl
  · rw [State.retire_regs]; rfl

/-! ### Storing the environment -/

section
variable (f : ImageFormat) (a : Word32) (s : State)

theorem saveEnvironment_coherent : (saveEnvironment f a s).Coherent := (State.coherent_resummarize _).drawAllCodes

theorem saveEnvironment_cw : (saveEnvironment f a s).cw = s.cw ||| 0x3F := rfl

theorem saveEnvironment_masked (x : Exc) : (saveEnvironment f a s).masked x = true := by
  have hmask : ∀ x : Exc, (0x3F : Word16).getLsbD x.bit = true := fun x => by cases x <;> decide
  rw [State.masked, saveEnvironment_cw, maskedIn, BitVec.getLsbD_or, hmask, Bool.or_true]

theorem saveEnvironment_es : (saveEnvironment f a s).es = false := by
  rw [← Bool.not_eq_true, (saveEnvironment_coherent f a s).es_iff_self]
  rintro ⟨x, -, hx⟩
  rw [saveEnvironment_masked] at hx
  cases hx

theorem saveEnvironment_sameStatusBut : s.SameStatusBut (saveEnvironment f a s) (codeBits ++ [esBit, busyBit]) :=
  fun n hn =>
    ((((s.writeImage a (storedImage f .environment s)).setCw (s.cw ||| 0x3F)).resummarize_sameStatusBut).trans
      (drawAllCodes_sameStatusBut _)) n hn

theorem saveEnvironment_sameHost : s.SameHost (saveEnvironment f a s) := by constructor <;> rfl

end

/-- Settles O54: what `saveEnvironment` stores, then what it leaves of the state. -/
theorem storeEnvironment : Obligations.StoreEnvironment := by
  intro s p m i hi ha
  have hmem := saveEnvironment_mem (s := s) (s.imageFormat p) (s.ea m)
  have hes := saveEnvironment_es (s.imageFormat p) (s.ea m) s
  have hregisters : s.SameRegisters (saveEnvironment (s.imageFormat p) (s.ea m) s) := ⟨fun _ => rfl, fun _ => rfl⟩
  have hpointers : s.SamePointers (saveEnvironment (s.imageFormat p) (s.ea m) s) := ⟨rfl, rfl, rfl⟩
  have hstored : s.EnvironmentStored ((saveEnvironment (s.imageFormat p) (s.ea m) s).retire i.length s.es)
      (s.imageFormat p) .environment (s.ea m) :=
    State.environmentStored_of ((State.retire_mem _ _ _).trans hmem) (by rw [State.retire_params]; rfl)
  refine ⟨_, exec_memControl (body := saveEnvironment (s.imageFormat p)) rfl rfl hi ha, fun b hb => ?_, hstored, ?_, ?_, ?_,
    State.retire_ferr_false hes _ _, (saveEnvironment_sameStatusBut _ _ s).retire, hregisters.retire, hpointers.retire,
    (saveEnvironment_sameHost _ _ s).retire, State.retire_past rfl i s.es⟩
  · rw [State.retire_mem, hmem]
    exact readByte_storedImage_outside s _ _ _ .environment hb
  · rw [State.retire_cw, saveEnvironment_cw]
  · rw [State.retire_es, hes]
  · rw [State.retire_busy]
    exact (saveEnvironment_coherent (s.imageFormat p) (s.ea m) s).2.trans hes

/-! ### Loading the environment -/

section
variable (e : Environment) (v : State)

theorem loadEnvironment_coherent : (loadEnvironment e v).Coherent := State.coherent_resummarize _

theorem loadEnvironment_sw {n : Nat} (hes : n ≠ esBit) (hbusy : n ≠ busyBit) :
    (loadEnvironment e v).sw.getLsbD n = e.sw.getLsbD n :=
  State.resummarize_sameStatusBut ((((v.setCw e.cw).setSw e.sw).setTw (tagWord (loadedTag e.tw v.regs))).setPointers
    e.fip e.fdp e.fop) n (by simp [hes, hbusy])

theorem loadEnvironment_tag (k : Idx) :
    (loadEnvironment e v).tag k = if tagAt e.tw k = emptyTag then emptyTag else tagOf (v.reg k) :=
  Keeps.tagAt_tagWord _ k

theorem loadEnvironment_top : (loadEnvironment e v).top = topOf e.sw := by
  apply BitVec.eq_of_getLsbD_eq
  intro n hn
  have hbit := loadEnvironment_sw e v (n := topBit + n) (by unfold topBit esBit; omega) (by unfold topBit busyBit; omega)
  simpa [State.top, topOf, hn] using hbit

theorem loadEnvironment_sameHost : v.SameHost (loadEnvironment e v) := by constructor <;> rfl

end

/-- What a load of the environment `e` leaves: its control and status word, the pointers, tags by what the registers hold, and
ES and B recomputed. -/
structure State.LoadedEnvironment (s t : State) (e : Environment) (i : Instr) : Prop where
  control : t.cw = e.cw
  status : ∀ n, n ≠ esBit → n ≠ busyBit → t.sw.getLsbD n = e.sw.getLsbD n
  es : t.es = true ↔ ∃ x, t.flag x = true ∧ t.masked x = false
  busy : t.busy = t.es
  top : t.top = topOf e.sw
  tags : ∀ k, t.tag k = if tagAt e.tw k = emptyTag then emptyTag else tagOf (t.reg k)
  fip : t.fip = e.fip
  fdp : t.fdp = e.fdp
  fop : t.fop = e.fop
  host : s.SameHost t
  memory : s.SameMemory t
  pc : s.PastInstr t i

theorem loadEnvironment_loaded {s v : State} (e : Environment) (i : Instr) (hhost : s.SameHost v) (hmem : v.mem = s.mem)
    (heip : v.eip = s.eip) : s.LoadedEnvironment ((loadEnvironment e v).retire i.length s.es) e i where
  control := by rw [State.retire_cw]; rfl
  status n hes hbusy := by rw [State.retire_sw, loadEnvironment_sw e v hes hbusy]
  es := ((loadEnvironment_coherent e v).retire _ _).es_iff_self
  busy := ((loadEnvironment_coherent e v).retire _ _).2
  top := by rw [State.retire_top, loadEnvironment_top]
  tags k := by
    rw [State.retire_tag, State.retire_reg, loadEnvironment_tag]
    rfl
  fip := by rw [State.retire_fip]; rfl
  fdp := by rw [State.retire_fdp]; rfl
  fop := by rw [State.retire_fop]; rfl
  host := by
    have h : s.SameHost (loadEnvironment e v) := by
      constructor
      exacts [hhost.gprs, hhost.segs, hhost.zf, hhost.pf, hhost.cf, hhost.ne, hhost.ignne, hhost.mode, hhost.opSize32,
        hhost.addrSize32, hhost.intr, hhost.denied, hhost.frozen, hhost.params]
    exact h.retire
  memory a := by
    rw [State.retire_mem, show (loadEnvironment e v).mem = s.mem from hmem]
  pc := State.retire_past (show (loadEnvironment e v).eip = s.eip from heip) i s.es

theorem State.SameHost.refl (s : State) : s.SameHost s := by constructor <;> rfl

/-- Settles O55: `restoreEnvironment` loads what `readEnvironment` gives, and no register. -/
theorem loadEnvironment_settled : Obligations.LoadEnvironment := by
  intro s p m hr ha
  have hnext : exec (.fldenv p m) s =
      .next ((restoreEnvironment (s.imageFormat p) (s.ea m) s).retire (Instr.fldenv p m).length s.es) :=
    (afterWait_ready hr _).trans (runMemControl_next (restoreEnvironment (s.imageFormat p)) ha)
  have h := loadEnvironment_loaded (readEnvironment (s.imageFormat p) .environment (s.ea m) s) (.fldenv p m)
    (State.SameHost.refl s) rfl rfl
  have hregs : ((restoreEnvironment (s.imageFormat p) (s.ea m) s).retire (Instr.fldenv p m).length s.es).regs = s.regs := by
    rw [State.retire_regs]; rfl
  refine ⟨_, hnext, h.control, h.status, h.es, h.busy, fun k => ?_, h.fip, h.fdp, h.fop, hregs, h.host, h.memory, h.pc⟩
  rw [← State.reg_congr hregs]
  exact h.tags k

/-! ### Saving and restoring the whole state -/

/-- Settles O56: what `saveState` stores, then the fields of the initial state. -/
theorem saveState_settled : Obligations.SaveState := by
  intro s p m i hi ha
  have hmem := saveState_mem (s := s) (s.imageFormat p) (s.ea m)
  have hhost : s.SameHost (saveState (s.imageFormat p) (s.ea m) s) := by constructor <;> rfl
  have hstored : s.StateStored ((saveState (s.imageFormat p) (s.ea m) s).retire i.length s.es) (s.imageFormat p) (s.ea m) :=
    State.stateStored_of ((State.retire_mem _ _ _).trans hmem) (by rw [State.retire_params]; rfl)
  refine ⟨_, exec_memControl (body := saveState (s.imageFormat p)) rfl rfl hi ha, fun b hb => ?_, hstored, ?_, ?_, ?_, ?_,
    ?_, ?_, ?_, State.retire_ferr_false (State.initialized_es _) _ _, hhost.retire, State.retire_past rfl i s.es⟩
  · rw [State.retire_mem, hmem]
    exact readByte_storedImage_outside s _ _ _ .state hb
  · rw [State.retire_cw]; rfl
  · rw [State.retire_sw]; rfl
  · rw [State.retire_tw]; rfl
  · rw [State.retire_fip]; rfl
  · rw [State.retire_fdp]; rfl
  · rw [State.retire_fop]; rfl
  · rw [State.retire_regs]; rfl

/-- A field is read from the pieces of an image that name it. -/
theorem loadedPieces_append (x : EnvField) (l r : List EnvPiece) (v : Nat) :
    loadedPieces v x (l ++ r) = loadedPieces v x l ||| loadedPieces (v / 2 ^ totalWidth l) x r := by
  induction l generalizing v with
  | nil => simp [loadedPieces, totalWidth]
  | cons p l ih => simp [loadedPieces, totalWidth, ih, Nat.or_assoc, pow_add, Nat.div_div_eq_div_mul]

theorem loadedPieces_of_absent {x : EnvField} {l : List EnvPiece} (h : ∀ p ∈ l, p.field ≠ x) (v : Nat) :
    loadedPieces v x l = 0 := by
  induction l generalizing v with
  | nil => rfl
  | cons p l ih =>
    rw [List.forall_mem_cons] at h
    simp [loadedPieces, h.1, ih h.2]

/-- Where a register stands in the state image in the default layout. -/
theorem standard_register_place (f : ImageFormat) (j : Idx) :
    EnvLayout.standard.pieces f .state = (standardPieces f ++ registerPieces.take j.toNat) ++
        ([⟨.register j, 0, 80⟩] ++ registerPieces.drop (j.toNat + 1)) ∧
      (∀ p ∈ standardPieces f ++ registerPieces.take j.toNat, p.field ≠ .register j) ∧
      (∀ p ∈ registerPieces.drop (j.toNat + 1), p.field ≠ .register j) ∧
      totalWidth (standardPieces f ++ registerPieces.take j.toNat) = 8 * (f.envBytes + 10 * j.toNat) ∧
      fieldMask (EnvLayout.standard.pieces f .state) (.register j) = 2 ^ 80 - 1 := by
  revert j
  cases f <;> decide

/-- A register as the default layout has it in the state image. -/
theorem readRegister_standard {s : State} (h : s.params.envLayout = EnvLayout.standard) (f : ImageFormat) (a : Word32)
    (j : Idx) :
    readRegister f a j s = BitVec.ofNat 80 (s.read (a + BitVec.ofNat 32 (f.envBytes + 10 * j.toNat)) 10) := by
  obtain ⟨hsplit, hbefore, hafter, hwidth, hmask⟩ := standard_register_place f j
  have hslice : s.read (a + BitVec.ofNat 32 (f.envBytes + 10 * j.toNat)) 10 =
      s.read a f.stateBytes / 2 ^ (8 * (f.envBytes + 10 * j.toNat)) % 2 ^ 80 := by
    rw [s.read_slice a (k := f.stateBytes) (by have := j.isLt; simp only [ImageFormat.stateBytes]; omega), pow_mul]
    norm_num
  rw [readRegister, loadedField, h, hmask, hsplit, loadedPieces_append, loadedPieces_of_absent hbefore, hwidth,
    loadedPieces_append, loadedPieces_of_absent hafter, hslice]
  simp only [loadedPieces, Nat.zero_or, Nat.or_zero, if_true, Nat.shiftLeft_zero]
  rw [show ~~~(BitVec.ofNat 80 (2 ^ 80 - 1)) = 0#80 by decide, BitVec.and_zero, BitVec.or_zero]

theorem State.st_eq_of_top {t : State} {top : Idx} (h : t.top = top) (j : Idx) : t.st j = t.reg (top + j) := by
  rw [State.st, State.phys, h]

theorem readRegisters_get (f : ImageFormat) (a : Word32) (top k : Idx) (s : State) :
    (readRegisters f a top s)[k.toNat] = readRegister f a (k - top) s := by
  simp [readRegisters]

/-- What FRSTOR leaves in register `k`. -/
theorem restoreState_reg (f : ImageFormat) (a : Word32) (s : State) (k : Idx) :
    (restoreState f a s).reg k = readRegister f a (k - topOf (readEnvironment f .state a s).sw) s :=
  readRegisters_get f a _ k s

theorem restoreState_loaded (f : ImageFormat) (a : Word32) (s : State) (i : Instr) :
    s.LoadedEnvironment ((restoreState f a s).retire i.length s.es) (readEnvironment f .state a s) i :=
  loadEnvironment_loaded (v := s.setRegs _) _ i (by constructor <;> rfl) rfl rfl

/-- Settles O57: `restoreState` loads the environment, and the registers in the order of the loaded TOP. -/
theorem restoreState_settled : Obligations.RestoreState := by
  intro s p m hr ha
  have hnext : exec (.frstor p m) s =
      .next ((restoreState (s.imageFormat p) (s.ea m) s).retire (Instr.frstor p m).length s.es) :=
    (afterWait_ready hr _).trans (runMemControl_next (restoreState (s.imageFormat p)) ha)
  have h := restoreState_loaded (s.imageFormat p) (s.ea m) s (.frstor p m)
  have hst : ∀ j, ((restoreState (s.imageFormat p) (s.ea m) s).retire (Instr.frstor p m).length s.es).st j =
      readRegister (s.imageFormat p) (s.ea m) j s := fun j => by
    rw [State.st_eq_of_top h.top, State.retire_reg, restoreState_reg, add_sub_cancel_left]
  exact ⟨_, hnext, h.control, h.status, h.es, h.busy,
    fun j => ⟨hst j, fun hlayout => (hst j).trans (readRegister_standard hlayout _ _ j)⟩, h.tags, h.fip, h.fdp, h.fop,
    h.host, h.memory, h.pc⟩

/-! ### The round trip -/

theorem tagWord_ext {v w : Word16} (h : ∀ k, tagAt v k = tagAt w k) : v = w := by
  apply BitVec.eq_of_getLsbD_eq
  intro n hn
  have hbit := congrArg (fun b : BitVec 2 => b.getLsbD (n % 2)) (h (BitVec.ofNat 3 (n / 2)))
  have hk : 2 * (BitVec.ofNat 3 (n / 2)).toNat + n % 2 = n := by
    rw [BitVec.toNat_ofNat]
    omega
  have hlt : n % 2 < 2 := by omega
  simpa only [getLsbD_tagAt, hk, hlt, decide_true, Bool.true_and] using hbit

/-- The status word of a coherent state is told by its bits but ES and B. -/
theorem State.sw_eq_of_bits {s t : State} (hs : s.Coherent) (ht : t.Coherent) (hcw : t.cw = s.cw)
    (h : ∀ n, n ≠ esBit → n ≠ busyBit → t.sw.getLsbD n = s.sw.getLsbD n) : t.sw = s.sw := by
  have hes : t.es = s.es := by
    rw [Bool.eq_iff_iff, ht.es_iff_self, hs.es_iff_self]
    refine exists_congr fun x => and_congr ?_ ?_
    · rw [State.flag, State.flag, h x.bit (by cases x <;> decide) (by cases x <;> decide)]
    · rw [State.masked, State.masked, hcw]
  apply BitVec.eq_of_getLsbD_eq
  intro n _
  by_cases hn : n = esBit
  · rw [hn]; exact hes
  · by_cases hb : n = busyBit
    · rw [hb]; exact (ht.2.trans hes).trans hs.2.symm
    · exact h n hn hb

theorem State.ea_congr {s t : State} (h : t.gprs = s.gprs) (m : AddrMode) : t.ea m = s.ea m := by
  have hgpr : ∀ r, t.gpr r = s.gpr r := State.gpr_congr h
  cases m with
  | abs32 d | abs16 d => rfl
  | reg32 b d => simp only [State.ea, hgpr]
  | sib32 b i sc d | sibAbs32 i sc d => cases i <;> simp only [State.ea, State.indexValue, hgpr]
  | reg16 b d => cases b <;> simp only [State.ea, State.base16, State.gpr16, hgpr]

theorem State.imageFormat_congr {s t : State} (h : s.SameHost t) (p : Prefixes) : t.imageFormat p = s.imageFormat p := by
  rw [State.imageFormat, State.imageFormat, State.opSize, State.opSize, h.mode, h.opSize32]

/-- What FRSTOR makes of the image that FNSAVE stored. -/
theorem restore_saved {s t : State} {f : ImageFormat} {a : Word32} (hinv : s.Inv)
    (hlayout : s.params.envLayout.injective = true) (hmem : t.mem = writeBytes s.mem a (storedImage f .state s))
    (hparams : t.params = s.params) (i : Instr) {u : State} (hu : u = (restoreState f a t).retire i.length t.es) :
    u.regs = s.regs ∧ u.cw = s.cw ∧ u.sw = s.sw ∧ u.tw = s.tw ∧ (f = .p32 → s.SamePointers u) := by
  subst hu
  have h := restoreState_loaded f a t i
  obtain ⟨hcw, hsw, htw, hfar, -, -, -, hfop⟩ := readEnvironment_image hmem hlayout hparams
  have htop : topOf (readEnvironment f .state a t).sw = s.top := by
    rw [hsw]
    apply BitVec.eq_of_getLsbD_eq
    intro n hn
    have hbit := s.storedSw_bit_of_lt (n := topBit + n) (by unfold topBit; omega)
    simpa [State.top, topOf, hn] using hbit
  have hreg : ∀ k, ((restoreState f a t).retire i.length t.es).reg k = s.reg k := fun k => by
    rw [State.retire_reg, restoreState_reg, htop, readRegister_image hmem hlayout hparams, State.st, State.phys,
      add_sub_cancel]
  have hcoherent : ((restoreState f a t).retire i.length t.es).Coherent :=
    (loadEnvironment_coherent _ _).retire _ _
  have hcontrol := h.control.trans hcw
  refine ⟨?_, hcontrol, ?_, ?_, fun hf => ?_⟩
  · apply Vector.ext
    intro n hn
    have hk := hreg (BitVec.ofNat 3 n)
    simpa only [State.reg, BitVec.toNat_ofNat, Nat.mod_eq_of_lt hn] using hk
  · refine State.sw_eq_of_bits ⟨hinv.summary, hinv.busy⟩ hcoherent hcontrol fun n hes hbusy => ?_
    rw [h.status n hes hbusy, hsw]
    by_cases hn : n < 15
    · exact s.storedSw_bit_of_lt hn
    · have hge : 16 ≤ n := by unfold busyBit at hbusy; omega
      rw [BitVec.getLsbD_of_ge _ _ hge, BitVec.getLsbD_of_ge _ _ hge]
  · refine tagWord_ext fun k => ?_
    have htag := h.tags k
    rw [htw, hreg] at htag
    refine htag.trans ?_
    change (if s.tag k = emptyTag then emptyTag else tagOf (s.reg k)) = s.tag k
    split
    next hempty => exact hempty.symm
    next hfull => exact ((hinv.tags k).resolve_left hfull).symm
  · obtain ⟨hfip, hfdp⟩ := hfar hf
    exact ⟨h.fip.trans hfip, h.fdp.trans hfdp, h.fop.trans (hfop (by rw [hf]; decide))⟩

/-- Settles O58: the image that FNSAVE wrote reads back as the environment and the registers of `s`, whose tags the
invariant gives. -/
theorem saveThenRestore : Obligations.SaveThenRestore := by
  intro s t u p q m hinv hlayout hformat ha hsave hrestore
  have hsaved : exec (.fnsave p m) s =
      .next ((saveState (s.imageFormat p) (s.ea m) s).retire (Instr.fnsave p m).length s.es) :=
    runMemControl_next (saveState (s.imageFormat p)) ha
  have hsaveHost : s.SameHost (saveState (s.imageFormat p) (s.ea m) s) := by constructor <;> rfl
  obtain rfl : (saveState (s.imageFormat p) (s.ea m) s).retire (Instr.fnsave p m).length s.es = t := by
    rw [hsaved] at hsave
    injection hsave
  have hmem := (State.retire_mem _ (Instr.fnsave p m).length s.es).trans (saveState_mem (s := s) (s.imageFormat p) (s.ea m))
  have hhost := hsaveHost.retire (n := (Instr.fnsave p m).length) (e := s.es)
  have hes : ((saveState (s.imageFormat p) (s.ea m) s).retire (Instr.fnsave p m).length s.es).es = false := by
    rw [State.retire_es]
    exact State.initialized_es _
  generalize (saveState (s.imageFormat p) (s.ea m) s).retire (Instr.fnsave p m).length s.es = t at *
  have hea := State.ea_congr hhost.gprs m
  have hq : t.imageFormat q = s.imageFormat p := (State.imageFormat_congr hhost q).trans hformat.symm
  have hallows : t.Allows (t.ea m) (t.imageFormat q).stateBytes := by
    rw [State.Allows, State.operandDenied, hhost.denied, hea, hq]
    exact ha
  have hrestored : exec (.frstor q m) t =
      .next ((restoreState (t.imageFormat q) (t.ea m) t).retire (Instr.frstor q m).length t.es) :=
    (afterWait_ready ((State.waitCheck_proceed_iff t).mpr (.inl hes)) _).trans
      (runMemControl_next (restoreState (t.imageFormat q)) hallows)
  rw [hrestored, hq, hea] at hrestore
  injection hrestore with hu
  exact restore_saved hinv hlayout hmem hhost.params (.frstor q m) hu.symm

/-! ### TOP, tags and the pc -/

/-- Settles O59: by the effect of each on TOP and the tags. -/
theorem stackPointerInstructions : Obligations.StackPointerInstructions := by
  intro s p hr
  refine ⟨?_, ?_, fun i => ?_, ?_⟩
  · refine runReg_effect (f := rotate 1) hr (OnStack.rotate 1) ?_
    simpa using rotate_effect 1 (s.record (.fincstp p) none)
  · refine runReg_effect (f := rotate (-1)) hr (OnStack.rotate (-1)) ?_
    rw [sub_eq_add_neg]
    simpa using rotate_effect (-1) (s.record (.fdecstp p) none)
  · refine runReg_effect (f := freeRegister i) hr (OnStack.freeRegister i) ?_
    obtain ⟨hstatus, hreg, htag⟩ := freeRegister_effect i (s.record (.ffree p i) none)
    refine ⟨by simpa using hstatus, by simpa using hreg, ?_⟩
    simp only [State.retire_tag]
    exact htag
  · refine runReg_effect (f := State.drawAllCodes) hr OnStack.drawAllCodes ⟨?_, ?_⟩
    · simpa using drawAllCodes_sameStatusBut (s.record (.fnop p) none)
    · simpa using (⟨fun _ => rfl, fun _ => rfl⟩ : s.SameRegisters (s.record (.fnop p) none).drawAllCodes)

/-- Settles O60: each is `retire` alone. -/
theorem instructionsWithoutEffect : Obligations.InstructionsWithoutEffect := by
  intro s p i hi
  have hnext : exec i s = .next (s.retire i.length s.es) := by
    rcases hi with ⟨rfl, hr⟩ | rfl | rfl | rfl
    · exact afterWait_ready hr _
    · rfl
    · rfl
    · rfl
  have hpointers : s.SamePointers s := ⟨rfl, rfl, rfl⟩
  exact ⟨_, hnext, s.retire_sw _ _, s.retire_cw _ _, s.retire_tw _ _, s.retire_regs _ _, hpointers.retire,
    (State.SameHost.refl s).retire, s.retire_mem _ _, State.retire_past rfl i s.es⟩

end Sys2Proof.Machine
end

section
/-! The conversions to integers and packed decimal (40_numerics.md R223, R224, R228, R230). -/

namespace Sys2Proof.Machine

/-! ### A finite value rounded to an integer -/

/-- #P is signalled exactly where the rounding changed the value (40_numerics.md R214, R228). -/
theorem inexactFlag_eq {b : Bool} {p : Prop} [Decidable p] (h : b = true ↔ ¬ p) :
    inexactFlag b = if p then [] else [.p] := by
  by_cases hp : p
  · rw [if_pos hp, show b = false by simpa [hp] using h]
    rfl
  · rw [if_neg hp, h.mpr hp]
    rfl

/-- An integer is rounded to itself. -/
theorem RoundedTo.int_eq {rm : RoundMode} {z k : ℤ} (h : RoundedTo rm 1 (z : ℚ) (k : ℚ)) : k = z := by
  cases rm with
  | nearest =>
    obtain ⟨hdist, -⟩ := h
    have hlt : |((k - z : ℤ) : ℚ)| < 1 := by push_cast; linarith
    have hint : |k - z| < 1 := by exact_mod_cast hlt
    have := Int.abs_lt_one_iff.mp hint
    omega
  | down =>
    obtain ⟨h1, h2⟩ := h
    have h1 : k ≤ z := by exact_mod_cast h1
    have h2 : z < k + 1 := by exact_mod_cast h2
    omega
  | up =>
    obtain ⟨h1, h2⟩ := h
    have h1 : z ≤ k := by exact_mod_cast h1
    have h2 : k < z + 1 := by exact_mod_cast h2
    omega
  | zero =>
    obtain ⟨h1, h2, h3⟩ := h
    have h1 : 0 ≤ k * z := by exact_mod_cast h1
    have h2 : |k| ≤ |z| := by exact_mod_cast h2
    have h3 : |z| < |k| + 1 := by exact_mod_cast h3
    have habs : |k| = |z| := by omega
    rcases abs_eq_abs.mp habs with heq | heq
    · exact heq
    · have hsq : z * z ≤ 0 := by rw [heq] at h1; linarith
      have hz : z = 0 := by nlinarith
      omega

/-! ### Integers -/

section
variable {cw : Word16} {n : Nat} {x : Ext}

theorem sint_inj {v w : Nat} (hn : n = 16 ∨ n = 32 ∨ n = 64) (hv : v < 2 ^ n) (hw : w < 2 ^ n) (h : sint n v = sint n w) :
    v = w := by
  rcases hn with rfl | rfl | rfl <;> simp only [sint] at h <;> split at h <;> split at h <;> omega

theorem sint_of_lt {m : Nat} (h : m < 2 ^ (n - 1)) : sint n m = m := if_pos h

theorem sint_complement {m : Nat} (hn : n = 16 ∨ n = 32 ∨ n = 64) (h : m ≤ 2 ^ (n - 1)) :
    sint n ((2 ^ n - m) % 2 ^ n) = -m := by
  rcases hn with rfl | rfl | rfl <;> simp only [sint] <;> split <;> omega

/-- The conversion of a finite value to an integer of `n` bits: the rounded value in two's complement, or #IA. -/
theorem storeIntFinite_eq (hn : n = 16 ∨ n = 32 ∨ n = 64) {v : Exact} {r : Rounded} (hr : roundInt (roundMode cw) v = r)
    {k : ℤ} (hk : k = if v.neg then -(r.mant : ℤ) else r.mant) :
    if -2 ^ (n - 1) ≤ k ∧ k < 2 ^ (n - 1) then
      ∃ m, m < 2 ^ n ∧ sint n m = k ∧ storeIntFinite cw n v = ⟨inexactFlag r.inexact, .store m r.up⟩
    else storeIntFinite cw n v = .indefinite cw (2 ^ (n - 1)) := by
  have hlimit : (if v.neg then 2 ^ (n - 1) else 2 ^ (n - 1) - 1) < r.mant ↔ ¬ (-2 ^ (n - 1) ≤ k ∧ k < 2 ^ (n - 1)) := by
    rw [hk]
    rcases hn with rfl | rfl | rfl <;> cases v.neg <;> simp <;> omega
  unfold storeIntFinite
  simp only [hr]
  by_cases hrange : -2 ^ (n - 1) ≤ k ∧ k < 2 ^ (n - 1)
  · rw [if_pos hrange, if_neg (fun h => hlimit.mp h hrange)]
    rw [hk] at hrange ⊢
    cases hneg : v.neg with
    | true =>
      simp only [hneg, if_true] at hrange ⊢
      have hle : r.mant ≤ 2 ^ (n - 1) := by
        have h : (r.mant : ℤ) ≤ 2 ^ (n - 1) := by linarith [hrange.1]
        exact_mod_cast h
      exact ⟨_, Nat.mod_lt _ (by positivity), sint_complement hn hle, rfl⟩
    | false =>
      simp only [hneg, Bool.false_eq_true, if_false] at hrange ⊢
      have hlt : r.mant < 2 ^ (n - 1) := by exact_mod_cast hrange.2
      exact ⟨_, hlt.trans_le (Nat.pow_le_pow_right two_pos (Nat.sub_le n 1)), sint_of_lt hlt, rfl⟩
  · rw [if_neg hrange, if_pos (hlimit.mpr hrange)]
    rfl

theorem storeInt_spec (hn : n = 16 ∨ n = 32 ∨ n = 64) (hf : isFinite x = true) :
    ∃ k : ℤ, RoundedTo (roundMode cw) 1 (realOf x) k ∧
      if -2 ^ (n - 1) ≤ k ∧ k < 2 ^ (n - 1) then
        ∃ m, m < 2 ^ n ∧ sint n m = k ∧ storeInt cw n x =
          ⟨if (k : ℚ) = realOf x then [] else [.p], .store m (decide (|realOf x| < |(k : ℚ)|))⟩
      else storeInt cw n x = .indefinite cw (2 ^ (n - 1)) := by
  obtain ⟨k, hround, -, hk, hinexact, hup⟩ := roundInt_spec (roundMode cw) x
  refine ⟨k, hround, ?_⟩
  have h := storeIntFinite_eq (cw := cw) (v := valOf x) hn rfl hk
  rw [inexactFlag_eq hinexact, hup] at h
  rw [storeInt_eq, if_pos hf]
  exact h

/-- An integer operand is stored as it was loaded. -/
theorem storeInt_fromInt (hn : n = 16 ∨ n = 32 ∨ n = 64) {v : Nat} (hv : v < 2 ^ n) :
    storeInt cw n (fromInt (sint n v)) = ⟨[], .store v false⟩ := by
  obtain ⟨hf, hreal, -⟩ := fromInt_sint (by omega) hv
  obtain ⟨k, hround, hstore⟩ := storeInt_spec (cw := cw) hn hf
  rw [hreal] at hround hstore
  obtain rfl := hround.int_eq
  have hrange : -2 ^ (n - 1) ≤ sint n v ∧ sint n v < 2 ^ (n - 1) := by
    rcases hn with rfl | rfl | rfl <;> simp only [sint] <;> split <;> omega
  rw [if_pos hrange] at hstore
  obtain ⟨m, hm, hsint, hstore⟩ := hstore
  rw [hstore, sint_inj hn hm hv hsint]
  simp

end

/-! ### Packed decimal -/

theorem toBcd_lt (v : Nat) : ∀ n, toBcd v n < 16 ^ n
  | 0 => by simp [toBcd]
  | n + 1 => by
    have ih := toBcd_lt v n
    have hd : v / 10 ^ n % 10 ≤ 9 := by omega
    rw [toBcd, pow_succ]
    nlinarith [Nat.mul_le_mul_right (16 ^ n) hd]

/-- The digits of a number's packed decimal. -/
theorem toBcd_digit (v : Nat) {k : Nat} : ∀ {n}, k < n → toBcd v n / 16 ^ k % 16 = v / 10 ^ k % 10
  | n + 1, hk => by
    rw [toBcd]
    rcases Nat.lt_succ_iff_lt_or_eq.mp hk with hlt | rfl
    · rw [show (16 : Nat) ^ n = 16 ^ (n - k - 1) * 16 * 16 ^ k by rw [← pow_succ, ← pow_add]; congr 1; omega,
        ← mul_assoc, Nat.add_mul_div_right _ _ (by positivity), ← mul_assoc, Nat.add_mul_mod_self_right]
      exact toBcd_digit v hlt
    · rw [Nat.add_mul_div_right _ _ (by positivity), Nat.div_eq_of_lt (toBcd_lt v _), Nat.zero_add]
      omega

/-- The digits of a number below a power of ten add up to it. -/
theorem sum_digits (v : Nat) : ∀ n, ∑ k ∈ Finset.range n, v / 10 ^ k % 10 * 10 ^ k = v % 10 ^ n
  | 0 => by simp [Nat.mod_one]
  | n + 1 => by
    rw [Finset.sum_range_succ, sum_digits v n, pow_succ, Nat.mod_mul, Nat.mul_comm]

/-- The bits above the digits are none of them. -/
theorem digit_add_high (b low : Nat) {k : Nat} (hk : k < 18) : (b * 2 ^ 79 + low) / 16 ^ k % 16 = low / 16 ^ k % 16 := by
  rw [show b * 2 ^ 79 = b * 2 ^ 7 * 16 ^ (18 - k - 1) * 16 * 16 ^ k by
    have h : (2 : Nat) ^ 79 = 2 ^ 7 * (16 ^ (18 - k - 1) * 16 * 16 ^ k) := by
      rw [← pow_succ, ← pow_add, show 18 - k - 1 + 1 + k = 18 by omega]
      norm_num
    rw [h]
    ring, Nat.add_comm, Nat.add_mul_div_right _ _ (by positivity), Nat.add_mul_mod_self_right]

/-- A packed decimal made of a sign and a number of 18 digits. -/
theorem packed_spec (neg : Bool) {v : Nat} (hv : v < 10 ^ 18) :
    neg.toNat * 2 ^ 79 + toBcd v 18 < 2 ^ 80 ∧ (neg.toNat * 2 ^ 79 + toBcd v 18) / 2 ^ 72 % 2 ^ 7 = 0 ∧
      DecimalDigits (neg.toNat * 2 ^ 79 + toBcd v 18) ∧ decimalValue (neg.toNat * 2 ^ 79 + toBcd v 18) = v ∧
      (neg.toNat * 2 ^ 79 + toBcd v 18).testBit 79 = neg := by
  have hlow := toBcd_lt v 18
  have hdigit : ∀ k < 18, (neg.toNat * 2 ^ 79 + toBcd v 18) / 16 ^ k % 16 = v / 10 ^ k % 10 := fun k hk => by
    rw [digit_add_high _ _ hk, toBcd_digit v hk]
  refine ⟨?_, ?_, fun k hk => ?_, ?_, ?_⟩
  · cases neg <;> simp only [Bool.toNat_true, Bool.toNat_false] <;> omega
  · cases neg <;> simp only [Bool.toNat_true, Bool.toNat_false] <;> omega
  · rw [hdigit k hk]
    omega
  · rw [decimalValue, Finset.sum_congr rfl fun k hk => by rw [hdigit k (Finset.mem_range.mp hk)], sum_digits,
      Nat.mod_eq_of_lt hv]
  · rw [Nat.testBit_eq_decide_div_mod_eq]
    cases neg <;> simp only [Bool.toNat_true, Bool.toNat_false, decide_eq_true_eq, decide_eq_false_iff_not] <;> omega

/-- A packed decimal with zero in its unused bits is told by its sign and its digits. -/
theorem packed_unique {m : Nat} (hm : m < 2 ^ 80) (hz : m / 2 ^ 72 % 2 ^ 7 = 0) (hd : DecimalDigits m) :
    m = (m.testBit 79).toNat * 2 ^ 79 + toBcd (decimalValue m) 18 := by
  have hlow : toBcd (decimalValue m) 18 = m % 16 ^ 18 := (bcdValue_spec m 18 _ (bcdValue_sum m 18 hd)).2
  rw [hlow, Nat.testBit_eq_decide_div_mod_eq]
  by_cases hs : m / 2 ^ 79 % 2 = 1
  · simp only [hs, decide_true, Bool.toNat_true]
    omega
  · simp only [hs, decide_false, Bool.toNat_false]
    omega

theorem exists_int_of_abs {v : ℚ} {n : ℕ} (h : |v| = n) : ∃ z : ℤ, v = z ∧ |z| = n := by
  rcases (abs_eq n.cast_nonneg).mp h with rfl | rfl
  · exact ⟨n, by simp, by simp⟩
  · exact ⟨-n, by simp, by simp⟩

section
variable {cw : Word16} {low : BitVec 64} {x : Ext}

/-- The conversion of a finite value to packed decimal: the rounded value, or #IA. -/
theorem storeBcd_spec (hf : isFinite x = true) :
    ∃ k : ℤ, RoundedTo (roundMode cw) 1 (realOf x) k ∧
      if |k| ≤ 10 ^ 18 - 1 then
        ∃ m, m < 2 ^ 80 ∧ m / 2 ^ 72 % 2 ^ 7 = 0 ∧ DecimalDigits m ∧ (decimalValue m : ℤ) = |k| ∧
          m.testBit 79 = signOf x ∧ (k ≠ 0 → signOf x = decide (k < 0)) ∧ storeBcd cw low x =
            ⟨if (k : ℚ) = realOf x then [] else [.p], .store m (decide (|realOf x| < |(k : ℚ)|))⟩
      else storeBcd cw low x = .indefinite cw (0xFFFF * 2 ^ 64 + low.toNat) := by
  obtain ⟨k, hround, hnat, hk, hinexact, hup⟩ := roundInt_spec (roundMode cw) x
  refine ⟨k, hround, ?_⟩
  rw [storeBcd_eq, if_pos hf, storeBcdFinite, ← Int.natCast_natAbs, hnat]
  by_cases hrange : (((roundInt (roundMode cw) (valOf x)).mant : ℕ) : ℤ) ≤ 10 ^ 18 - 1
  · have hlt : (roundInt (roundMode cw) (valOf x)).mant < 10 ^ 18 := by omega
    obtain ⟨hm, hz, hdigits, hvalue, hsign⟩ := packed_spec (signOf x) hlt
    rw [if_pos hrange]
    refine ⟨_, hm, hz, hdigits, by rw [hvalue], hsign, fun h0 => ?_, ?_⟩
    · cases hs : signOf x <;> simp [hs] at hk ⊢ <;> omega
    · rw [if_neg (by omega), inexactFlag_eq hinexact, hup]
      rfl
  · rw [if_neg hrange, if_pos (by omega)]
    rfl

/-- A packed decimal is stored as it was loaded. -/
theorem storeBcd_fromBcd {m : Nat} (hm : m < 2 ^ 80) (hz : m / 2 ^ 72 % 2 ^ 7 = 0) (hx : fromBcd m = some x) :
    storeBcd cw low x = ⟨[], .store m false⟩ := by
  have hdigits : DecimalDigits m := by
    by_contra h
    rw [fromBcd_no_digits h] at hx
    cases hx
  obtain ⟨y, hy, hf, hsign, hreal, -⟩ := fromBcd_digits hdigits
  obtain rfl : y = x := by simpa [hx] using hy.symm
  have hsmall := decimalValue_lt hdigits
  obtain ⟨z, hz', habs⟩ := exists_int_of_abs hreal
  obtain ⟨k, hround, hstore⟩ := storeBcd_spec (cw := cw) (low := low) hf
  rw [hz'] at hround hstore
  obtain rfl := hround.int_eq
  rw [habs, if_pos (by omega)] at hstore
  obtain ⟨m', hm', hz'', hd', hvalue, hsign', -, hstore⟩ := hstore
  have heq := packed_unique hm' hz'' hd'
  rw [hsign', hsign, Int.ofNat_inj.mp hvalue, ← packed_unique hm hz hdigits] at heq
  rw [hstore, heq]
  simp

end

/-- Settles O26: loading and storing invert each other, and a finite value goes through the rounding to an integer. -/
theorem integersAndDecimalsAreStoredRounded : Obligations.IntegersAndDecimalsAreStoredRounded := by
  refine ⟨fun cw n v hn hv => ⟨(fromInt_sint (by omega) hv).2.1, storeInt_fromInt hn hv⟩,
    fun cw low m x hm hz hx => storeBcd_fromBcd hm hz hx, fun m => ?_, fun cw n x hn => ?_, fun cw low x => ?_⟩
  · split
    next h => exact fromBcd_digits h
    next h => exact fromBcd_no_digits h
  · split
    next hf => exact storeInt_spec hn hf
    next hf =>
      rw [storeInt_eq, if_neg hf]
      rfl
  · split
    next hf => exact storeBcd_spec hf
    next hf =>
      rw [storeBcd_eq, if_neg hf]
      rfl

end Sys2Proof.Machine
end

section
/-! The stores to single and double (40_numerics.md R220, R221, R225 to R227). -/

namespace Sys2Proof.Machine

/-! ### The two real formats -/

section
variable {f : RealFormat} (hf : f = single ∨ f = double)
include hf

/-- What the sizes of the two formats have in common. -/
theorem RealFormat.sizes : f.precision = f.fracBits + 1 ∧ f.expMax = 2 * f.bias + 1 ∧ 127 ≤ f.bias ∧ f.bias ≤ 1023 ∧
    23 ≤ f.fracBits ∧ f.fracBits ≤ 52 ∧ f.emin = 1 - (f.bias : ℤ) ∧ f.tiniest = 1 - (f.bias : ℤ) - f.fracBits := by
  rcases hf with rfl | rfl <;> decide

/-- A packed operand is put together from its fields. -/
theorem RealFormat.pack_of_fields {m : ℕ} (hm : m < 256 ^ f.bytes) :
    f.pack (m.testBit (f.fracBits + f.expBits)) (m / 2 ^ f.fracBits % 2 ^ f.expBits) (m % 2 ^ f.fracBits) = m := by
  rw [Nat.testBit_eq_decide_div_mod_eq]
  rcases hf with rfl | rfl
  · simp only [RealFormat.pack, RealFormat.fracBits, RealFormat.bytes, single] at hm ⊢
    norm_num at hm ⊢
    by_cases h : m / 2147483648 % 2 = 1 <;> simp only [h, decide_true, decide_false, Bool.toNat_true, Bool.toNat_false] <;>
      omega
  · simp only [RealFormat.pack, RealFormat.fracBits, RealFormat.bytes, double] at hm ⊢
    norm_num at hm ⊢
    by_cases h : m / 9223372036854775808 % 2 = 1 <;>
      simp only [h, decide_true, decide_false, Bool.toNat_true, Bool.toNat_false] <;> omega

/-- The fields of an operand are those of a packed one. -/
theorem RealFormat.exists_pack {m : ℕ} (hm : m < 256 ^ f.bytes) :
    ∃ neg e frac, e ≤ f.expMax ∧ frac < 2 ^ f.fracBits ∧ m = f.pack neg e frac := by
  refine ⟨_, _, _, ?_, Nat.mod_lt _ (by positivity), (RealFormat.pack_of_fields hf hm).symm⟩
  have := Nat.mod_lt (m / 2 ^ f.fracBits) (Nat.two_pow_pos f.expBits)
  rw [RealFormat.expMax]
  omega

variable (neg : Bool) {e frac : ℕ} (hw : frac < 2 ^ f.fracBits)
include hw

/-- The significand of a converted operand has 64 bits. -/
theorem RealFormat.sig_bounds : 2 ^ 63 + frac * 2 ^ (63 - f.fracBits) = (2 ^ f.fracBits + frac) * 2 ^ (63 - f.fracBits) ∧
    2 ^ 63 + frac * 2 ^ (63 - f.fracBits) < 2 ^ 64 := by
  obtain ⟨-, -, -, -, -, hw', -⟩ := RealFormat.sizes hf
  have h63 : 2 ^ f.fracBits * 2 ^ (63 - f.fracBits) = 2 ^ 63 := by
    rw [← pow_add]
    congr 1
    omega
  have hlt : frac * 2 ^ (63 - f.fracBits) < 2 ^ 63 := by
    rw [← h63]
    exact Nat.mul_lt_mul_of_pos_right hw (by positivity)
  exact ⟨by rw [Nat.add_mul, h63], by omega⟩

theorem fromReal_denormal (h0 : frac ≠ 0) :
    fromReal f (f.pack neg 0 frac) = ⟨enc80 neg frac f.tiniest, true⟩ := by
  obtain ⟨-, hs, he, hfrac⟩ := RealFormat.pack_fields hf neg (Nat.zero_le _) hw
  rw [fromReal]
  simp only [hs, he, hfrac, if_true, if_neg h0]

theorem fromReal_normal (h0 : e ≠ 0) (he : e < f.expMax) : fromReal f (f.pack neg e frac) =
    .of (Machine.pack neg (e + 16383 - f.bias) (2 ^ 63 + frac * 2 ^ (63 - f.fracBits))) := by
  obtain ⟨-, hs, he', hfrac⟩ := RealFormat.pack_fields hf neg he.le hw
  rw [fromReal]
  simp only [hs, he', hfrac, if_neg h0, if_neg he.ne]

theorem fromReal_special : fromReal f (f.pack neg f.expMax frac) =
    .of (Machine.pack neg 0x7FFF (2 ^ 63 + frac * 2 ^ (63 - f.fracBits))) := by
  obtain ⟨-, hs, he, hfrac⟩ := RealFormat.pack_fields hf neg le_rfl hw
  obtain ⟨-, hmax, hbias, -⟩ := RealFormat.sizes hf
  rw [fromReal]
  simp only [hs, he, hfrac, if_neg (show f.expMax ≠ 0 by omega), if_true]

/-- The value of a normal operand. -/
theorem fromReal_normal_value (h0 : e ≠ 0) (he : e < f.expMax) :
    classOf (fromReal f (f.pack neg e frac)).value = .normal ∧ signOf (fromReal f (f.pack neg e frac)).value = neg ∧
      (magOf (fromReal f (f.pack neg e frac)).value).toRat =
        ((2 ^ f.fracBits + frac : ℕ) : ℚ) * (2 : ℚ) ^ ((e : ℤ) - f.bias - f.fracBits) := by
  obtain ⟨-, hmax, -, hbias, -, hfrac, -⟩ := RealFormat.sizes hf
  obtain ⟨hsig, hlt⟩ := RealFormat.sig_bounds hf hw
  have hexp : (e + 16383 - f.bias) % 2 ^ 15 = e + 16383 - f.bias := Nat.mod_eq_of_lt (by omega)
  rw [fromReal_normal hf neg hw h0 he]
  refine ⟨?_, signOf_pack _ _ _, ?_⟩
  · rw [Operand.of, classOf_normal_iff, expOf_pack, sigOf_pack, hexp, Nat.mod_eq_of_lt hlt]
    omega
  · rw [Operand.of, magOf_toRat, expOf_pack, sigOf_pack, hexp, Nat.mod_eq_of_lt hlt, hsig, Nat.cast_mul, mul_assoc,
      Nat.cast_pow, Nat.cast_ofNat, ← zpow_natCast, ← zpow_add₀ two_ne_zero]
    congr 2
    omega

/-- The value of a denormal operand, which is a normal extended real. -/
theorem fromReal_denormal_value (h0 : frac ≠ 0) :
    isFinite (fromReal f (f.pack neg 0 frac)).value = true ∧ signOf (fromReal f (f.pack neg 0 frac)).value = neg ∧
      (magOf (fromReal f (f.pack neg 0 frac)).value).toRat = (frac : ℚ) * (2 : ℚ) ^ f.tiniest := by
  obtain ⟨-, -, -, hbias, -, hfrac, -, htiny⟩ := RealFormat.sizes hf
  have hlog := (Nat.log2_lt h0).mpr hw
  rw [fromReal_denormal hf neg hw h0]
  exact enc80_normal neg frac f.tiniest h0 (by rw [show frac.log2 - 63 = 0 by omega]; exact one_dvd _) (by omega) (by omega)

end

/-- A denormal extended real is far below every single and double. -/
theorem abs_realOf_denormal {x : Ext} (h : isDenormal x = true) : |realOf x| < (2 : ℚ) ^ (-16381 : ℤ) := by
  obtain ⟨he, -⟩ := (isDenormal_iff x).mp h
  rw [abs_realOf, magOf_toRat, he]
  have hsig : (sigOf x : ℚ) < (2 : ℚ) ^ (64 : ℤ) := by exact_mod_cast sigOf_lt x
  calc (sigOf x : ℚ) * (2 : ℚ) ^ ((max 0 1 : ℕ) - 16446 : ℤ) < (2 : ℚ) ^ (64 : ℤ) * (2 : ℚ) ^ ((max 0 1 : ℕ) - 16446 : ℤ) :=
        mul_lt_mul_of_pos_right hsig (by positivity)
    _ = (2 : ℚ) ^ (-16381 : ℤ) := by rw [← zpow_add₀ two_ne_zero]; norm_num

/-! ### Rounding a representable value -/

/-- The exponent of `n * 2 ^ q`. -/
theorem Mag.log2_of_eq {m : Mag} (hd : m.den ≠ 0) {n : ℕ} {q : ℤ} (h0 : n ≠ 0) (h : m.toRat = (n : ℚ) * (2 : ℚ) ^ q) :
    m.log2 = n.log2 + q := by
  have hpos : 0 < m.toRat := by
    rw [h]
    exact mul_pos (by exact_mod_cast Nat.pos_of_ne_zero h0) (by positivity)
  have hle : (2 : ℚ) ^ (n.log2 : ℤ) ≤ n := by rw [zpow_natCast]; exact_mod_cast Nat.log2_self_le h0
  have hlt : (n : ℚ) < (2 : ℚ) ^ ((n.log2 : ℤ) + 1) := by exact_mod_cast (Nat.lt_log2_self (n := n))
  refine Mag.log2_unique (Mag.num_of_pos hpos) hd ?_ ?_
  · rw [h, zpow_add₀ two_ne_zero]
    exact mul_le_mul_of_nonneg_right hle (by positivity)
  · rw [h, show (n.log2 : ℤ) + q + 1 = (n.log2 + 1) + q by ring, zpow_add₀ two_ne_zero (_ + 1)]
    exact mul_lt_mul_of_pos_right hlt (by positivity)

section
variable {cw : Word16} {f : RealFormat} {v : Exact}

/-- A normal value of the format is stored as it is. -/
theorem storeFinite_normal (hf : f = single ∨ f = double) (hd : v.mag.den ≠ 0) {e frac : ℕ} (h0 : e ≠ 0)
    (he : e < f.expMax) (hw : frac < 2 ^ f.fracBits)
    (h : v.mag.toRat = ((2 ^ f.fracBits + frac : ℕ) : ℚ) * (2 : ℚ) ^ ((e : ℤ) - f.bias - f.fracBits)) :
    storeFinite cw f v = ⟨[], .store (f.pack v.neg e frac) false⟩ := by
  obtain ⟨hp, hmax, -, -, -, -, hemin, -⟩ := RealFormat.sizes hf
  have hn0 : 2 ^ f.fracBits + frac ≠ 0 := by positivity
  have hlog : (2 ^ f.fracBits + frac).log2 = f.fracBits :=
    (Nat.log2_eq_iff hn0).mpr ⟨by omega, by rw [pow_succ]; omega⟩
  have hround : roundTo (roundMode cw) v f.precision =
      ⟨2 ^ f.fracBits + frac, (e : ℤ) - f.bias - f.fracBits, false, false⟩ := by
    rw [roundTo, Mag.log2_of_eq hd hn0 h, hlog, hp]
    rw [show (f.fracBits : ℤ) + ((e : ℤ) - f.bias - f.fracBits) - ((f.fracBits + 1 : ℕ) : ℤ) + 1 =
      (e : ℤ) - f.bias - f.fracBits by push_cast; ring]
    exact roundAt_exact _ _ hd _ _ h
  have hencode : f.encode v.neg (2 ^ f.fracBits + frac) ((e : ℤ) - f.bias - f.fracBits) = f.pack v.neg e frac := by
    rw [RealFormat.encode, if_neg hn0, hlog]
    simp only
    rw [if_pos (by omega), show ((f.fracBits : ℤ) + ((e : ℤ) - f.bias - f.fracBits) + f.bias).toNat = e by omega,
      sub_self, show shiftNat (2 ^ f.fracBits + frac) 0 = 2 ^ f.fracBits + frac by simp [shiftNat],
      Nat.add_mod_left, Nat.mod_eq_of_lt hw]
  rw [storeFinite]
  simp only [hround, Rounded.log2, hlog]
  rw [if_neg (by omega), if_neg (by omega), hencode]
  rfl

/-- A denormal value of the format is stored as it is, if #U is masked. -/
theorem storeFinite_denormal (hf : f = single ∨ f = double) (hu : maskedIn cw .u = true) (hd : v.mag.den ≠ 0) {frac : ℕ}
    (h0 : frac ≠ 0) (hw : frac < 2 ^ f.fracBits) (h : v.mag.toRat = (frac : ℚ) * (2 : ℚ) ^ f.tiniest) :
    storeFinite cw f v = ⟨[], .store (f.pack v.neg 0 frac) false⟩ := by
  obtain ⟨hp, hmax, -, -, -, -, hemin, htiny⟩ := RealFormat.sizes hf
  have hlog := (Nat.log2_lt h0).mpr hw
  have hvlog := Mag.log2_of_eq hd h0 h
  have hshift : v.mag.toRat =
      ((frac * 2 ^ (f.fracBits - frac.log2) : ℕ) : ℚ) * (2 : ℚ) ^ (v.mag.log2 - f.precision + 1) := by
    rw [h, hvlog, Nat.cast_mul, mul_assoc, Nat.cast_pow, Nat.cast_ofNat, ← zpow_natCast, ← zpow_add₀ two_ne_zero]
    congr 2
    omega
  have hmant0 : frac * 2 ^ (f.fracBits - frac.log2) ≠ 0 := by positivity
  have hrlog : (roundTo (roundMode cw) v f.precision).log2 = v.mag.log2 := by
    rw [roundTo, roundAt_exact _ _ hd _ _ hshift, Rounded.log2]
    exact (Mag.log2_of_eq hd hmant0 hshift).symm
  have hencode : f.encode v.neg frac f.tiniest = f.pack v.neg 0 frac := by
    rw [RealFormat.encode, if_neg h0]
    simp only
    rw [if_neg (by omega), sub_self]
    simp [shiftNat]
  rw [storeFinite]
  simp only [hrlog, roundAt_exact (roundMode cw) v hd _ _ h]
  rw [if_neg (by omega), if_pos (by omega), if_pos hu, hencode]
  rfl

end

/-! ### A single or double is stored as it was loaded -/

section
variable {cw : Word16} {d : Bool} {f : RealFormat} {x : Ext}

theorem storeReal_normal (h : classOf x = .normal) : storeReal cw d f x = storeFinite cw f (valOf x) := by
  unfold storeReal
  rw [h]

theorem storeReal_zero (h : classOf x = .zero) : storeReal cw d f x = ⟨[], .store (f.pack (signOf x) 0 0) false⟩ := by
  unfold storeReal
  rw [h]

theorem storeReal_infinity (h : classOf x = .infinity) :
    storeReal cw d f x = ⟨[], .store (f.pack (signOf x) f.expMax 0) false⟩ := by
  unfold storeReal
  rw [h]

theorem storeReal_qnan (h : classOf x = .qnan) : storeReal cw d f x = ⟨[], .store (f.narrowNaN x) false⟩ := by
  unfold storeReal
  rw [h]

theorem storeReal_snan (h : classOf x = .snan) : storeReal cw d f x = .indefinite cw (f.narrowNaN x) := by
  unfold storeReal
  rw [h]
  rfl

theorem storeReal_unsupported (h : classOf x = .unsupported) : storeReal cw d f x = .indefinite cw f.indefinite := by
  unfold storeReal
  rw [h]
  rfl

theorem storeReal_denormal (h : isDenormal x = true) : storeReal cw d f x =
    if d = true then
      if maskedIn cw .d = true then ⟨.d :: (storeFinite cw f (valOf x)).flags, (storeFinite cw f (valOf x)).action⟩
      else ⟨[.d], .abandonBefore⟩
    else storeFinite cw f (valOf x) := by
  unfold isDenormal at h
  unfold storeReal
  cases hc : classOf x <;> simp only [hc, Bool.false_eq_true] at h ⊢

end

/-- A finite encoding is a zero, a denormal or a normal number. -/
theorem classes_of_isFinite {x : Ext} (h : isFinite x = true) :
    classOf x = .zero ∨ isDenormal x = true ∨ classOf x = .normal := by
  unfold isFinite at h
  unfold isDenormal
  cases hc : classOf x <;> simp_all

/-- The fraction of a NaN: the quiet bit is its highest. -/
theorem quiet_fraction {w frac : ℕ} (hw1 : 1 ≤ w) (h : 2 ^ (w - 1) ≤ frac) (hw : frac < 2 ^ w) :
    frac ||| 2 ^ (w - 1) = frac := by
  have hbit : frac.testBit (w - 1) = true := by
    rw [Nat.testBit_eq_decide_div_mod_eq, decide_eq_true_iff]
    have h1 : 1 ≤ frac / 2 ^ (w - 1) := (Nat.one_le_div_iff (by positivity)).mpr h
    have h2 : frac / 2 ^ (w - 1) < 2 := by
      rw [Nat.div_lt_iff_lt_mul (by positivity), ← pow_succ']
      rwa [Nat.sub_add_cancel hw1]
    omega
  apply Nat.eq_of_testBit_eq
  intro i
  rw [Nat.testBit_or, Nat.testBit_two_pow]
  by_cases hi : w - 1 = i
  · rw [← hi, hbit]
    rfl
  · simp [hi]

section
variable {cw : Word16} {d : Bool} {f : RealFormat}

/-- The infinities and NaNs of the format. -/
theorem fromReal_special_value (hf : f = single ∨ f = double) (neg : Bool) {frac : ℕ} (hw : frac < 2 ^ f.fracBits) :
    (classOf (fromReal f (f.pack neg f.expMax frac)).value =
        if frac = 0 then .infinity else if 2 ^ (f.fracBits - 1) ≤ frac then .qnan else .snan) ∧
      signOf (fromReal f (f.pack neg f.expMax frac)).value = neg ∧
      (2 ^ (f.fracBits - 1) ≤ frac →
        f.narrowNaN (fromReal f (f.pack neg f.expMax frac)).value = f.pack neg f.expMax frac) := by
  obtain ⟨-, -, -, -, hfrac, hfrac', -⟩ := RealFormat.sizes hf
  obtain ⟨-, hlt⟩ := RealFormat.sig_bounds hf hw
  have hsig : sigOf (Machine.pack neg 0x7FFF (2 ^ 63 + frac * 2 ^ (63 - f.fracBits))) =
      2 ^ 63 + frac * 2 ^ (63 - f.fracBits) := by
    rw [sigOf_pack, Nat.mod_eq_of_lt hlt]
  have hquiet : 3 * 2 ^ 62 ≤ 2 ^ 63 + frac * 2 ^ (63 - f.fracBits) ↔ 2 ^ (f.fracBits - 1) ≤ frac := by
    have h62 : 2 ^ (f.fracBits - 1) * 2 ^ (63 - f.fracBits) = 2 ^ 62 := by
      rw [← pow_add]
      congr 1
      omega
    rw [show 3 * 2 ^ 62 = 2 ^ 63 + 2 ^ 62 by norm_num, Nat.add_le_add_iff_left, ← h62]
    exact Nat.mul_le_mul_right_iff (by positivity)
  have hzero : 2 ^ 63 + frac * 2 ^ (63 - f.fracBits) = 2 ^ 63 ↔ frac = 0 := by
    simp
  rw [fromReal_special hf neg hw, Operand.of]
  refine ⟨?_, signOf_pack _ _ _, fun h => ?_⟩
  · rw [classOf_eq, expOf_pack, hsig, if_neg (by decide), if_pos (by decide), if_neg (by omega)]
    simp only [hzero, hquiet]
  · rw [RealFormat.narrowNaN, signOf_pack, fracOf_eq, hsig, Nat.add_mod_left, Nat.mod_eq_of_lt (by omega),
      Nat.mul_div_cancel _ (by positivity), quiet_fraction (by omega) h hw]

/-- A normal extended real whose conversion to the format is exact (the class is told by the size). -/
theorem classOf_of_large {x : Ext} (h : isFinite x = true) (hv : (2 : ℚ) ^ (-16381 : ℤ) ≤ |realOf x|) :
    classOf x = .normal := by
  rcases classes_of_isFinite h with hz | hd | hn
  · rw [(realOf_eq_zero_iff_zero h).mpr hz, abs_zero] at hv
    exact absurd hv (not_le.mpr (by positivity))
  · exact absurd hv (not_le.mpr (abs_realOf_denormal hd))
  · exact hn

theorem storeReal_fromReal (hf : f = single ∨ f = double) {m : ℕ} (hm : m < 256 ^ f.bytes) (hu : maskedIn cw .u = true)
    (hsnan : classOf (fromReal f m).value ≠ .snan) : storeReal cw d f (fromReal f m).value = ⟨[], .store m false⟩ := by
  obtain ⟨neg, e, frac, he, hw, rfl⟩ := RealFormat.exists_pack hf hm
  obtain ⟨hp, hmax, hbias, hbias', hfrac, hfrac', hemin, htiny⟩ := RealFormat.sizes hf
  by_cases h0 : e = 0
  · subst h0
    by_cases hz : frac = 0
    · subst hz
      have hvalue : fromReal f (f.pack neg 0 0) = .of (zero80 neg) := by
        obtain ⟨-, hs, he', hfrac0⟩ := RealFormat.pack_fields hf neg (Nat.zero_le _) hw
        rw [fromReal]
        simp only [hs, he', hfrac0, if_true]
      rw [hvalue, Operand.of, storeReal_zero (classOf_zero80 neg), signOf_zero80]
    · obtain ⟨hfin, hsign, hmag⟩ := fromReal_denormal_value hf neg hw hz
      have hone : (1 : ℚ) ≤ frac := by exact_mod_cast Nat.one_le_iff_ne_zero.mpr hz
      have hlarge : (2 : ℚ) ^ (-16381 : ℤ) ≤ |realOf (fromReal f (f.pack neg 0 frac)).value| := by
        rw [abs_realOf, hmag]
        calc (2 : ℚ) ^ (-16381 : ℤ) ≤ (2 : ℚ) ^ f.tiniest := zpow_le_zpow_right₀ one_le_two (by omega)
          _ ≤ (frac : ℚ) * (2 : ℚ) ^ f.tiniest := le_mul_of_one_le_left (by positivity) hone
      rw [storeReal_normal (classOf_of_large hfin hlarge), storeFinite_denormal hf hu (magOf_den _) hz hw hmag]
      rw [valOf, hsign]
  · rcases he.lt_or_eq with hlt | rfl
    · obtain ⟨hclass, hsign, hmag⟩ := fromReal_normal_value hf neg hw h0 hlt
      rw [storeReal_normal hclass, storeFinite_normal hf (magOf_den _) h0 hlt hw hmag]
      rw [valOf, hsign]
    · obtain ⟨hclass, hsign, hnarrow⟩ := fromReal_special_value hf neg hw
      by_cases hz : frac = 0
      · rw [if_pos hz] at hclass
        rw [storeReal_infinity hclass, hsign, hz]
      · rw [if_neg hz] at hclass
        have hquiet : 2 ^ (f.fracBits - 1) ≤ frac := by
          by_contra h
          rw [if_neg h] at hclass
          exact hsnan hclass
        rw [if_pos hquiet] at hclass
        rw [storeReal_qnan hclass, hnarrow hquiet]

/-- The NaN that a NaN is stored as is quiet and has its sign (40_numerics.md R227). -/
theorem narrowNaN_spec (hf : f = single ∨ f = double) (x : Ext) : f.narrowNaN x < 256 ^ f.bytes ∧
    classOf (fromReal f (f.narrowNaN x)).value = .qnan ∧ signOf (fromReal f (f.narrowNaN x)).value = signOf x := by
  obtain ⟨-, -, -, -, hfrac, hfrac', -⟩ := RealFormat.sizes hf
  have hlow : fracOf x / 2 ^ (63 - f.fracBits) < 2 ^ f.fracBits := by
    rw [Nat.div_lt_iff_lt_mul (by positivity), ← pow_add, show f.fracBits + (63 - f.fracBits) = 63 by omega, fracOf_eq]
    exact Nat.mod_lt _ (by positivity)
  have hw : fracOf x / 2 ^ (63 - f.fracBits) ||| 2 ^ (f.fracBits - 1) < 2 ^ f.fracBits :=
    Nat.or_lt_two_pow hlow (Nat.pow_lt_pow_right one_lt_two (by omega))
  have hquiet : 2 ^ (f.fracBits - 1) ≤ fracOf x / 2 ^ (63 - f.fracBits) ||| 2 ^ (f.fracBits - 1) := Nat.right_le_or
  have hz : fracOf x / 2 ^ (63 - f.fracBits) ||| 2 ^ (f.fracBits - 1) ≠ 0 := by
    have : 0 < 2 ^ (f.fracBits - 1) := by positivity
    omega
  obtain ⟨hclass, hsign, -⟩ := fromReal_special_value hf (signOf x) hw
  rw [if_neg hz, if_pos hquiet] at hclass
  exact ⟨(RealFormat.pack_fields hf (signOf x) le_rfl hw).1, hclass, hsign⟩

end

/-! ### Signed magnitudes -/

theorem Exact.abs_toRat (neg : Bool) (m : Mag) : |Exact.toRat ⟨neg, m⟩| = m.toRat := by
  have h := Mag.toRat_nonneg m
  cases neg <;> simp [Exact.toRat, abs_of_nonneg h]

/-- Two exact values of one sign are equal exactly when their magnitudes are. -/
theorem Exact.toRat_inj {neg : Bool} {m n : Mag} : Exact.toRat ⟨neg, m⟩ = Exact.toRat ⟨neg, n⟩ ↔ m.toRat = n.toRat := by
  cases neg <;> simp [Exact.toRat]

/-- The value of an encoding whose sign and magnitude are known. -/
theorem realOf_of_fields {x : Ext} {neg : Bool} {m : Mag} (hs : signOf x = neg) (hm : (magOf x).toRat = m.toRat) :
    realOf x = Exact.toRat ⟨neg, m⟩ := by
  rw [realOf, valOf, hs]
  exact Exact.toRat_inj.mpr hm

theorem Rounded.toRat_multiple (neg : Bool) (r : Rounded) :
    ∃ k : ℤ, Exact.toRat ⟨neg, r.toMag⟩ = k * (2 : ℚ) ^ r.quantum := by
  cases neg
  · exact ⟨r.mant, by simp [Exact.toRat, Rounded.toMag_toRat]⟩
  · exact ⟨-r.mant, by simp [Exact.toRat, Rounded.toMag_toRat]⟩

/-! ### A finite value rounded to the format -/

/-- The masked overflow values of a format (40_numerics.md R203). -/
theorem overflowValue_spec {f : RealFormat} (hf : f = single ∨ f = double) (neg : Bool) :
    (f.overflowValue true neg < 256 ^ f.bytes ∧ (fromReal f (f.overflowValue true neg)).value = inf80 neg) ∧
      f.overflowValue false neg < 256 ^ f.bytes ∧ isFinite (fromReal f (f.overflowValue false neg)).value = true ∧
      signOf (fromReal f (f.overflowValue false neg)).value = neg ∧
      (magOf (fromReal f (f.overflowValue false neg)).value).toRat =
        (2 : ℚ) ^ (f.bias + 1 : ℤ) - (2 : ℚ) ^ (f.bias + 1 - f.precision : ℤ) := by
  obtain ⟨hp, hmax, hbias, -⟩ := RealFormat.sizes hf
  have hw : 2 ^ f.fracBits - 1 < 2 ^ f.fracBits := Nat.sub_lt (by positivity) one_pos
  obtain ⟨hclass, hsign, hmag⟩ := fromReal_normal_value hf neg (e := f.expMax - 1) hw (by omega) (by omega)
  refine ⟨⟨(RealFormat.pack_fields hf neg le_rfl (by positivity)).1, ?_⟩,
    (RealFormat.pack_fields hf neg (by omega) hw).1, ?_, hsign, hmag.trans ?_⟩
  · rw [RealFormat.overflowValue, if_pos rfl, fromReal_special hf neg (by positivity), Nat.zero_mul, Nat.add_zero]
    rfl
  · have h := (classOf_normal_iff _).mp hclass
    exact (isFinite_iff _).mpr ⟨h.2.1, .inr h.2.2⟩
  · rw [show ((f.expMax - 1 : ℕ) : ℤ) - f.bias - f.fracBits = f.bias + 1 - f.precision by omega,
      show 2 ^ f.fracBits + (2 ^ f.fracBits - 1) = 2 ^ f.precision - 1 by rw [hp, pow_succ]; omega,
      Nat.cast_sub Nat.one_le_two_pow, sub_mul, Nat.cast_one, one_mul, Nat.cast_pow, Nat.cast_ofNat, ← zpow_natCast,
      ← zpow_add₀ two_ne_zero]
    congr 2
    ring

/-- What is stored of the finite non-zero value `v`, which rounds to `r` with unbounded exponent: the flags and the action,
by the range that `r` lies in (40_numerics.md R225 steps 4 to 7). -/
def StoredReal (cw : Word16) (f : RealFormat) (v r : ℚ) (flags : List Exc) (act : StoreAction) : Prop :=
  if (2 : ℚ) ^ (f.bias + 1 : ℤ) ≤ |r| then
    if maskedIn cw .o = true then
      flags = [.o, .p] ∧ ∃ m c, act = .store m c ∧ m < 256 ^ f.bytes ∧
        if OverflowsToInfinity (roundMode cw) v then (fromReal f m).value = inf80 (decide (v < 0)) ∧ c = true
        else isFinite (fromReal f m).value = true ∧ c = false ∧ 0 ≤ realOf (fromReal f m).value * v ∧
          |realOf (fromReal f m).value| = (2 : ℚ) ^ (f.bias + 1 : ℤ) - (2 : ℚ) ^ (f.bias + 1 - f.precision : ℤ)
    else flags = [.o] ∧ act = .abandonAfter
  else if |r| < (2 : ℚ) ^ f.emin then
    if maskedIn cw .u = true then
      ∃ m c, act = .store m c ∧ m < 256 ^ f.bytes ∧ isFinite (fromReal f m).value = true ∧
        signOf (fromReal f m).value = decide (v < 0) ∧
        RoundedTo (roundMode cw) ((2 : ℚ) ^ f.tiniest) v (realOf (fromReal f m).value) ∧
        (∃ k : ℤ, realOf (fromReal f m).value = k * (2 : ℚ) ^ f.tiniest) ∧
        flags = (if realOf (fromReal f m).value = v then [] else [.u, .p]) ∧
        (c = true ↔ |v| < |realOf (fromReal f m).value|)
    else flags = [.u] ∧ act = .abandonAfter
  else ∃ m c, act = .store m c ∧ m < 256 ^ f.bytes ∧ isFinite (fromReal f m).value = true ∧
    realOf (fromReal f m).value = r ∧ flags = (if r = v then [] else [.p]) ∧ (c = true ↔ |v| < |r|)

theorem precision_pos {f : RealFormat} (hf : f = single ∨ f = double) : 1 ≤ f.precision := by
  rcases hf with rfl | rfl <;> decide

section
variable {cw : Word16} {f : RealFormat} {v : Exact} (hf : f = single ∨ f = double) (hn : v.mag.num ≠ 0)
  (hd : v.mag.den ≠ 0)
include hf hn hd

/-- Above the range of normal numbers (40_numerics.md R203). -/
theorem storeFinite_overflow {r : ℚ} (hr : (2 : ℚ) ^ (f.bias + 1 : ℤ) ≤ |r|)
    (hlog : (f.bias : ℤ) + 1 ≤ (roundTo (roundMode cw) v f.precision).log2) :
    StoredReal cw f v.toRat r (storeFinite cw f v).flags (storeFinite cw f v).action := by
  have hpos := Mag.toRat_pos hn hd
  have hneg : v.neg = decide (v.toRat < 0) := by
    rw [Bool.eq_iff_iff, exact_neg hn hd, decide_eq_true_iff]
  have htoInf : overflowsToInf (roundMode cw) v.neg = true ↔ OverflowsToInfinity (roundMode cw) v.toRat :=
    overflowsToInf_iff _ _ hpos
  obtain ⟨⟨hb, hinf⟩, hb', hfin, hsign, hmag⟩ := overflowValue_spec hf v.neg
  rw [StoredReal, if_pos hr, storeFinite]
  simp only
  rw [if_pos hlog]
  by_cases hm : maskedIn cw .o = true
  · rw [if_pos hm, if_pos hm]
    by_cases hi : overflowsToInf (roundMode cw) v.neg = true
    · rw [hi]
      refine ⟨rfl, _, _, rfl, hb, ?_⟩
      rw [if_pos (htoInf.mp hi)]
      exact ⟨by rw [hinf, hneg], rfl⟩
    · rw [Bool.eq_false_iff.mpr hi]
      refine ⟨rfl, _, _, rfl, hb', ?_⟩
      rw [if_neg (fun h => hi (htoInf.mpr h))]
      refine ⟨hfin, rfl, ?_, by rw [abs_realOf, hmag]⟩
      have hnonneg := mul_nonneg (Mag.toRat_nonneg (magOf (fromReal f (f.overflowValue false v.neg)).value)) hpos.le
      rw [realOf_eq, ← magOf_toRat, hsign, Exact.toRat]
      generalize (magOf (fromReal f (f.overflowValue false v.neg)).value).toRat = m at hnonneg ⊢
      cases v.neg <;> simpa using hnonneg
  · rw [if_neg hm, if_neg hm]
    exact ⟨rfl, rfl⟩

/-- In the range of normal numbers of the format. -/
theorem storeFinite_inRange (hlow : f.emin ≤ (roundTo (roundMode cw) v f.precision).log2)
    (hhigh : (roundTo (roundMode cw) v f.precision).log2 < (f.bias : ℤ) + 1) {r : ℚ}
    (hr : r = Exact.toRat ⟨v.neg, (roundTo (roundMode cw) v f.precision).toMag⟩)
    (h1 : ¬ (2 : ℚ) ^ (f.bias + 1 : ℤ) ≤ |r|) (h2 : ¬ |r| < (2 : ℚ) ^ f.emin) :
    StoredReal cw f v.toRat r (storeFinite cw f v).flags (storeFinite cw f v).action := by
  obtain ⟨hp, -, -, -, -, -, hemin, htiny⟩ := RealFormat.sizes hf
  obtain ⟨hm1, hm2⟩ := roundTo_mant (roundMode cw) v hn hd (precision_pos hf)
  obtain ⟨h0, hmlog⟩ := log2_of_bounds (precision_pos hf) hm1 hm2
  obtain ⟨hb, hfin, hsign, hmag⟩ := fromReal_encode hf v.neg (roundTo (roundMode cw) v f.precision).mant
    (roundTo (roundMode cw) v f.precision).quantum h0
    (by
      rcases hmlog with h | ⟨h, h'⟩
      · rw [h, show f.precision - 1 - f.fracBits = 0 by omega]; exact one_dvd _
      · rw [h', h]; exact Nat.pow_dvd_pow 2 (by omega))
    (by
      rw [Rounded.log2] at hlow
      rcases hmlog with h | ⟨h, h'⟩
      · rw [show (f.tiniest - (roundTo (roundMode cw) v f.precision).quantum).toNat = 0 by omega]; exact one_dvd _
      · rw [h]; exact Nat.pow_dvd_pow 2 (by omega))
    (by rw [Rounded.log2] at hhigh; omega)
  rw [← Rounded.toMag_toRat] at hmag
  have hreal := (realOf_of_fields hsign hmag).trans hr.symm
  rw [StoredReal, if_neg h1, if_neg h2, storeFinite]
  simp only
  rw [if_neg (not_le.mpr hhigh), if_neg (not_lt.mpr hlow)]
  refine ⟨_, _, rfl, hb, hfin, hreal, inexactFlag_eq ?_, ?_⟩
  · rw [hr, show v.toRat = Exact.toRat ⟨v.neg, v.mag⟩ from rfl, Exact.toRat_inj]
    exact roundAt_inexact _ v hd _
  · rw [hr, show v.toRat = Exact.toRat ⟨v.neg, v.mag⟩ from rfl, Exact.abs_toRat, Exact.abs_toRat]
    exact roundAt_up _ v hd _

omit hf hn in
/-- Rounded to a quantum `2 ^ q`, a value below `2 ^ (q + w)` has a mantissa of at most `2 ^ w`. -/
theorem roundAt_mant_le (rm : RoundMode) {q : ℤ} {w : ℕ} (h : v.mag.toRat < (2 : ℚ) ^ (q + w)) :
    (roundAt rm v q).mant ≤ 2 ^ w := by
  obtain ⟨lo, rem, d, hdpos, -, hv, hround⟩ := roundAt_cases rm v hd q
  have hdq : (0 : ℚ) < d := by exact_mod_cast hdpos
  have hfrac : (0 : ℚ) ≤ (rem : ℚ) / d := by positivity
  have hlo : lo < 2 ^ w := by
    rw [hv, add_comm q, zpow_add₀ two_ne_zero, zpow_natCast] at h
    have hlt := lt_of_mul_lt_mul_right h (by positivity)
    exact_mod_cast (by linarith : (lo : ℚ) < (2 : ℚ) ^ w)
  rw [hround]
  split
  · exact hlo.le
  · simp only
    split <;> omega

/-- Below the range of normal numbers: rounded to the smallest denormal (40_numerics.md R225 step 6). -/
theorem storeFinite_tiny (hlow : (roundTo (roundMode cw) v f.precision).log2 < f.emin) {r : ℚ}
    (h1 : ¬ (2 : ℚ) ^ (f.bias + 1 : ℤ) ≤ |r|) (h2 : |r| < (2 : ℚ) ^ f.emin) :
    StoredReal cw f v.toRat r (storeFinite cw f v).flags (storeFinite cw f v).action := by
  obtain ⟨hp, -, hbias, -, hfrac, -, hemin, htiny⟩ := RealFormat.sizes hf
  have hvlog := (roundTo_log2 (roundMode cw) v hn hd (precision_pos hf)).1
  have hneg : v.neg = decide (v.toRat < 0) := by
    rw [Bool.eq_iff_iff, exact_neg hn hd, decide_eq_true_iff]
  have hsmall : v.mag.toRat < (2 : ℚ) ^ (f.tiniest + f.fracBits) :=
    (Mag.log2_spec hn hd).2.trans_le (zpow_le_zpow_right₀ one_le_two (by omega))
  generalize hR : roundAt (roundMode cw) v f.tiniest = R
  have hmant : R.mant ≤ 2 ^ f.fracBits := hR ▸ roundAt_mant_le hd (roundMode cw) hsmall
  have hquantum : R.quantum = f.tiniest := hR ▸ roundAt_quantum _ _ _
  have hinexact := hR ▸ roundAt_inexact (roundMode cw) v hd f.tiniest
  have hup := hR ▸ roundAt_up (roundMode cw) v hd f.tiniest
  have hround := hR ▸ roundAt_roundedTo (roundMode cw) v hd f.tiniest
  obtain ⟨hb, hfin, hsign, hmag⟩ : f.encode v.neg R.mant R.quantum < 256 ^ f.bytes ∧
      isFinite (fromReal f (f.encode v.neg R.mant R.quantum)).value = true ∧
      signOf (fromReal f (f.encode v.neg R.mant R.quantum)).value = v.neg ∧
      (magOf (fromReal f (f.encode v.neg R.mant R.quantum)).value).toRat = R.toMag.toRat := by
    rw [Rounded.toMag_toRat]
    by_cases h0 : R.mant = 0
    · have hzero : fromReal f (f.encode v.neg R.mant R.quantum) = .of (zero80 v.neg) := by
        obtain ⟨-, hs, he', hfrac0⟩ := RealFormat.pack_fields hf v.neg (Nat.zero_le _) (Nat.two_pow_pos f.fracBits)
        rw [RealFormat.encode, if_pos h0, fromReal]
        simp only [hs, he', hfrac0, if_true]
      rw [hzero, Operand.of, h0, Nat.cast_zero, zero_mul, RealFormat.encode, if_pos rfl]
      refine ⟨(RealFormat.pack_fields hf v.neg (Nat.zero_le _) (Nat.two_pow_pos f.fracBits)).1, isFinite_zero80 _,
        signOf_zero80 _, ?_⟩
      rw [← abs_realOf, realOf_zero80, abs_zero]
    · have hmlog : R.mant.log2 ≤ f.fracBits := by
        have := (Nat.log2_lt h0).mpr (hmant.trans_lt (Nat.pow_lt_pow_right one_lt_two (Nat.lt_succ_self _)))
        omega
      refine fromReal_encode hf v.neg R.mant R.quantum h0 ?_ ?_ ?_
      · rw [show R.mant.log2 - f.fracBits = 0 by omega]; exact one_dvd _
      · rw [hquantum, sub_self]; exact one_dvd _
      · rw [hquantum]; omega
  have hreal := realOf_of_fields hsign hmag
  have hexact : R.inexact = true ↔ ¬ Exact.toRat ⟨v.neg, R.toMag⟩ = v.toRat := by
    rw [show v.toRat = Exact.toRat ⟨v.neg, v.mag⟩ from rfl, Exact.toRat_inj]
    exact hinexact
  have hmultiple := R.toRat_multiple v.neg
  rw [hquantum] at hmultiple
  rw [StoredReal, if_neg h1, if_pos h2, storeFinite]
  simp only [hR]
  rw [if_neg (show ¬ (f.bias : ℤ) + 1 ≤ (roundTo (roundMode cw) v f.precision).log2 by omega), if_pos hlow]
  by_cases hm : maskedIn cw .u = true
  · rw [if_pos hm, if_pos hm]
    by_cases hi : R.inexact = true
    · rw [if_pos hi]
      refine ⟨_, _, rfl, hb, hfin, hsign.trans hneg, by rw [hreal]; exact hround, by rw [hreal]; exact hmultiple, ?_, ?_⟩
      · rw [hreal, if_neg (hexact.mp hi)]
      · rw [hreal, Exact.abs_toRat, Exact.abs_toRat]
        exact hup
    · have heq : Exact.toRat ⟨v.neg, R.toMag⟩ = v.toRat := by
        by_contra h
        exact hi (hexact.mpr h)
      rw [if_neg hi]
      refine ⟨_, _, rfl, hb, hfin, hsign.trans hneg, by rw [hreal]; exact hround, by rw [hreal]; exact hmultiple, ?_, ?_⟩
      · rw [hreal, if_pos heq]
      · rw [hreal, heq]
        simp
  · rw [if_neg hm, if_neg hm]
    exact ⟨rfl, rfl⟩

/-- A finite non-zero value is rounded once to the precision of the format, and stored by the range it then lies in. -/
theorem storeFinite_spec (cw : Word16) : ∃ r : ℚ,
    RoundedTo (roundMode cw) ((2 : ℚ) ^ (v.mag.log2 - f.precision + 1)) v.toRat r ∧
      (∃ k : ℤ, r = k * (2 : ℚ) ^ (v.mag.log2 - f.precision + 1)) ∧
      StoredReal cw f v.toRat r (storeFinite cw f v).flags (storeFinite cw f v).action := by
  have hpow := roundTo_pow_le (roundMode cw) v hn hd (precision_pos hf)
  have habs := Exact.abs_toRat v.neg (roundTo (roundMode cw) v f.precision).toMag
  have hmultiple := (roundTo (roundMode cw) v f.precision).toRat_multiple v.neg
  rw [roundTo, roundAt_quantum, ← roundTo] at hmultiple
  refine ⟨_, roundAt_roundedTo (roundMode cw) v hd _, hmultiple, ?_⟩
  change StoredReal cw f v.toRat (Exact.toRat ⟨v.neg, (roundTo (roundMode cw) v f.precision).toMag⟩) _ _
  by_cases h1 : (f.bias : ℤ) + 1 ≤ (roundTo (roundMode cw) v f.precision).log2
  · exact storeFinite_overflow hf hn hd (by rw [habs]; exact (hpow _).mpr h1) h1
  · have h1' := mt (hpow _).mp h1
    rw [← habs] at h1'
    by_cases h2 : f.emin ≤ (roundTo (roundMode cw) v f.precision).log2
    · exact storeFinite_inRange hf hn hd h2 (not_le.mp h1) rfl h1' (by rw [habs, not_lt]; exact (hpow _).mpr h2)
    · exact storeFinite_tiny hf hn hd (not_le.mp h2) h1' (by rw [habs, ← not_le]; exact mt (hpow _).mp h2)

end

/-- A finite non-zero value that no unmasked #D abandons is stored by `storeFinite`. -/
theorem storeReal_finite {cw : Word16} {d : Bool} {f : RealFormat} {x : Ext} (hfin : isFinite x = true)
    (h0 : realOf x ≠ 0) (hd : isDenormal x = false ∨ d = false ∨ maskedIn cw .d = true) :
    storeReal cw d f x = ⟨(if isDenormal x && d then [.d] else []) ++ (storeFinite cw f (valOf x)).flags,
      (storeFinite cw f (valOf x)).action⟩ := by
  rcases classes_of_isFinite hfin with hz | hden | hn
  · exact absurd ((realOf_eq_zero_iff_zero hfin).mpr hz) h0
  · rw [storeReal_denormal hden, hden]
    cases d with
    | false => rfl
    | true =>
      have hm : maskedIn cw .d = true := by simpa [hden] using hd
      rw [hm]
      rfl
  · have hden : isDenormal x = false := by simp [isDenormal, hn]
    rw [storeReal_normal hn, hden]
    rfl

/-- Settles O25: by the class of the operand; a finite value that is not zero goes through `storeFinite_spec`. -/
theorem realsAreStoredRounded : Obligations.RealsAreStoredRounded := by
  refine ⟨fun cw d f m hf hm hu hsnan => storeReal_fromReal hf hm hu hsnan, fun cw d f x hf => ⟨storeReal_unsupported,
    fun h => ?_, fun h => ?_, fun h hd hm => ?_, fun e v hfin hd hv h1 h2 => ?_⟩⟩
  · obtain ⟨hb, hclass, hsign⟩ := narrowNaN_spec hf x
    exact ⟨_, hb, storeReal_snan h, hclass, hsign⟩
  · obtain ⟨hb, hclass, hsign⟩ := narrowNaN_spec hf x
    exact ⟨_, hb, storeReal_qnan h, hclass, hsign⟩
  · rw [storeReal_denormal h, if_pos hd, if_neg (by simp [hm])]
  · subst hv
    have h0 : realOf x ≠ 0 := fun h => by
      rw [h, abs_zero] at h1
      exact absurd h1 (not_le.mpr (by positivity))
    rw [abs_realOf] at h1 h2
    have hnum := Mag.num_of_pos (lt_of_lt_of_le (by positivity) h1)
    have hlog : (valOf x).mag.log2 = e := Mag.log2_unique hnum (magOf_den x) h1 h2
    obtain ⟨r, hround, hmultiple, hstored⟩ := storeFinite_spec hf (v := valOf x) hnum (magOf_den x) cw
    rw [hlog] at hround hmultiple
    exact ⟨r, _, _, storeReal_finite hfin h0 hd, hround, hmultiple, hstored⟩

end Sys2Proof.Machine
end

section
/-! The forms of the four operations: what each makes of the answer of its operation, where that is refused, and empty
operands (43_basic_arithmetic.md R321, R322). -/

namespace Sys2Proof.Machine

/-! ### From the operation to the instruction -/

section
variable {s u : State} {i : Instr} {p : Prefixes} {m : AddrMode} {n : Nat} {e : Refusal}

/-- A register form whose operation completes in one of the ways it can, and what its end says of the state. -/
theorem runReg_done {body : Body} {P : State → Prop} (hr : s.Ready) (hb : body (s.record i none) = .ok u)
    (ho : OnStack (s.record i none) u) (hp : P (u.retire i.length s.es)) :
    ∃ t, runReg i body s = .next t ∧ s.Ran t i none ∧ P t := by
  obtain ⟨hnext, hran⟩ := runReg_ran hr hb ho
  exact ⟨_, hnext, hran, hp⟩

theorem runMem_done {body : Word32 → Body} {P : State → Prop} (hr : s.Ready) (ha : s.Allows (s.ea m) n)
    (hb : body (s.ea m) (s.record i (some (s.operandPtr p m))) = .ok u)
    (ho : OnStack (s.record i (some (s.operandPtr p m))) u) (hp : P (u.retire i.length s.es)) :
    ∃ t, runMem i p m n body s = .next t ∧ s.Ran t i (some (s.operandPtr p m)) ∧ P t := by
  obtain ⟨hnext, hran⟩ := runMem_ran hr ha hb ho
  exact ⟨_, hnext, hran, hp⟩

/-- A register form whose operation is refused. -/
theorem runReg_refused {body : Body} (hr : s.Ready) (hb : body (s.record i none) = .error e) :
    runReg i body s = .refused e := by
  rw [runReg, afterWait_ready hr, hb]
  rfl

theorem runMem_refused {body : Word32 → Body} (hr : s.Ready) (ha : s.Allows (s.ea m) n)
    (hb : body (s.ea m) (s.record i (some (s.operandPtr p m))) = .error e) : runMem i p m n body s = .refused e := by
  rw [runMem, afterWait_ready hr, withOperand_free ha, hb]
  rfl

end

/-! ### The bodies of the forms -/

/-- The operation of a register form with operands `left` and `right`. -/
theorem arithStack_full {op : ArithOp} {d o : Idx} {pop rev : Bool} {s : State} (hd : s.Full d) (ho : s.Full o) :
    arithStack op rev d o pop s =
      (arith op s.cw (pcBits s.cw) s.nanPick (.of (if rev then s.st o else s.st d))
        (.of (if rev then s.st d else s.st o))).map fun r => writeReplied d pop r s := by
  rw [arithStack, if_neg (by rw [show s.isEmpty d = false from hd, show s.isEmpty o = false from ho]; decide)]
  cases rev <;> rfl

theorem arithStack_empty {op : ArithOp} {d o : Idx} {pop rev : Bool} {s : State}
    (h : s.isEmpty d = true ∨ s.isEmpty o = true) : arithStack op rev d o pop s = .ok (underflow d pop s) := by
  rw [arithStack, if_pos (by simpa using h)]

/-- What each register form executes. -/
theorem arithRows_exec : ∀ row ∈ arithRows, ∀ (p : Prefixes) (i : Idx) (s : State), exec (row.make p i) s =
    runReg (row.make p i) (fun v => arithStack row.op row.reverse (row.dest i) (row.other i) row.pop v) s := by
  simp only [arithRows, List.forall_mem_cons]
  exact ⟨fun _ _ _ => rfl, fun _ _ _ => rfl, fun _ _ _ => rfl, fun _ _ _ => rfl, fun _ _ _ => rfl, fun _ _ _ => rfl,
    fun _ _ _ => rfl, fun _ _ _ => rfl, fun _ _ _ => rfl, fun _ _ _ => rfl, fun _ _ _ => rfl, fun _ _ _ => rfl,
    fun _ _ _ => rfl, fun _ _ _ => rfl, fun _ _ _ => rfl, fun _ _ _ => rfl, fun _ _ _ => rfl, fun _ _ _ => rfl,
    by simp⟩

/-- The operation of a memory form, by its row. -/
def ArithMemRow.body (row : ArithMemRow) (a : Word32) (v : State) : Except Refusal State :=
  if row.isFidiv then divideByInt v.intPrecision (row.operand v a) v
  else arithMem row.op row.reverse (if row.integer then v.intPrecision else pcBits v.cw) (row.operand v a) v

/-- What each memory form executes. -/
theorem arithMemRows_exec : ∀ row ∈ arithMemRows, ∀ (p : Prefixes) (m : AddrMode) (s : State),
    exec (row.make p m) s = runMem (row.make p m) p m row.bytes row.body s := by
  simp only [arithMemRows, List.forall_mem_cons]
  exact ⟨fun _ _ _ => rfl, fun _ _ _ => rfl, fun _ _ _ => rfl, fun _ _ _ => rfl, fun _ _ _ => rfl, fun _ _ _ => rfl,
    fun _ _ _ => rfl, fun _ _ _ => rfl, fun _ _ _ => rfl, fun _ _ _ => rfl, fun _ _ _ => rfl, fun _ _ _ => rfl,
    fun _ _ _ => rfl, fun _ _ _ => rfl, fun _ _ _ => rfl, fun _ _ _ => rfl, fun _ _ _ => rfl, fun _ _ _ => rfl,
    fun _ _ _ => rfl, fun _ _ _ => rfl, fun _ _ _ => rfl, fun _ _ _ => rfl, fun _ _ _ => rfl, fun _ _ _ => rfl,
    by simp⟩

/-- A memory operand does not depend on the pointer registers. -/
theorem arithMemRows_operand : ∀ row ∈ arithMemRows, ∀ (s : State) (i : Instr) (o : Option FarPtr) (a : Word32),
    row.operand (s.record i o) a = row.operand s a := by
  simp only [arithMemRows, List.forall_mem_cons]
  exact ⟨fun _ _ _ _ => rfl, fun _ _ _ _ => rfl, fun _ _ _ _ => rfl, fun _ _ _ _ => rfl, fun _ _ _ _ => rfl,
    fun _ _ _ _ => rfl, fun _ _ _ _ => rfl, fun _ _ _ _ => rfl, fun _ _ _ _ => rfl, fun _ _ _ _ => rfl,
    fun _ _ _ _ => rfl, fun _ _ _ _ => rfl, fun _ _ _ _ => rfl, fun _ _ _ _ => rfl, fun _ _ _ _ => rfl,
    fun _ _ _ _ => rfl, fun _ _ _ _ => rfl, fun _ _ _ _ => rfl, fun _ _ _ _ => rfl, fun _ _ _ _ => rfl,
    fun _ _ _ _ => rfl, fun _ _ _ _ => rfl, fun _ _ _ _ => rfl, fun _ _ _ _ => rfl, by simp⟩

theorem ArithMemRow.precision_eq (row : ArithMemRow) (s : State) :
    row.precision s = if row.integer then s.intPrecision else pcBits s.cw := by
  rw [ArithMemRow.precision, State.intPrecision]
  cases row.integer <;> cases s.params.pcOnIntForms <;> rfl

theorem ArithMemRow.isFidiv_iff (row : ArithMemRow) :
    row.isFidiv = true ↔ row.integer = true ∧ row.op = .div ∧ row.reverse = false := by
  simp [ArithMemRow.isFidiv, and_assoc]

/-- A memory form of a register that holds a value writes what it makes of the operation's answer. -/
theorem ArithMemRow.body_full (row : ArithMemRow) (a : Word32) {s : State} (h : s.Full 0) :
    row.body a s = (arith row.op s.cw (row.precision s) s.nanPick (row.left s a) (row.right s a)).map fun r =>
      writeReplied 0 false (row.answer s r) s := by
  have h0 : ¬ s.isEmpty 0 = true := by rw [show s.isEmpty 0 = false from h]; decide
  rw [ArithMemRow.body, row.precision_eq, ArithMemRow.left, ArithMemRow.right]
  by_cases hf : row.isFidiv = true
  · obtain ⟨hint, hop, hrev⟩ := row.isFidiv_iff.mp hf
    rw [if_pos hf, divideByInt, if_neg h0, hint, hop, hrev]
    simp only [ArithMemRow.answer, if_pos hf]
    rfl
  · rw [if_neg hf, arithMem, if_neg h0]
    simp only [ArithMemRow.answer, if_neg hf, arithOrdered]
    cases row.reverse <;> rfl

/-- On the recorded state a memory form computes with the operands of the state. -/
theorem arithMemRow_body {row : ArithMemRow} (hrow : row ∈ arithMemRows) {s : State} (h : s.Full 0) (i : Instr)
    (o : Option FarPtr) (a : Word32) : row.body a (s.record i o) =
      (arith row.op s.cw (row.precision s) s.nanPick (row.left s a) (row.right s a)).map fun r =>
        writeReplied 0 false (row.answer s r) (s.record i o) := by
  rw [row.body_full (s := s.record i o) a h, ArithMemRow.left, ArithMemRow.right, arithMemRows_operand row hrow]
  rfl

theorem ArithMemRow.body_empty (row : ArithMemRow) (a : Word32) {s : State} (h : s.isEmpty 0 = true) :
    row.body a s = .ok (underflow 0 false s) := by
  rw [ArithMemRow.body, divideByInt, arithMem, if_pos h, if_pos h, ite_self]

/-! ### What a form makes of the answer of its operation -/

section
variable {row : ArithRow} {s : State} {i : Idx} {p : Prefixes}

/-- A register form writes the answer, signals its exceptions and pops. -/
theorem arithRow_outcome (hrow : row ∈ arithRows) (hr : s.Ready) (hd : s.Full (row.dest i)) (ho : s.Full (row.other i))
    {r : Reply Written}
    (h : arith row.op s.cw (pcBits s.cw) s.nanPick (.of (row.left s i)) (.of (row.right s i)) = .ok r) :
    ∃ t, exec (row.make p i) s = .next t ∧ s.Ran t (row.make p i) none ∧ s.Outcome t (row.dest i) row.pop r := by
  rw [arithRows_exec row hrow]
  refine runReg_done (u := writeReplied (row.dest i) row.pop r (s.record (row.make p i) none)) hr ?_
    (OnStack.writeReplied _ _ _ _) ?_
  · exact (arithStack_full (s := s.record (row.make p i) none) hd ho).trans (congrArg (Except.map _) h)
  · simpa using writeReplied_outcome (row.dest i) row.pop r (s.record (row.make p i) none)

theorem arithRow_refused (hrow : row ∈ arithRows) (hr : s.Ready) (hd : s.Full (row.dest i)) (ho : s.Full (row.other i))
    {e : Refusal}
    (h : arith row.op s.cw (pcBits s.cw) s.nanPick (.of (row.left s i)) (.of (row.right s i)) = .error e) :
    exec (row.make p i) s = .refused e := by
  rw [arithRows_exec row hrow]
  exact runReg_refused hr
    ((arithStack_full (s := s.record (row.make p i) none) hd ho).trans (congrArg (Except.map _) h))

theorem arithRow_empty (hrow : row ∈ arithRows) (hr : s.Ready)
    (h : s.isEmpty (row.dest i) = true ∨ s.isEmpty (row.other i) = true) :
    ∃ t, exec (row.make p i) s = .next t ∧ s.Ran t (row.make p i) none ∧ s.StackFaulted t false ∧
      if s.masked .i = true then s.Wrote t (row.dest i) row.pop indef80 else s.Popped t 0 := by
  rw [arithRows_exec row hrow]
  refine runReg_done hr (arithStack_empty h) (OnStack.underflow _ _ _) ?_
  simpa using underflow_faulted (row.dest i) row.pop (s.record (row.make p i) none)

end

section
variable {row : ArithMemRow} {s : State} {m : AddrMode} {p : Prefixes}

theorem arithMemRow_outcome (hrow : row ∈ arithMemRows) (hr : s.Ready) (h0 : s.Full 0)
    (ha : s.Allows (s.ea m) row.bytes) {r : Reply Written}
    (h : arith row.op s.cw (row.precision s) s.nanPick (row.left s (s.ea m)) (row.right s (s.ea m)) = .ok r) :
    ∃ t, exec (row.make p m) s = .next t ∧ s.Ran t (row.make p m) (some (s.operandPtr p m)) ∧
      s.Outcome t 0 false (row.answer s r) := by
  rw [arithMemRows_exec row hrow]
  refine runMem_done (u := writeReplied 0 false (row.answer s r) (s.record (row.make p m) (some (s.operandPtr p m)))) hr ha ?_
    (OnStack.writeReplied _ _ _ _) ?_
  · exact (arithMemRow_body hrow h0 _ _ _).trans (congrArg (Except.map _) h)
  · simpa using writeReplied_outcome 0 false (row.answer s r) (s.record (row.make p m) (some (s.operandPtr p m)))

theorem arithMemRow_refused (hrow : row ∈ arithMemRows) (hr : s.Ready) (h0 : s.Full 0)
    (ha : s.Allows (s.ea m) row.bytes) {e : Refusal}
    (h : arith row.op s.cw (row.precision s) s.nanPick (row.left s (s.ea m)) (row.right s (s.ea m)) = .error e) :
    exec (row.make p m) s = .refused e := by
  rw [arithMemRows_exec row hrow]
  exact runMem_refused hr ha ((arithMemRow_body hrow h0 _ _ _).trans (congrArg (Except.map _) h))

theorem arithMemRow_empty (hrow : row ∈ arithMemRows) (hr : s.Ready) (h0 : s.isEmpty 0 = true)
    (ha : s.Allows (s.ea m) row.bytes) :
    ∃ t, exec (row.make p m) s = .next t ∧ s.Ran t (row.make p m) (some (s.operandPtr p m)) ∧ s.StackFaulted t false ∧
      if s.masked .i = true then s.Wrote t 0 false indef80 else s.Popped t 0 := by
  rw [arithMemRows_exec row hrow]
  refine runMem_done hr ha (row.body_empty _ h0) (OnStack.underflow _ _ _) ?_
  simpa using underflow_faulted 0 false (s.record (row.make p m) (some (s.operandPtr p m)))

end

/-! ### Answers of the operation -/

theorem Reply.pre_isSome {α : Type} {cw : Word16} {x : Exc} (v : α) (h : maskedIn cw x = true) :
    (Reply.pre cw x v).value.isSome = true := by
  rw [Reply.pre, if_pos h]
  rfl

theorem Reply.afterDenormal_isSome {α : Type} {cw : Word16} {d : Bool} {k : Reply α} (h : maskedIn cw .d = true)
    (hk : k.value.isSome = true) : (Reply.afterDenormal cw d k).value.isSome = true := by
  rw [Reply.afterDenormal_masked k (.inr h)]
  exact hk

theorem nanReply_isSome {cw : Word16} (r : Bool × Ext) (h : maskedIn cw .i = true) :
    ((nanReply cw r).map plain).value.isSome = true := by
  rw [nanReply]
  split
  · exact (Option.isSome_map ..).trans (Reply.pre_isSome _ h)
  · rfl

/-- With a defined precision an operation always completes, with a value if every exception is masked
(40_numerics.md R246). -/
theorem arith_completes (op : ArithOp) (cw : Word16) (q : Nat) (pick : Bool) (a b : Operand) :
    ∃ r, arith op cw (some q) pick a b = .ok r ∧ ((∀ x, maskedIn cw x = true) → r.value.isSome = true) := by
  rw [arith]
  cases nanCheck2 pick a.value b.value with
  | some r => exact ⟨_, rfl, fun h => nanReply_isSome r (h .i)⟩
  | none =>
    cases arithSpecial op (roundMode cw) a.value b.value with
    | invalid => exact ⟨_, rfl, fun h => Reply.pre_isSome _ (h .i)⟩
    | zeroDivide x => exact ⟨_, rfl, fun h => Reply.pre_isSome _ (h .z)⟩
    | exact x => exact ⟨_, rfl, fun h => Reply.afterDenormal_isSome (h .d) rfl⟩
    | compute v =>
      simp only
      split
      next hd => exact ⟨_, rfl, fun h => by simp [h .d] at hd⟩
      next => exact ⟨_, rfl, fun h => Reply.afterDenormal_isSome (h .d) rfl⟩

/-- Finite operands whose result is not zero, with the reserved precision control (log 15). -/
theorem arith_reserved {op : ArithOp} {cw : Word16} {pick : Bool} {a b : Operand} (ha : isFinite a.value = true)
    (hb : isFinite b.value = true) (hz : op = .div → realOf b.value ≠ 0)
    (h0 : op.onRat (realOf a.value) (realOf b.value) ≠ 0) : arith op cw none pick a b =
      if (a.denormal || b.denormal) && !maskedIn cw .d then .ok ⟨[.d], none⟩ else .error .reservedPrecisionControl := by
  obtain ⟨h, -⟩ | ⟨v, hv, -⟩ := arithSpecial_finite op (roundMode cw) ha hb hz
  · exact absurd h h0
  · rw [arith, nanCheck2_ordered pick (isOrdered_of_isFinite ha) (isOrdered_of_isFinite hb)]
    simp only [hv]

/-- No answer that no rounding makes is an overflow. -/
theorem SpecialAnswer.no_overflow {cw : Word16} {pick : Bool} {op : ArithOp} {a b : Operand} {r : Reply Written}
    (h : SpecialAnswer cw pick op a b r) : r.flags.contains .o = false := by
  have exactly : ∀ d x, (Reply.exactly cw d x).flags.contains .o = false := by
    rintro (_ | _) x <;> rfl
  cases h with
  | nan h => cases h <;> rfl
  | addInvalid => rfl
  | subInvalid => rfl
  | mulInvalid => rfl
  | divInvalid => rfl
  | divByZero => rfl
  | _ => exact exactly _ _

theorem Reply.withoutOverflow_eq {free : Ext} {r : Reply Written} (h : r.flags.contains .o = false) :
    r.withoutOverflow free = r := by
  rw [Reply.withoutOverflow, if_neg (by rw [h]; decide)]

/-- FIDIV drops #O, and keeps whether there is a value. -/
theorem Reply.withoutOverflow_spec (free : Ext) (r : Reply Written) :
    (r.withoutOverflow free).flags = r.flags.filter (· != .o) ∧
      (r.withoutOverflow free).value.isSome = r.value.isSome := by
  rw [Reply.withoutOverflow]
  split
  next h => exact ⟨rfl, Option.isSome_map ..⟩
  next h =>
    refine ⟨(List.filter_eq_self.mpr fun x hx => ?_).symm, rfl⟩
    rw [bne_iff_ne]
    rintro rfl
    exact h (List.contains_iff_mem.mpr hx)

theorem ArithMemRow.answer_eq (row : ArithMemRow) (s : State) {r : Reply Written} (h : r.flags.contains .o = false) :
    row.answer s r = r := by
  rw [ArithMemRow.answer, Reply.withoutOverflow_eq h, ite_self]

theorem ArithMemRow.answer_isSome (row : ArithMemRow) (s : State) (r : Reply Written) :
    (row.answer s r).value.isSome = r.value.isSome := by
  rw [ArithMemRow.answer]
  split
  · exact (r.withoutOverflow_spec _).2
  · rfl

/-! ### Two NaNs -/

theorem isNaN_iff (x : Ext) : isNaN x = true ↔ classOf x = .qnan ∨ classOf x = .snan := by
  rw [isNaN]
  cases classOf x <;> simp

/-- A NaN made quiet is a QNaN (40_numerics.md R205). -/
theorem classOf_quiet {x : Ext} (h : isNaN x = true) : classOf (quiet x) = .qnan := by
  have hexp : expOf (quiet x) = expOf x := by
    rw [expOf, quiet, BitVec.extractLsb'_or]
    exact congrArg BitVec.toNat (BitVec.or_zero ..)
  have hint : (quiet x).getLsbD 63 = x.getLsbD 63 := by
    rw [quiet, BitVec.getLsbD_or]
    exact Bool.or_false _
  have hquiet : (quiet x).getLsbD 62 = true := by
    rw [quiet, BitVec.getLsbD_or]
    exact Bool.or_true _
  have hfrac : fracOf (quiet x) ≠ 0 := by
    rw [quietBit_eq, decide_eq_true_iff] at hquiet
    omega
  have hx : expOf x = 0x7FFF ∧ x.getLsbD 63 = true := by
    rw [isNaN_iff, classOf] at h
    split_ifs at h <;> simp_all
  rw [classOf, hexp, hint, hquiet, hx.1, hx.2]
  simp [hfrac]

theorem quiet_qnan {x : Ext} (h : classOf x = .qnan) : quiet x = x := by
  have hbit : x.getLsbD 62 = true := by
    rw [classOf] at h
    split_ifs at h
    assumption
  have hmask : (0x4000000000000000 : Ext) = BitVec.twoPow 80 62 := rfl
  refine BitVec.eq_of_getLsbD_eq fun k hk => ?_
  rw [quiet, hmask, BitVec.getLsbD_or, BitVec.getLsbD_twoPow]
  by_cases h62 : k = 62
  · rw [h62, hbit]
    rfl
  · simp [Ne.symm h62]

theorem quieted_nans (pick : Bool) (a b : Ext) :
    (isNaN a = true → isNaN b = false → qnanOf pick a b = quiet a ∧ qnanOf pick b a = quiet a) ∧
    (classOf a = .snan → classOf b = .qnan → qnanOf pick a b = b ∧ qnanOf pick b a = b) ∧
    (isNaN a = true → classOf a = classOf b → sigOf b < sigOf a →
      qnanOf pick a b = quiet a ∧ qnanOf pick b a = quiet a) ∧
    (isNaN a = true → isNaN b = true → qnanOf pick a b = quiet a ∨ qnanOf pick a b = quiet b) ∧
    (isNaN a = true → classOf (quiet a) = .qnan) := by
  refine ⟨fun ha hb => ?_, fun ha hb => ?_, fun ha hab hlt => ?_, fun ha hb => ?_, classOf_quiet⟩
  · simp [qnanOf, ha, hb]
  · simp [qnanOf, ha, hb, isNaN]
  · have hb : isNaN b = true := by rw [isNaN_iff] at ha ⊢; rwa [← hab]
    have hne : ¬ (classOf a = .snan ∧ classOf b = .qnan) := by rw [← hab]; rintro ⟨h, h'⟩; simp [h] at h'
    have hne' : ¬ (classOf a = .qnan ∧ classOf b = .snan) := by rw [← hab]; rintro ⟨h, h'⟩; simp [h] at h'
    have hne2 : ¬ (classOf b = .snan ∧ classOf a = .qnan) := fun h => hne' h.symm
    have hne2' : ¬ (classOf b = .qnan ∧ classOf a = .snan) := fun h => hne h.symm
    constructor
    · rw [qnanOf, if_neg (by simp [hb]), if_neg (by simp [ha]), if_neg hne, if_neg hne', if_pos hlt]
    · rw [qnanOf, if_neg (by simp [ha]), if_neg (by simp [hb]), if_neg hne2, if_neg hne2', if_neg hlt.le.not_gt, if_pos hlt]
  · rw [qnanOf, if_neg (by simp [hb]), if_neg (by simp [ha])]
    split_ifs with h1 h2 h3 h4 h5
    · exact .inr (quiet_qnan h1.2).symm
    · exact .inl (quiet_qnan h2.1).symm
    · exact .inl rfl
    · exact .inr rfl
    · exact .inl rfl
    · exact .inr rfl

/-! ### The obligations -/

/-- Settles O27: the operation completes with a defined precision, and each form writes its answer. -/
theorem arithmeticRegisterForms : Obligations.ArithmeticRegisterForms := by
  intro row hrow s p i hr hd ho q hq
  obtain ⟨r, hok, hsome⟩ := arith_completes row.op s.cw q s.nanPick (.of (row.left s i)) (.of (row.right s i))
  obtain ⟨t, hexec, hran, hout⟩ := arithRow_outcome (p := p) hrow hr hd ho (hq ▸ hok)
  exact ⟨r, t, hok, hexec, hran, hout, hsome⟩

/-- Settles O28: as O27, with what FIDIV makes of an overflow. -/
theorem arithmeticMemoryForms : Obligations.ArithmeticMemoryForms := by
  intro row hrow s p m hr h0 ha q hq
  obtain ⟨r, hok, hsome⟩ := arith_completes row.op s.cw q s.nanPick (row.left s (s.ea m)) (row.right s (s.ea m))
  obtain ⟨t, hexec, hran, hout⟩ := arithMemRow_outcome (p := p) hrow hr h0 ha (hq ▸ hok)
  refine ⟨r, t, hok, hexec, hran, hout, row.answer_eq s, fun hf => ?_, fun hm => (row.answer_isSome s r).trans (hsome hm)⟩
  rw [ArithMemRow.answer, if_pos hf]
  exact (r.withoutOverflow_spec _).1

/-- Settles O30: `arith_special` gives the answer for every precision control, and no form makes another of it. -/
theorem specialOperandsOfTheFourOperations : Obligations.SpecialOperandsOfTheFourOperations := by
  refine ⟨fun row hrow s p i r hr hd ho h => arithRow_outcome hrow hr hd ho (arith_special h),
    fun row hrow s p m r hr h0 ha h => ?_, quieted_nans⟩
  obtain ⟨t, hexec, hran, hout⟩ := arithMemRow_outcome (p := p) hrow hr h0 ha (arith_special h)
  rw [row.answer_eq s h.no_overflow] at hout
  exact ⟨t, hexec, hran, hout⟩

/-- FSQRT of a positive number with the reserved precision control (log 15). -/
theorem sqrt_reserved {cw : Word16} {x : Ext} (hf : isFinite x = true) (hpos : 0 < realOf x) (hq : pcBits cw = none) :
    sqrt cw x =
      if isDenormal x && !maskedIn cw .d then .ok ⟨[.d], none⟩ else .error .reservedPrecisionControl := by
  have hz : classOf x ≠ .zero := fun h => hpos.ne' ((realOf_eq_zero_iff_zero hf).mpr h)
  have hs : ¬ signOf x = true := fun h => hpos.not_gt ((realOf_neg_iff hpos.ne').mpr h)
  rw [sqrt, nanCheck1_ordered (isOrdered_of_isFinite hf)]
  simp only [if_neg hz, if_neg hs, if_neg (isFinite_classes hf).2.2.2, hq]

/-- What FSQRT makes of the square root's answer. -/
theorem fsqrt_outcome {s : State} {p : Prefixes} {r : Reply Written} (hr : s.Ready) (h0 : s.Full 0)
    (h : sqrt s.cw (s.st 0) = .ok r) :
    ∃ t, exec (.fsqrt p) s = .next t ∧ s.Ran t (.fsqrt p) none ∧ s.Outcome t 0 false r := by
  refine runReg_done (body := sqrtTop) (u := writeReplied 0 false r (s.record (.fsqrt p) none)) hr ?_
    (OnStack.writeReplied _ _ _ _) ?_
  · rw [sqrtTop, if_neg (by rw [State.record_isEmpty, show s.isEmpty 0 = false from h0]; decide)]
    exact congrArg (Except.map _) h
  · simpa using writeReplied_outcome 0 false r (s.record (.fsqrt p) none)

theorem fsqrt_refused {s : State} {p : Prefixes} {e : Refusal} (hr : s.Ready) (h0 : s.Full 0)
    (h : sqrt s.cw (s.st 0) = .error e) : exec (.fsqrt p) s = .refused e := by
  refine runReg_refused (body := sqrtTop) hr ?_
  rw [sqrtTop, if_neg (by rw [State.record_isEmpty, show s.isEmpty 0 = false from h0]; decide)]
  exact congrArg (Except.map _) h

/-- Settles O32: with no precision only a rounded result is refused, after the denormal test. -/
theorem reservedPrecisionIsRefused : Obligations.ReservedPrecisionIsRefused := by
  refine ⟨fun row hrow s p i hr hd ho hq ha hb hz h0 => ?_, fun row hrow s p m hr hfull hallow hq ha hb hz h0 => ?_,
    fun s p hr hfull hq hf hpos => ?_⟩
  · have h := arith_reserved (cw := s.cw) (pick := s.nanPick) (a := .of (row.left s i)) (b := .of (row.right s i)) ha hb hz h0
    rw [← hq] at h
    split
    next hden => exact arithRow_outcome hrow hr hd ho (h.trans (if_pos hden))
    next hden => exact arithRow_refused hrow hr hd ho (h.trans (if_neg hden))
  · have h := arith_reserved (cw := s.cw) (pick := s.nanPick) ha hb hz h0
    rw [← hq] at h
    split
    next hden =>
      obtain ⟨t, hexec, hran, hout⟩ := arithMemRow_outcome (p := p) hrow hr hfull hallow (h.trans (if_pos hden))
      rw [row.answer_eq s rfl] at hout
      exact ⟨t, hexec, hran, hout⟩
    next hden => exact arithMemRow_refused hrow hr hfull hallow (h.trans (if_neg hden))
  · have h := sqrt_reserved hf hpos hq
    split
    next hden => exact fsqrt_outcome hr hfull (h.trans (if_pos hden))
    next hden => exact fsqrt_refused hr hfull (h.trans (if_neg hden))

/-! ### Empty operands -/

/-- The state after an instruction whose operation is a stack fault, by what its destinations then hold. -/
theorem runReg_faulted {s : State} {i : Instr} {f : State → State} {b : Bool} {W : State → State → Prop} (hr : s.Ready)
    (ho : ∀ v, OnStack v (f v))
    (hW : W (s.record i none) (f (s.record i none)) → W s ((f (s.record i none)).retire i.length s.es))
    (hf : (s.record i none).StackFaulted (f (s.record i none)) b ∧
      if (s.record i none).masked .i = true then W (s.record i none) (f (s.record i none))
      else (s.record i none).Popped (f (s.record i none)) 0) :
    ∃ t, runReg i (fun v => .ok (f v)) s = .next t ∧ s.Ran t i none ∧ s.StackFaulted t b ∧
      if s.masked .i = true then W s t else s.Popped t 0 := by
  refine runReg_effect hr ho ⟨by simpa using hf.1, ?_⟩
  exact ite_map .rfl hW (fun h => by simpa using h) hf.2

theorem runReg_wroteFault {s : State} {i : Instr} {f : State → State} {d : Idx} {pop : Bool} (hr : s.Ready)
    (ho : ∀ v, OnStack v (f v))
    (hf : (s.record i none).StackFaulted (f (s.record i none)) false ∧
      if (s.record i none).masked .i = true then (s.record i none).Wrote (f (s.record i none)) d pop indef80
      else (s.record i none).Popped (f (s.record i none)) 0) :
    ∃ t, runReg i (fun v => .ok (f v)) s = .next t ∧ s.Ran t i none ∧ s.StackFaulted t false ∧
      if s.masked .i = true then s.Wrote t d pop indef80 else s.Popped t 0 :=
  runReg_faulted (W := fun s t => s.Wrote t d pop indef80) hr ho (fun h => by simpa using h) hf

theorem runReg_pairFault {s : State} {i : Instr} {f : State → State} {b : Bool} (ho : ∀ v, OnStack v (f v)) (hr : s.Ready)
    (hf : (s.record i none).StackFaulted (f (s.record i none)) b ∧
      if (s.record i none).masked .i = true then (s.record i none).WrotePair (f (s.record i none)) indef80 indef80
      else (s.record i none).Popped (f (s.record i none)) 0) :
    ∃ t, runReg i (fun v => .ok (f v)) s = .next t ∧ s.Ran t i none ∧ s.StackFaulted t b ∧
      if s.masked .i = true then s.WrotePair t indef80 indef80 else s.Popped t 0 :=
  runReg_faulted (W := fun s t => s.WrotePair t indef80 indef80) hr ho (fun h => by simpa using h) hf

theorem onTop_empty (f : Ext → Reply Written) {s : State} (h : s.isEmpty 0 = true) : onTop f s = underflow 0 false s :=
  if_pos h

theorem sqrtTop_empty {s : State} (h : s.isEmpty 0 = true) : sqrtTop s = .ok (underflow 0 false s) := if_pos h

theorem exp2m1Top_empty {s : State} (h : s.isEmpty 0 = true) : exp2m1Top s = underflow 0 false s := if_pos h

theorem trigOne_empty (f : Word16 → Ext → Delivered) {s : State} (h : s.isEmpty 0 = true) :
    trigOne f s = trigFault false (fun t => t.setST 0 indef80) s := if_pos h

theorem remTop_empty (ieee : Bool) {s : State} (h : s.isEmpty 0 = true ∨ s.isEmpty 1 = true) :
    remTop ieee s = underflow 0 false s := if_pos (by simpa using h)

theorem scaleTop_empty {s : State} (h : s.isEmpty 0 = true ∨ s.isEmpty 1 = true) : scaleTop s = underflow 0 false s :=
  if_pos (by simpa using h)

theorem intoSecond_empty (f : Ext → Ext → Reply Written) {s : State} (h : s.isEmpty 0 = true ∨ s.isEmpty 1 = true) :
    intoSecond f s = underflow 1 true s := if_pos (by simpa using h)

theorem yLog2xp1Top_empty {s : State} (h : s.isEmpty 0 = true ∨ s.isEmpty 1 = true) :
    yLog2xp1Top s = underflow 1 true s := if_pos (by simpa using h)

/-- FXTRACT signals the underflow first, and else the overflow. -/
theorem extractTop_faults {s : State} (h : s.isEmpty 0 = true ∨ s.pushFull = true) :
    extractTop s = pairFault (!s.isEmpty 0) s := by
  cases h0 : s.isEmpty 0 with
  | true => rw [extractTop, if_pos h0]; rfl
  | false => rw [extractTop, if_neg (by rw [h0]; decide), if_pos (h.resolve_left (by rw [h0]; decide))]; rfl

theorem trigTwo_faults (f g : Word16 → Ext → Delivered) (c : Delivered → Delivered → Bool) {s : State}
    (h : s.isEmpty 0 = true ∨ s.pushFull = true) :
    trigTwo f g c s = trigFault (!s.isEmpty 0) (writePair indef80 indef80) s := by
  cases h0 : s.isEmpty 0 with
  | true => rw [trigTwo, if_pos h0]; rfl
  | false => rw [trigTwo, if_neg (by rw [h0]; decide), if_pos (h.resolve_left (by rw [h0]; decide))]; rfl

/-- An empty ST(0) of an instruction of one operand. -/
theorem oneOperand_empty {s : State} (p : Prefixes) (hr : s.Ready) (h : s.isEmpty 0 = true) :
    ∀ i ∈ [Instr.fsqrt p, .frndint p, .f2xm1 p, .fsin p, .fcos p],
    ∃ t, exec i s = .next t ∧ s.Ran t i none ∧ s.StackFaulted t false ∧
      if s.masked .i = true then s.Wrote t 0 false indef80 else s.Popped t 0 := by
  have empty : ∀ i, (s.record i none).isEmpty 0 = true := fun _ => h
  simp only [List.forall_mem_cons]
  refine ⟨?_, ?_, ?_, ?_, ?_, by simp⟩
  · refine runReg_done (body := sqrtTop) hr (sqrtTop_empty (empty _)) (OnStack.underflow _ _ _) ?_
    simpa using underflow_faulted 0 false (s.record (.fsqrt p) none)
  · refine runReg_wroteFault (f := fun v => onTop (rndint v.cw) v) hr (fun v => OnStack.onTop _ v) ?_
    rw [onTop_empty _ (empty _)]
    exact underflow_faulted _ _ _
  · refine runReg_wroteFault (f := exp2m1Top) hr OnStack.exp2m1Top ?_
    rw [exp2m1Top_empty (empty _)]
    exact underflow_faulted _ _ _
  · refine runReg_wroteFault (f := trigOne sinResult) hr (OnStack.trigOne _) ?_
    rw [trigOne_empty _ (empty _)]
    exact trigFault_top _
  · refine runReg_wroteFault (f := trigOne cosResult) hr (OnStack.trigOne _) ?_
    rw [trigOne_empty _ (empty _)]
    exact trigFault_top _

/-- An empty ST(0) or ST(1) of an instruction of two operands. -/
theorem twoOperands_empty {s : State} (p : Prefixes) (hr : s.Ready) (h : s.isEmpty 0 = true ∨ s.isEmpty 1 = true) :
    ∀ row ∈ [(Instr.fprem p, (0 : Idx), false), (.fprem1 p, 0, false), (.fscale p, 0, false), (.fpatan p, 1, true),
      (.fyl2x p, 1, true), (.fyl2xp1 p, 1, true)],
    ∃ t, exec row.1 s = .next t ∧ s.Ran t row.1 none ∧ s.StackFaulted t false ∧
      if s.masked .i = true then s.Wrote t row.2.1 row.2.2 indef80 else s.Popped t 0 := by
  have empty : ∀ i, (s.record i none).isEmpty 0 = true ∨ (s.record i none).isEmpty 1 = true := fun _ => h
  simp only [List.forall_mem_cons]
  refine ⟨?_, ?_, ?_, ?_, ?_, ?_, by simp⟩
  · refine runReg_wroteFault (f := remTop false) hr (OnStack.remTop _) ?_
    rw [remTop_empty _ (empty _)]
    exact underflow_faulted _ _ _
  · refine runReg_wroteFault (f := remTop true) hr (OnStack.remTop _) ?_
    rw [remTop_empty _ (empty _)]
    exact underflow_faulted _ _ _
  · refine runReg_wroteFault (f := scaleTop) hr OnStack.scaleTop ?_
    rw [scaleTop_empty (empty _)]
    exact underflow_faulted _ _ _
  · refine runReg_wroteFault (f := fun v => intoSecond (fun x y => atan2 v.cw v.nanPick y x) v) hr
      (fun v => OnStack.intoSecond _ v) ?_
    rw [intoSecond_empty _ (empty _)]
    exact underflow_faulted _ _ _
  · refine runReg_wroteFault (f := fun v => intoSecond (yLog2x v.cw v.nanPick) v) hr (fun v => OnStack.intoSecond _ v) ?_
    rw [intoSecond_empty _ (empty _)]
    exact underflow_faulted _ _ _
  · refine runReg_wroteFault (f := yLog2xp1Top) hr OnStack.yLog2xp1Top ?_
    rw [yLog2xp1Top_empty (empty _)]
    exact underflow_faulted _ _ _

/-- FXTRACT, FSINCOS and FPTAN of an empty register, or with no room for the push. -/
theorem pushingInstructions_fault {s : State} (p : Prefixes) (hr : s.Ready)
    (h : s.isEmpty 0 = true ∨ s.pushFull = true) :
    ∀ i ∈ [Instr.fxtract p, .fsincos p, .fptan p],
    ∃ t, exec i s = .next t ∧ s.Ran t i none ∧ s.StackFaulted t (!s.isEmpty 0) ∧
      if s.masked .i = true then s.WrotePair t indef80 indef80 else s.Popped t 0 := by
  have faults : ∀ i, (s.record i none).isEmpty 0 = true ∨ (s.record i none).pushFull = true := fun _ => h
  simp only [List.forall_mem_cons]
  refine ⟨?_, ?_, ?_, by simp⟩
  · refine runReg_pairFault OnStack.extractTop hr ?_
    rw [extractTop_faults (faults _)]
    exact pairFault_effect _ _
  · refine runReg_pairFault (OnStack.trigTwo sinResult cosResult fun _ e => e.c1) hr ?_
    rw [trigTwo_faults _ _ _ (faults _)]
    exact trigFault_pair _ _
  · refine runReg_pairFault (OnStack.trigTwo tanResult oneResult fun d _ => d.c1) hr ?_
    rw [trigTwo_faults _ _ _ (faults _)]
    exact trigFault_pair _ _

/-- Settles O31: each operation tests its operands' tags before anything else. -/
theorem arithmeticUnderflowsEmptyOperand : Obligations.ArithmeticUnderflowsEmptyOperand :=
  ⟨fun _ hrow _ _ _ hr h => arithRow_empty hrow hr h, fun _ hrow _ _ _ hr h ha => arithMemRow_empty hrow hr h ha,
    fun _ p hr h => oneOperand_empty p hr h, fun _ p hr h => twoOperands_empty p hr h,
    fun _ p hr h => pushingInstructions_fault p hr h⟩

end Sys2Proof.Machine
end

section
/-! The rounded results of the four operations and of the square root (40_numerics.md R210 to R214, 43_basic_arithmetic.md
R323 to R326, R352, R365). -/

namespace Sys2Proof.Machine

/-! ### A rounded result delivered to a register -/

/-- The value `v`, which rounds to `r` at precision `p` with unbounded exponent, delivered: the flags, the value and C1 by
the range that `r` lies in; `u` is the unit of the rounding. -/
def DeliveredReal (cw : Word16) (p : ℕ) (u v r : ℚ) (flags : List Exc) (w : Written) : Prop :=
  if (2 : ℚ) ^ (16384 : ℤ) ≤ |r| then
    if maskedIn cw .o = true then
      flags = [.o, .p] ∧
      if OverflowsToInfinity (roundMode cw) v then w.value = inf80 (decide (v < 0)) ∧ w.c1 = true
      else isFinite w.value = true ∧ |realOf w.value| = (2 : ℚ) ^ (16384 : ℤ) - (2 : ℚ) ^ (16384 - p : ℤ) ∧
        0 ≤ realOf w.value * v ∧ w.c1 = false
    else flags = .o :: (if r = v then [] else [.p]) ∧ isFinite w.value = true ∧
      realOf w.value = r * (2 : ℚ) ^ (-24576 : ℤ) ∧ (w.c1 = true ↔ |v| < |r|)
  else if |r| < (2 : ℚ) ^ (-16382 : ℤ) then
    if maskedIn cw .u = true then
      isFinite w.value = true ∧ signOf w.value = decide (v < 0) ∧
      RoundedTo (roundMode cw) (max u ((2 : ℚ) ^ (-16445 : ℤ))) v (realOf w.value) ∧
      (∃ k : ℤ, realOf w.value = k * max u ((2 : ℚ) ^ (-16445 : ℤ))) ∧
      flags = (if realOf w.value = v then [] else [.u, .p]) ∧ (w.c1 = true ↔ |v| < |realOf w.value|)
    else flags = .u :: (if r = v then [] else [.p]) ∧ isFinite w.value = true ∧
      realOf w.value = r * (2 : ℚ) ^ (24576 : ℤ) ∧ (w.c1 = true ↔ |v| < |r|)
  else isFinite w.value = true ∧ realOf w.value = r ∧ flags = (if r = v then [] else [.p]) ∧
    (w.c1 = true ↔ |v| < |r|)

/-- An encoding of the sign of an exact value stands for it exactly when the magnitudes agree. -/
theorem realOf_eq_toRat_iff {x : Ext} {v : Exact} (hs : signOf x = v.neg) :
    realOf x = v.toRat ↔ (magOf x).toRat = v.mag.toRat := by
  rw [realOf, valOf, hs]
  exact Exact.toRat_inj

/-- The masked response to an overflow has the sign of the value. -/
theorem mul_nonneg_of_sign {x : Ext} {v : Exact} (hs : signOf x = v.neg) : 0 ≤ realOf x * v.toRat := by
  have hnonneg := mul_nonneg (Mag.toRat_nonneg (magOf x)) (Mag.toRat_nonneg v.mag)
  rw [realOf, valOf, hs, Exact.toRat, Exact.toRat]
  generalize (magOf x).toRat = m at hnonneg ⊢
  cases v.neg <;> simpa using hnonneg

section
variable {cw : Word16} {v : Exact} {p : ℕ} (hn : v.mag.num ≠ 0) (hd : v.mag.den ≠ 0) (hp : 1 ≤ p)
include hn hd hp

omit hn hp in
/-- What the rounding to unbounded exponent says of #P and C1. -/
theorem roundTo_flags (rm : RoundMode) : inexactFlag (roundTo rm v p).inexact =
      (if Exact.toRat ⟨v.neg, (roundTo rm v p).toMag⟩ = v.toRat then [] else [.p]) ∧
    ((roundTo rm v p).up = true ↔ |v.toRat| < |Exact.toRat ⟨v.neg, (roundTo rm v p).toMag⟩|) := by
  constructor
  · refine inexactFlag_eq ?_
    rw [show v.toRat = Exact.toRat ⟨v.neg, v.mag⟩ from rfl, Exact.toRat_inj]
    exact roundAt_inexact _ v hd _
  · rw [Exact.abs_toRat, Exact.abs_toRat]
    exact roundAt_up _ v hd _

/-- Above the range of normal numbers (40_numerics.md R212). -/
theorem deliver_overflow (hp' : p ≤ 64) (hlog : 16384 ≤ (roundTo (roundMode cw) v p).log2)
    (hhigh : v.mag.log2 ≤ 40000) {u r : ℚ} (hr : Exact.toRat ⟨v.neg, (roundTo (roundMode cw) v p).toMag⟩ = r)
    (h1 : (2 : ℚ) ^ (16384 : ℤ) ≤ |r|) :
    DeliveredReal cw p u v.toRat r (deliver cw p v).flags ⟨(deliver cw p v).value, (deliver cw p v).c1⟩ := by
  have hpos := Mag.toRat_pos hn hd
  have hneg : v.neg = decide (v.toRat < 0) := by rw [Bool.eq_iff_iff, exact_neg hn hd, decide_eq_true_iff]
  have hinf : overflowsToInf (roundMode cw) v.neg = true ↔ OverflowsToInfinity (roundMode cw) v.toRat :=
    overflowsToInf_iff _ _ hpos
  have hvlog := (roundTo_log2 (roundMode cw) v hn hd hp).2
  obtain ⟨hflags, hup⟩ := roundTo_flags (p := p) hd (roundMode cw)
  obtain ⟨hmaxfin, hmaxsign, -, hmax⟩ := maxFinite80_spec v.neg hp hp'
  have hdeliver : deliver cw p v = deliverOverflow cw p v.neg (roundTo (roundMode cw) v p) := if_pos hlog
  rw [DeliveredReal, if_pos h1, hdeliver, deliverOverflow]
  by_cases hm : maskedIn cw .o = true
  · rw [if_pos hm, if_pos hm]
    by_cases hi : overflowsToInf (roundMode cw) v.neg = true
    · rw [if_pos hi, if_pos (hinf.mp hi)]
      exact ⟨rfl, congrArg inf80 hneg, rfl⟩
    · rw [if_neg hi, if_neg (mt hinf.mpr hi)]
      exact ⟨rfl, hmaxfin, hmax, mul_nonneg_of_sign hmaxsign, rfl⟩
  · rw [if_neg hm, if_neg hm, if_neg (by omega)]
    obtain ⟨hfin, hreal⟩ := enc80_scaled (roundMode cw) v hn hd hp hp' (b := -24576) (by omega) (by omega)
    rw [hr] at hflags hup hreal
    exact ⟨congrArg _ hflags, hfin, hreal, hup⟩

/-- Below the range of normal numbers (40_numerics.md R213). -/
theorem deliver_underflow (hp' : p ≤ 64) (hlog : (roundTo (roundMode cw) v p).log2 < -16382)
    (hlow : -40000 ≤ v.mag.log2) {r : ℚ} (hr : Exact.toRat ⟨v.neg, (roundTo (roundMode cw) v p).toMag⟩ = r)
    (h1 : ¬ (2 : ℚ) ^ (16384 : ℤ) ≤ |r|) (h2 : |r| < (2 : ℚ) ^ (-16382 : ℤ)) :
    DeliveredReal cw p ((2 : ℚ) ^ (v.mag.log2 - p + 1)) v.toRat r (deliver cw p v).flags
      ⟨(deliver cw p v).value, (deliver cw p v).c1⟩ := by
  have hneg : v.neg = decide (v.toRat < 0) := by rw [Bool.eq_iff_iff, exact_neg hn hd, decide_eq_true_iff]
  have hvlog := (roundTo_log2 (roundMode cw) v hn hd hp).1
  rw [DeliveredReal, if_neg h1, if_pos h2]
  by_cases hm : maskedIn cw .u = true
  · obtain ⟨hfin, hsign, hround, hmultiple, hflags, hc1⟩ := deliver_tiny cw v hn hd hp hp' hm hlog
    rw [if_pos hm]
    refine ⟨hfin, hsign.trans hneg, hround, hmultiple, hflags.trans ?_, hc1.trans ?_⟩
    · simp only [realOf_eq_toRat_iff hsign]
    · rw [show |v.toRat| = v.mag.toRat from Exact.abs_toRat v.neg v.mag, abs_realOf]
  · obtain ⟨hflags, hup⟩ := roundTo_flags (p := p) hd (roundMode cw)
    have hdeliver : deliver cw p v = deliverTiny cw v (roundTo (roundMode cw) v p) :=
      (if_neg (by omega)).trans (if_pos hlog)
    obtain ⟨hfin, hreal⟩ := enc80_scaled (roundMode cw) v hn hd hp hp' (b := 24576) (by omega) (by omega)
    rw [hr] at hflags hup hreal
    rw [if_neg hm, hdeliver, deliverTiny, if_neg hm, if_neg (by omega)]
    exact ⟨congrArg _ hflags, hfin, hreal, hup⟩

/-- A non-zero value is rounded once to the precision, and delivered by the range it then lies in. -/
theorem deliver_spec (cw : Word16) (hp' : p ≤ 64) (hlow : -40000 ≤ v.mag.log2) (hhigh : v.mag.log2 ≤ 40000) :
    ∃ r : ℚ, RoundedTo (roundMode cw) ((2 : ℚ) ^ (v.mag.log2 - p + 1)) v.toRat r ∧
      (∃ k : ℤ, r = k * (2 : ℚ) ^ (v.mag.log2 - p + 1)) ∧
      DeliveredReal cw p ((2 : ℚ) ^ (v.mag.log2 - p + 1)) v.toRat r (deliver cw p v).flags
        ⟨(deliver cw p v).value, (deliver cw p v).c1⟩ := by
  have hpow := roundTo_pow_le (roundMode cw) v hn hd hp
  have hmultiple := (roundTo (roundMode cw) v p).toRat_multiple v.neg
  rw [roundTo, roundAt_quantum, ← roundTo] at hmultiple
  refine ⟨_, roundAt_roundedTo (roundMode cw) v hd _, hmultiple, ?_⟩
  have habs := Exact.abs_toRat v.neg (roundTo (roundMode cw) v p).toMag
  obtain ⟨r, hr⟩ : ∃ r, Exact.toRat ⟨v.neg, (roundTo (roundMode cw) v p).toMag⟩ = r := ⟨_, rfl⟩
  change DeliveredReal cw p _ v.toRat (Exact.toRat ⟨v.neg, (roundTo (roundMode cw) v p).toMag⟩) _ _
  rw [hr] at habs ⊢
  by_cases h1 : 16384 ≤ (roundTo (roundMode cw) v p).log2
  · exact deliver_overflow hn hd hp hp' h1 hhigh hr (by rw [habs]; exact (hpow _).mpr h1)
  · have h1' : ¬ (2 : ℚ) ^ (16384 : ℤ) ≤ |r| := by rw [habs]; exact mt (hpow _).mp h1
    by_cases h2 : (roundTo (roundMode cw) v p).log2 < -16382
    · exact deliver_underflow hn hd hp hp' h2 hlow hr h1' (by
        rw [habs, ← not_le]
        exact mt (hpow _).mp (not_le.mpr h2))
    · have h2' : ¬ |r| < (2 : ℚ) ^ (-16382 : ℤ) := by
        rw [habs, not_lt]
        exact (hpow _).mpr (not_lt.mp h2)
      obtain ⟨hfin, hreal⟩ := enc80_scaled (roundMode cw) v hn hd hp hp' (b := 0) (by omega) (by omega)
      obtain ⟨hflags, hup⟩ := roundTo_flags (p := p) hd (roundMode cw)
      have hdeliver : deliver cw p v = ⟨enc80 v.neg (roundTo (roundMode cw) v p).mant (roundTo (roundMode cw) v p).quantum,
          (roundTo (roundMode cw) v p).up, inexactFlag (roundTo (roundMode cw) v p).inexact⟩ :=
        (if_neg h1).trans (if_neg h2)
      rw [add_zero, zpow_zero, mul_one, hr] at *
      rw [DeliveredReal, if_neg h1', if_neg h2', hdeliver]
      exact ⟨hfin, hreal, hflags, hup⟩

end

/-! ### The size of an exact result -/

/-- A finite non-zero value is no smaller than the smallest denormal. -/
theorem le_abs_of_multiple {k : ℤ} {u v : ℚ} (hu : 0 < u) (hv : v = k * u) (h0 : v ≠ 0) : u ≤ |v| := by
  have hk : k ≠ 0 := by
    rintro rfl
    exact h0 (by rw [hv, Int.cast_zero, zero_mul])
  rw [hv, abs_mul, abs_of_pos hu]
  exact le_mul_of_one_le_left hu.le (by exact_mod_cast Int.one_le_abs hk)

/-- The exact result of finite operands between `u` and `B` is zero or between `u / B`, `u * u` and `B / u`, `B * B`. -/
theorem ArithOp.onRat_bounds {op : ArithOp} {a b u B : ℚ} (hu : 0 < u) (hB : 2 ≤ B) (hu1 : u ≤ 1 / 2)
    (ha : |a| ≤ B) (hb : |b| ≤ B) (ka kb : ℤ) (hka : a = ka * u) (hkb : b = kb * u) (h0 : op.onRat a b ≠ 0) :
    min (u / B) (u * u) ≤ |op.onRat a b| ∧ |op.onRat a b| ≤ max (B / u) (B * B) := by
  have hsum : B + B ≤ B * B := by nlinarith
  cases op with
  | add =>
    refine ⟨?_, (abs_add_le a b).trans ((add_le_add ha hb).trans (hsum.trans (le_max_right _ _)))⟩
    refine ((min_le_right _ _).trans ?_).trans (le_abs_of_multiple hu (k := ka + kb) ?_ h0)
    · nlinarith
    · rw [ArithOp.onRat, hka, hkb]; push_cast; ring
  | sub =>
    refine ⟨?_, (abs_sub a b).trans ((add_le_add ha hb).trans (hsum.trans (le_max_right _ _)))⟩
    refine ((min_le_right _ _).trans ?_).trans (le_abs_of_multiple hu (k := ka - kb) ?_ h0)
    · nlinarith
    · rw [ArithOp.onRat, hka, hkb]; push_cast; ring
  | mul =>
    obtain ⟨ha0, hb0⟩ := mul_ne_zero_iff.mp h0
    have hua := le_abs_of_multiple hu hka ha0
    have hub := le_abs_of_multiple hu hkb hb0
    rw [ArithOp.onRat, abs_mul]
    exact ⟨(min_le_right _ _).trans (mul_le_mul hua hub hu.le (abs_nonneg _)),
      (mul_le_mul ha hb (abs_nonneg _) (by linarith)).trans (le_max_right _ _)⟩
  | div =>
    obtain ⟨ha0, hb0⟩ := div_ne_zero_iff.mp h0
    have hua := le_abs_of_multiple hu hka ha0
    have hub := le_abs_of_multiple hu hkb hb0
    rw [ArithOp.onRat, abs_div]
    exact ⟨(min_le_left _ _).trans (div_le_div₀ (abs_nonneg _) hua (hu.trans_le hub) hb),
      (div_le_div₀ (by linarith) ha hu hub).trans (le_max_left _ _)⟩

/-- The exponent of an exact result, by which neither biased response leaves the range again. -/
theorem ArithOp.onRat_exponent {op : ArithOp} {a b : Ext} (ha : isFinite a = true) (hb : isFinite b = true) {e : ℤ}
    (h1 : (2 : ℚ) ^ e ≤ |op.onRat (realOf a) (realOf b)|) (h2 : |op.onRat (realOf a) (realOf b)| < (2 : ℚ) ^ (e + 1)) :
    -40000 ≤ e ∧ e ≤ 40000 := by
  obtain ⟨ka, hka⟩ := realOf_multiple a
  obtain ⟨kb, hkb⟩ := realOf_multiple b
  have hpow : ∀ x y : ℤ, x ≤ y → (2 : ℚ) ^ x ≤ (2 : ℚ) ^ y := fun x y h => zpow_le_zpow_right₀ one_le_two h
  have h0 : op.onRat (realOf a) (realOf b) ≠ 0 := fun h => by
    rw [h, abs_zero] at h1
    exact absurd h1 (not_le.mpr (by positivity))
  obtain ⟨hlow, hhigh⟩ := ArithOp.onRat_bounds (op := op) (u := (2 : ℚ) ^ (-16445 : ℤ)) (B := (2 : ℚ) ^ (16384 : ℤ))
    (zpow_pos two_pos _) ((zpow_one (2 : ℚ)).symm.le.trans (hpow _ _ (by norm_num)))
    ((hpow _ (-1) (by norm_num)).trans (by rw [zpow_neg_one]; norm_num))
    (abs_realOf_lt ha).le (abs_realOf_lt hb).le ka kb hka hkb h0
  rw [← zpow_sub₀ two_ne_zero, ← zpow_add₀ two_ne_zero] at hlow
  rw [← zpow_sub₀ two_ne_zero, ← zpow_add₀ two_ne_zero] at hhigh
  have hle : (2 : ℚ) ^ (-32890 : ℤ) ≤ |op.onRat (realOf a) (realOf b)| :=
    (le_min (hpow _ _ (by norm_num)) (hpow _ _ (by norm_num))).trans hlow
  have hge : |op.onRat (realOf a) (realOf b)| ≤ (2 : ℚ) ^ (32829 : ℤ) :=
    hhigh.trans (max_le (hpow _ _ (by norm_num)) (hpow _ _ (by norm_num)))
  have he := (zpow_le_zpow_iff_right₀ (one_lt_two : (1 : ℚ) < 2)).mp (h1.trans hge)
  have he' := (zpow_lt_zpow_iff_right₀ (one_lt_two : (1 : ℚ) < 2)).mp (hle.trans_lt h2)
  omega

/-- A computed result is delivered, after a denormal test that goes on (40_numerics.md R246 steps 7 and 8). -/
theorem arith_compute {op : ArithOp} {cw : Word16} {p : ℕ} {pick : Bool} {a b : Operand} {v : Exact}
    (ha : isFinite a.value = true) (hb : isFinite b.value = true)
    (h : arithSpecial op (roundMode cw) a.value b.value = .compute v)
    (hd : (a.denormal || b.denormal) = false ∨ maskedIn cw .d = true) : arith op cw (some p) pick a b =
      .ok ⟨(if a.denormal || b.denormal then [.d] else []) ++ (deliver cw p v).flags, (deliver cw p v).reply.value⟩ := by
  rw [arith, nanCheck2_ordered pick (isOrdered_of_isFinite ha) (isOrdered_of_isFinite hb)]
  simp only [h]
  rw [if_neg (by rcases hd with h | h <;> simp [h]), Reply.afterDenormal_masked _ hd]
  rfl

/-- Settles O29: the exact result is computed by `arithSpecial_finite`, and `deliver_spec` says how it is delivered. -/
theorem arithmeticRoundsTheExactResult : Obligations.ArithmeticRoundsTheExactResult := by
  intro op cw p pick a b e v ha hb hden hz hp hv h1 h2
  subst hv
  have h0 : op.onRat (realOf a) (realOf b) ≠ 0 := fun h => by
    rw [h, abs_zero] at h1
    exact absurd h1 (not_le.mpr (by positivity))
  obtain ⟨he, he'⟩ := ArithOp.onRat_exponent ha hb h1 h2
  obtain ⟨hzero, -⟩ | ⟨v, hcompute, hn, hd, hv⟩ := arithSpecial_finite op (roundMode cw) ha hb hz
  · exact absurd hzero h0
  rw [← hv] at h1 h2 ⊢
  rw [show |v.toRat| = v.mag.toRat from Exact.abs_toRat v.neg v.mag] at h1 h2
  have hlog : v.mag.log2 = e := Mag.log2_unique hn hd h1 h2
  have hp1 : 1 ≤ p ∧ p ≤ 64 := by omega
  obtain ⟨r, hround, hmultiple, hdelivered⟩ := deliver_spec hn hd hp1.1 cw hp1.2 (by omega) (by omega)
  rw [hlog] at hround hmultiple hdelivered
  refine ⟨r, _, _, ?_, hround, hmultiple, hdelivered⟩
  exact (arith_compute (a := .of a) (b := .of b) ha hb hcompute hden).trans rfl

end Sys2Proof.Machine
end

section
/-! The square root and the rounding to an integer (43_basic_arithmetic.md R352, R365). -/

namespace Sys2Proof.Machine

/-! ### FSQRT completes -/

/-- With a defined precision control FSQRT completes, with a value if every exception is masked. -/
theorem sqrt_completes {cw : Word16} {q : ℕ} (hq : pcBits cw = some q) (x : Ext) :
    ∃ r, sqrt cw x = .ok r ∧ ((∀ x, maskedIn cw x = true) → r.value.isSome = true) := by
  rw [sqrt]
  cases nanCheck1 x with
  | some r => exact ⟨_, rfl, fun h => nanReply_isSome r (h .i)⟩
  | none =>
    simp only [hq]
    split
    · exact ⟨_, rfl, fun _ => rfl⟩
    split
    · exact ⟨_, rfl, fun h => Reply.pre_isSome _ (h .i)⟩
    split
    · exact ⟨_, rfl, fun _ => rfl⟩
    split
    next hd => exact ⟨_, rfl, fun h => by simp [h .d] at hd⟩
    next => exact ⟨_, rfl, fun h => Reply.afterDenormal_isSome (h .d) rfl⟩

/-- Settles O34: `sqrt_completes` for the defined precisions, `sqrt_answer` for the special operands. -/
theorem squareRootCompletes : Obligations.SquareRootCompletes := by
  refine ⟨fun s p q hr h0 hq => ?_, fun s p r hr h0 h => fsqrt_outcome hr h0 (sqrt_answer h)⟩
  obtain ⟨r, hok, hsome⟩ := sqrt_completes hq (s.st 0)
  obtain ⟨t, hexec, hran, hout⟩ := fsqrt_outcome (p := p) hr h0 hok
  exact ⟨r, t, hok, hexec, hran, hout, hsome⟩

/-! ### The number that stands for a square root -/

/-- Multiples of `h` compare with `v` as they do with the square root of `x`. -/
def StandsForRoot (h x v : ℚ) : Prop :=
  ∀ z : ℕ, ((z * h) ^ 2 ≤ x ↔ z * h ≤ v) ∧ (x ≤ (z * h) ^ 2 ↔ v ≤ z * h)

/-- A shift to the right drops a fraction; what is dropped is nothing exactly when the shift can be undone. -/
theorem shiftNat_floor (n : ℕ) (k : ℤ) : (shiftNat n k : ℚ) ≤ n * (2 : ℚ) ^ k ∧ n * (2 : ℚ) ^ k < shiftNat n k + 1 ∧
    (shiftNat n k <<< (-k).toNat = n <<< k.toNat ↔ (shiftNat n k : ℚ) = n * (2 : ℚ) ^ k) := by
  obtain ⟨j, rfl | rfl⟩ := k.eq_nat_or_neg
  · have hvalue : (shiftNat n j : ℚ) = n * (2 : ℚ) ^ (j : ℤ) :=
      shiftNat_cast n j (by rw [Int.toNat_eq_zero.mpr (by omega)]; exact one_dvd _)
    refine ⟨hvalue.le, by rw [hvalue]; exact lt_add_one _, iff_of_true ?_ hvalue⟩
    rw [shiftNat, Int.toNat_eq_zero.mpr (show -(j : ℤ) ≤ 0 by omega), Nat.shiftRight_zero, Nat.shiftLeft_zero]
  · have hshift : shiftNat n (-j) = n / 2 ^ j := by
      rw [shiftNat, neg_neg, Int.toNat_natCast, Int.toNat_eq_zero.mpr (by omega), Nat.shiftLeft_zero,
        Nat.shiftRight_eq_div_pow]
    have hpos : (0 : ℚ) < 2 ^ j := by positivity
    rw [hshift, neg_neg, Int.toNat_natCast, Int.toNat_eq_zero.mpr (show -(j : ℤ) ≤ 0 by omega), Nat.shiftLeft_zero,
      Nat.shiftLeft_eq, zpow_neg, zpow_natCast, ← div_eq_mul_inv, le_div_iff₀ hpos, div_lt_iff₀ hpos, eq_div_iff hpos.ne']
    refine ⟨by exact_mod_cast Nat.div_mul_le_self n (2 ^ j), ?_, by norm_cast⟩
    have hlt := Nat.lt_mul_div_succ n (show 0 < 2 ^ j by positivity)
    rw [mul_comm] at hlt
    exact_mod_cast hlt

/-- `n`, or `n` and a half where the root is not exact, stands for the root of a number between the squares of `n` and of
`n + 1`. -/
theorem standsForRoot_of_floor {n : ℕ} {x h : ℚ} (hh : 0 < h) {exact : Bool} (h1 : (n * h) ^ 2 ≤ x)
    (h2 : x < ((n + 1) * h) ^ 2) (he : exact = true ↔ (n * h) ^ 2 = x) :
    StandsForRoot h x ((2 * n + (!exact).toNat : ℕ) * (h / 2)) := by
  have hmono : ∀ {a b : ℚ}, 0 ≤ a → a ≤ b → (a * h) ^ 2 ≤ (b * h) ^ 2 := fun ha hab => by gcongr
  intro z
  cases hexact : exact with
  | true =>
    have hx := he.mp hexact
    have hv : ((2 * n + (!true).toNat : ℕ) : ℚ) * (h / 2) = n * h := by simp; ring
    rw [hv, ← hx, pow_le_pow_iff_left₀ (by positivity) (by positivity) two_ne_zero,
      pow_le_pow_iff_left₀ (by positivity) (by positivity) two_ne_zero]
    exact ⟨.rfl, .rfl⟩
  | false =>
    have hx : (n * h) ^ 2 < x := lt_of_le_of_ne h1 fun h => by simp [he.mpr h] at hexact
    have hv : ((2 * n + (!false).toNat : ℕ) : ℚ) * (h / 2) = (n + 1 / 2) * h := by
      simp only [Bool.not_false, Bool.toNat_true]
      push_cast
      ring
    rw [hv, mul_le_mul_iff_left₀ hh, mul_le_mul_iff_left₀ hh]
    rcases Nat.lt_or_ge n z with hz | hz
    · have hz' : (n : ℚ) + 1 ≤ z := by exact_mod_cast hz
      have hlt := h2.trans_le (hmono (by positivity) hz')
      exact ⟨iff_of_false hlt.not_ge (by linarith), iff_of_true hlt.le (by linarith)⟩
    · have hz' : (z : ℚ) ≤ n := by exact_mod_cast hz
      have hlt := (hmono (by positivity) hz').trans_lt hx
      exact ⟨iff_of_true hlt.le (by linarith), iff_of_false hlt.not_ge (by linarith)⟩

/-- The number that FSQRT rounds stands for the root, on the grid of half the unit of the rounding. -/
theorem sqrtExact_standsForRoot {m : Mag} (hn : m.num ≠ 0) (hden : m.den = 1) {p : ℕ} {e : ℤ}
    (h1 : (2 : ℚ) ^ (2 * e) ≤ m.toRat) (h2 : m.toRat < (2 : ℚ) ^ (2 * e + 2)) :
    (sqrtExact m p).neg = false ∧ (sqrtExact m p).mag.den ≠ 0 ∧
      StandsForRoot ((2 : ℚ) ^ (e - p)) m.toRat (sqrtExact m p).mag.toRat := by
  have hlog : 2 * e ≤ m.log2 ∧ m.log2 < 2 * e + 2 := by
    obtain ⟨hlow, hhigh⟩ := Mag.log2_spec hn (hden ▸ one_ne_zero)
    have hl := (zpow_lt_zpow_iff_right₀ (one_lt_two : (1 : ℚ) < 2)).mp (h1.trans_lt hhigh)
    have hu := (zpow_lt_zpow_iff_right₀ (one_lt_two : (1 : ℚ) < 2)).mp (hlow.trans_lt h2)
    omega
  have ht : ((2 * p : Nat) - m.log2 + 1) / 2 = (p : ℤ) - e := by omega
  have hh : (0 : ℚ) < (2 : ℚ) ^ (e - p) := by positivity
  have hhsq : ((2 : ℚ) ^ (e - p)) ^ 2 = (2 : ℚ) ^ (2 * (e - p)) := by rw [← zpow_natCast, ← zpow_mul]; congr 1; ring
  have hscale : (m.num : ℚ) * (2 : ℚ) ^ (m.exp + 2 * ((p : ℤ) - e)) * ((2 : ℚ) ^ (e - p)) ^ 2 = m.toRat := by
    rw [hhsq, mul_assoc, ← zpow_add₀ two_ne_zero, Mag.toRat, hden, Nat.cast_one, div_one]
    congr 2
    ring
  obtain ⟨hfloor, hceil, hundo⟩ := shiftNat_floor m.num (m.exp + 2 * ((p : ℤ) - e))
  have hbound : shiftNat m.num (m.exp + 2 * ((p : ℤ) - e)) < 2 ^ (2 * (p + 1)) := by
    have hlt : (m.num : ℚ) * (2 : ℚ) ^ (m.exp + 2 * ((p : ℤ) - e)) < (2 : ℚ) ^ (2 * (p + 1)) := by
      refine lt_of_mul_lt_mul_right ?_ (sq_nonneg ((2 : ℚ) ^ (e - p)))
      rw [hscale, hhsq, ← zpow_natCast, ← zpow_add₀ two_ne_zero]
      refine h2.trans_le (zpow_le_zpow_right₀ one_le_two ?_)
      push_cast
      omega
    exact_mod_cast hfloor.trans_lt hlt
  obtain ⟨hsq, hsq'⟩ := isqrt_spec _ _ hbound
  rw [sqrtExact, ht]
  simp only
  generalize shiftNat m.num (m.exp + 2 * ((p : ℤ) - e)) = u at *
  generalize isqrt u (p + 1) = n at *
  refine ⟨trivial, one_ne_zero, ?_⟩
  have hsqQ : (n : ℚ) * n ≤ u := by exact_mod_cast hsq
  have hsqQ' : (u : ℚ) + 1 ≤ (n + 1) * (n + 1) := by exact_mod_cast hsq'
  have hvalue : ∀ k : ℕ, Mag.toRat ⟨k, 1, -((p : ℤ) - e) - 1⟩ = k * ((2 : ℚ) ^ (e - p) / 2) := fun k => by
    rw [Mag.toRat, Nat.cast_one, div_one, show -((p : ℤ) - e) - 1 = (e - p) - 1 by ring, zpow_sub_one₀ two_ne_zero,
      div_eq_mul_inv]
  rw [hvalue, ← hscale]
  refine standsForRoot_of_floor hh ?_ ?_ ?_
  · rw [mul_pow, mul_le_mul_iff_left₀ (by positivity)]
    nlinarith
  · rw [mul_pow, mul_lt_mul_iff_left₀ (by positivity)]
    nlinarith
  · rw [Bool.and_eq_true, decide_eq_true_iff, decide_eq_true_iff, hundo, mul_pow, mul_left_inj' (by positivity)]
    constructor
    · rintro ⟨hroot, hexact⟩
      rw [← hexact, ← hroot]
      push_cast
      ring
    · intro h
      rw [sq] at h
      have hu : (u : ℚ) = n * n := le_antisymm (by rw [h]; exact hfloor) hsqQ
      exact ⟨by exact_mod_cast hu.symm, hu.trans h⟩

/-! ### The root rounded -/

/-- `w` is the square root of `x` rounded by the mode to multiples of `u`, a tie to an even one (43_basic_arithmetic.md
R352); `h` is half of `u`. -/
def RootRounded (rm : RoundMode) (h u x w : ℚ) : Prop :=
  match rm with
  | .nearest => (w - h) ^ 2 ≤ x ∧ x ≤ (w + h) ^ 2 ∧ ((w - h) ^ 2 = x ∨ x = (w + h) ^ 2 → ∃ k : ℤ, w = 2 * k * u)
  | .up => (w - u) ^ 2 < x ∧ x ≤ w ^ 2
  | .down => w ^ 2 ≤ x ∧ x < (w + u) ^ 2
  | .zero => w ^ 2 ≤ x ∧ x < (w + u) ^ 2

/-- A rounded value is less than a unit away, or half of one. -/
theorem RoundedTo.sub_le {rm : RoundMode} {u v r : ℚ} (hv : 0 < v) (hr : 0 ≤ r) (h : RoundedTo rm u v r) :
    v - u ≤ r := by
  cases rm with
  | nearest =>
    have := (abs_le.mp h.1).1
    have := (abs_nonneg _).trans h.1
    linarith
  | up => linarith [h.1, h.2]
  | down => linarith [h.2]
  | zero =>
    have := h.2.2
    rw [abs_of_pos hv, abs_of_nonneg hr] at this
    linarith

section
variable {h x v : ℚ} (hroot : StandsForRoot h x v)
include hroot

/-- A multiple of `h` is the root exactly when it is what stands for it. -/
theorem StandsForRoot.eq_iff (z : ℕ) : (z * h) ^ 2 = x ↔ z * h = v := by
  rw [le_antisymm_iff, le_antisymm_iff, (hroot z).1, (hroot z).2]

theorem StandsForRoot.lt_iff (z : ℕ) : x < (z * h) ^ 2 ↔ v < z * h := by
  rw [← not_le, ← not_le, (hroot z).1]

theorem StandsForRoot.gt_iff (z : ℕ) : (z * h) ^ 2 < x ↔ z * h < v := by
  rw [← not_le, ← not_le, (hroot z).2]

/-- What stands for the root, rounded to even multiples of `h`, is the root rounded. -/
theorem StandsForRoot.rounded {rm : RoundMode} {c : ℕ} (hh : 0 < h) (hc : 1 ≤ c) (hv : 0 < v)
    (hr : RoundedTo rm (2 * h) v (c * (2 * h))) : RootRounded rm h (2 * h) x (c * (2 * h)) := by
  have self : (c : ℚ) * (2 * h) = ((2 * c : ℕ) : ℚ) * h := by push_cast; ring
  have below : (c : ℚ) * (2 * h) - h = ((2 * c - 1 : ℕ) : ℚ) * h := by
    rw [Nat.cast_sub (by omega)]; push_cast; ring
  have above : (c : ℚ) * (2 * h) + h = ((2 * c + 1 : ℕ) : ℚ) * h := by push_cast; ring
  have under : (c : ℚ) * (2 * h) - 2 * h = ((2 * c - 2 : ℕ) : ℚ) * h := by
    rw [Nat.cast_sub (by omega)]; push_cast; ring
  have beyond : (c : ℚ) * (2 * h) + 2 * h = ((2 * c + 2 : ℕ) : ℚ) * h := by push_cast; ring
  cases rm with
  | nearest =>
    obtain ⟨hle, htie⟩ := hr
    rw [mul_div_cancel_left₀ _ two_ne_zero] at hle htie
    obtain ⟨hlow, hhigh⟩ := abs_le.mp hle
    rw [RootRounded, below, above, hroot.eq_iff, eq_comm (a := x), hroot.eq_iff, (hroot _).1, (hroot _).2, ← below, ← above]
    refine ⟨by linarith, by linarith, fun h' => htie ?_⟩
    rcases h' with h' | h'
    · rw [← h', sub_sub_cancel, abs_of_pos hh]
    · rw [← h', sub_add_cancel_left, abs_neg, abs_of_pos hh]
  | up =>
    rw [RootRounded, under, self, hroot.gt_iff, (hroot _).2, ← under, ← self]
    exact ⟨by linarith [hr.2], hr.1⟩
  | down =>
    rw [RootRounded, beyond, self, hroot.lt_iff, (hroot _).1, ← beyond, ← self]
    exact hr
  | zero =>
    have habs : |(c : ℚ) * (2 * h)| = c * (2 * h) := abs_of_nonneg (by positivity)
    obtain ⟨-, hlow, hhigh⟩ := hr
    rw [habs, abs_of_pos hv] at hlow hhigh
    rw [RootRounded, beyond, self, hroot.lt_iff, (hroot _).1, ← beyond, ← self]
    exact ⟨hlow, hhigh⟩

end

/-- A normal number is between the smallest and the largest one. -/
theorem normal_bounds {x : Ext} (h : classOf x = .normal) : (2 : ℚ) ^ (-16382 : ℤ) ≤ |realOf x| := by
  obtain ⟨he, -, hs⟩ := (classOf_normal_iff x).mp h
  have hsQ : ((2 : ℚ) ^ (63 : ℤ)) ≤ sigOf x := by exact_mod_cast hs
  rw [abs_realOf, magOf_toRat]
  calc (2 : ℚ) ^ (-16382 : ℤ) = (2 : ℚ) ^ (63 : ℤ) * (2 : ℚ) ^ (-16445 : ℤ) := by
        rw [← zpow_add₀ two_ne_zero]; congr 1
    _ ≤ sigOf x * (2 : ℚ) ^ ((max (expOf x) 1 : ℕ) - 16446 : ℤ) :=
        mul_le_mul hsQ (zpow_le_zpow_right₀ one_le_two (by omega)) (zpow_nonneg two_pos.le _) (Nat.cast_nonneg _)

/-- Settles O35: FSQRT delivers a number that stands for the root, on a grid twice as fine as the rounding's. -/
theorem squareRootRoundsTheRoot : Obligations.SquareRootRoundsTheRoot := by
  intro cw p x e hq hclass hsign h1 h2
  have hp : 2 ≤ p ∧ p ≤ 64 := by
    rw [pcBits] at hq
    split at hq <;> cases hq <;> decide
  have hpos : 0 < realOf x := lt_of_lt_of_le (by positivity) h1
  have hreal : realOf x = (magOf x).toRat := by rw [← abs_realOf, abs_of_pos hpos]
  have hfin : isFinite x = true := by simp [isFinite, hclass]
  have hden : isDenormal x = false := by simp [isDenormal, hclass]
  have he : -8192 ≤ e ∧ e ≤ 8191 := by
    have hlow := normal_bounds hclass
    have hhigh := abs_realOf_lt hfin
    rw [abs_of_pos hpos] at hlow hhigh
    have hl := (zpow_lt_zpow_iff_right₀ (one_lt_two : (1 : ℚ) < 2)).mp (hlow.trans_lt h2)
    have hh := (zpow_lt_zpow_iff_right₀ (one_lt_two : (1 : ℚ) < 2)).mp (h1.trans_lt hhigh)
    omega
  rw [hreal] at h1 h2
  obtain ⟨hneg, hd, hroot⟩ := sqrtExact_standsForRoot (p := p) (Mag.num_of_pos (hreal ▸ hpos)) rfl h1 h2
  have hsqrt : sqrt cw x = .ok (deliver cw p (sqrtExact (magOf x) p)).reply := by
    rw [sqrt, nanCheck1_ordered (isOrdered_of_isFinite hfin)]
    simp only [hclass, hsign, hden, hq]
    rfl
  generalize sqrtExact (magOf x) p = v at *
  have hvreal : v.toRat = v.mag.toRat := by rw [Exact.toRat, hneg]; rfl
  have hpow : ∀ k : ℕ, ((2 ^ k : ℕ) : ℚ) * (2 : ℚ) ^ (e - p) = (2 : ℚ) ^ (e - p + k) := fun k => by
    rw [zpow_add₀ two_ne_zero, zpow_natCast, Nat.cast_pow, Nat.cast_ofNat, mul_comm]
  have hsq : ∀ k : ℤ, ((2 : ℚ) ^ k) ^ 2 = (2 : ℚ) ^ (2 * k) := fun k => by
    rw [← zpow_natCast, ← zpow_mul]; congr 1; push_cast; ring
  have hvlow : (2 : ℚ) ^ e ≤ v.mag.toRat := by
    have h := (hroot (2 ^ p)).1
    rw [hpow, sub_add_cancel, hsq] at h
    exact h.mp h1
  have hvhigh : v.mag.toRat < (2 : ℚ) ^ (e + 1) := by
    have h := hroot.lt_iff (2 ^ (p + 1))
    rw [hpow, show e - (p : ℤ) + (p + 1 : ℕ) = e + 1 by push_cast; ring, hsq, mul_add] at h
    exact h.mp h2
  have hvpos : 0 < v.mag.toRat := lt_of_lt_of_le (by positivity) hvlow
  have hn := Mag.num_of_pos hvpos
  have hlog : v.mag.log2 = e := Mag.log2_unique hn hd hvlow hvhigh
  obtain ⟨hwfin, hwsign, hround, ⟨k, hk⟩, hflags, hc1⟩ := deliver_inRange cw v hn hd (by omega) hp.2 (by omega) (by omega)
  rw [hlog, zpow_add_one₀ two_ne_zero, mul_comm _ (2 : ℚ)] at hround hk
  have hval : realOf (deliver cw p v).value = (magOf (deliver cw p v).value).toRat := by
    rw [realOf, valOf, hwsign, hneg]
    rfl
  have hunit : (2 : ℚ) ^ (e - p + 1) = 2 * (2 : ℚ) ^ (e - p) := by rw [zpow_add_one₀ two_ne_zero, mul_comm]
  have hh : (0 : ℚ) < (2 : ℚ) ^ (e - p) := by positivity
  have hfour : 4 * (2 : ℚ) ^ (e - p) ≤ v.mag.toRat := by
    refine le_trans (le_of_eq ?_) ((zpow_le_zpow_right₀ one_le_two (show e - (p : ℤ) + 2 ≤ e by omega)).trans hvlow)
    rw [zpow_add₀ two_ne_zero, mul_comm]
    norm_num
  rw [hvreal] at hround
  have hge := hround.sub_le hvpos (hval ▸ Mag.toRat_nonneg _)
  have hwpos : 0 < realOf (deliver cw p v).value := by linarith
  have hkpos : 0 < k := by
    rw [hk] at hwpos
    exact_mod_cast pos_of_mul_pos_left hwpos (by positivity)
  obtain ⟨c, rfl⟩ := Int.eq_ofNat_of_zero_le hkpos.le
  rw [Int.cast_natCast] at hk
  have hw : realOf (deliver cw p v).value = ((2 * c : ℕ) : ℚ) * (2 : ℚ) ^ (e - p) := by rw [hk]; push_cast; ring
  rw [← hval] at hflags hc1
  rw [hk] at hround
  have hrooted := hroot.rounded hh (by omega) hvpos hround
  refine ⟨_, ⟨(deliver cw p v).value, (deliver cw p v).c1⟩, hsqrt, hwfin, hwpos, ⟨c, ?_⟩, ?_, ?_, ?_⟩
  · rw [hunit, Int.cast_natCast]; exact hk
  · refine hflags.trans ?_
    simp only [hreal, hw, hroot.eq_iff]
  · rw [hreal, hw, hroot.lt_iff, ← hw]
    exact hc1
  · simp only [hreal, hunit, hk]
    cases hrm : roundMode cw <;> rw [hrm] at hrooted <;> exact hrooted

/-! ### FRNDINT -/

/-- What FRNDINT makes of the answer of its operation. -/
theorem frndint_outcome {s : State} {p : Prefixes} {r : Reply Written} (hr : s.Ready) (h0 : s.Full 0)
    (h : rndint s.cw (s.st 0) = r) :
    ∃ t, exec (.frndint p) s = .next t ∧ s.Ran t (.frndint p) none ∧ s.Outcome t 0 false r := by
  refine runReg_effect (f := fun v => onTop (rndint v.cw) v) hr (fun v => OnStack.onTop _ v) ?_
  rw [onTop, if_neg (by rw [State.record_isEmpty, show s.isEmpty 0 = false from h0]; decide)]
  subst h
  simpa using writeReplied_outcome 0 false (rndint s.cw (s.st 0)) (s.record (.frndint p) none)

/-- Settles O36: `rndint_finite` for finite operands, `rndint_answer` for the others. -/
theorem roundToInteger : Obligations.RoundToInteger := by
  refine ⟨fun s p hr h0 hf hd => ?_, fun s p r hr h0 h => frndint_outcome hr h0 (rndint_answer h)⟩
  obtain ⟨x, c, flags, hvalue, hfin, hint, hround, hsign, rfl, rfl⟩ := rndint_finite hf hd
  obtain ⟨t, hexec, hran, hwrote, hsignals⟩ := frndint_outcome (p := p) hr h0 hvalue
  exact ⟨t, x, hexec, hran, hwrote, hfin, hint, hround, hsign, hsignals⟩

end Sys2Proof.Machine
end

section
/-! The remainder and the extraction of exponent and significand (43_basic_arithmetic.md R360 to R366). -/

namespace Sys2Proof.Machine

/-! ### The exact remainder -/

/-- What FPREM and FPREM1 leave of `x` modulo `y`: `z` stands for `v`, the dividend minus a multiple of the modulus, or, for
a tiny one with #U unmasked, for the biased `v`; and the codes. -/
structure Reduced (cw : Word16) (ieee : Bool) (x y z : Ext) (flags : List Exc) (codes : RemCodes) (q : ℕ) (v : ℚ) : Prop where
  finite : isFinite z = true
  value : v = realOf x - (if signOf x = signOf y then (q : ℚ) else -q) * realOf y
  zero : v = 0 → signOf z = signOf x
  written : if v ≠ 0 ∧ |v| < (2 : ℚ) ^ (-16382 : ℤ) ∧ maskedIn cw .u = false then
    realOf z = v * (2 : ℚ) ^ (24576 : ℤ) ∧ flags = [.u] else realOf z = v ∧ flags = []
  reduction : if (magOf x).log2 - (magOf y).log2 < 64 then
    (if ieee then |v| ≤ |realOf y| / 2 ∧ (|v| = |realOf y| / 2 → q % 2 = 0)
      else |v| < |realOf y| ∧ signOf z = signOf x) ∧ codes = .complete q
    else |v| < |realOf x| ∧ signOf z = signOf x ∧ codes = .incomplete

/-- The sign of what is written for a value of known sign. -/
theorem sign_of_written {z : Ext} {neg : Bool} {v w c : ℚ} {p : Prop} [Decidable p] {l l' flags : List Exc} (hc : 0 < c)
    (hw : 0 ≤ w) (hv : v = if neg = true then -w else w) (h0 : v = 0 → signOf z = neg)
    (h : if p then realOf z = v * c ∧ flags = l else realOf z = v ∧ flags = l') : signOf z = neg := by
  by_cases hzero : v = 0
  · exact h0 hzero
  · have hz : realOf z = v ∨ realOf z = v * c := by
      split at h
      · exact .inr h.1
      · exact .inl h.1
    have hne : realOf z ≠ 0 := by
      rcases hz with hz | hz <;> rw [hz]
      · exact hzero
      · exact mul_ne_zero hzero hc.ne'
    have hlt : realOf z < 0 ↔ v < 0 := by
      rcases hz with hz | hz <;> rw [hz]
      exact ⟨fun h => by_contra fun h' => h.not_ge (mul_nonneg (not_lt.mp h') hc.le), fun h => mul_neg_of_neg_of_pos h hc⟩
    rw [Bool.eq_iff_iff, ← realOf_neg_iff hne, hlt, hv]
    cases neg with
    | false => simp [hw]
    | true =>
      have hw0 : w ≠ 0 := fun h => hzero (by rw [hv, h]; simp)
      simp [lt_of_le_of_ne hw hw0.symm]

section
variable {cw : Word16} {x y : Ext} {ieee : Bool} {e : ℤ} {X Y : ℕ} (he : e = min (magOf x).exp (magOf y).exp)
  (hX : X = (magOf x).num <<< ((magOf x).exp - e).toNat) (hY : Y = (magOf y).num <<< ((magOf y).exp - e).toNat)
  (hf : isFinite x = true) (hy : realOf y ≠ 0)

include he in
/-- The common exponent is no smaller than that of the smallest denormal. -/
theorem shifted_exponent : -16445 ≤ e ∧ e ≤ (magOf x).exp ∧ e ≤ (magOf y).exp := by
  have hexp : ∀ z : Ext, (magOf z).exp = (max (expOf z) 1 : ℕ) - 16446 := fun _ => rfl
  rw [hexp, hexp] at *
  omega

include he hX hY in
theorem shifted_values : |realOf x| = X * (2 : ℚ) ^ e ∧ |realOf y| = Y * (2 : ℚ) ^ e := by
  obtain ⟨-, hex, hey⟩ := shifted_exponent he
  rw [hX, hY]
  exact ⟨abs_realOf_shifted x hex, abs_realOf_shifted y hey⟩

include he hX hY hf hy

/-- Where the exponents differ by less than 64 the reduction is complete. -/
theorem remWrite_complete (h : (magOf x).log2 - (magOf y).log2 < 64) : ∃ z flags codes q v,
    remWrite cw x (remExact ieee premStep x y) = ⟨flags, some ⟨z, codes⟩⟩ ∧ Reduced cw ieee x y z flags codes q v := by
  obtain ⟨hxv, hyv⟩ := shifted_values he hX hY
  have hpos : (0 : ℚ) < (2 : ℚ) ^ e := by positivity
  have hY0 : 0 < Y := Nat.pos_of_ne_zero fun h0 => hy (abs_eq_zero.mp (by rw [hyv, h0, Nat.cast_zero, zero_mul]))
  obtain ⟨hq, hleX, hleY⟩ := remQuotient_spec ieee (n := X) hY0
  have hsmall : X < 2 ^ 64 ∨ Y < 2 ^ 64 := by
    rcases min_choice (magOf x).exp (magOf y).exp with hmin | hmin
    · left
      rw [hX, he, hmin, sub_self]
      exact sigOf_lt x
    · right
      rw [hY, he, hmin, sub_self]
      exact sigOf_lt y
  rw [remExact_complete he hX hY h]
  generalize remQuotient ieee X Y = q at *
  generalize hr : (X : ℤ) - q * Y = r at *
  have hvalue := sub_shifted (q := q) hxv hyv
  rw [hr] at hvalue
  generalize hv : realOf x - (if signOf x = signOf y then (q : ℚ) else -q) * realOf y = v at *
  have habs : |v| = |(r : ℚ)| * (2 : ℚ) ^ e := by
    rw [hvalue]
    split
    · rw [abs_neg, abs_mul, abs_of_pos hpos]
    · rw [abs_mul, abs_of_pos hpos]
  have hle : |v| ≤ |realOf x| := by
    rw [habs, hxv]
    refine mul_le_mul_of_nonneg_right ?_ hpos.le
    rw [← Int.cast_abs, Int.abs_eq_natAbs]
    exact_mod_cast hleX
  obtain ⟨z, flags, hwrite, hfin, hzero, hwritten⟩ := remWrite_spec cw x (some q) ⟨0, r.natAbs, by simp, by omega⟩
    (shifted_exponent he).1 hvalue (hle.trans_lt (abs_realOf_lt hf))
  refine ⟨z, flags, .complete q, q, v, hwrite, hfin, hv.symm, hzero, hwritten, ?_⟩
  rw [if_pos h]
  refine ⟨?_, rfl⟩
  cases ieee with
  | true =>
    obtain ⟨hhalf, htie⟩ := hq
    have habs' : 2 * |(r : ℚ)| ≤ Y := by rw [← Int.cast_abs]; exact_mod_cast hhalf
    rw [if_pos rfl, habs, hyv]
    refine ⟨by nlinarith, fun heq => htie ?_⟩
    have : 2 * |(r : ℚ)| = Y := mul_right_cancel₀ hpos.ne' (by linarith)
    rw [← Int.cast_abs] at this
    exact_mod_cast this
  | false =>
    obtain ⟨hr0, hrY⟩ := hq
    have hr0' : (0 : ℚ) ≤ r := by exact_mod_cast hr0
    have hrY' : (r : ℚ) < Y := by exact_mod_cast hrY
    refine ⟨?_, sign_of_written (by positivity) (mul_nonneg hr0' hpos.le) hvalue hzero hwritten⟩
    rw [habs, hyv, abs_of_nonneg hr0']
    exact mul_lt_mul_of_pos_right hrY' hpos

/-- Otherwise it is partial. -/
theorem remWrite_partial (hx : realOf x ≠ 0) (h : ¬ (magOf x).log2 - (magOf y).log2 < 64) : ∃ z flags codes q v,
    remWrite cw x (remExact ieee premStep x y) = ⟨flags, some ⟨z, codes⟩⟩ ∧ Reduced cw ieee x y z flags codes q v := by
  obtain ⟨hxv, hyv⟩ := shifted_values he hX hY
  have hpos : (0 : ℚ) < (2 : ℚ) ^ e := by positivity
  have hx0 := sigOf_ne_of hx
  have hy0 := sigOf_ne_of hy
  have hxlog := magOf_log2 hx
  have hylog := magOf_log2 hy
  have hxl := (Nat.log2_lt hx0).mpr (sigOf_lt x)
  have hyl := (Nat.log2_lt hy0).mpr (sigOf_lt y)
  obtain ⟨hstep, hstep'⟩ := premStep_range
  have hey : e = (magOf y).exp := by omega
  have hYy : Y = (magOf y).num := by rw [hY, hey, sub_self]; rfl
  have hXx : X = (magOf x).num * 2 ^ ((magOf x).exp - e).toNat := by rw [hX, Nat.shiftLeft_eq]
  obtain ⟨k, hk⟩ : ∃ k, k = ((magOf x).log2 - (magOf y).log2 - premStep).toNat := ⟨_, rfl⟩
  obtain ⟨hle, hQ, i, w, hw, hw64⟩ :=
    partial_spec (k := k) hXx (sigOf_lt x) hx0 hYy (sigOf_lt y) hy0 (by omega)
  rw [remExact_partial he hX hY rfl h, ← hk]
  generalize X / Y / 2 ^ k * 2 ^ k = q at *
  generalize hr : (X : ℤ) - (q : ℤ) * Y = r at *
  have hvalue := sub_shifted (q := q) hxv hyv
  rw [hr] at hvalue
  generalize hv : realOf x - (if signOf x = signOf y then (q : ℚ) else -q) * realOf y = v at *
  have hcast : ((X - q * Y : ℕ) : ℤ) = r := by rw [Nat.cast_sub hle, ← hr]; push_cast; ring
  have hr0 : (0 : ℚ) ≤ r := by rw [← hcast]; positivity
  have hY0 : 0 < Y := hYy ▸ Nat.pos_of_ne_zero hy0
  have hrX : (r : ℚ) < X := by
    have : r < X := by have := Nat.mul_pos hQ hY0; omega
    exact_mod_cast this
  have habs : |v| = r * (2 : ℚ) ^ e := by
    rw [hvalue]
    split
    · rw [abs_neg, abs_mul, abs_of_pos hpos, abs_of_nonneg hr0]
    · rw [abs_mul, abs_of_pos hpos, abs_of_nonneg hr0]
  have hlt : |v| < |realOf x| := by
    rw [habs, hxv]
    exact mul_lt_mul_of_pos_right hrX hpos
  obtain ⟨z, flags, hwrite, hfin, hzero, hwritten⟩ := remWrite_spec cw x none
    ⟨i, w, by rw [← hcast, Int.natAbs_natCast]; exact hw, hw64⟩ (shifted_exponent he).1 hvalue
    (hlt.trans (abs_realOf_lt hf))
  refine ⟨z, flags, .incomplete, q, v, hwrite, hfin, hv.symm, hzero, hwritten, ?_⟩
  rw [if_neg h]
  exact ⟨hlt, sign_of_written (by positivity) (mul_nonneg hr0 hpos.le) hvalue hzero hwritten, rfl⟩

end

/-- The remainder of finite non-zero operands, after a denormal test that goes on. -/
theorem remainder_finite {cw : Word16} {ieee pick : Bool} {x y : Ext} (hfx : isFinite x = true) (hfy : isFinite y = true)
    (hx : realOf x ≠ 0) (hy : realOf y ≠ 0) (hd : (isDenormal x || isDenormal y) = false ∨ maskedIn cw .d = true) :
    ∃ z flags codes q v, remainder cw ieee premStep pick x y =
      ⟨(if isDenormal x || isDenormal y then [.d] else []) ++ flags, some ⟨z, codes⟩⟩ ∧
      Reduced cw ieee x y z flags codes q v := by
  have hzx : classOf x ≠ .zero := fun h => hx ((realOf_eq_zero_iff_zero hfx).mpr h)
  have hzy : classOf y ≠ .zero := fun h => hy ((realOf_eq_zero_iff_zero hfy).mpr h)
  have hwrite : ∃ z flags codes q v, remWrite cw x (remExact ieee premStep x y) = ⟨flags, some ⟨z, codes⟩⟩ ∧
      Reduced cw ieee x y z flags codes q v := by
    by_cases h : (magOf x).log2 - (magOf y).log2 < 64
    · exact remWrite_complete rfl rfl rfl hfx hy h
    · exact remWrite_partial rfl rfl rfl hfx hy hx h
  obtain ⟨z, flags, codes, q, v, hwrite, hreduced⟩ := hwrite
  refine ⟨z, flags, codes, q, v, ?_, hreduced⟩
  rw [remainder, nanCheck2_ordered pick (isOrdered_of_isFinite hfx) (isOrdered_of_isFinite hfy)]
  simp only [(isFinite_classes hfx).2.2.2, (isFinite_classes hfy).2.2.2, hzx, hzy, or_self, if_false]
  rw [Reply.afterDenormal_masked _ hd, hwrite]

/-! ### FPREM and FPREM1 -/

theorem exec_remainder (ieee : Bool) (p : Prefixes) (s : State) : exec (if ieee then .fprem1 p else .fprem p) s =
    runReg (if ieee then .fprem1 p else .fprem p) (fun v => .ok (remTop ieee v)) s := by
  cases ieee <;> rfl

section
variable {s : State} {p : Prefixes} {ieee : Bool} {flags : List Exc}

theorem remTop_full (h0 : s.Full 0) (h1 : s.Full 1) :
    remTop ieee s = remReplied (remainder s.cw ieee premStep s.nanPick (s.st 0) (s.st 1)) s := by
  rw [remTop, if_neg (by rw [show s.isEmpty 0 = false from h0, show s.isEmpty 1 = false from h1]; decide)]

/-- A remainder is written with its exceptions and its codes. -/
theorem remainder_written {z : Ext} {codes : RemCodes} (hr : s.Ready) (h0 : s.Full 0) (h1 : s.Full 1)
    (h : remainder s.cw ieee premStep s.nanPick (s.st 0) (s.st 1) = ⟨flags, some ⟨z, codes⟩⟩) :
    ∃ t u, exec (if ieee then .fprem1 p else .fprem p) s = .next t ∧
      s.Ran t (if ieee then .fprem1 p else .fprem p) none ∧ s.Wrote t 0 false z ∧ s.Signals t flags t.c1 ∧
      t.codes = (remCodes codes u).codes ∧ t.c1 = (remCodes codes u).c1 := by
  rw [exec_remainder]
  generalize (if ieee = true then Instr.fprem1 p else .fprem p) = i
  obtain ⟨hwrote, hsignals, hcodes⟩ := remReplied_effect ⟨flags, some ⟨z, codes⟩⟩ (s.record i none)
  have hdone := (remTop_full (ieee := ieee) (s := s.record i none) h0 h1).trans
    (congrArg (fun r => remReplied r (s.record i none)) h)
  rw [← hdone] at hwrote hsignals hcodes
  obtain ⟨t, hexec, hran, rfl⟩ := runReg_effect (P := fun t => t = (remTop ieee (s.record i none)).retire i.length s.es) hr
    (OnStack.remTop ieee) rfl
  exact ⟨_, _, hexec, hran, by simpa using hwrote, by simpa using hsignals,
    (State.retire_codes _ _ _).trans (congrArg State.codes hcodes), (State.retire_c1 _ _ _).trans (congrArg State.c1 hcodes)⟩

/-- An unmasked exception ends the instruction. -/
theorem remainder_abandoned (hr : s.Ready) (h0 : s.Full 0) (h1 : s.Full 1)
    (h : remainder s.cw ieee premStep s.nanPick (s.st 0) (s.st 1) = ⟨flags, none⟩) :
    ∃ t, exec (if ieee then .fprem1 p else .fprem p) s = .next t ∧
      s.Ran t (if ieee then .fprem1 p else .fprem p) none ∧ s.Popped t 0 ∧ s.Signals t flags s.c1 := by
  rw [exec_remainder]
  generalize (if ieee = true then Instr.fprem1 p else .fprem p) = i
  obtain ⟨hpopped, hsignals⟩ := remReplied_effect ⟨flags, none⟩ (s.record i none)
  have hdone := (remTop_full (ieee := ieee) (s := s.record i none) h0 h1).trans
    (congrArg (fun r => remReplied r (s.record i none)) h)
  rw [← hdone] at hpopped hsignals
  exact runReg_effect hr (OnStack.remTop ieee) ⟨by simpa using hpopped, by simpa using hsignals⟩

end

theorem State.codes_eq_iff {s : State} {a b c : Bool} : s.codes = (a, b, c) ↔ s.c3 = a ∧ s.c2 = b ∧ s.c0 = c := by
  rw [State.codes, Prod.mk.injEq, Prod.mk.injEq]

/-- Settles O37: `remainder_finite` gives the value and the codes, and the instruction writes them. -/
theorem remainderIsExact : Obligations.RemainderIsExact := by
  intro s p ieee hr h0 h1 hfx hfy hx hy hd
  obtain ⟨z, flags, codes, q, v, hvalue, hfin, hv, hzero, hwritten, hreduction⟩ :=
    remainder_finite (ieee := ieee) (pick := s.nanPick) hfx hfy hx hy hd
  obtain ⟨t, u, hexec, hran, hwrote, hsignals, hcodes, hc1⟩ := remainder_written (p := p) hr h0 h1 hvalue
  refine ⟨t, z, q, v, hexec, hran, hwrote, hfin, hv, hzero, ?_, ?_⟩
  · refine ite_map .rfl (fun h => ?_) (fun h => ?_) hwritten
    · exact ⟨h.1, h.2 ▸ hsignals⟩
    · refine ⟨h.1, ?_⟩
      rw [h.2, List.append_nil] at hsignals
      exact hsignals
  · refine ite_map .rfl (fun h => ?_) (fun h => ?_) hreduction
    · obtain ⟨hcomplete, rfl⟩ := h
      obtain ⟨hq, hq0⟩ := remCodes_complete q u
      obtain ⟨hc3, hc2, hc0⟩ := State.codes_eq_iff.mp (hcodes.trans hq)
      exact ⟨hcomplete, hc2, hc0, hc3, hc1.trans hq0⟩
    · obtain ⟨hlt, hsign, rfl⟩ := h
      refine ⟨hlt, hsign, (congrArg (fun c => c.2.1) hcodes).trans ?_⟩
      show (remCodes .incomplete u).c2 = true
      rw [remCodes, State.drawC1_c2, State.putSw_c2]

/-- What the remainder of operands that are not both finite and non-zero is, and its codes (43_basic_arithmetic.md R360). -/
theorem remainder_answer {cw : Word16} {ieee pick : Bool} {step : ℕ} {x y : Ext} {r : Reply Written} {codes : State → Prop}
    (h : RemainderAnswer cw pick x y r codes) : ∃ c, remainder cw ieee step pick x y =
        ⟨r.flags, r.value.map fun w => ⟨w.value, c⟩⟩ ∧ (∀ w, r.value = some w → w.c1 = false) ∧
      ∀ t u : State, t.codes = (remCodes c u).codes → (remCodes c u).c1 = false ∧ codes t := by
  cases h with
  | nan h =>
    obtain ⟨q, hq, rfl⟩ := nanCheck2_answer h
    have hplain : ∀ (o : Option Ext) w, o.map plain = some w → w.c1 = false := fun o w h => by
      obtain ⟨v, -, rfl⟩ := Option.map_eq_some_iff.mp h
      rfl
    refine ⟨.nan, ?_, hplain _, fun t u _ => ⟨State.setC1_c1 _ _, trivial⟩⟩
    rw [remainder, hq]
    refine congrArg (Reply.mk _) ?_
    simp [Reply.map, Function.comp_def, plain]
  | invalid hx hy h =>
    refine ⟨.invalid, ?_, fun w hw => ?_, fun t u hc => ⟨(remCodes_invalid u).2, ?_⟩⟩
    · rw [remainder, nanCheck2_ordered pick hx hy]
      simp only [if_pos h, Reply.pre, Reply.special]
      split <;> rfl
    · rw [Reply.special] at hw
      split at hw <;> cases hw
      rfl
    · exact (congrArg (fun c => c.2.1) hc).trans (remCodes_invalid u).1
  | dividend hx hy hz =>
    have hoy : isOrdered y = true := by
      rcases hy with h | h
      · exact isOrdered_of_infinity h
      · exact isOrdered_of_isFinite h.2
    refine ⟨.complete 0, ?_, fun w hw => ?_, fun t u hc => ⟨(remCodes_complete 0 u).2, hc.trans (remCodes_complete 0 u).1⟩⟩
    · rw [remainder, nanCheck2_ordered pick (isOrdered_of_isFinite hx) hoy]
      simp only [(isFinite_classes hx).2.2.2, hz, or_self, if_false, if_pos (hy.imp_right And.left), Reply.afterDenormal,
        Reply.exactly]
      split
      · split <;> rfl
      · rfl
    · rw [Reply.exactly] at hw
      split at hw
      · split at hw <;> cases hw
        rfl
      · cases hw
        rfl
  | denormal hx hy hx' hy' h hm =>
    refine ⟨.nan, ?_, (fun w hw => by cases hw), fun t u _ => ⟨State.setC1_c1 _ _, trivial⟩⟩
    rw [remainder, nanCheck2_ordered pick (isOrdered_of_isFinite hx) (isOrdered_of_isFinite hy)]
    simp only [(isFinite_classes hx).2.2.2, hy', or_self, if_false]
    exact Reply.afterDenormal_unmasked (by simpa using h) hm

/-- Settles O38: an answer with a value is written with its codes; one without is abandoned. -/
theorem remainderSpecialOperands : Obligations.RemainderSpecialOperands := by
  intro s p ieee r codes hr h0 h1 h
  obtain ⟨c, hvalue, hplain, hcodes⟩ := remainder_answer (ieee := ieee) (step := premStep) h
  obtain ⟨flags, value⟩ := r
  cases value with
  | none =>
    obtain ⟨t, hexec, hran, hpopped, hsignals⟩ := remainder_abandoned (p := p) hr h0 h1 hvalue
    exact ⟨t, hexec, hran, ⟨hpopped, hsignals⟩, fun h => by cases h⟩
  | some w =>
    obtain ⟨t, u, hexec, hran, hwrote, hsignals, hc, hc1⟩ := remainder_written (p := p) hr h0 h1 hvalue
    obtain ⟨hplain1, hholds⟩ := hcodes t u hc
    rw [hc1, hplain1, ← hplain w rfl] at hsignals
    exact ⟨t, hexec, hran, ⟨hwrote, hsignals⟩, fun _ => hholds⟩

/-! ### FXTRACT -/

section
variable {s : State} {p : Prefixes} {flags : List Exc} {x y : Ext}

theorem fxtract_pair (hr : s.Ready) (h0 : s.Full 0) (hroom : s.Room)
    (h : extract s.cw (s.st 0) = ⟨flags, some (x, y)⟩) :
    ∃ t, exec (.fxtract p) s = .next t ∧ s.Ran t (.fxtract p) none ∧ s.WrotePair t x y ∧ s.Signals t flags false := by
  refine runReg_effect hr OnStack.extractTop ?_
  have heffect := extractTop_effect (s := s.record (.fxtract p) none) h0 hroom
  rw [show extract (s.record (.fxtract p) none).cw ((s.record (.fxtract p) none).st 0) = _ from h] at heffect
  exact ⟨by simpa using heffect.1, by simpa using heffect.2⟩

theorem fxtract_abandoned (hr : s.Ready) (h0 : s.Full 0) (hroom : s.Room)
    (h : extract s.cw (s.st 0) = ⟨flags, none⟩) :
    ∃ t, exec (.fxtract p) s = .next t ∧ s.Ran t (.fxtract p) none ∧ s.Popped t 0 ∧ s.Signals t flags s.c1 := by
  refine runReg_effect hr OnStack.extractTop ?_
  have heffect := extractTop_effect (s := s.record (.fxtract p) none) h0 hroom
  rw [show extract (s.record (.fxtract p) none).cw ((s.record (.fxtract p) none).st 0) = _ from h] at heffect
  exact ⟨by simpa using heffect.1, by simpa using heffect.2⟩

/-- #IA or #Z: masked, both results; unmasked, nothing. -/
theorem fxtract_special {e : Exc} (hr : s.Ready) (h0 : s.Full 0) (hroom : s.Room)
    (h : extract s.cw (s.st 0) = .pre s.cw e (x, y)) :
    ∃ t, exec (.fxtract p) s = .next t ∧ s.Ran t (.fxtract p) none ∧
      if s.masked e = true then s.WrotePair t x y ∧ s.Signals t [e] false
      else s.Popped t 0 ∧ s.Signals t [e] s.c1 := by
  rw [Reply.pre] at h
  split
  next hm => exact fxtract_pair hr h0 hroom (h.trans (congrArg (Reply.mk _) (if_pos hm)))
  next hm => exact fxtract_abandoned hr h0 hroom (h.trans (congrArg (Reply.mk _) (if_neg hm)))

end

/-- The exponent and the significand of a finite non-zero value. -/
theorem extracted_spec {x : Ext} (hf : isFinite x = true) (h0 : realOf x ≠ 0) :
    isFinite (fromInt (magOf x).log2) = true ∧
      isFinite (enc80 (signOf x) (magOf x).num ((magOf x).exp - (magOf x).log2)) = true ∧
      realOf (fromInt (magOf x).log2) = (magOf x).log2 ∧ ((magOf x).log2 = 0 → fromInt (magOf x).log2 = zero80 false) ∧
      realOf x = realOf (enc80 (signOf x) (magOf x).num ((magOf x).exp - (magOf x).log2)) * (2 : ℚ) ^ (magOf x).log2 ∧
      1 ≤ |realOf (enc80 (signOf x) (magOf x).num ((magOf x).exp - (magOf x).log2))| ∧
      |realOf (enc80 (signOf x) (magOf x).num ((magOf x).exp - (magOf x).log2))| < 2 := by
  have hn := sigOf_ne_of h0
  obtain ⟨hlow, hhigh⟩ := Mag.log2_spec hn (magOf_den x)
  have hrange : -16446 ≤ (magOf x).log2 ∧ (magOf x).log2 ≤ 16384 := by
    obtain ⟨hl, hh⟩ := range_magOf hf h0
    have h1 := (zpow_lt_zpow_iff_right₀ (one_lt_two : (1 : ℚ) < 2)).mp (hl.trans_lt hhigh)
    have h2 := (zpow_le_zpow_iff_right₀ (one_lt_two : (1 : ℚ) < 2)).mp (hlow.trans hh)
    omega
  have hlog := magOf_log2 h0
  have hnlog := (Nat.log2_lt hn).mpr (sigOf_lt x)
  have hvalue : (magOf x).toRat = (magOf x).num * (2 : ℚ) ^ (magOf x).exp := by
    rw [Mag.toRat]
    simp [magOf]
  generalize hk : (magOf x).log2 = k at *
  obtain ⟨hfin, hsign, hmag⟩ := enc80_normal (signOf x) (magOf x).num ((magOf x).exp - k) hn
    (by rw [show (magOf x).num.log2 - 63 = 0 by omega]; exact one_dvd _) (by omega) (by omega)
  have hpos : (0 : ℚ) < (2 : ℚ) ^ k := by positivity
  have habs : |realOf (enc80 (signOf x) (magOf x).num ((magOf x).exp - k))| = (magOf x).toRat / (2 : ℚ) ^ k := by
    rw [abs_realOf, hmag, hvalue, zpow_sub₀ two_ne_zero, mul_div_assoc]
  obtain ⟨hkfin, hkreal, -⟩ := fromInt_spec k (by omega)
  refine ⟨hkfin, hfin, hkreal, ?_, ?_, ?_, ?_⟩
  · rintro rfl
    rfl
  · rw [realOf_signed (enc80 _ _ _), hsign, habs, realOf_signed x, abs_realOf]
    split
    · rw [neg_mul, div_mul_cancel₀ _ hpos.ne']
    · rw [div_mul_cancel₀ _ hpos.ne']
  · rw [habs, le_div_iff₀ hpos, one_mul]
    exact hlow
  · rw [habs, div_lt_iff₀ hpos, mul_comm, ← zpow_add_one₀ two_ne_zero]
    exact hhigh

theorem extract_finite {cw : Word16} {x : Ext} (hf : isFinite x = true) (h0 : realOf x ≠ 0) : extract cw x =
    .afterDenormal cw (isDenormal x) (.ok (fromInt (magOf x).log2,
      enc80 (signOf x) (magOf x).num ((magOf x).exp - (magOf x).log2))) := by
  have hz : classOf x ≠ .zero := fun h => h0 ((realOf_eq_zero_iff_zero hf).mpr h)
  rw [extract, nanCheck1_ordered (isOrdered_of_isFinite hf)]
  simp only [hz, (isFinite_classes hf).2.2.2, if_false]

/-- FXTRACT of a finite non-zero value. -/
theorem fxtract_finite {s : State} {p : Prefixes} (hr : s.Ready) (hfull : s.Full 0) (hroom : s.Room)
    (hf : isFinite (s.st 0) = true) (h0 : realOf (s.st 0) ≠ 0) :
    ∃ t, exec (.fxtract p) s = .next t ∧ s.Ran t (.fxtract p) none ∧
      if isDenormal (s.st 0) = true ∧ s.masked .d = false then s.Popped t 0 ∧ s.Signals t [.d] s.c1
      else ∃ x y, ∃ k : ℤ, s.WrotePair t x y ∧ isFinite x = true ∧ isFinite y = true ∧ realOf x = k ∧
        (k = 0 → x = zero80 false) ∧ realOf (s.st 0) = realOf y * (2 : ℚ) ^ k ∧ 1 ≤ |realOf y| ∧ |realOf y| < 2 ∧
        s.Signals t (if isDenormal (s.st 0) then [.d] else []) false := by
  have hvalue := extract_finite (cw := s.cw) hf h0
  obtain ⟨hkfin, hfin, hkreal, hk0, hreal, hge, hlt⟩ := extracted_spec hf h0
  split
  next h =>
    exact fxtract_abandoned hr hfull hroom (hvalue.trans (Reply.afterDenormal_unmasked h.1 h.2))
  next h =>
    have hd : isDenormal (s.st 0) = false ∨ maskedIn s.cw .d = true := by
      simpa [State.masked, or_iff_not_imp_left] using h
    obtain ⟨t, hexec, hran, hwrote, hsignals⟩ := fxtract_pair (p := p) hr hfull hroom
      (hvalue.trans (Reply.afterDenormal_masked _ hd))
    rw [Reply.ok, List.append_nil] at hsignals
    exact ⟨t, hexec, hran, _, _, _, hwrote, hkfin, hfin, hkreal, hk0, hreal, hge, hlt, hsignals⟩

/-- Settles O39: by the class of ST(0). -/
theorem extractSplitsTheValue : Obligations.ExtractSplitsTheValue := by
  intro s p hr hfull hroom
  have finite : isFinite (s.st 0) = true → classOf (s.st 0) ≠ .zero → _ := fun hf hz =>
    fxtract_finite (p := p) hr hfull hroom hf fun h => hz ((realOf_eq_zero_iff_zero hf).mp h)
  cases hc : classOf (s.st 0) with
  | zero => exact fxtract_special hr hfull hroom (by rw [extract, nanCheck1, hc]; rfl)
  | infinity => exact fxtract_pair hr hfull hroom (by rw [extract, nanCheck1, hc]; rfl)
  | unsupported =>
    refine fxtract_special hr hfull hroom ?_
    rw [extract, nanCheck1, hc]
    simp only [nanReply, if_true, Reply.map, Reply.pre]
    split <;> rfl
  | snan =>
    refine fxtract_special hr hfull hroom ?_
    rw [extract, nanCheck1, hc]
    simp only [nanReply, if_true, Reply.map, Reply.pre]
    split <;> rfl
  | qnan => exact fxtract_pair hr hfull hroom (by rw [extract, nanCheck1, hc]; rfl)
  | denormal => exact finite (by rw [isFinite, hc]) (by rw [hc]; decide)
  | pseudoDenormal => exact finite (by rw [isFinite, hc]) (by rw [hc]; decide)
  | normal => exact finite (by rw [isFinite, hc]) (by rw [hc]; decide)

end Sys2Proof.Machine
end

section
/-! FSCALE, and the answers of the transcendental instructions that are no computed value (45_transcendental.md R424, R430 to
R438). -/

namespace Sys2Proof.Machine

/-! ### FSCALE -/

@[simp] theorem State.record_nanPick (s : State) (i : Instr) (o : Option FarPtr) : (s.record i o).nanPick = s.nanPick := rfl

/-- What FSCALE makes of the answer of its operation. -/
theorem fscale_outcome {s : State} {p : Prefixes} {r : Reply Written} (hr : s.Ready) (h0 : s.Full 0) (h1 : s.Full 1)
    (h : scale s.cw s.nanPick (s.st 0) (s.st 1) = r) :
    ∃ t, exec (.fscale p) s = .next t ∧ s.Ran t (.fscale p) none ∧ s.Outcome t 0 false r := by
  subst h
  refine runReg_effect (f := scaleTop) hr OnStack.scaleTop ?_
  have hfull : ¬ ((s.record (.fscale p) none).isEmpty 0 || (s.record (.fscale p) none).isEmpty 1) = true := by
    rw [State.record_isEmpty, State.record_isEmpty, show s.isEmpty 0 = false from h0, show s.isEmpty 1 = false from h1]
    decide
  rw [scaleTop, if_neg hfull]
  simpa using writeReplied_outcome 0 false (scale s.cw s.nanPick (s.st 0) (s.st 1)) (s.record (.fscale p) none)

theorem scale_finite {cw : Word16} {pick : Bool} {x y : Ext} (hx : isFinite x = true) (hy : isFinite y = true)
    (h0 : realOf x ≠ 0) (hd : (isDenormal x || isDenormal y) = false ∨ maskedIn cw .d = true) : scale cw pick x y =
      ⟨(if isDenormal x || isDenormal y then [.d] else []) ++
        (deliver cw 64 ⟨signOf x, (magOf x).scale (scaleCount y)⟩).flags,
        (deliver cw 64 ⟨signOf x, (magOf x).scale (scaleCount y)⟩).reply.value⟩ := by
  have hz : classOf x ≠ .zero := fun h => h0 ((realOf_eq_zero_iff_zero hx).mpr h)
  rw [scale, nanCheck2_ordered pick (isOrdered_of_isFinite hx) (isOrdered_of_isFinite hy)]
  simp only [(isFinite_classes hx).2.2.2, (isFinite_classes hy).2.2.2, hz, or_self, if_false]
  exact Reply.afterDenormal_masked _ hd

/-- The exponent of a finite non-zero value. -/
theorem exponent_bounds {x : Ext} (hf : isFinite x = true) {e : ℤ} (h1 : (2 : ℚ) ^ e ≤ |realOf x|)
    (h2 : |realOf x| < (2 : ℚ) ^ (e + 1)) : -16446 ≤ e ∧ e ≤ 16384 := by
  have h0 : realOf x ≠ 0 := fun h => by
    rw [h, abs_zero] at h1
    exact absurd h1 (not_le.mpr (by positivity))
  obtain ⟨hlow, hhigh⟩ := range_magOf hf h0
  rw [← abs_realOf] at hlow hhigh
  have hl := (zpow_lt_zpow_iff_right₀ (one_lt_two : (1 : ℚ) < 2)).mp (hlow.trans_lt h2)
  have hh := (zpow_le_zpow_iff_right₀ (one_lt_two : (1 : ℚ) < 2)).mp (h1.trans hhigh)
  omega

/-- The product of FSCALE is delivered as if the scale had not been kept within bounds. -/
theorem scale_delivers (cw : Word16) {x y : Ext} {n e : ℤ} (hx : isFinite x = true)
    (hn1 : |(n : ℚ)| ≤ |realOf y|) (hn2 : |realOf y| < |(n : ℚ)| + 1) (hn3 : 0 ≤ (n : ℚ) * realOf y)
    (h1 : (2 : ℚ) ^ e ≤ |realOf x|) (h2 : |realOf x| < (2 : ℚ) ^ (e + 1)) :
    DeliversExact cw (signOf x) (e + n) (realOf x * (2 : ℚ) ^ n)
      (deliver cw 64 ⟨signOf x, (magOf x).scale (scaleCount y)⟩).flags
      ⟨(deliver cw 64 ⟨signOf x, (magOf x).scale (scaleCount y)⟩).value,
        (deliver cw 64 ⟨signOf x, (magOf x).scale (scaleCount y)⟩).c1⟩ := by
  have h0 : realOf x ≠ 0 := fun h => by
    rw [h, abs_zero] at h1
    exact absurd h1 (not_le.mpr (by positivity))
  obtain ⟨he, he'⟩ := exponent_bounds hx h1 h2
  have hcount := scaleCount_clamped hn1 hn2 hn3
  generalize scaleCount y = c at *
  obtain ⟨hnum, hden, hlog, hvalue, k, hk⟩ := scale_facts (n := c) h0 h1 h2
  have hexact := deliver_representable cw ⟨signOf x, (magOf x).scale c⟩ hnum hden k hk
  rw [hvalue] at hexact
  simp only [hlog] at hexact
  by_cases hc : c = n
  · rw [← hc]
    exact hexact
  · have hne : ∀ m : ℤ, realOf x * (2 : ℚ) ^ m ≠ 0 := fun m => mul_ne_zero h0 (by positivity)
    have hneg : ∀ m : ℤ, realOf x * (2 : ℚ) ^ m < 0 ↔ realOf x < 0 := fun m =>
      ⟨fun h => by_contra fun h' => h.not_ge (mul_nonneg (not_lt.mp h') (by positivity)),
        fun h => mul_neg_of_neg_of_pos h (by positivity)⟩
    have hlt : ∀ m : ℤ, |realOf x * (2 : ℚ) ^ m| < (2 : ℚ) ^ (e + m + 1) := fun m => by
      have hpos : (0 : ℚ) < (2 : ℚ) ^ m := by positivity
      rw [abs_mul, abs_of_pos hpos, show e + m + 1 = (e + 1) + m by ring, zpow_add₀ two_ne_zero (e + 1)]
      exact mul_lt_mul_of_pos_right h2 hpos
    refine hexact.of_clamped (hne n) (hne c) ((hneg c).trans (hneg n).symm) (hlt n) (hlt c) ?_
    split_ifs at hcount <;> omega

/-- Settles O40: `scale_answer` for the special operands; for finite ones the product is exact, however far its scale is
clamped. -/
theorem scaleMultipliesByPowerOfTwo : Obligations.ScaleMultipliesByPowerOfTwo := by
  refine ⟨fun s p r hr h0 h1 h => fscale_outcome hr h0 h1 (scale_answer h),
    fun s p n e v hr h0 h1 hx hy hd hn1 hn2 hn3 he1 he2 hv => ?_⟩
  subst hv
  have hne : realOf (s.st 0) ≠ 0 := fun h => by
    rw [h, abs_zero] at he1
    exact absurd he1 (not_le.mpr (by positivity))
  obtain ⟨t, hexec, hran, hwrote, hsignals⟩ := fscale_outcome (p := p) hr h0 h1 (scale_finite hx hy hne hd)
  exact ⟨t, _, ⟨_, _⟩, hexec, hran, hwrote, hsignals, scale_delivers s.cw hx hn1 hn2 hn3 he1 he2⟩

/-! ### The trigonometric instructions, one result -/

section
variable {s u : State} {i : Instr} {o : Option FarPtr} {n : Nat} {e : Bool} {r : Reply Written}

@[simp] theorem State.outcomePair_record_iff : (s.record i o).OutcomePair u r ↔ s.OutcomePair u r := by
  unfold State.OutcomePair
  cases r.value <;> simp only [State.wrotePair_record_iff, State.popped_record_iff, State.signals_record_iff, State.record_c1]

@[simp] theorem State.outcomePair_retire_iff : s.OutcomePair (u.retire n e) r ↔ s.OutcomePair u r := by
  unfold State.OutcomePair
  cases r.value <;> simp only [State.wrotePair_retire_iff, State.popped_retire_iff, State.signals_retire_iff]

end

/-- A signalled exception and nothing else. -/
theorem signal_abandons (s : State) (x : Exc) : s.Popped (s.signal x) 0 ∧ s.Signals (s.signal x) [x] s.c1 :=
  ⟨.zero (by simp) (by simp) (by simp), s.signals_signalAll [x]⟩

section
variable {s : State} {r : Reply Written}

/-- FSIN and FCOS of an operand that is none in range. -/
theorem trigOne_special (f : Word16 → Ext → Delivered) (h : s.Full 0) (ha : TrigAnswer s.cw (s.st 0) r) :
    s.Outcome (trigOne f s) 0 false r ∧ (r.value.isSome = true → (trigOne f s).c2 = false) := by
  unfold trigOne State.Outcome
  rw [if_neg (by rw [show s.isEmpty 0 = false from h]; decide)]
  obtain ⟨⟨flags, value⟩, hq, rfl⟩ | ⟨hq, rfl⟩ := trigFront_answer ha
  · rw [hq]
    cases value with
    | none => exact ⟨⟨.zero (by simp) (by simp) (by simp), s.signals_signalAll flags⟩, fun h => by cases h⟩
    | some x =>
      obtain ⟨hf, hr, ht, h2, h1⟩ := trigCodes_same false ((s.signalAll flags).setST 0 x)
      exact ⟨⟨State.wrote_of_setST (b := false) (t := s.signalAll flags) (by simp) (by simp) (by simp) ht hr.value hr.tag,
        .intro hf h1⟩, fun _ => h2⟩
  · rw [hq]
    exact ⟨signal_abandons s .d, fun h => by cases h⟩

/-- FSINCOS and FPTAN of an operand that is none in range. -/
theorem trigTwo_special (f g : Word16 → Ext → Delivered) (c : Delivered → Delivered → Bool) (h : s.Full 0) (hp : s.Room)
    (ha : TrigAnswer s.cw (s.st 0) r) :
    s.OutcomePair (trigTwo f g c s) r ∧ (r.value.isSome = true → (trigTwo f g c s).c2 = false) := by
  unfold trigTwo State.OutcomePair
  rw [if_neg (by rw [show s.isEmpty 0 = false from h]; decide), if_neg (by rw [show s.pushFull = false from hp]; decide)]
  obtain ⟨⟨flags, value⟩, hq, rfl⟩ | ⟨hq, rfl⟩ := trigFront_answer ha
  · rw [hq]
    cases value with
    | none => exact ⟨⟨.zero (by simp) (by simp) (by simp), s.signals_signalAll flags⟩, fun h => by cases h⟩
    | some x =>
      obtain ⟨hf, hr, ht, h2, h1⟩ := trigCodes_same false (writePair x x (s.signalAll flags))
      exact ⟨⟨State.wrotePair_of (t := s.signalAll flags) (by simp) (by simp) (by simp) ht hr.value hr.tag,
        .intro ((writePair_same _ _ _).trans hf) h1⟩, fun _ => h2⟩
  · rw [hq]
    exact ⟨signal_abandons s .d, fun h => by cases h⟩

theorem trigOne_outOfRange (f : Word16 → Ext → Delivered) (h : s.Full 0) (hq : trigFront s.cw (s.st 0) = .outOfRange) :
    trigOne f s = trigOutOfRange s := by
  unfold trigOne
  rw [if_neg (by rw [show s.isEmpty 0 = false from h]; decide), hq]

theorem trigTwo_outOfRange (f g : Word16 → Ext → Delivered) (c : Delivered → Delivered → Bool) (h : s.Full 0)
    (hp : s.Room) (hq : trigFront s.cw (s.st 0) = .outOfRange) : trigTwo f g c s = trigOutOfRange s := by
  unfold trigTwo
  rw [if_neg (by rw [show s.isEmpty 0 = false from h]; decide), if_neg (by rw [show s.pushFull = false from hp]; decide), hq]

end

/-- Which operations the trigonometric instructions are. -/
theorem trigOne_exec (p : Prefixes) (s : State) : ∀ i ∈ [Instr.fsin p, .fcos p],
    ∃ f, exec i s = runReg i (fun v => .ok (trigOne f v)) s := by
  simp only [List.forall_mem_cons]
  exact ⟨⟨sinResult, rfl⟩, ⟨cosResult, rfl⟩, by simp⟩

theorem trigTwo_exec (p : Prefixes) (s : State) : ∀ i ∈ [Instr.fsincos p, .fptan p],
    ∃ f g c, exec i s = runReg i (fun v => .ok (trigTwo f g c v)) s := by
  simp only [List.forall_mem_cons]
  exact ⟨⟨sinResult, cosResult, fun _ e => e.c1, rfl⟩, ⟨tanResult, oneResult, fun d _ => d.c1, rfl⟩, by simp⟩

theorem runReg_outOfRange {s : State} {i : Instr} {f : State → State} (hr : s.Ready) (ho : ∀ v, OnStack v (f v))
    (hf : f (s.record i none) = trigOutOfRange (s.record i none)) :
    ∃ t, runReg i (fun v => .ok (f v)) s = .next t ∧ s.Ran t i none ∧ s.SameRegisters t ∧ t.c2 = true ∧
      s.SameStatusBut t codeBits := by
  refine runReg_effect hr ho ?_
  rw [hf]
  obtain ⟨hregs, hc2, hstatus⟩ := trigOutOfRange_effect (s.record i none)
  exact ⟨by simpa using hregs, by simpa using hc2, by simpa using hstatus⟩

/-- Settles O46: every answer of `TrigFront` but the instruction's own step. -/
theorem trigonometrySpecialOperands : Obligations.TrigonometrySpecialOperands := by
  intro s p hr h0
  refine ⟨fun i hi hroom hf hlarge => ?_, fun i hi r ha => ?_, fun i hi hroom r ha => ?_⟩
  · have hq := trigFront_outOfRange (cw := s.cw) hf hlarge
    by_cases hone : i ∈ [Instr.fsin p, .fcos p]
    · obtain ⟨f, hexec⟩ := trigOne_exec p s i hone
      rw [hexec]
      exact runReg_outOfRange hr (OnStack.trigOne f) (trigOne_outOfRange (s := s.record i none) f h0 hq)
    · have htwo : i = .fsincos p ∨ i = .fptan p := by
        simp only [List.mem_cons, List.not_mem_nil, or_false, not_or] at hi hone
        tauto
      obtain ⟨f, g, c, hexec⟩ := trigTwo_exec p s i (by simpa using htwo)
      rw [hexec]
      exact runReg_outOfRange hr (OnStack.trigTwo f g c) (trigTwo_outOfRange (s := s.record i none) f g c h0 (hroom htwo) hq)
  · obtain ⟨f, hexec⟩ := trigOne_exec p s i hi
    rw [hexec]
    refine runReg_effect hr (OnStack.trigOne f) ?_
    obtain ⟨hout, hc2⟩ := trigOne_special (s := s.record i none) f h0 ha
    exact ⟨by simpa using hout, by simpa using hc2⟩
  · obtain ⟨f, g, c, hexec⟩ := trigTwo_exec p s i hi
    rw [hexec]
    refine runReg_effect hr (OnStack.trigTwo f g c) ?_
    obtain ⟨hout, hc2⟩ := trigTwo_special (s := s.record i none) f g c h0 hroom ha
    exact ⟨by simpa using hout, by simpa using hc2⟩

/-! ### The trigonometric instructions in range -/

/-- What the three functions give in range. -/
theorem trigGives (cw : Word16) {x : Ext} (hf : isFinite x = true) (hlt : |realOf x| < (2 : ℚ) ^ (63 : ℕ)) :
    TrigGives .sin cw x (sinResult cw x).flags ⟨(sinResult cw x).value, (sinResult cw x).c1⟩ ∧
      TrigGives .cos cw x (cosResult cw x).flags ⟨(cosResult cw x).value, (cosResult cw x).c1⟩ ∧
      TrigGives .tan cw x (tanResult cw x).flags ⟨(tanResult cw x).value, (tanResult cw x).c1⟩ := by
  unfold TrigGives sinResult cosResult tanResult
  by_cases hz : classOf x = .zero
  · simp only [if_pos hz]
    exact ⟨⟨trivial, rfl⟩, ⟨trivial, rfl⟩, ⟨trivial, rfl⟩⟩
  · have h0 : realOf x ≠ 0 := fun h => hz ((realOf_eq_zero_iff_zero hf).mp h)
    simp only [if_neg hz]
    exact ⟨transc_delivers (f := .sin) ⟨hf, h0, hlt⟩ cw, transc_delivers (f := .cos) ⟨hf, h0, hlt⟩ cw,
      transc_delivers (f := .tan) ⟨hf, h0, hlt⟩ cw⟩

section
variable {s : State} {i : Instr}

theorem runReg_trigOne (f : Word16 → Ext → Delivered) {b : Bool} (hr : s.Ready) (h0 : s.Full 0)
    (hg : trigFront s.cw (s.st 0) = .go b) :
    ∃ t, runReg i (fun v => .ok (trigOne f v)) s = .next t ∧ s.Ran t i none ∧
      s.Wrote t 0 false (f s.cw (s.st 0)).value ∧ t.c2 = false ∧
      s.Signals t (denormalFlag b ++ (f s.cw (s.st 0)).flags) (f s.cw (s.st 0)).c1 := by
  refine runReg_effect hr (OnStack.trigOne f) ?_
  obtain ⟨hwrote, hc2, hsignals⟩ := trigOne_go f (s := s.record i none) h0 hg
  exact ⟨by simpa using hwrote, by simpa using hc2, by simpa using hsignals⟩

theorem runReg_trigTwo (f g : Word16 → Ext → Delivered) (c : Delivered → Delivered → Bool) {b : Bool} (hr : s.Ready)
    (h0 : s.Full 0) (hroom : s.Room) (hg : trigFront s.cw (s.st 0) = .go b) :
    ∃ t, runReg i (fun v => .ok (trigTwo f g c v)) s = .next t ∧ s.Ran t i none ∧
      s.WrotePair t (f s.cw (s.st 0)).value (g s.cw (s.st 0)).value ∧ t.c2 = false ∧
      s.Signals t (denormalFlag b ++ ((f s.cw (s.st 0)).flags ++ (g s.cw (s.st 0)).flags))
        (c (f s.cw (s.st 0)) (g s.cw (s.st 0))) := by
  refine runReg_effect hr (OnStack.trigTwo f g c) ?_
  obtain ⟨htop, hreg, htag, hc2, hsignals⟩ := trigTwo_go f g c (s := s.record i none) h0 hroom hg
  have hwrote : (s.record i none).WrotePair (trigTwo f g c (s.record i none)) _ _ := ⟨htop, hreg, htag⟩
  exact ⟨by simpa using hwrote, by simpa using hc2, by simpa using hsignals⟩

end

/-- Settles O47: the operand check lets the instruction go on, and its results are those of `trigGives`. -/
theorem trigonometryInRange : Obligations.TrigonometryInRange := by
  intro s p hr h0 hf hlt hd
  have hg := trigFront_go (cw := s.cw) hf hlt hd
  obtain ⟨hsin, hcos, htan⟩ := trigGives s.cw hf hlt
  refine ⟨?_, fun hroom => ?_, fun hroom => ?_⟩
  · simp only [List.forall_mem_cons]
    refine ⟨?_, ?_, by simp⟩
    · obtain ⟨t, hexec, hran, hwrote, hc2, hsignals⟩ := runReg_trigOne (i := .fsin p) sinResult hr h0 hg
      exact ⟨t, _, ⟨_, _⟩, hexec, hran, hwrote, hc2, hsignals, hsin⟩
    · obtain ⟨t, hexec, hran, hwrote, hc2, hsignals⟩ := runReg_trigOne (i := .fcos p) cosResult hr h0 hg
      exact ⟨t, _, ⟨_, _⟩, hexec, hran, hwrote, hc2, hsignals, hcos⟩
  · obtain ⟨t, hexec, hran, hwrote, hc2, hsignals⟩ :=
      runReg_trigTwo (i := .fsincos p) sinResult cosResult (fun _ e => e.c1) hr h0 hroom hg
    exact ⟨t, _, ⟨_, _⟩, _, ⟨_, _⟩, hexec, hran, hwrote, hc2, hsignals, hsin, hcos⟩
  · obtain ⟨t, hexec, hran, hwrote, hc2, hsignals⟩ :=
      runReg_trigTwo (i := .fptan p) tanResult oneResult (fun d _ => d.c1) hr h0 hroom hg
    refine ⟨t, _, ⟨_, _⟩, hexec, hran, hwrote, hc2, ?_, htan⟩
    rw [oneResult, List.append_nil] at hsignals
    exact hsignals

end Sys2Proof.Machine
end

section
/-! FPATAN, FYL2X, FYL2XP1 and F2XM1 (45_transcendental.md R434 to R437). -/

namespace Sys2Proof.Machine

/-! ### What the instructions make of their answers -/

section
variable {s : State} {i : Instr} {p : Prefixes} {r : Reply Written}

/-- FPATAN and FYL2X: the answer goes to ST(1), and the stack is popped. -/
theorem runReg_intoSecond (f : Word16 → Bool → Ext → Ext → Reply Written) (hr : s.Ready) (h0 : s.Full 0) (h1 : s.Full 1)
    (h : f s.cw s.nanPick (s.st 0) (s.st 1) = r) :
    ∃ t, runReg i (fun v => .ok (intoSecond (f v.cw v.nanPick) v)) s = .next t ∧ s.Ran t i none ∧ s.Outcome t 1 true r := by
  subst h
  refine runReg_effect (f := fun v => intoSecond (f v.cw v.nanPick) v) hr (fun v => OnStack.intoSecond _ v) ?_
  have hfull : ¬ ((s.record i none).isEmpty 0 || (s.record i none).isEmpty 1) = true := by
    rw [State.record_isEmpty, State.record_isEmpty, show s.isEmpty 0 = false from h0, show s.isEmpty 1 = false from h1]
    decide
  rw [intoSecond, if_neg hfull]
  simpa using writeReplied_outcome 1 true (f s.cw s.nanPick (s.st 0) (s.st 1)) (s.record i none)

theorem fpatan_outcome (hr : s.Ready) (h0 : s.Full 0) (h1 : s.Full 1)
    (h : atan2 s.cw s.nanPick (s.st 1) (s.st 0) = r) :
    ∃ t, exec (.fpatan p) s = .next t ∧ s.Ran t (.fpatan p) none ∧ s.Outcome t 1 true r :=
  runReg_intoSecond (fun cw pick x y => atan2 cw pick y x) hr h0 h1 h

theorem fyl2x_outcome (hr : s.Ready) (h0 : s.Full 0) (h1 : s.Full 1)
    (h : yLog2x s.cw s.nanPick (s.st 0) (s.st 1) = r) :
    ∃ t, exec (.fyl2x p) s = .next t ∧ s.Ran t (.fyl2x p) none ∧ s.Outcome t 1 true r :=
  runReg_intoSecond yLog2x hr h0 h1 h

/-- A reply of F2XM1 or FYL2XP1 that is in the domain, or that an unmasked #D ends. -/
def DomainReply.Answers (q : DomainReply) (r : Reply Written) : Prop :=
  q = .inside r ∨ (q = .abandoned ∧ r = ⟨[.d], none⟩)

theorem domainReplied_outcome (d : Idx) (pop : Bool) {q : DomainReply} (h : q.Answers r) (s : State) :
    s.Outcome (domainReplied d pop q s) d pop r := by
  obtain rfl | ⟨rfl, rfl⟩ := h
  · exact domainReplied_effect d pop (.inside r) s
  · exact domainReplied_effect d pop .abandoned s

theorem yLog2xp1Top_full (h0 : s.Full 0) (h1 : s.Full 1) :
    yLog2xp1Top s = domainReplied 1 true (yLog2xp1 s.cw s.nanPick (s.st 0) (s.st 1)) s := by
  rw [yLog2xp1Top, if_neg (by rw [show s.isEmpty 0 = false from h0, show s.isEmpty 1 = false from h1]; decide)]

theorem exp2m1Top_full (h0 : s.Full 0) : exp2m1Top s = domainReplied 0 false (exp2m1 s.cw (s.st 0)) s := by
  rw [exp2m1Top, if_neg (by rw [show s.isEmpty 0 = false from h0]; decide)]

theorem fyl2xp1_outcome (hr : s.Ready) (h0 : s.Full 0) (h1 : s.Full 1)
    (h : (yLog2xp1 s.cw s.nanPick (s.st 0) (s.st 1)).Answers r) :
    ∃ t, exec (.fyl2xp1 p) s = .next t ∧ s.Ran t (.fyl2xp1 p) none ∧ s.Outcome t 1 true r := by
  refine runReg_effect (f := yLog2xp1Top) hr OnStack.yLog2xp1Top ?_
  rw [yLog2xp1Top_full (s := s.record (.fyl2xp1 p) none) h0 h1]
  simpa using domainReplied_outcome 1 true h (s.record (.fyl2xp1 p) none)

theorem f2xm1_outcome (hr : s.Ready) (h0 : s.Full 0) (h : (exp2m1 s.cw (s.st 0)).Answers r) :
    ∃ t, exec (.f2xm1 p) s = .next t ∧ s.Ran t (.f2xm1 p) none ∧ s.Outcome t 0 false r := by
  refine runReg_effect (f := exp2m1Top) hr OnStack.exp2m1Top ?_
  rw [exp2m1Top_full (s := s.record (.f2xm1 p) none) h0]
  simpa using domainReplied_outcome 0 false h (s.record (.f2xm1 p) none)

end

/-- Settles O49: the operation gives the answer, whatever it computes else. -/
theorem logarithmAndArctangentSpecialOperands : Obligations.LogarithmAndArctangentSpecialOperands := by
  intro s p r hr h0
  refine ⟨fun h1 => ?_, fun h => f2xm1_outcome hr h0 (exp2m1_answer h)⟩
  simp only [List.forall_mem_cons]
  exact ⟨fun h => fpatan_outcome hr h0 h1 (atan2_answer h), fun h => fyl2x_outcome hr h0 h1 (yLog2x_answer h),
    fun h => fyl2xp1_outcome hr h0 h1 (yLog2xp1_answer h), by simp⟩

/-! ### With every exception masked they complete -/

section
variable {cw : Word16} (hm : ∀ x, maskedIn cw x = true)
include hm

theorem atan2_isSome (pick : Bool) (y x : Ext) : (atan2 cw pick y x).value.isSome = true := by
  rw [atan2]
  cases nanCheck2 pick x y with
  | some r => exact nanReply_isSome r (hm .i)
  | none =>
    refine Reply.afterDenormal_isSome (hm .d) ?_
    split <;> rfl

theorem yLog2x_isSome (pick : Bool) (x y : Ext) : (yLog2x cw pick x y).value.isSome = true := by
  rw [yLog2x]
  cases nanCheck2 pick x y with
  | some r => exact nanReply_isSome r (hm .i)
  | none =>
    have invalid : ∀ v, (Reply.pre cw .i (plain v)).value.isSome = true := fun v => Reply.pre_isSome _ (hm .i)
    have exact' : ∀ d v, (Reply.afterDenormal cw d (.ok (plain v))).value.isSome = true := fun d v =>
      Reply.afterDenormal_isSome (hm .d) rfl
    have computed : ∀ d (v : Delivered), (Reply.afterDenormal cw d v.reply).value.isSome = true := fun d v =>
      Reply.afterDenormal_isSome (hm .d) rfl
    simp only
    split_ifs
    · exact invalid _
    · exact exact' _ _
    · exact Reply.pre_isSome _ (hm .z)
    · exact invalid _
    · exact invalid _
    · exact exact' _ _
    · exact invalid _
    · exact exact' _ _
    · exact exact' _ _
    · exact exact' _ _
    · exact computed _ _

/-- A reply with a value, or free outside the domain. -/
def DomainReply.Completes (q : DomainReply) : Prop :=
  (∃ r, q = .inside r ∧ r.value.isSome = true) ∨ ∃ b, q = .outside b

theorem outsideDomain_completes (d : Bool) : (outsideDomain cw d).Completes := by
  rw [outsideDomain, hm .d, Bool.not_true, Bool.and_false]
  exact .inr ⟨d, rfl⟩

theorem yLog2xp1_completes (pick : Bool) (x y : Ext) : (yLog2xp1 cw pick x y).Completes := by
  rw [yLog2xp1]
  cases nanCheck2 pick x y with
  | some r => exact .inl ⟨_, rfl, nanReply_isSome r (hm .i)⟩
  | none =>
    simp only
    split
    · exact .inl ⟨_, rfl, Reply.pre_isSome _ (hm .i)⟩
    split
    · exact outsideDomain_completes hm _
    split
    · exact .inl ⟨_, rfl, Reply.afterDenormal_isSome (hm .d) rfl⟩
    split
    · refine .inl ⟨_, rfl, Reply.afterDenormal_isSome (hm .d) ?_⟩
      split <;> rfl
    · exact outsideDomain_completes hm _

theorem exp2m1_completes (x : Ext) : (exp2m1 cw x).Completes := by
  rw [exp2m1]
  cases nanCheck1 x with
  | some r => exact .inl ⟨_, rfl, nanReply_isSome r (hm .i)⟩
  | none =>
    simp only
    split
    · exact .inl ⟨_, rfl, rfl⟩
    split
    · exact .inr ⟨_, rfl⟩
    split
    · exact .inl ⟨_, rfl, Reply.afterDenormal_isSome (hm .d) rfl⟩
    · exact .inr ⟨_, rfl⟩

end

/-- The instruction completed: it wrote something to ST(d), popped as it does, and signalled nothing unmasked. -/
def State.Completed (s t : State) (d : Idx) (pop : Bool) : Prop := ∃ x, s.Wrote t d pop x ∧ t.sf = s.sf ∧ t.es = s.es

theorem State.Completed.of_signals {s t : State} {d : Idx} {pop : Bool} {x : Ext} {flags : List Exc} {c1 : Bool}
    (hm : s.AllMasked) (hw : s.Wrote t d pop x) (hs : s.Signals t flags c1) : s.Completed t d pop := by
  refine ⟨x, hw, hs.sf, hs.es.trans ?_⟩
  rw [List.any_eq_false.mpr fun x _ => by simp [hm x], Bool.or_false]

theorem State.Completed.of_outcome {s t : State} {d : Idx} {pop : Bool} {r : Reply Written} (hm : s.AllMasked)
    (hr : r.value.isSome = true) (h : s.Outcome t d pop r) : s.Completed t d pop := by
  obtain ⟨flags, _ | w⟩ := r
  · cases hr
  · exact .of_signals hm h.1 h.2

theorem domainReplied_completed {s : State} {d : Idx} {pop : Bool} {q : DomainReply} (hm : s.AllMasked)
    (h : q.Completes) : s.Completed (domainReplied d pop q s) d pop := by
  obtain ⟨r, rfl, hr⟩ | ⟨b, rfl⟩ := h
  · exact .of_outcome hm hr (domainReplied_effect d pop (.inside r) s)
  · obtain ⟨hw, hs⟩ := domainReplied_effect d pop (.outside b) s
    exact .of_signals hm hw hs

section
variable {s u : State} {i : Instr} {o : Option FarPtr} {d : Idx} {pop e : Bool} {n : Nat}

@[simp] theorem State.completed_record_iff : (s.record i o).Completed u d pop ↔ s.Completed u d pop := by
  simp only [State.Completed, State.wrote_record_iff]
  rfl

@[simp] theorem State.completed_retire_iff : s.Completed (u.retire n e) d pop ↔ s.Completed u d pop := by
  simp only [State.Completed, State.wrote_retire_iff, State.retire_sf, State.retire_es]

end

/-- With every exception masked the four instructions complete, whatever their operands. -/
theorem logarithms_complete {s : State} (p : Prefixes) (hr : s.Ready) (h0 : s.Full 0) (hm : s.AllMasked) :
    (∀ i ∈ [Instr.fpatan p, .fyl2x p, .fyl2xp1 p], s.Full 1 →
      ∃ t, exec i s = .next t ∧ s.Ran t i none ∧ s.Completed t 1 true) ∧
    ∃ t, exec (.f2xm1 p) s = .next t ∧ s.Ran t (.f2xm1 p) none ∧ s.Completed t 0 false := by
  simp only [List.forall_mem_cons]
  refine ⟨⟨fun h1 => ?_, fun h1 => ?_, fun h1 => ?_, by simp⟩, ?_⟩
  · obtain ⟨t, hexec, hran, hout⟩ := fpatan_outcome (p := p) hr h0 h1 rfl
    exact ⟨t, hexec, hran, .of_outcome hm (atan2_isSome hm _ _ _) hout⟩
  · obtain ⟨t, hexec, hran, hout⟩ := fyl2x_outcome (p := p) hr h0 h1 rfl
    exact ⟨t, hexec, hran, .of_outcome hm (yLog2x_isSome hm _ _ _) hout⟩
  · refine runReg_effect (f := yLog2xp1Top) hr OnStack.yLog2xp1Top ?_
    rw [yLog2xp1Top_full (s := s.record (.fyl2xp1 p) none) h0 h1]
    simpa using domainReplied_completed (s := s.record (.fyl2xp1 p) none) hm (yLog2xp1_completes hm _ _ _)
  · refine runReg_effect (f := exp2m1Top) hr OnStack.exp2m1Top ?_
    rw [exp2m1Top_full (s := s.record (.f2xm1 p) none) h0]
    simpa using domainReplied_completed (s := s.record (.f2xm1 p) none) hm (exp2m1_completes hm _)

/-- Settles O48: completion by the cases of the operation; in the domain, what is delivered is `transc`. -/
theorem logarithmsAndArctangentComplete : Obligations.LogarithmsAndArctangentComplete := by
  refine ⟨fun s p hr h0 hm => ?_, fun s p hr h0 => ⟨?_, fun hdom hd => ?_⟩, fun x y hx hy => ⟨fun k h => known_log2 h,
    fun h => ?_, fun h => ?_⟩⟩
  · obtain ⟨hthree, t, hexec, hran, x, hx⟩ := logarithms_complete p hr h0 hm
    refine ⟨fun i hi h1 => ?_, t, x, hexec, hran, hx⟩
    obtain ⟨t, hexec, hran, x, hx⟩ := hthree i hi h1
    exact ⟨t, x, hexec, hran, hx⟩
  · simp only [List.forall_mem_cons]
    refine ⟨fun h1 hdom hd => ?_, fun h1 hdom hd => ?_, fun h1 hdom hd => ?_, by simp⟩
    · obtain ⟨t, hexec, hran, hwrote, hsignals⟩ := fpatan_outcome (p := p) hr h0 h1 (atan2_inDomain hdom hd)
      exact ⟨t, _, ⟨_, _⟩, hexec, hran, hwrote, hsignals, transc_delivers hdom s.cw⟩
    · obtain ⟨t, hexec, hran, hwrote, hsignals⟩ := fyl2x_outcome (p := p) hr h0 h1 (yLog2x_inDomain hdom hd)
      exact ⟨t, _, ⟨_, _⟩, hexec, hran, hwrote, hsignals, transc_delivers hdom s.cw⟩
    · obtain ⟨t, hexec, hran, hwrote, hsignals⟩ := fyl2xp1_outcome (p := p) hr h0 h1 (.inl (yLog2xp1_inDomain hdom hd))
      exact ⟨t, _, ⟨_, _⟩, hexec, hran, hwrote, hsignals, transc_delivers hdom s.cw⟩
  · obtain ⟨t, hexec, hran, hwrote, hsignals⟩ := f2xm1_outcome (p := p) hr h0 (.inl (exp2m1_inDomain hdom hd))
    exact ⟨t, _, ⟨_, _⟩, hexec, hran, hwrote, hsignals, transc_delivers hdom s.cw⟩
  · have hs : ¬ signOf x = true := fun hs => by
      have := (realOf_neg_iff (by rw [h]; norm_num)).mpr hs
      linarith
    have hknown := known_exp2 (x := x) (y := 0) (by rw [h, abs_one])
    rwa [if_neg hs] at hknown
  · have hs : signOf x = true := (realOf_neg_iff (by rw [h]; norm_num)).mp (by rw [h]; norm_num)
    have hknown := known_exp2 (x := x) (y := 0) (by rw [h, abs_neg, abs_one])
    rwa [if_pos hs] at hknown

end Sys2Proof.Machine
end

section
/-! The computed results of the transcendental functions are monotonic in magnitude (45_transcendental.md R421 c, d). -/

namespace Sys2Proof.Machine

/-! ### Where a result stands -/

section
variable {s t : State} {x y : Ext}

theorem State.Wrote.st_top (h : s.Wrote t 0 false x) : t.st 0 = x := by
  rw [State.st, h.value, State.phys, h.top]
  exact if_pos rfl

/-- What was written to ST(1) is the new top after the pop. -/
theorem State.Wrote.st_popped (h : s.Wrote t 1 true x) : t.st 0 = x := by
  rw [State.st, h.value, State.phys, h.top]
  exact if_pos (by rw [if_pos rfl, State.phys]; exact add_zero _)

theorem State.WrotePair.st_pushed (h : s.WrotePair t x y) : t.st 0 = y := by
  rw [State.st, h.value, State.phys, h.top]
  exact if_pos (BitVec.add_zero _)

/-- What was the top stands below what was pushed. -/
theorem State.WrotePair.st_below (h : s.WrotePair t x y) : t.st 1 = x := by
  rw [State.st, h.value, State.phys, h.top, if_neg (by bv_omega), if_pos (by bv_omega)]

end

/-! ### Every row computes its function -/

/-- The result of the row at the operands of `s`. -/
def TranscRow.result (row : TranscRow) (s : State) : Ext := (transc s.cw row.fn (row.second s) (s.st 0)).value

/-- The row's instruction completes and leaves the result at its place. -/
def TranscRow.Computes (row : TranscRow) (s : State) (p : Prefixes) : Prop :=
  ∃ t, exec (row.make p) s = .next t ∧ t.st row.place = row.result s

theorem transc_of_ne_zero {x : Ext} (cw : Word16) (hf : isFinite x = true) (h0 : realOf x ≠ 0) :
    sinResult cw x = transc cw .sin 0 x ∧ cosResult cw x = transc cw .cos 0 x ∧ tanResult cw x = transc cw .tan 0 x := by
  have hz : classOf x ≠ .zero := fun h => h0 ((realOf_eq_zero_iff_zero hf).mpr h)
  exact ⟨if_neg hz, if_neg hz, if_neg hz⟩

section
variable {s : State} (p : Prefixes) (hr : s.Ready) (h0 : s.Full 0)
include hr h0

theorem trigonometry_computes (hf : isFinite (s.st 0) = true) (hne : realOf (s.st 0) ≠ 0)
    (hlt : |realOf (s.st 0)| < (2 : ℚ) ^ (63 : ℕ)) (hd : isDenormal (s.st 0) = false ∨ s.masked .d = true) :
    (⟨.fsin, .sin, false, false, 0⟩ : TranscRow).Computes s p ∧ (⟨.fcos, .cos, false, false, 0⟩ : TranscRow).Computes s p ∧
      (s.Room → (⟨.fsincos, .sin, false, true, 1⟩ : TranscRow).Computes s p ∧
        (⟨.fsincos, .cos, false, true, 0⟩ : TranscRow).Computes s p ∧
        (⟨.fptan, .tan, false, true, 1⟩ : TranscRow).Computes s p) := by
  have hg := trigFront_go (cw := s.cw) hf hlt hd
  obtain ⟨hsin, hcos, htan⟩ := transc_of_ne_zero s.cw hf hne
  refine ⟨?_, ?_, fun hroom => ⟨?_, ?_, ?_⟩⟩
  · obtain ⟨t, hexec, -, hwrote, -⟩ := runReg_trigOne (i := .fsin p) sinResult hr h0 hg
    exact ⟨t, hexec, hwrote.st_top.trans (congrArg _ hsin)⟩
  · obtain ⟨t, hexec, -, hwrote, -⟩ := runReg_trigOne (i := .fcos p) cosResult hr h0 hg
    exact ⟨t, hexec, hwrote.st_top.trans (congrArg _ hcos)⟩
  · obtain ⟨t, hexec, -, hwrote, -⟩ :=
      runReg_trigTwo (i := .fsincos p) sinResult cosResult (fun _ e => e.c1) hr h0 hroom hg
    exact ⟨t, hexec, hwrote.st_below.trans (congrArg _ hsin)⟩
  · obtain ⟨t, hexec, -, hwrote, -⟩ :=
      runReg_trigTwo (i := .fsincos p) sinResult cosResult (fun _ e => e.c1) hr h0 hroom hg
    exact ⟨t, hexec, hwrote.st_pushed.trans (congrArg _ hcos)⟩
  · obtain ⟨t, hexec, -, hwrote, -⟩ :=
      runReg_trigTwo (i := .fptan p) tanResult oneResult (fun d _ => d.c1) hr h0 hroom hg
    exact ⟨t, hexec, hwrote.st_below.trans (congrArg _ htan)⟩

theorem fpatan_computes (h1 : s.Full 1) (hdom : InDomain .atan2 (s.st 1) (s.st 0))
    (hd : (isDenormal (s.st 0) || isDenormal (s.st 1)) = false ∨ s.masked .d = true) :
    (⟨.fpatan, .atan2, true, false, 0⟩ : TranscRow).Computes s p := by
  obtain ⟨t, hexec, -, hwrote, -⟩ := fpatan_outcome (p := p) hr h0 h1 (atan2_inDomain hdom hd)
  exact ⟨t, hexec, hwrote.st_popped⟩

theorem fyl2x_computes (h1 : s.Full 1) (hdom : InDomain .ylog2x (s.st 1) (s.st 0))
    (hd : (isDenormal (s.st 0) || isDenormal (s.st 1)) = false ∨ s.masked .d = true) :
    (⟨.fyl2x, .ylog2x, true, false, 0⟩ : TranscRow).Computes s p := by
  obtain ⟨t, hexec, -, hwrote, -⟩ := fyl2x_outcome (p := p) hr h0 h1 (yLog2x_inDomain hdom hd)
  exact ⟨t, hexec, hwrote.st_popped⟩

theorem fyl2xp1_computes (h1 : s.Full 1) (hdom : InDomain .ylog2xp1 (s.st 1) (s.st 0))
    (hd : (isDenormal (s.st 0) || isDenormal (s.st 1)) = false ∨ s.masked .d = true) :
    (⟨.fyl2xp1, .ylog2xp1, true, false, 0⟩ : TranscRow).Computes s p := by
  obtain ⟨t, hexec, -, hwrote, -⟩ := fyl2xp1_outcome (p := p) hr h0 h1 (.inl (yLog2xp1_inDomain hdom hd))
  exact ⟨t, hexec, hwrote.st_popped⟩

theorem f2xm1_computes (hdom : InDomain .exp2m1 0 (s.st 0)) (hd : isDenormal (s.st 0) = false ∨ s.masked .d = true) :
    (⟨.f2xm1, .exp2m1, false, false, 0⟩ : TranscRow).Computes s p := by
  obtain ⟨t, hexec, -, hwrote, -⟩ := f2xm1_outcome (p := p) hr h0 (.inl (exp2m1_inDomain hdom hd))
  exact ⟨t, hexec, hwrote.st_top⟩

end

theorem transcRow_computes (p : Prefixes) {s : State} : ∀ row ∈ transcRows, row.Runs s → row.Computes s p := by
  simp only [transcRows, List.forall_mem_cons]
  have one : ∀ {a b : Bool}, a = false ∧ b = false ∨ s.masked .d = true → a = false ∨ s.masked .d = true :=
    fun h => h.imp_left And.left
  have two : ∀ {a b : Bool}, a = false ∧ b = false ∨ s.masked .d = true → (a || b) = false ∨ s.masked .d = true :=
    fun h => h.imp_left fun ⟨ha, hb⟩ => by rw [ha, hb]; rfl
  refine ⟨fun h => ?_, fun h => ?_, fun h => ?_, fun h => ?_, fun h => ?_, fun h => ?_, fun h => ?_, fun h => ?_,
    fun h => ?_, by simp⟩
  · obtain ⟨hf, hne, hlt⟩ := h.domain
    exact (trigonometry_computes p h.ready h.full hf hne hlt (one h.denormal)).1
  · obtain ⟨hf, hne, hlt⟩ := h.domain
    exact (trigonometry_computes p h.ready h.full hf hne hlt (one h.denormal)).2.1
  · obtain ⟨hf, hne, hlt⟩ := h.domain
    obtain ⟨-, -, hpair⟩ := trigonometry_computes p h.ready h.full hf hne hlt (one h.denormal)
    exact (hpair (h.room rfl)).1
  · obtain ⟨hf, hne, hlt⟩ := h.domain
    obtain ⟨-, -, hpair⟩ := trigonometry_computes p h.ready h.full hf hne hlt (one h.denormal)
    exact (hpair (h.room rfl)).2.1
  · obtain ⟨hf, hne, hlt⟩ := h.domain
    obtain ⟨-, -, hpair⟩ := trigonometry_computes p h.ready h.full hf hne hlt (one h.denormal)
    exact (hpair (h.room rfl)).2.2
  · exact fpatan_computes p h.ready h.full (h.second rfl) h.domain (two h.denormal)
  · exact fyl2x_computes p h.ready h.full (h.second rfl) h.domain (two h.denormal)
  · exact fyl2xp1_computes p h.ready h.full (h.second rfl) h.domain (two h.denormal)
  · exact f2xm1_computes p h.ready h.full h.domain (one h.denormal)

/-! ### The order of the operands -/

theorem InDomain.ordered {f : TranscFn} {y x : Ext} (h : InDomain f y x) : isOrdered x = true := by
  cases f with
  | atan2 =>
    obtain ⟨-, hx, -⟩ := h
    exact hx
  | sin | cos | tan | ylog2x | ylog2xp1 | exp2m1 =>
    obtain ⟨hf, -⟩ := h
    exact isOrdered_of_isFinite hf

theorem TranscRow.second_ordered {s : State} : ∀ row ∈ transcRows, row.Runs s → isOrdered (row.second s) = true := by
  simp only [transcRows, List.forall_mem_cons]
  have zero : isOrdered (0 : Ext) = true := by decide
  refine ⟨fun _ => zero, fun _ => zero, fun _ => zero, fun _ => zero, fun _ => zero, fun h => ?_, fun h => ?_, fun h => ?_,
    fun _ => zero, by simp⟩
  · obtain ⟨hy, -⟩ := h.domain
    exact hy
  · obtain ⟨-, -, -, hy, -⟩ := h.domain
    exact isOrdered_of_isFinite hy
  · obtain ⟨-, -, -, -, hy, -⟩ := h.domain
    exact isOrdered_of_isFinite hy

/-- In one rounding mode the magnitude computed at the later operands is no smaller. -/
theorem transc_mono {f : TranscFn} {y0 x0 y x : Ext} (cw0 cw : Word16) (hd0 : InDomain f y0 x0) (hd : InDomain f y x)
    (hy0 : isOrdered y0 = true) (hrm : roundMode cw0 = roundMode cw) (hlow : -16382 ≤ (trueValue f y0 x0).log2)
    (hhigh : (trueValue f y x).log2 ≤ 16382) (hin : inOrder f y0 x0 y x = true)
    (hneg : (trueValue f y0 x0).neg = (trueValue f y x).neg) (hlo : (trueValue f y0 x0).lo.toRat ≤ (trueValue f y x).lo.toRat)
    (hhi : (trueValue f y0 x0).hi.toRat ≤ (trueValue f y x).hi.toRat) (hnarrow : (trueValue f y x).Narrow) :
    signOf (transc cw0 f y0 x0).value = signOf (transc cw f y x).value ∧
      |realOf (transc cw0 f y0 x0).value| ≤ |realOf (transc cw f y x).value| := by
  have hs0 := sound_trueValue hd0
  have hs := sound_trueValue hd
  have hlog := log2_le hs0 hs hlo hhi
  obtain ⟨-, hsign0, habs0⟩ := transc_value hd0 cw0 hlow (hlog.trans hhigh)
  obtain ⟨-, hsign, habs⟩ := transc_value hd cw (hlow.trans hlog) hhigh
  have hbefore : notAbove f y0 x0 y x = true := by
    rw [notAbove, hy0, hd0.ordered, hin]
    simp
  rw [hsign0, hsign, habs0, habs, hrm]
  exact ⟨hneg, computedValue_mono hd.ordered hbefore (choices_nonempty true _ hs0) (choices_nonempty true _ hs)
    (choices_mono hs0 hs hlo hhi hnarrow hneg hlow)⟩

/-- Settles O14: each row leaves the value that `transc` computes, which depends on the operands and the rounding mode only
(`transc_value`) and is monotonic (`transc_mono`). -/
theorem transcendentalResultsAreMonotonic : Obligations.TranscendentalResultsAreMonotonic := by
  intro row hrow s0 s p e0 e hrun0 hrun hrm he0 he hlow hhigh
  subst he0 he
  obtain ⟨t0, hexec0, hplace0⟩ := transcRow_computes p row hrow hrun0
  obtain ⟨t, hexec, hplace⟩ := transcRow_computes p row hrow hrun
  refine ⟨t0, t, hexec0, hexec, fun hx hy => ?_, fun hin hneg hlo hhi hnarrow => ?_⟩
  · have hlow' := hlow
    rw [hx, hy] at hlow'
    have hvalue0 := (transc_value hrun0.domain s0.cw hlow (by rw [hx, hy]; exact hhigh)).1
    have hvalue := (transc_value hrun.domain s.cw hlow' hhigh).1
    rw [hplace0, hplace, TranscRow.result, TranscRow.result, hvalue0, hvalue, hx, hy, hrm]
  · rw [hplace0, hplace]
    exact transc_mono s0.cw s.cw hrun0.domain hrun.domain (TranscRow.second_ordered row hrow hrun0) hrm hlow hhigh hin hneg
      hlo hhi hnarrow

end Sys2Proof.Machine
end
